-- ==== Sys2Proof/Word.lean ====
section
/-! DEFINITION. The plain values of the Hespel 2400: bytes, samples, picture numbers, the names of its banks, lanes,
layers, slots and buses, the house formats and the source codes. -/

namespace Sys2Proof

/-- A byte of a control packet or of a report packet (R182). -/
abbrev Byte := BitVec 8

/-- A 2-byte number of a control packet (R182). -/
abbrev Word16 := BitVec 16

/-- A 10-bit code value of one component (R69). -/
abbrev Code10 := BitVec 10

/-- A picture number, which wraps modulo 2^24 (R3). -/
abbrev PictureNumber := BitVec 24

/-- The samples at one luma position: its Y and the Cb and Cr of its chroma pair (R69). -/
structure Pixel where
  y : Code10
  cb : Code10
  cr : Code10
deriving DecidableEq, Repr

/-- Black: Y 64, Cb 512, Cr 512 (R53). -/
abbrev Pixel.black : Pixel := { y := 64, cb := 512, cr := 512 }

/-- The six house formats, in the order of their codes (R1). -/
inductive HouseFormat where
  | hd1080i50
  | hd1080i5994
  | hd1080p50
  | hd1080p5994
  | uhd2160p50
  | uhd2160p5994
deriving DecidableEq, Repr

/-- The field that a picture period carries: the period begun at the first or the second switch line of the table of R1.
In a progressive format every period counts as `first`. -/
inductive FieldParity where
  | first
  | second
deriving DecidableEq, Repr

/-- The two mix/effects banks. -/
inductive BankId where
  | a
  | b
deriving DecidableEq, Repr

/-- Lane n is index n − 1 (R16). -/
abbrev LaneId := Fin 24

/-- Layer Ln of a bank is index n − 1 (R113). -/
abbrev LayerId := Fin 4

/-- Still slot m is index m − 1 (R154). -/
abbrev SlotId := Fin 8

/-- Loadable curve m is index m − 1 (R72). -/
abbrev CurveId := Fin 4

/-- The eleven buses of a bank (R54). -/
inductive Bus where
  | a
  | b
  | dip
  | fill (layer : LayerId)
  | cut (layer : LayerId)
deriving DecidableEq, Repr

/-- The pictures that source codes 0 to 37 name (R53). -/
inductive Source where
  | black
  | lane (n : LaneId)
  | meAProgramme
  | slot (m : SlotId)
  | matte
  | meAPreview
  | meBProgramme
  | meBPreview
deriving DecidableEq, Repr

/-- A set of the layers L1 to L4: bit n − 1 stands for Ln, as the layer set of R182 is sent. -/
abbrev LayerSet := BitVec 4

/-- A selection: bit 0 for BKGD and bit n for Ln, as NEXT_SET sends it (R182). -/
abbrev Selection := BitVec 5

end Sys2Proof
end

