-- ==== Sys2Proof/Command.lean ====
section
/-! DEFINITION. What reaches the part from outside, as data: the commands of the control processor with the operands of
R184 as they are sent, the picture starts of the reference, and the picture starts and pictures of the lanes. -/

namespace Sys2Proof

/-- One keyframe record as LOAD_KEYFRAMES sends it (R186). -/
structure KeyframeBytes where
  target : Word16
  duration : Word16
  sync : Byte
  layerOn : Option Byte
  layerOff : Option Byte
  preset : Option Byte
deriving DecidableEq, Repr

/-- The four coordinates of a mask box as MASK_SET sends them (R184). -/
structure BoxWords where
  left : Word16
  right : Word16
  top : Word16
  bottom : Word16
deriving DecidableEq, Repr

/-- A command that may stand on the take list or the schedule list: every command of R184 but AT, which is dealt with
at collection (R38). Operands hold the field values as sent; the owner reads and clamps them at the take (R51, R52). -/
inductive Command where
  | cancel (target : PictureNumber)
  | cancelAll
  | reset (scope : Byte)
  | laneSet (lane settle fallback : Byte)
  | resync (lane : Byte)
  | select (me bus source : Byte)
  | auxSelect (source : Byte)
  | matte (y cb cr : Word16)
  | loadCurve (curve : Byte) (points : Vector Word16 65)
  | wipeSet (me shape reverse : Byte) (softness : Word16)
  | keySet (me layer kind : Byte) (clip : Word16) (gain invert : Byte)
  | maskSet (me layer : Byte) (box : Option BoxWords)
  | transSet (me kind : Byte) (rate : Word16) (curve : Byte)
  | nextSet (me selection : Byte)
  | cut (me : Byte)
  | auto (me : Byte)
  | lever (me : Byte) (value : Word16)
  | layerOn (me layer : Byte)
  | layerOff (me layer : Byte)
  | layerRate (me layer : Byte) (rate : Word16)
  | order (me first second third fourth : Byte)
  | raise (me layer : Byte)
  | lower (me layer : Byte)
  | loadKeyframes (me first : Byte) (records : List KeyframeBytes)
  | runSet (me count endMode loops : Byte)
  | run (me : Byte)
  | step (me : Byte)
  | hold (me : Byte)
  | abort (me : Byte)
  | grab (slot source : Byte)
  | clear (slot : Byte)
  | noticeMask (info advisory degraded : Byte)
  | clearSummary
deriving DecidableEq, Repr

/-- A picture as it is measured from one start to a later one: its line structure in the columns of R1 (total lines of the
frame, active samples of a line, active lines of the frame), interlace, and length in units of 1/299,700 second (R5, log 5). -/
structure PictureMeasure where
  total : Nat
  samples : Nat
  active : Nat
  interlaced : Bool
  length : Nat
deriving DecidableEq, Repr

/-- A picture start on the reference input: `picture` is measured from the previous start that arrived (R5, log 5), and `lines`
counts the lines of the active picture of the period in progress that fall before the switch line which R9 places when this
start enters LOCKED (log 19). -/
structure ReferenceStart where
  picture : PictureMeasure
  lines : Nat
deriving DecidableEq, Repr

/-- One position of a lane picture whose samples differ from the picture's ground. -/
structure RasterCell where
  x : Nat
  y : Nat
  value : Pixel
deriving DecidableEq, Repr

/-- The samples of a lane picture: a ground and the positions that differ from it (log 13). -/
structure Raster where
  ground : Pixel
  cells : List RasterCell
deriving DecidableEq, Repr

/-- A picture start on a lane input (R18, log 6). `after` counts lines from the switch line that began the period in
progress to this start, `before` from this start to the switch line that ends the period, and `beyond` from this start to the
switch line after that one. `parity` is the field it begins, `ended` the picture it ends as measured (R19), `raster`
the picture it begins and `missing` the frame lines of that picture that are not received in time (R22). -/
structure LaneStart where
  after : Nat
  before : Nat
  beyond : Nat
  parity : FieldParity
  ended : PictureMeasure
  raster : Raster
  missing : List Nat
deriving DecidableEq, Repr

end Sys2Proof
end

