-- ==== Sys2Proof/Syntax.lean ====
section
/-! DEFINITION. The commands of the block: one constructor for each row of spec/opcode_table.json. -/

namespace Sys2Proof

/-- The commands of the Hespel 2400. The rows from POWER_ON_RESET to GRAB_WAIT_TIMEOUT are events of its inputs and steps of
its blocks; the rows from AT on are the commands of the control processor, each carried out as at its place in a take. -/
inductive Instr where
  | powerOnReset (straps : BitVec 2)
  | resetPinAssert
  | resetPinRelease (straps : BitVec 2)
  | referencePictureStart (start : ReferenceStart)
  | missingStart
  | switchLine (parity : FieldParity)
  | reportLine
  | controlPacket (whole : Bool) (carrier : List Byte)
  | scheduledEntryDue
  | formatChange (parity : FieldParity)
  | laneSignalChange (lane : LaneId) (signal : Bool)
  | lanePictureStart (lane : LaneId) (start : LaneStart)
  | laneLock (lane : LaneId)
  | fadeEnd (bank : BankId) (layer : LayerId)
  | autoCompletionDue (bank : BankId)
  | segmentEnd (bank : BankId)
  | syncRelease (bank : BankId)
  | grabCompletion (slot : SlotId)
  | grabBegin (slot : SlotId)
  | grabWaitTimeout (slot : SlotId)
  | atPicture (target : PictureNumber) (innerCode innerCount : Byte) (inner : List Byte)
  | cancel (target : PictureNumber)
  | cancelAll
  | resetEngine
  | resetFull
  | laneSet (lane settle fallback : Byte)
  | resync (lane : Byte)
  | select (me bus source : Byte)
  | auxSelect (source : Byte)
  | matte (y cb cr : Word16)
  | loadCurve (curve : Byte) (points : Vector Word16 65)
  | wipeSet (me shape reverse : Byte) (softness : Word16)
  | keySet (me layer kind : Byte) (clip : Word16) (gain invert : Byte)
  | maskSet (me layer : Byte) (box : Option BoxWords)
  | transSet (me kind : Byte) (rate : Word16) (curve : Byte)
  | nextSet (me selection : Byte)
  | cut (me : Byte)
  | auto (me : Byte)
  | lever (me : Byte) (value : Word16)
  | layerOn (me layer : Byte)
  | layerOff (me layer : Byte)
  | layerRate (me layer : Byte) (rate : Word16)
  | order (me first second third fourth : Byte)
  | raise (me layer : Byte)
  | lower (me layer : Byte)
  | loadKeyframes (me first : Byte) (records : List KeyframeBytes)
  | runSet (me count endMode loops : Byte)
  | run (me : Byte)
  | step (me : Byte)
  | hold (me : Byte)
  | abort (me : Byte)
  | grab (slot source : Byte)
  | clear (slot : Byte)
  | noticeMask (info advisory degraded : Byte)
  | clearSummary
deriving DecidableEq, Repr

end Sys2Proof
end

