-- ==== Sys2Proof/Config.lean ====
section
/-! DEFINITION. The free values of the model: what the spec leaves open although the part goes on. -/

namespace Sys2Proof

/-- FREE VALUE (log 7). Which picture start supplies line `line` of what a LOCKED lane delivers in period `number`
when the judging window of that period does not hold exactly one start. R22 speaks of "each line it has received in
time" and does not say which of several torn pictures a line comes from. The value counts, round and round, the starts
of the period that have the line in time. -/
opaque Config.startShown (lane : LaneId) (number : PictureNumber) (line : Nat) : Nat

end Sys2Proof
end

