-- ==== Sys2Proof/Machine/State.lean ====
section
/-! DEFINITION. The state of the Hespel 2400 as plain data, block by block, and the machine right after reset. -/

namespace Sys2Proof.Machine

/-! ### Stops -/

/-- The part never stops (INVENTORY.md, Faults): no rule gives a state in which it does no further work. -/
inductive Fault where
deriving DecidableEq, Repr

/-- Why a command has no meaning. -/
inductive Refusal where
  /-- Raised by `exec` alone, for a command without a meaning yet: none is left. Safe. -/
  | notModelled (mnemonic : String)
deriving DecidableEq, Repr

/-! ### Reference timing unit -/

/-- The state to which LOCKING returns when it fails (R6). -/
inductive ReturnState where
  | noReference
  | freeRun
deriving DecidableEq, Repr

/-- Where the expected start is measured from: the last start that arrived, or the last that was expected and missing (R5). -/
inductive ExpectedFrom where
  | arrived
  | missing
deriving DecidableEq, Repr

/-- The reference state with the fields present in it (R6). `good` is 1 to 8 and `missed` 0 to 1. -/
inductive RefStatus where
  | noReference
  | locking (candidate : HouseFormat) (good : Nat) (back : ReturnState) (expected : ExpectedFrom)
  | locked (missed : Nat) (expected : ExpectedFrom)
  | freeRun
deriving DecidableEq, Repr

/-- The name of a reference state, as notices and the report packet give it (R6). -/
inductive RefName where
  | noReference
  | locking
  | locked
  | freeRun
deriving DecidableEq, Repr

/-- The record of the reference timing unit (R6). `begun` says that a picture of the reference input is in progress (R5).
`change` records a format change that waits for its switch line, with the format of the period in progress (R9). `placed` is
present from the entry into LOCKED to the switch line that R9 places: how many lines of the active picture of the period in
progress fall before it. `started` says that a switch line has come since the power-on values (R15). -/
structure ReferenceUnit where
  status : RefStatus
  house : HouseFormat
  picture : PictureNumber
  begun : Bool
  change : Option HouseFormat
  placed : Option Nat
  started : Bool
deriving DecidableEq, Repr

/-- What is held from a switch line until its report line (R2, R31). -/
inductive HeldEvent where
  | start (s : ReferenceStart)
  | missing
  | packet (carrier : List Byte)
deriving DecidableEq, Repr

/-! ### Source lanes -/

/-- Lane states, in the order of their codes (R16, R187). -/
inductive LaneState where
  | absent
  | acquiring
  | locked
deriving DecidableEq, Repr

/-- A picture start as the receiver noted it. `whole` says that the picture it ends was taken whole while the detector
showed signal (R19). -/
structure StartNote where
  start : LaneStart
  whole : Bool
deriving DecidableEq, Repr

/-- The lane record of R16 (presence follows from `state`), the signal detector of R17 and the starts noted for the
alignment test of R18 and the delivery of R22: `noted` in the period in progress, `carried` in the period before it and not
counted there, `reaching` in the period before that and in the window of the period in progress. `tracking` says that a
start has arrived since the detector began to show signal. -/
structure Lane where
  state : LaneState
  good : Nat
  settle : Nat
  fallback : Option SlotId
  resync : Bool
  detector : Bool
  tracking : Bool
  reaching : List StartNote
  carried : List StartNote
  noted : List StartNote
deriving DecidableEq, Repr

/-- R16: a lane after reset, with the detector showing no signal (log 10). -/
def Lane.powerOn : Lane :=
  { state := .absent, good := 0, settle := 4, fallback := none, resync := false, detector := false, tracking := false,
    reaching := [], carried := [], noted := [] }

/-! ### Take unit and packet collector -/

/-- A command of the take list or of a take, with its late mark (R36). -/
structure TakeEntry where
  command : Command
  late : Bool
deriving DecidableEq, Repr

/-- A command of the schedule list with its target (R36). -/
structure ScheduleEntry where
  target : PictureNumber
  command : Command
deriving DecidableEq, Repr

/-- The take unit and packet collector (R36). `take` is what remains of the take being handed out, empty between switch
lines; `fill` is the take-list fill of the report packet. -/
structure TakeUnit where
  takeList : List TakeEntry
  schedule : List ScheduleEntry
  packets : Nat
  excess : Bool
  take : List TakeEntry
  fill : Nat
deriving DecidableEq, Repr

/-- R36: both lists empty, count 0, flag clear. -/
def TakeUnit.powerOn : TakeUnit :=
  { takeList := [], schedule := [], packets := 0, excess := false, take := [], fill := 0 }

/-! ### Crosspoint matrix -/

/-- The eleven bus selections of one bank (R54). -/
structure Buses where
  a : Source
  b : Source
  dip : Source
  fill : Vector Source 4
  cut : Vector Source 4
deriving DecidableEq, Repr

/-- R54: code 0 on every bus. -/
def Buses.powerOn : Buses :=
  { a := .black, b := .black, dip := .black, fill := Vector.replicate 4 .black, cut := Vector.replicate 4 .black }

/-- The record of the crosspoint matrix (R54). -/
structure Matrix where
  busesA : Buses
  busesB : Buses
  aux : Source
  matte : Pixel
deriving DecidableEq, Repr

/-- R54: AUX on code 36 and the matte black. -/
def Matrix.powerOn : Matrix :=
  { busesA := Buses.powerOn, busesB := Buses.powerOn, aux := .meBProgramme, matte := Pixel.black }

/-! ### Curve store -/

/-- The 65 points of a loadable curve (R72). -/
abbrev Curve := Vector Nat 65

/-- R72: point i is 16 × i. -/
def Curve.powerOn : Curve :=
  Vector.ofFn (fun i => 16 * i.val)

/-! ### M/E banks -/

/-- Transition types, in the order of their codes (R90, R182). -/
inductive TransitionType where
  | cut
  | mix
  | wipe
  | dip
deriving DecidableEq, Repr

/-- Drive states with the auto record of AUTO: start P0, span D′ and counter k (R90, R91). -/
inductive Drive where
  | rest
  | manual
  | auto (start span counter : Nat)
  | keyed
deriving DecidableEq, Repr

/-- The sense in which the lever is read (R90). -/
inductive Sense where
  | forward
  | reverse
deriving DecidableEq, Repr

/-- Wipe shapes, in the order of their codes (R76). -/
inductive WipeShape where
  | horizontal
  | vertical
  | box
  | diamond
deriving DecidableEq, Repr

/-- The wipe settings of a bank (R76). -/
structure Wipe where
  shape : WipeShape
  reverse : Bool
  softness : Nat
deriving DecidableEq, Repr

/-- Layer states with the fade record of a fading layer: counter c and rate in use Rf (R113). -/
inductive LayerState where
  | off
  | rising (counter rate : Nat)
  | on
  | falling (counter rate : Nat)
deriving DecidableEq, Repr

/-- Key kinds (R81). -/
inductive KeyKind where
  | luma
  | linear
deriving DecidableEq, Repr

/-- A mask box, each coordinate inclusive (R83). -/
structure MaskBox where
  left : Nat
  right : Nat
  top : Nat
  bottom : Nat
deriving DecidableEq, Repr

/-- A layer record (R113) with its key settings (R81) and mask (R83). The level is derived (R114). -/
structure Layer where
  state : LayerState
  rate : Nat
  kind : KeyKind
  clip : Nat
  gain : Nat
  invert : Bool
  mask : Option MaskBox
deriving DecidableEq, Repr

/-- R113, R81, R83: a layer after reset. -/
def Layer.powerOn : Layer :=
  { state := .off, rate := 25, kind := .luma, clip := 64, gain := 16, invert := false, mask := none }

/-- A keyframe record (R133). An absent layer set is the empty set, since a set sent empty is held as absent (R134). -/
structure Keyframe where
  target : Nat
  duration : Nat
  sync : Bool
  layerOn : LayerSet
  layerOff : LayerSet
  preset : Option Byte
deriving DecidableEq, Repr

/-- R133: a keyframe record after reset. -/
def Keyframe.powerOn : Keyframe :=
  { target := 0, duration := 1, sync := false, layerOn := 0, layerOff := 0, preset := none }

/-- End modes (R135). -/
inductive EndMode where
  | stop
  | loop
deriving DecidableEq, Repr

/-- The state a WAITING run resumes in (R136). -/
inductive ResumeState where
  | running
  | holding
deriving DecidableEq, Repr

/-- Run states, with the resume state of WAITING (R136). -/
inductive RunState where
  | idle
  | running
  | waiting (resume : ResumeState)
  | holding
  | paused
deriving DecidableEq, Repr

/-- The run record (R136). -/
structure Run where
  state : RunState
  index : Nat
  start : Nat
  counter : Nat
  passes : Nat
deriving DecidableEq, Repr

/-- R136: the values of a run record in IDLE. -/
def Run.idle : Run :=
  { state := .idle, index := 0, start := 0, counter := 0, passes := 0 }

/-- The record of one bank: transition (R90), wipe settings (R76), layers (R113), stacking order bottom first (R124), keyframe
table and run settings (R133, R135), run record and partner mark (R136). `curve` is `none` for curve 0. -/
structure Me where
  kind : TransitionType
  rate : Nat
  curve : Option CurveId
  selection : Selection
  drive : Drive
  position : Nat
  sense : Sense
  pickup : Bool
  wipe : Wipe
  layers : Vector Layer 4
  order : List LayerId
  table : Vector Keyframe 32
  count : Nat
  endMode : EndMode
  loops : Nat
  run : Run
  mark : Bool
deriving DecidableEq, Repr

/-- R90, R76, R113, R124, R133, R135, R136: a bank after reset. -/
def Me.powerOn : Me :=
  { kind := .mix, rate := 25, curve := none, selection := 1, drive := .rest, position := 0, sense := .forward,
    pickup := true, wipe := { shape := .horizontal, reverse := false, softness := 0 },
    layers := Vector.replicate 4 Layer.powerOn, order := [0, 1, 2, 3], table := Vector.replicate 32 Keyframe.powerOn,
    count := 0, endMode := .stop, loops := 0, run := Run.idle, mark := false }

/-! ### Pictures -/

/-- Everything a composer reads of its bank besides the pictures on its buses (R68, R79, R87): the house format of the
period, whether the bank is at REST, P, type, curve table (`none` for curve 0), wipe settings, selection, layers and order. -/
structure Look where
  format : HouseFormat
  atRest : Bool
  position : Nat
  kind : TransitionType
  curve : Option Curve
  wipe : Wipe
  selection : Selection
  layers : Vector Layer 4
  order : List LayerId
deriving DecidableEq, Repr

/-- A picture, as data from which each sample is computed (log 12). -/
inductive Picture where
  /-- One colour on every sample (R53, codes 0 and 34). -/
  | flat (p : Pixel)
  /-- A lane's own picture of a period whose window holds one start (R22). -/
  | live (start : LaneStart)
  /-- What a LOCKED lane delivers in a period whose window does not hold exactly one start (R22, log 7). -/
  | torn (lane : LaneId) (number : PictureNumber) (starts : List LaneStart)
  /-- A captured field, delivered in both field parities (R155). -/
  | woven (captured : FieldParity) (content : Picture)
  /-- A bank's programme, composed from the pictures on its buses (R87). -/
  | programme (look : Look) (a b dip fill1 fill2 fill3 fill4 cut1 cut2 cut3 cut4 : Picture)
deriving DecidableEq, Repr

/-! ### Still store -/

/-- Slot states, with the grab in hand of GRABBING: its source and the picture number of the period captured (R154). -/
inductive SlotState where
  | idle
  | waiting
  | grabbing (source : Source) (number : PictureNumber)
deriving DecidableEq, Repr

/-- A slot record (R154). Its queue entry stands in the grab wait queue. -/
structure Slot where
  state : SlotState
  content : Option Picture
deriving DecidableEq, Repr

/-- R154: a slot after reset. -/
def Slot.powerOn : Slot :=
  { state := .idle, content := none }

/-- An entry of the grab wait queue (R156). -/
structure GrabEntry where
  slot : SlotId
  source : Source
  wait : Nat
deriving DecidableEq, Repr

/-- The still store: slots, grab wait queue oldest first, and two ports, each free or capturing into one slot (R156). -/
structure Store where
  slots : Vector Slot 8
  queue : List GrabEntry
  ports : Vector (Option SlotId) 2
deriving DecidableEq, Repr

/-- R154, R156: the still store after reset. -/
def Store.powerOn : Store :=
  { slots := Vector.replicate 8 Slot.powerOn, queue := [], ports := Vector.replicate 2 none }

/-! ### Tally and notices -/

/-- A set of the source codes 0 to 34: bit c stands for code c (R168, R187). -/
abbrev TallySet := BitVec 35

/-- The tally sets of the last report line (R168). -/
structure Tally where
  onAir : TallySet
  preview : TallySet
deriving DecidableEq, Repr

/-- Notice classes (R172). -/
inductive NoticeClass where
  | info
  | advisory
  | degraded
deriving DecidableEq, Repr

/-- The subject of a notice, as the command gave it (R172, R188). -/
inductive Subject where
  | none
  | lane (n : Byte)
  | me (m : Byte)
  | layer (m n : Byte)
  | slot (n : Byte)
  | curve (n : Byte)
deriving DecidableEq, Repr

/-- Reasons of a refusal, in the order of their codes (R50, R188). -/
inductive Reason where
  | unknown
  | length
  | target
  | source
  | busy
  | onAir
  | full
  | empty
  | order
deriving DecidableEq, Repr

/-- Details of a PACKET notice (R188). -/
inductive PacketFault where
  | check
  | excess
  | length
deriving DecidableEq, Repr

/-- How a transition completed (R96). -/
inductive DoneBy where
  | cut
  | auto
  | lever
  | run
deriving DecidableEq, Repr

/-- Details of a GRAB_FAILED notice (R164). -/
inductive GrabFault where
  | onAir
  | noSource
deriving DecidableEq, Repr

/-- Kinds of notice, each with its detail (R172). -/
inductive NoticeKind where
  | lane (state : LaneState) (present : Bool)
  | reference (state : RefName)
  | format (house : HouseFormat)
  | refused (code : Byte) (reason : Reason)
  | late (code : Byte)
  | packet (fault : PacketFault)
  | curve (corrected : Nat)
  | markOverrun
  | transitionDone (how : DoneBy)
  | runDone
  | grabDone (source : Source)
  | grabFailed (fault : GrabFault)
deriving DecidableEq, Repr

/-- A notice (R172). -/
structure Notice where
  kind : NoticeKind
  cls : NoticeClass
  subject : Subject
  number : PictureNumber
deriving DecidableEq, Repr

/-- One flag for each notice class (R177). -/
structure ClassFlags where
  info : Bool
  advisory : Bool
  degraded : Bool
deriving DecidableEq, Repr

/-- The report builder: notice queue oldest first, lost flag, notice mask (a set flag is an enabled class), summary and
recent flags (R173, R176, R177). -/
structure ReportBuilder where
  queue : List Notice
  lost : Bool
  enabled : ClassFlags
  summary : ClassFlags
  recent : ClassFlags
deriving DecidableEq, Repr

/-- R176, R177, R181: the report builder after reset. -/
def ReportBuilder.powerOn : ReportBuilder :=
  { queue := [], lost := false, enabled := { info := true, advisory := true, degraded := true },
    summary := { info := false, advisory := false, degraded := false },
    recent := { info := false, advisory := false, degraded := false } }

/-! ### The whole part -/

/-- The state of the part. `awaitingReport` holds from a switch line to the report line of its period (R2), `held` what is
held meanwhile, `parity` the field of the period in progress (R1), `report` the bytes of the report packet sent last
(R178). `pending` is the model's queue of commands that wait (log 1). -/
structure State where
  resetPin : Bool
  unit : BitVec 2
  ref : ReferenceUnit
  awaitingReport : Bool
  held : List HeldEvent
  parity : FieldParity
  lanes : Vector Lane 24
  control : TakeUnit
  matrix : Matrix
  curves : Vector Curve 4
  meA : Me
  meB : Me
  store : Store
  tally : Tally
  notices : ReportBuilder
  report : Option (List Byte)
  pending : List Instr
deriving DecidableEq, Repr

/-- The part right after power-on reset (R6, R15 and each block's reset values), with no command waiting. The strap pins
read 0 (log 10). -/
def State.reset : State :=
  { resetPin := false, unit := 0,
    ref :=
      { status := .noReference, house := .hd1080i50, picture := 0, begun := false, change := none, placed := none, started := false },
    awaitingReport := false, held := [], parity := .first, lanes := Vector.replicate 24 Lane.powerOn,
    control := TakeUnit.powerOn, matrix := Matrix.powerOn, curves := Vector.replicate 4 Curve.powerOn,
    meA := Me.powerOn, meB := Me.powerOn, store := Store.powerOn, tally := { onAir := 0, preview := 0 },
    notices := ReportBuilder.powerOn, report := none, pending := [] }

end Sys2Proof.Machine
end

