-- ==== Sys2Proof/Machine/Operands.lean ====
section
/-! DEFINITION. How operands are read: the codes of naming parameters and choices, the clamping of amounts, source codes and
their legality, command codes and the subject of a refusal (R50 to R52, R55, R182, R184, R188). -/

namespace Sys2Proof

namespace Machine

/-- The byte that holds `n` modulo 256. -/
def byteOf (n : Nat) : Byte :=
  BitVec.ofNat 8 n

/-- clamp(x, a, b) of 00_scope.md. -/
def clampTo (lo hi x : Nat) : Nat :=
  max lo (min hi x)

/-! ### Naming parameters and choices (R51, R182): `none` is outside what exists -/

/-- me: 0 M/E A, 1 M/E B. -/
def readBank (b : Byte) : Option BankId :=
  match b.toNat with
  | 0 => some .a
  | 1 => some .b
  | _ => none

/-- lane: 1 to 24. -/
def readLane (b : Byte) : Option LaneId :=
  if h : 1 ≤ b.toNat ∧ b.toNat ≤ 24 then some ⟨b.toNat - 1, by omega⟩ else none

/-- layer: 1 to 4. -/
def readLayer (b : Byte) : Option LayerId :=
  if h : 1 ≤ b.toNat ∧ b.toNat ≤ 4 then some ⟨b.toNat - 1, by omega⟩ else none

/-- slot: 1 to 8. -/
def readSlot (b : Byte) : Option SlotId :=
  if h : 1 ≤ b.toNat ∧ b.toNat ≤ 8 then some ⟨b.toNat - 1, by omega⟩ else none

/-- A loadable curve: 1 to 4 (R74). -/
def readLoadableCurve (b : Byte) : Option CurveId :=
  if h : 1 ≤ b.toNat ∧ b.toNat ≤ 4 then some ⟨b.toNat - 1, by omega⟩ else none

/-- The curve number of a bank: 0 to 4, where the inner `none` is curve 0 (R97). -/
def readCurveNumber (b : Byte) : Option (Option CurveId) :=
  if b.toNat = 0 then some none else (readLoadableCurve b).map some

/-- bus: 0 A, 1 B, 2 DIP, 3–6 FILL1–FILL4, 7–10 CUT1–CUT4. -/
def readBus (b : Byte) : Option Bus :=
  match b.toNat with
  | 0 => some .a
  | 1 => some .b
  | 2 => some .dip
  | 3 => some (.fill 0)
  | 4 => some (.fill 1)
  | 5 => some (.fill 2)
  | 6 => some (.fill 3)
  | 7 => some (.cut 0)
  | 8 => some (.cut 1)
  | 9 => some (.cut 2)
  | 10 => some (.cut 3)
  | _ => none

/-- transition type: 0 CUT, 1 MIX, 2 WIPE, 3 DIP. -/
def readTransitionType (b : Byte) : Option TransitionType :=
  match b.toNat with
  | 0 => some .cut
  | 1 => some .mix
  | 2 => some .wipe
  | 3 => some .dip
  | _ => none

/-- wipe shape: 0 HORIZONTAL, 1 VERTICAL, 2 BOX, 3 DIAMOND. -/
def readWipeShape (b : Byte) : Option WipeShape :=
  match b.toNat with
  | 0 => some .horizontal
  | 1 => some .vertical
  | 2 => some .box
  | 3 => some .diamond
  | _ => none

/-- key kind: 0 LUMA, 1 LINEAR. -/
def readKeyKind (b : Byte) : Option KeyKind :=
  match b.toNat with
  | 0 => some .luma
  | 1 => some .linear
  | _ => none

/-- end mode: 0 STOP, 1 LOOP. -/
def readEndMode (b : Byte) : Option EndMode :=
  match b.toNat with
  | 0 => some .stop
  | 1 => some .loop
  | _ => none

/-- reverse, invert, sync: 0 off, 1 on; notice class enable: 0 disabled, 1 enabled. -/
def readSwitch (b : Byte) : Option Bool :=
  match b.toNat with
  | 0 => some false
  | 1 => some true
  | _ => none

/-- selection: a sum of the weights 1 to 16, so 0 to 31. -/
def readSelection (b : Byte) : Option Selection :=
  if b.toNat < 32 then some (b.setWidth 5) else none

/-- layer set: a sum of the weights 1 to 8, so 0 to 15. -/
def readLayerSet (b : Byte) : Option LayerSet :=
  if b.toNat < 16 then some (b.setWidth 4) else none

/-! ### Source codes (R53, R55) -/

/-- The code that a lane is named by: 1 to 24. -/
def laneCode (n : LaneId) : Nat :=
  n.val + 1

/-- The code that a slot is named by: 26 to 33. -/
def slotCode (m : SlotId) : Nat :=
  m.val + 26

end Machine

/-- The source code of a picture (R53). -/
def Source.code : Source → Nat
  | .black => 0
  | .lane n => Machine.laneCode n
  | .meAProgramme => 25
  | .slot m => Machine.slotCode m
  | .matte => 34
  | .meAPreview => 35
  | .meBProgramme => 36
  | .meBPreview => 37

namespace Machine

/-- The picture that a source code names; codes 38 to 255 name none (R53). -/
def readSource (b : Byte) : Option Source :=
  let c := b.toNat
  if c = 0 then some .black
  else if h : 1 ≤ c ∧ c ≤ 24 then some (.lane ⟨c - 1, by omega⟩)
  else if c = 25 then some .meAProgramme
  else if h : 26 ≤ c ∧ c ≤ 33 then some (.slot ⟨c - 26, by omega⟩)
  else if c = 34 then some .matte
  else if c = 35 then some .meAPreview
  else if c = 36 then some .meBProgramme
  else if c = 37 then some .meBPreview
  else none

/-- Whether a source is legal on the buses of a bank (R55). -/
def legalOn : BankId → Source → Bool
  | _, .black => true
  | _, .lane _ => true
  | .a, .meAProgramme => false
  | .b, .meAProgramme => true
  | _, .slot _ => true
  | _, .matte => true
  | _, .meAPreview => false
  | _, .meBProgramme => false
  | _, .meBPreview => false

/-- A source code legal on a bank's buses (R55). -/
def readBusSource (bank : BankId) (code : Byte) : Option Source :=
  (readSource code).filter (legalOn bank)

/-- A lane's fallback: 0 for BLACK, 26 to 33 for slots 1 to 8 (R24). The inner `none` is BLACK. -/
def readFallback (code : Byte) : Option (Option SlotId) :=
  match readSource code with
  | some .black => some none
  | some (.slot m) => some (some m)
  | _ => none

/-- A source that can be grabbed: 1 to 25 (R157). -/
def readGrabSource (code : Byte) : Option Source :=
  match readSource code with
  | some (.lane n) => some (.lane n)
  | some .meAProgramme => some .meAProgramme
  | _ => none

/-! ### Command codes and the subject of a refusal (R50, R184, R188) -/

/-- The code of AT (R184). -/
abbrev atCode : Byte := 1

end Machine

/-- The code byte of a command (R184). -/
def Command.code : Command → Byte
  | .cancel .. => 2
  | .cancelAll => 3
  | .reset .. => 4
  | .laneSet .. => 16
  | .resync .. => 17
  | .select .. => 32
  | .auxSelect .. => 33
  | .matte .. => 34
  | .loadCurve .. => 48
  | .wipeSet .. => 49
  | .keySet .. => 50
  | .maskSet .. => 51
  | .transSet .. => 64
  | .nextSet .. => 65
  | .cut .. => 66
  | .auto .. => 67
  | .lever .. => 68
  | .layerOn .. => 80
  | .layerOff .. => 81
  | .layerRate .. => 82
  | .order .. => 83
  | .raise .. => 84
  | .lower .. => 85
  | .loadKeyframes .. => 96
  | .runSet .. => 97
  | .run .. => 98
  | .step .. => 99
  | .hold .. => 100
  | .abort .. => 101
  | .grab .. => 112
  | .clear .. => 113
  | .noticeMask .. => 128
  | .clearSummary => 129

/-- The subject of a command refused FULL by the take list (R37, R50, R188). RAISE and LOWER carry form 3 only when they are
refused TARGET, so they name their M/E here (R188; log 14). -/
def Command.subject : Command → Machine.Subject
  | .cancel .. => .none
  | .cancelAll => .none
  | .reset .. => .none
  | .laneSet lane .. => .lane lane
  | .resync lane => .lane lane
  | .select me .. => .me me
  | .auxSelect .. => .none
  | .matte .. => .none
  | .loadCurve curve .. => .curve curve
  | .wipeSet me .. => .me me
  | .keySet me layer .. => .layer me layer
  | .maskSet me layer .. => .layer me layer
  | .transSet me .. => .me me
  | .nextSet me .. => .me me
  | .cut me => .me me
  | .auto me => .me me
  | .lever me .. => .me me
  | .layerOn me layer => .layer me layer
  | .layerOff me layer => .layer me layer
  | .layerRate me layer .. => .layer me layer
  | .order me .. => .me me
  | .raise me .. => .me me
  | .lower me .. => .me me
  | .loadKeyframes me .. => .me me
  | .runSet me .. => .me me
  | .run me => .me me
  | .step me => .me me
  | .hold me => .me me
  | .abort me => .me me
  | .grab slot .. => .slot slot
  | .clear slot => .slot slot
  | .noticeMask .. => .none
  | .clearSummary => .none

namespace Machine

/-- The byte that names a bank (R182). -/
def bankByte : BankId → Byte
  | .a => 0
  | .b => 1

/-- The byte that names a layer (R182). -/
def layerByte (l : LayerId) : Byte :=
  byteOf (l.val + 1)

/-- The byte that names a lane (R182). -/
def laneByte (n : LaneId) : Byte :=
  byteOf (n.val + 1)

/-- The byte that names a slot (R182). -/
def slotByte (m : SlotId) : Byte :=
  byteOf (m.val + 1)

/-- The byte that names a loadable curve (R182). -/
def curveByte (c : CurveId) : Byte :=
  byteOf (c.val + 1)

end Machine

end Sys2Proof
end

