-- ==== Sys2Proof/Machine/Ops.lean ====
section
/-! DEFINITION. The named reads and writes of the state, the house formats and the picture number arithmetic. -/

namespace Sys2Proof

namespace Machine

/-! ### Reads and writes of one record -/

/-- The record of a bank. -/
def State.me (s : State) : BankId → Me
  | .a => s.meA
  | .b => s.meB

/-- Writes the record of a bank. -/
def State.setMe (s : State) (bank : BankId) (m : Me) : State :=
  match bank with
  | .a => { s with meA := m }
  | .b => { s with meB := m }

/-- Changes the record of a bank. -/
def State.modifyMe (s : State) (bank : BankId) (f : Me → Me) : State :=
  s.setMe bank (f (s.me bank))

/-- The bus selections of a bank, which the crosspoint matrix holds (R54). -/
def State.buses (s : State) : BankId → Buses
  | .a => s.matrix.busesA
  | .b => s.matrix.busesB

/-- Writes the bus selections of a bank. -/
def State.setBuses (s : State) (bank : BankId) (x : Buses) : State :=
  match bank with
  | .a => { s with matrix := { s.matrix with busesA := x } }
  | .b => { s with matrix := { s.matrix with busesB := x } }

end Machine

/-- The other bank. -/
def BankId.other : BankId → BankId
  | .a => .b
  | .b => .a

namespace Machine

/-- The source on one bus. -/
def Buses.get (x : Buses) : Bus → Source
  | .a => x.a
  | .b => x.b
  | .dip => x.dip
  | .fill l => x.fill[l]
  | .cut l => x.cut[l]

/-- Writes one bus. -/
def Buses.set (x : Buses) (bus : Bus) (src : Source) : Buses :=
  match bus with
  | .a => { x with a := src }
  | .b => { x with b := src }
  | .dip => { x with dip := src }
  | .fill l => { x with fill := x.fill.set l src }
  | .cut l => { x with cut := x.cut.set l src }

/-- A layer record. -/
def Me.layer (m : Me) (l : LayerId) : Layer :=
  m.layers[l]

/-- Writes a layer record. -/
def Me.setLayer (m : Me) (l : LayerId) (x : Layer) : Me :=
  { m with layers := m.layers.set l x }

/-- A lane record. -/
def State.lane (s : State) (n : LaneId) : Lane :=
  s.lanes[n]

/-- Writes a lane record. -/
def State.setLane (s : State) (n : LaneId) (x : Lane) : State :=
  { s with lanes := s.lanes.set n x }

/-- A slot record. -/
def State.slot (s : State) (m : SlotId) : Slot :=
  s.store.slots[m]

/-- Writes a slot record. -/
def State.setSlot (s : State) (m : SlotId) (x : Slot) : State :=
  { s with store := { s.store with slots := s.store.slots.set m x } }

/-- A curve table. -/
def State.curve (s : State) (c : CurveId) : Curve :=
  s.curves[c]

/-- While the RESET pin is asserted every block holds its power-on values and nothing is carried out (R15). -/
def State.live (s : State) (f : State → State) : State :=
  if s.resetPin then s else f s

/-! ### Names in rising order -/

/-- Lanes in ascending number. -/
abbrev allLanes : List LaneId := List.finRange 24

/-- Layers in ascending number. -/
abbrev allLayers : List LayerId := List.finRange 4

/-- Slots in ascending number. -/
abbrev allSlots : List SlotId := List.finRange 8

/-! ### House formats (R1, R18, R68) -/

end Machine

/-- The code of a house format (R1). -/
def HouseFormat.code : HouseFormat → Nat
  | .hd1080i50 => 0
  | .hd1080i5994 => 1
  | .hd1080p50 => 2
  | .hd1080p5994 => 3
  | .uhd2160p50 => 4
  | .uhd2160p5994 => 5

/-- Whether a picture period of the format is a field (R1). -/
def HouseFormat.interlaced : HouseFormat → Bool
  | .hd1080i50 => true
  | .hd1080i5994 => true
  | .hd1080p50 => false
  | .hd1080p5994 => false
  | .uhd2160p50 => false
  | .uhd2160p5994 => false

/-- The active width W (R68). -/
def HouseFormat.width : HouseFormat → Nat
  | .hd1080i50 => 1920
  | .hd1080i5994 => 1920
  | .hd1080p50 => 1920
  | .hd1080p5994 => 1920
  | .uhd2160p50 => 3840
  | .uhd2160p5994 => 3840

/-- The lines of a frame, from 1 to the last (R1). -/
def HouseFormat.total : HouseFormat → Nat
  | .hd1080i50 => 1125
  | .hd1080i5994 => 1125
  | .hd1080p50 => 1125
  | .hd1080p5994 => 1125
  | .uhd2160p50 => 2250
  | .uhd2160p5994 => 2250

/-- The length of a picture period in units of 1/299,700 second: 50 or 59.94 of them make one second (R1, log 5). -/
def HouseFormat.period : HouseFormat → Nat
  | .hd1080i50 => 5994
  | .hd1080i5994 => 5000
  | .hd1080p50 => 5994
  | .hd1080p5994 => 5000
  | .uhd2160p50 => 5994
  | .uhd2160p5994 => 5000

/-- The active height H (R68). -/
def HouseFormat.height : HouseFormat → Nat
  | .hd1080i50 => 1080
  | .hd1080i5994 => 1080
  | .hd1080p50 => 1080
  | .hd1080p5994 => 1080
  | .uhd2160p50 => 2160
  | .uhd2160p5994 => 2160

/-- The six formats in the order of their codes (R1). -/
abbrev allFormats : List HouseFormat :=
  [.hd1080i50, .hd1080i5994, .hd1080p50, .hd1080p5994, .uhd2160p50, .uhd2160p5994]

/-- Whether the line structure, the interlace and the length of a measured picture are those of a format at its picture rate (R5). -/
def PictureMeasure.isOf (m : PictureMeasure) (f : HouseFormat) : Bool :=
  m.total = f.total && m.samples = f.width && m.active = f.height && m.interlaced = f.interlaced && m.length = f.period

/-- A measured picture is of the format of which it has all three, and unsupported when there is none (R5). -/
def PictureMeasure.format (m : PictureMeasure) : Option HouseFormat :=
  allFormats.find? m.isOf

/-- How many lines the part's picture start comes before the switch line of its period (R18). -/
def HouseFormat.lead : HouseFormat → Nat
  | .hd1080i50 => 6
  | .hd1080i5994 => 6
  | .hd1080p50 => 6
  | .hd1080p5994 => 6
  | .uhd2160p50 => 13
  | .uhd2160p5994 => 13

namespace Machine

/-- The format of the period in progress: while a recorded format change waits for its switch line, the period still has
the format held before (R9, R13, R89). -/
def State.periodFormat (s : State) : HouseFormat :=
  s.ref.change.getD s.ref.house

/-! ### Reference state (R6) -/

/-- The name of the reference state. -/
def RefStatus.name : RefStatus → RefName
  | .noReference => .noReference
  | .locking .. => .locking
  | .locked .. => .locked
  | .freeRun => .freeRun

/-- Whether the unit is LOCKED, so that control packets are collected (R12). -/
def State.isLocked (s : State) : Bool :=
  s.ref.status.name = .locked

/-- The state a failed LOCKING returns to (R8). -/
def ReturnState.status : ReturnState → RefStatus
  | .noReference => .noReference
  | .freeRun => .freeRun

/-! ### Picture numbers (R4) -/

/-- The distance from picture number `x` to picture number `y` (R4). -/
def distance (x y : PictureNumber) : Nat :=
  (y - x).toNat

/-- How `y` stands to `x` by distance (R4). -/
inductive Relation where
  | same
  | future
  | past
deriving DecidableEq, Repr

/-- R4: the same picture at distance 0, future at 1 to 8,388,607, past beyond. -/
def relation (x y : PictureNumber) : Relation :=
  if distance x y = 0 then .same
  else if distance x y ≤ 8388607 then .future
  else .past

/-! ### Selections and tally sets -/

/-- Whether BKGD is in a selection. -/
def hasBkgd (sel : Selection) : Bool :=
  sel.getLsbD 0

/-- Whether a layer is in a selection. -/
def hasLayer (sel : Selection) (l : LayerId) : Bool :=
  sel.getLsbD (l.val + 1)

/-- Whether a layer is in a layer set. -/
def inLayerSet (set : LayerSet) (l : LayerId) : Bool :=
  set.getLsbD l.val

/-- Whether a source code is in the on-air set of the last report line (R159, R28). -/
def State.onAir (s : State) (code : Nat) : Bool :=
  s.tally.onAir.getLsbD code

end Machine

end Sys2Proof
end

