-- ==== Sys2Proof/Machine/Flags.lean ====
section
/-! DEFINITION. Notices and the flags they set: summary and recent flags, notice mask, notice queue and lost flag
(R50, R172 to R177). -/

namespace Sys2Proof.Machine

/-- The flag of a class. -/
def ClassFlags.get (f : ClassFlags) : NoticeClass → Bool
  | .info => f.info
  | .advisory => f.advisory
  | .degraded => f.degraded

/-- Sets the flag of a class. -/
def ClassFlags.raise (f : ClassFlags) : NoticeClass → ClassFlags
  | .info => { f with info := true }
  | .advisory => { f with advisory := true }
  | .degraded => { f with degraded := true }

/-- The flags set in both. -/
def ClassFlags.both (f g : ClassFlags) : ClassFlags :=
  { info := f.info && g.info, advisory := f.advisory && g.advisory, degraded := f.degraded && g.degraded }

/-- All three flags clear. -/
def ClassFlags.clear : ClassFlags :=
  { info := false, advisory := false, degraded := false }

/-- All three flags set. -/
def ClassFlags.all : ClassFlags :=
  { info := true, advisory := true, degraded := true }

/-- Whether a notice is of kind LANE. -/
def Notice.isLane (n : Notice) : Bool :=
  match n.kind with
  | .lane .. => true
  | _ => false

/-- Whether `q` is a LANE notice for the lane of the LANE notice `n` (R174). -/
def Notice.sameLane (q n : Notice) : Bool :=
  q.isLane && n.isLane && q.subject = n.subject

/-- The update of a queued LANE notice `q` by the later notice `n` (R175). -/
def Notice.updatedBy (q n : Notice) : Notice :=
  { q with
    kind := n.kind
    number := n.number
    cls := if q.cls = .degraded ∨ n.cls = .degraded then .degraded else q.cls }

/-- Step 3 of R174: update in place, append, or drop with the lost flag (R175, R176). -/
def ReportBuilder.enqueue (r : ReportBuilder) (n : Notice) : ReportBuilder :=
  if r.queue.any (·.sameLane n) then
    { r with queue := r.queue.map (fun q => if q.sameLane n then q.updatedBy n else q) }
  else if r.queue.length < 32 then { r with queue := r.queue ++ [n] }
  else { r with lost := true }

/-- R174: the summary and recent flags of the class are set, then the mask is read, then the queue. -/
def ReportBuilder.take (r : ReportBuilder) (n : Notice) : ReportBuilder :=
  let flagged := { r with summary := r.summary.raise n.cls, recent := r.recent.raise n.cls }
  if r.enabled.get n.cls then flagged.enqueue n else flagged

/-- A block posts a notice with the picture number of the period in progress (R3, R173). -/
def State.post (s : State) (kind : NoticeKind) (cls : NoticeClass) (subject : Subject) : State :=
  { s with notices := s.notices.take { kind := kind, cls := cls, subject := subject, number := s.ref.picture } }

/-- A refusal: nothing changes but the REFUSED notice (R50). -/
def State.refuse (s : State) (code : Byte) (reason : Reason) (subject : Subject) : State :=
  s.post (.refused code reason) .advisory subject

/-- R49: the queue is emptied and the lost flag cleared. -/
def ReportBuilder.emptied (r : ReportBuilder) : ReportBuilder :=
  { r with queue := [], lost := false }

/-- NOTICE_MASK(INFO, ADVISORY, DEGRADED) (R177). -/
def doNoticeMask (info advisory degraded : Byte) (s : State) : State :=
  match readSwitch info, readSwitch advisory, readSwitch degraded with
  | some i, some a, some d =>
    { s with notices := { s.notices with enabled := { info := i, advisory := a, degraded := d } } }
  | _, _, _ => s.refuse 128 .target .none

/-- CLEAR_SUMMARY: a flag stays set whose recent flag is set (R177). -/
def doClearSummary (s : State) : State :=
  { s with notices := { s.notices with summary := s.notices.summary.both s.notices.recent } }

end Sys2Proof.Machine
end

