-- ==== Sys2Proof/Machine/Composer.lean ====
section
/-! DEFINITION. The arithmetic of the composers, per sample: mix, curves, wipes, keys, masks and compositing (R69 to R88), and
the after-state of a layer (R66). -/

namespace Sys2Proof

namespace Machine

/-! ### The mix (R70, R71) -/

/-- mix(a, b, w) = ⌊(a × (1024 − w) + b × w + 512) / 1024⌋ (R70). -/
def mix (a b w : Nat) : Nat :=
  (a * (1024 - w) + b * w + 512) / 1024

/-- The mix of two 10-bit code values (R70). -/
def mixCode (a b : Code10) (w : Nat) : Code10 :=
  BitVec.ofNat 10 (mix a.toNat b.toNat w)

/-- The mix of the three components of two samples under one weight (R70). -/
def mixPixel (a b : Pixel) (w : Nat) : Pixel :=
  { y := mixCode a.y b.y w, cb := mixCode a.cb b.cb w, cr := mixCode a.cr b.cr w }

/-- The clamp of an output sample to 4–1019 (R71). -/
def clampCode (a : Code10) : Code10 :=
  BitVec.ofNat 10 (clampTo 4 1019 a.toNat)

/-- The clamp of the three components (R71). -/
def clampPixel (p : Pixel) : Pixel :=
  { y := clampCode p.y, cb := clampCode p.cb, cr := clampCode p.cr }

/-! ### Curves (R72 to R75) -/

/-- The curve weight of a loadable table at P (R73). -/
def tableWeight (table : Curve) (p : Nat) : Nat :=
  let i := p / 64
  let f := p % 64
  if i ≥ 64 then table[64]
  else table.getD i 0 + ((table.getD (i + 1) 0 - table.getD i 0) * f + 32) / 64

/-- The curve weight w(P): curve 0 is ⌊P / 4⌋ (R73). -/
def curveWeight (c : Option Curve) (p : Nat) : Nat :=
  match c with
  | none => p / 4
  | some table => tableWeight table p

/-- The cut weight (R75). -/
def cutWeight (p : Nat) : Nat :=
  if p < 2048 then 0 else 1024

/-! ### Wipes (R76 to R78) -/

/-- |2v + 1 − size|: the distance from the centre in half-pixels or half-lines (R77). -/
def centreDistance (v size : Nat) : Nat :=
  ((2 * v + 1 : Int) - size).natAbs

/-- The pattern value before reverse (R77). -/
def patternBase (shape : WipeShape) (width height x y : Nat) : Nat :=
  let dx := 4096 * centreDistance x width / width
  let dy := 4096 * centreDistance y height / height
  match shape with
  | .horizontal => 4096 * x / width
  | .vertical => 4096 * y / height
  | .box => max dx dy
  | .diamond => (dx + dy) / 2

/-- The pattern value q of a luma position (R77). -/
def patternValue (w : Wipe) (width height x y : Nat) : Nat :=
  let q := patternBase w.shape width height x y
  if w.reverse then 4095 - q else q

/-- The wipe weight of a pattern value at P and softness S (R78). -/
def wipeWeight (softness p q : Nat) : Nat :=
  if softness = 0 then (if q < p then 1024 else 0)
  else
    let e : Int := (p * (4096 + softness) / 4096 : Nat) - softness
    if (q : Int) ≤ e then 1024
    else if (q : Int) ≥ e + softness then 0
    else ((e + softness - q).toNat * 1024) / softness

/-! ### Keys and masks (R82, R84) -/

/-- The key alpha before invert: clamp(⌊(k − C) × G × 64 / 876⌋, 0, 1024) (R82). -/
def keyAlpha (clip gain k : Nat) : Nat :=
  (max 0 (min 1024 (Int.fdiv (((k : Int) - clip) * gain * 64) 876))).toNat

/-- Whether a luma position lies inside a mask; an absent mask holds every position (R84). -/
def insideMask (mask : Option MaskBox) (x y : Nat) : Bool :=
  match mask with
  | none => true
  | some box => box.left ≤ x && x ≤ box.right && box.top ≤ y && y ≤ box.bottom

/-- The key alpha after invert and mask, α′ (R82, R84). -/
def Layer.maskedAlpha (l : Layer) (x y k : Nat) : Nat :=
  let alpha := keyAlpha l.clip l.gain k
  if insideMask l.mask x y then (if l.invert then 1024 - alpha else alpha) else 0

/-- The level L of a layer (R114). -/
def LayerState.level : LayerState → Nat
  | .off => 0
  | .rising c rf => 1024 * c / rf
  | .on => 1024
  | .falling c rf => 1024 * c / rf

/-- Whether a layer is RISING or FALLING. -/
def LayerState.fading : LayerState → Bool
  | .off => false
  | .rising .. => true
  | .on => false
  | .falling .. => true

/-- Whether the layer is OFF. -/
def LayerState.isOff : LayerState → Bool
  | .off => true
  | .rising .. => false
  | .on => false
  | .falling .. => false

/-- The after-state of an unselected layer: where it is heading (R66). -/
def LayerState.heading : LayerState → Bool
  | .off => false
  | .rising .. => true
  | .on => true
  | .falling .. => false

/-- Whether the after-state is ON (R66). -/
def afterOn (selected : Bool) (l : LayerState) : Bool :=
  if selected then !l.heading else l.heading

/-! ### Weights of a look -/

/-- The samples of the eleven buses of a bank at one position. -/
structure BusPixels where
  a : Pixel
  b : Pixel
  dip : Pixel
  fill : Vector Pixel 4
  cut : Vector Pixel 4
deriving DecidableEq, Repr

/-- The wipe weight of a position under a look (R78). -/
def Look.wipeAt (l : Look) (x y : Nat) : Nat :=
  wipeWeight l.wipe.softness l.position (patternValue l.wipe l.format.width l.format.height x y)

/-- The layer weight ω of a position (R86). -/
def Look.layerWeight (l : Look) (x y : Nat) : Nat :=
  match l.kind with
  | .mix => curveWeight l.curve l.position
  | .cut => cutWeight l.position
  | .wipe => l.wipeAt x y
  | .dip => curveWeight l.curve l.position

/-- The programme background of a position (R79, R80). -/
def Look.background (l : Look) (x y : Nat) (p : BusPixels) : Pixel :=
  if l.atRest then p.a
  else if !hasBkgd l.selection then p.a
  else
    match l.kind with
    | .mix => mixPixel p.a p.b (curveWeight l.curve l.position)
    | .cut => mixPixel p.a p.b (cutWeight l.position)
    | .wipe => mixPixel p.a p.b (l.wipeAt x y)
    | .dip =>
      if l.position ≤ 2048 then mixPixel p.a p.dip (curveWeight l.curve (2 * l.position))
      else mixPixel p.dip p.b (curveWeight l.curve (2 * l.position - 4096))

/-- Whether a layer is in the selection of a running transition (R85, R86). -/
def Look.carried (l : Look) (n : LayerId) : Bool :=
  !l.atRest && hasLayer l.selection n

/-- The level factor λ (R85). -/
def Look.levelFactor (l : Look) (n : LayerId) : Nat :=
  if l.carried n then 1024 else l.layers[n].state.level

/-- The transition factor t at a position (R86). -/
def Look.transitionFactor (l : Look) (n : LayerId) (x y : Nat) : Nat :=
  if l.carried n then
    (if l.layers[n].state.heading then 1024 - l.layerWeight x y else l.layerWeight x y)
  else 1024

/-- The Y of a layer's key source: its fill for LUMA, its CUT bus for LINEAR (R82). -/
def Look.keySource (l : Look) (n : LayerId) (p : BusPixels) : Nat :=
  match l.layers[n].kind with
  | .luma => p.fill[n].y.toNat
  | .linear => p.cut[n].y.toNat

/-- The final alpha αf of a layer at a position (R85, R87). -/
def Look.finalAlpha (l : Look) (n : LayerId) (x y : Nat) (p : BusPixels) : Nat :=
  let a1 := l.layers[n].maskedAlpha x y (l.keySource n p) * l.levelFactor n / 1024
  a1 * l.transitionFactor n x y / 1024

/-- The programme at a position, with the weights of that position for all three components (R71, R87). -/
def Look.programme (l : Look) (x y : Nat) (p : BusPixels) : Pixel :=
  clampPixel
    (l.order.foldl (fun out n => mixPixel out p.fill[n] (l.finalAlpha n x y p)) (l.background x y p))

/-- The preview composition at a position (R65, R67, R88). -/
def Look.preview (l : Look) (x y : Nat) (p : BusPixels) : Pixel :=
  let start := if hasBkgd l.selection then p.b else p.a
  clampPixel
    (l.order.foldl
      (fun out n =>
        if afterOn (hasLayer l.selection n) l.layers[n].state then
          mixPixel out p.fill[n] (l.layers[n].maskedAlpha x y (l.keySource n p))
        else out)
      start)

/-! ### Samples of a picture -/

/-- The even position of the pair of `x` (R69). -/
def evenOf (x : Nat) : Nat :=
  x - x % 2

/-- The sample of a raster: Y of the position, Cb and Cr of its pair (R69, log 13). -/
def Raster.sample (r : Raster) (x y : Nat) : Pixel :=
  let luma := ((r.cells.find? (fun c => c.x = x && c.y = y)).map (·.value)).getD r.ground
  let chroma := ((r.cells.find? (fun c => c.x = evenOf x && c.y = y)).map (·.value)).getD r.ground
  { y := luma.y, cb := chroma.cb, cr := chroma.cr }

end Machine

/-- A line of a lane picture: as received, or black when it was not received in time (R22), read at the position of the
period (log 30). -/
def LaneStart.sample (s : LaneStart) (x y : Nat) : Pixel :=
  if s.missing.contains y then Pixel.black else Machine.Raster.sample s.raster x y

namespace Machine

/-- The starts that have a line in time (R22). -/
def startsHaving (starts : List LaneStart) (y : Nat) : List LaneStart :=
  starts.filter (fun start => !start.missing.contains y)

/-- What a torn period delivers: a line that one of the starts has in time as received, from the start that the free value names
among those that have it, and black for a line that none of them has (R22, log 7). -/
def tornSample (lane : LaneId) (number : PictureNumber) (starts : List LaneStart) (x y : Nat) : Pixel :=
  let having := startsHaving starts y
  match having[Config.startShown lane number y % having.length]? with
  | some start => start.sample x y
  | none => Pixel.black

/-- The captured line that a slot delivers for frame line `y` (R155). -/
def wovenLine (captured : FieldParity) (y : Nat) : Nat :=
  match captured with
  | .first => if y % 2 = 0 then y else y - 1
  | .second => if y % 2 = 1 then y else y + 1

/-- The sample of a picture at a luma position, with the weights of that position for all three components. -/
def Picture.sample (pic : Picture) (x y : Nat) : Pixel :=
  match pic with
  | .flat p => p
  | .live start => start.sample x y
  | .torn lane number starts => tornSample lane number starts x y
  | .woven captured content => content.sample x (wovenLine captured y)
  | .programme look a b dip fill1 fill2 fill3 fill4 cut1 cut2 cut3 cut4 =>
    look.programme x y
      { a := a.sample x y, b := b.sample x y, dip := dip.sample x y,
        fill := #v[fill1.sample x y, fill2.sample x y, fill3.sample x y, fill4.sample x y],
        cut := #v[cut1.sample x y, cut2.sample x y, cut3.sample x y, cut4.sample x y] }

/-- Y with the weights of its own position, Cb and Cr with those of the even position of its pair (R69). -/
def pairwise (f : Nat → Nat → Pixel) (x y : Nat) : Pixel :=
  { y := (f x y).y, cb := (f (evenOf x) y).cb, cr := (f (evenOf x) y).cr }

/-- The samples of a picture at a luma position (R69). -/
def Picture.pixel (pic : Picture) (x y : Nat) : Pixel :=
  pairwise pic.sample x y

end Machine

end Sys2Proof
end

