-- ==== Sys2Proof/Machine/Report.lean ====
section
/-! DEFINITION. The report packet and its notice entries, byte by byte (R178 to R180, R187, R188). -/

namespace Sys2Proof.Machine

/-! ### Numbers and codes (R182) -/

/-- A 2-byte number, most significant byte first (R182). -/
def twoBytes (n : Nat) : List Byte :=
  [byteOf (n / 256), byteOf n]

/-- A picture number in three bytes, most significant byte first (R182). -/
def pictureBytes (p : PictureNumber) : List Byte :=
  [byteOf (p.toNat / 65536), byteOf (p.toNat / 256), byteOf p.toNat]

/-- A flag as 0 or its weight. -/
def weight (flag : Bool) (w : Nat) : Nat :=
  if flag then w else 0

/-- The code of a reference state (R6). -/
def RefName.code : RefName → Nat
  | .noReference => 0
  | .locking => 1
  | .locked => 2
  | .freeRun => 3

/-- The code of a lane state (R187). -/
def LaneState.code : LaneState → Nat
  | .absent => 0
  | .acquiring => 1
  | .locked => 2

/-- The code of a drive state (R91). -/
def Drive.code : Drive → Nat
  | .rest => 0
  | .manual => 1
  | .auto .. => 2
  | .keyed => 3

/-- The code of a run state (R136). -/
def RunState.code : RunState → Nat
  | .idle => 0
  | .running => 1
  | .waiting _ => 2
  | .holding => 3
  | .paused => 4

/-- The code of a layer state (R129). -/
def LayerState.code : LayerState → Nat
  | .off => 0
  | .rising .. => 1
  | .on => 2
  | .falling .. => 3

/-- The code of a slot state (R154). -/
def SlotState.code : SlotState → Nat
  | .idle => 0
  | .waiting => 1
  | .grabbing .. => 2

/-- The code of a notice class (R188). -/
def NoticeClass.code : NoticeClass → Nat
  | .info => 0
  | .advisory => 1
  | .degraded => 2

/-- The code of a refusal reason (R188). -/
def Reason.code : Reason → Nat
  | .unknown => 1
  | .length => 2
  | .target => 3
  | .source => 4
  | .busy => 5
  | .onAir => 6
  | .full => 7
  | .empty => 8
  | .order => 9

/-- The code of a PACKET detail (R188). -/
def PacketFault.code : PacketFault → Nat
  | .check => 0
  | .excess => 1
  | .length => 2

/-- The code of how a transition completed (R188). -/
def DoneBy.code : DoneBy → Nat
  | .cut => 0
  | .auto => 1
  | .lever => 2
  | .run => 3

/-- The code of a GRAB_FAILED detail (R188). -/
def GrabFault.code : GrabFault → Nat
  | .onAir => 0
  | .noSource => 1

/-! ### Notice entries (R188) -/

/-- The kind code and the two detail bytes (R188). -/
def NoticeKind.bytes : NoticeKind → Nat × Byte × Byte
  | .lane state present => (1, byteOf state.code, byteOf (weight present 1))
  | .reference state => (2, byteOf state.code, 0)
  | .format house => (3, byteOf house.code, 0)
  | .refused code reason => (4, code, byteOf reason.code)
  | .late code => (5, code, 0)
  | .packet fault => (6, byteOf fault.code, 0)
  | .curve corrected => (7, byteOf corrected, 0)
  | .markOverrun => (8, 0, 0)
  | .transitionDone how => (9, byteOf how.code, 0)
  | .runDone => (10, 0, 0)
  | .grabDone source => (11, byteOf source.code, 0)
  | .grabFailed fault => (12, byteOf fault.code, 0)

/-- The subject form and the two subject bytes (R188). -/
def Subject.bytes : Subject → List Byte
  | .none => [0, 0, 0]
  | .lane n => [1, n, 0]
  | .me m => [2, m, 0]
  | .layer m n => [3, m, n]
  | .slot n => [4, n, 0]
  | .curve n => [5, n, 0]

/-- A notice entry of ten bytes (R188). -/
def Notice.entry (n : Notice) : List Byte :=
  [byteOf n.kind.bytes.1, byteOf n.cls.code] ++ n.subject.bytes ++ [n.kind.bytes.2.1, n.kind.bytes.2.2] ++ pictureBytes n.number

/-! ### The body (R187) -/

/-- A lane's byte (R187). -/
def Lane.reportByte (l : Lane) : Byte :=
  byteOf (l.state.code + weight l.resync 4)

/-- A tally set in five bytes: code c is the bit of weight 2^(c mod 8) in byte ⌊c / 8⌋ (R187). -/
def tallyBytes (t : TallySet) : List Byte :=
  [byteOf t.toNat, byteOf (t.toNat / 2 ^ 8), byteOf (t.toNat / 2 ^ 16), byteOf (t.toNat / 2 ^ 24), byteOf (t.toNat / 2 ^ 32)]

/-- A layer's three bytes: state code and level (R187). -/
def Layer.reportBytes (l : Layer) : List Byte :=
  byteOf l.state.code :: twoBytes l.state.level

/-- The block of one bank, 24 bytes (R187). -/
def Me.reportBytes (m : Me) : List Byte :=
  [byteOf m.drive.code] ++ twoBytes m.position
    ++ [byteOf m.selection.toNat, byteOf (weight (m.sense = .reverse) 1 + weight m.pickup 2), byteOf m.run.state.code,
        byteOf m.run.index, byteOf (weight m.mark 1)]
    ++ m.layers.toList.flatMap Layer.reportBytes ++ m.order.map layerByte

/-- A slot's byte (R187). -/
def Slot.reportByte (x : Slot) : Byte :=
  byteOf (x.state.code + weight x.content.isSome 4)

/-- The flags byte (R187). -/
def ReportBuilder.flagsByte (r : ReportBuilder) : Byte :=
  byteOf (weight r.summary.info 1 + weight r.summary.advisory 2 + weight r.summary.degraded 4 + weight r.lost 8)

/-- The notices of a packet: the oldest, up to six (R180). -/
def ReportBuilder.oldest (r : ReportBuilder) : List Notice :=
  r.queue.take 6

/-- The body of the report packet (R187). -/
def reportBody (s : State) : List Byte :=
  twoBytes 2400 ++ [1, byteOf s.unit.toNat] ++ pictureBytes s.ref.picture
    ++ [byteOf s.ref.status.name.code, byteOf s.ref.house.code, s.notices.flagsByte]
    ++ s.lanes.toList.map Lane.reportByte ++ tallyBytes s.tally.onAir ++ tallyBytes s.tally.preview
    ++ s.meA.reportBytes ++ s.meB.reportBytes ++ s.store.slots.toList.map Slot.reportByte
    ++ [byteOf s.control.fill, byteOf s.control.schedule.length, byteOf s.notices.oldest.length]
    ++ s.notices.oldest.flatMap Notice.entry

/-- The sum of bytes modulo 256 (R33). -/
def byteSum (bytes : List Byte) : Byte :=
  bytes.foldl (· + ·) 0

/-- The whole packet: kind 208 + unit number, count, body and the check byte that brings the sum to 0 (R187). -/
def reportPacket (s : State) : List Byte :=
  let body := reportBody s
  let count := byteOf body.length
  [byteOf (208 + s.unit.toNat), count] ++ body ++ [0 - byteSum (count :: body)]

/-- The report builder after assembly: the notices placed in the packet have left the queue, and the lost flag and the recent flags
are clear (R176, R177, R180). -/
def ReportBuilder.reported (r : ReportBuilder) : ReportBuilder :=
  { r with queue := r.queue.drop 6, lost := false, recent := ClassFlags.clear }

/-- The report packet is assembled and sent (R178, R179). -/
def sendReport (s : State) : State :=
  { s with report := some (reportPacket s), notices := s.notices.reported }

end Sys2Proof.Machine
end

