-- ==== Sys2Proof/Machine/Layers.lean ====
section
/-! DEFINITION. The key layers: fades, LAYER_ON, LAYER_OFF and LAYER_RATE, the toggle at a completion, and the stacking order
(R95, R113 to R131). -/

namespace Sys2Proof.Machine

/-! ### The fade machine (R115, R117, R118) -/

/-- One fade step (R115). -/
def LayerState.fadeStep : LayerState → LayerState
  | .off => .off
  | .rising c rf => if c + 1 ≥ rf then .on else .rising (c + 1) rf
  | .on => .on
  | .falling c rf => if c ≤ 1 then .off else .falling (c - 1) rf

/-- Whether the next fade step reaches the end of the count (R115). -/
def LayerState.fadeEnds : LayerState → Bool
  | .off => false
  | .rising c rf => c + 1 ≥ rf
  | .on => false
  | .falling c _ => c ≤ 1

/-- LAYER_ON by the layer's state, with the layer's rate R (R117). -/
def LayerState.turnedOn (rate : Nat) : LayerState → LayerState
  | .off => if rate ≤ 1 then .on else .rising 1 rate
  | .rising c rf => .rising c rf
  | .on => .on
  | .falling c rf => .rising c rf

/-- LAYER_OFF by the layer's state, with the layer's rate R (R118). -/
def LayerState.turnedOff (rate : Nat) : LayerState → LayerState
  | .off => .off
  | .rising c rf => .falling c rf
  | .on => if rate ≤ 1 then .off else .falling (rate - 1) rate
  | .falling c rf => .falling c rf

/-- The toggle of a selected layer at a completion (R95). -/
def LayerState.toggled : LayerState → LayerState
  | .off => .on
  | .rising .. => .off
  | .on => .off
  | .falling .. => .on

/-- Step 1 of R92: every fading layer of a bank moves by one step (R115). -/
def Me.fadeStep (m : Me) : Me :=
  { m with layers := m.layers.map (fun l => { l with state := l.state.fadeStep }) }

/-- The completion's toggle of the selected layers (R94, R95). -/
def Me.toggleSelected (m : Me) : Me :=
  { m with
    layers := Vector.ofFn (fun l : LayerId =>
      if hasLayer m.selection l then { m.layers[l] with state := m.layers[l].state.toggled } else m.layers[l]) }

/-- Whether any layer in the selection is RISING or FALLING (R100, R101, R146). -/
def Me.selectedFading (m : Me) : Bool :=
  allLayers.any (fun l => hasLayer m.selection l && (m.layer l).state.fading)

/-! ### LAYER_ON, LAYER_OFF, LAYER_RATE (R116 to R120) -/

/-- The BUSY check of R116: a selected layer while the bank is not at REST. -/
def Me.layerBusy (m : Me) (l : LayerId) : Bool :=
  hasLayer m.selection l && m.drive ≠ .rest

/-- LAYER_ON for a layer that exists, as a command or as a keyframe request (R116, R117, R123). -/
def layerOn (bank : BankId) (l : LayerId) (s : State) : State :=
  if (s.me bank).layerBusy l then s.refuse 80 .busy (.layer (bankByte bank) (layerByte l))
  else s.modifyMe bank (fun m => m.setLayer l { m.layer l with state := (m.layer l).state.turnedOn (m.layer l).rate })

/-- LAYER_OFF for a layer that exists, as a command or as a keyframe request (R116, R118, R123). -/
def layerOff (bank : BankId) (l : LayerId) (s : State) : State :=
  if (s.me bank).layerBusy l then s.refuse 81 .busy (.layer (bankByte bank) (layerByte l))
  else s.modifyMe bank (fun m => m.setLayer l { m.layer l with state := (m.layer l).state.turnedOff (m.layer l).rate })

/-- LAYER_ON(me, layer) (R116, R117). -/
def doLayerOn (me layer : Byte) (s : State) : State :=
  match readBank me, readLayer layer with
  | some bank, some l => layerOn bank l s
  | _, _ => s.refuse 80 .target (.layer me layer)

/-- LAYER_OFF(me, layer) (R116, R118). -/
def doLayerOff (me layer : Byte) (s : State) : State :=
  match readBank me, readLayer layer with
  | some bank, some l => layerOff bank l s
  | _, _ => s.refuse 81 .target (.layer me layer)

/-- LAYER_RATE(me, layer, rate) (R120). -/
def doLayerRate (me layer : Byte) (rate : Word16) (s : State) : State :=
  match readBank me, readLayer layer with
  | some bank, some l =>
    s.modifyMe bank (fun m => m.setLayer l { m.layer l with rate := clampTo 1 999 rate.toNat })
  | _, _ => s.refuse 82 .target (.layer me layer)

/-! ### The stacking order (R124 to R128) -/

/-- RAISE: the layer goes to the end of the list (R126). -/
def raisedOrder (order : List LayerId) (l : LayerId) : List LayerId :=
  order.filter (· ≠ l) ++ [l]

/-- LOWER: the layer goes to the front of the list (R127). -/
def loweredOrder (order : List LayerId) (l : LayerId) : List LayerId :=
  l :: order.filter (· ≠ l)

/-- Four layer numbers as a stacking order: each of them 1 to 4 and none repeated (R125). -/
def readOrder (first second third fourth : Byte) : Option (List LayerId) :=
  match readLayer first, readLayer second, readLayer third, readLayer fourth with
  | some p, some q, some r, some t => if [p, q, r, t].Nodup then some [p, q, r, t] else none
  | _, _, _, _ => none

/-- ORDER(me, first, second, third, fourth) (R125). -/
def doOrder (me first second third fourth : Byte) (s : State) : State :=
  match readBank me with
  | none => s.refuse 83 .target (.me me)
  | some bank =>
    match readOrder first second third fourth with
    | none => s.refuse 83 .order (.me me)
    | some order => s.modifyMe bank (fun m => { m with order := order })

/-- RAISE(me, layer) (R126). -/
def doRaise (me layer : Byte) (s : State) : State :=
  match readBank me, readLayer layer with
  | some bank, some l => s.modifyMe bank (fun m => { m with order := raisedOrder m.order l })
  | _, _ => s.refuse 84 .target (.layer me layer)

/-- LOWER(me, layer) (R127). -/
def doLower (me layer : Byte) (s : State) : State :=
  match readBank me, readLayer layer with
  | some bank, some l => s.modifyMe bank (fun m => { m with order := loweredOrder m.order l })
  | _, _ => s.refuse 85 .target (.layer me layer)

/-- FADE_END: the fade step of one layer when it reaches the end of the count (R115). -/
def fadeEnd (bank : BankId) (l : LayerId) (s : State) : State :=
  if ((s.me bank).layer l).state.fadeEnds then
    s.modifyMe bank (fun m => m.setLayer l { m.layer l with state := (m.layer l).state.fadeStep })
  else s

end Sys2Proof.Machine
end

