-- ==== Sys2Proof/Machine/Lanes.lean ====
section
/-! DEFINITION. The lane receivers: presence, the alignment test, the lane state machine, LANE_SET and RESYNC (R16 to R30). -/

namespace Sys2Proof.Machine

/-- Whether a lane is present: exactly when it is not ABSENT (R16). -/
def Lane.present (l : Lane) : Bool :=
  l.state ≠ .absent

/-! ### Changes of state -/

/-- The class of a LANE notice: DEGRADED when the change leaves LOCKED with the lane's code in the last on-air set (R28). -/
def laneClass (s : State) (n : LaneId) (before after : LaneState) : NoticeClass :=
  if before = .locked ∧ after ≠ .locked ∧ s.onAir (laneCode n) then .degraded else .info

/-- A lane after a change of state: good-count 0, and resync-pending cleared on entering LOCKED (R17, R21, R26). -/
def Lane.moved (l : Lane) (target : LaneState) : Lane :=
  { l with state := target, good := 0, resync := if target = .locked then false else l.resync }

/-- Posts the LANE notice of a lane that came from state `before` to the state it has (R27). -/
def postLane (n : LaneId) (before : LaneState) (s : State) : State :=
  let now := (s.lane n).state
  s.post (.lane now (now ≠ .absent)) (laneClass s n before now) (.lane (laneByte n))

/-- Changes a lane's state and posts its LANE notice (R27). -/
def moveLane (n : LaneId) (target : LaneState) (s : State) : State :=
  postLane n (s.lane n).state (s.setLane n ((s.lane n).moved target))

/-! ### The alignment test (R18, R19) -/

/-- Whether a line that lies `lines` lines before a switch line is in the judging window of the period that this switch line
begins: within 8 lines of the period's picture start, which comes `lead` lines before the switch line (R18). -/
def inWindowBefore (house : HouseFormat) (lines : Nat) : Bool :=
  lines ≤ house.lead + 8 && house.lead ≤ lines + 8

/-- Whether a line that lies `lines` lines after a switch line is in the judging window of the period that this switch line
began (R18). -/
def inWindowAfter (house : HouseFormat) (lines : Nat) : Bool :=
  lines + house.lead ≤ 8

/-- Whether a start noted in the period in progress lies in that period's window (R18). -/
def State.notedHere (s : State) (x : StartNote) : Bool :=
  inWindowAfter s.periodFormat x.start.after

/-- Whether a start noted in the period in progress lies in the next period's window (R18). -/
def State.notedNext (s : State) (x : StartNote) : Bool :=
  inWindowBefore s.ref.house x.start.before

/-- Whether a start noted in the period before lies in the window of the period in progress (R18). -/
def State.carriedHere (s : State) (x : StartNote) : Bool :=
  inWindowBefore s.periodFormat x.start.before

/-- Whether a start noted in the period before lies in the next period's window, which reaches back over the whole of a
shortened period in progress (R18). -/
def State.carriedNext (s : State) (x : StartNote) : Bool :=
  inWindowBefore s.ref.house x.start.beyond

/-- The starts in the judging window of the period in progress, in order; a start that lies in the next period's window too
counts for that period only (R18). -/
def State.window (s : State) (n : LaneId) : List StartNote :=
  (s.lane n).reaching ++ (s.lane n).carried.filter (fun x => s.carriedHere x && !s.carriedNext x) ++
    (s.lane n).noted.filter (fun x => s.notedHere x && !s.notedNext x)

/-- The starts whose lines may be received in the period in progress: all but those that lie in the next period's window
alone (R22). -/
def State.received (s : State) (n : LaneId) : List StartNote :=
  (s.lane n).reaching ++ (s.lane n).carried.filter (fun x => s.carriedHere x || !s.carriedNext x) ++
    (s.lane n).noted.filter (fun x => s.notedHere x || !s.notedNext x)

/-- The alignment test on the period in progress: exactly one start in the window, which ends a picture of the house format (R5)
taken whole and begins the right field (R19). -/
def State.aligned (s : State) (n : LaneId) : Bool :=
  match s.window n with
  | [x] =>
    x.whole && x.start.ended.format = some s.periodFormat
      && (!s.periodFormat.interlaced || x.start.parity = s.parity)
  | _ => false

/-! ### The lane's own work at a switch line (R20) -/

/-- R17: presence follows the detector. -/
def presenceUpdate (n : LaneId) (s : State) : State :=
  let l := s.lane n
  if l.present then (if l.detector then s else moveLane n .absent s)
  else if l.detector then moveLane n .acquiring s
  else s

/-- R21: a judged lane acts on its judgement. -/
def judgeLane (n : LaneId) (aligned : Bool) (s : State) : State :=
  let l := s.lane n
  match l.state with
  | .absent => s
  | .acquiring =>
    if aligned then
      (if l.good + 1 ≥ l.settle then moveLane n .locked s else s.setLane n { l with good := l.good + 1 })
    else s.setLane n { l with good := 0 }
  | .locked => if aligned then s else moveLane n .acquiring s

/-- A lane at a switch line, where the windows move on by one period: `before` is the state in the period just ended (R18). -/
def Lane.shifted (before : State) (l : Lane) : Lane :=
  { l with
    reaching := l.carried.filter before.carriedNext
    carried := l.noted.filter (fun x => !(before.notedHere x && !before.notedNext x))
    noted := [] }

/-- The windows of one lane move on (R18). -/
def shiftWindow (before : State) (n : LaneId) (s : State) : State :=
  s.setLane n ((s.lane n).shifted before)

/-- R19: a lane present at both switch lines is judged on the period between them. -/
def judgeIfPresent (before : State) (n : LaneId) (s : State) : State :=
  if (before.lane n).present && (s.lane n).present then judgeLane n (before.aligned n) s else s

/-- Steps 1 and 2 of R20 for all lanes, in ascending number within each step (R27). `before` is the state in the period just
ended. -/
def lanesWork (before : State) (s : State) : State :=
  let shifted := allLanes.foldl (fun t n => shiftWindow before n t) s
  let present := allLanes.foldl (fun t n => presenceUpdate n t) shifted
  allLanes.foldl (fun t n => judgeIfPresent before n t) present

/-- R30: at the switch line of a format change presence is updated, nothing is judged, and every present lane is ACQUIRING with
good-count 0. The notices come later. -/
def laneFormatChange (n : LaneId) (s : State) : State :=
  let l := s.lane n
  if l.detector then s.setLane n { l with state := .acquiring, good := 0 }
  else s.setLane n { l with state := .absent, good := 0 }

/-- The lanes' work at the switch line of a format change (R30). -/
def lanesFormatChange (before : State) (s : State) : State :=
  let shifted := allLanes.foldl (fun t n => shiftWindow before n t) s
  allLanes.foldl (fun t n => laneFormatChange n t) shifted

/-- The LANE notices of a format change: one for each lane whose state changed, in ascending number (R30). -/
def lanesFormatNotices (before : State) (s : State) : State :=
  allLanes.foldl
    (fun t n => if (t.lane n).state = (before.lane n).state then t else postLane n (before.lane n).state t) s

/-! ### Commands (R24, R25) and resets (R29) -/

/-- LANE_SET(lane, settle, fallback) (R24). -/
def doLaneSet (lane settle fallback : Byte) (s : State) : State :=
  match readLane lane with
  | none => s.refuse 16 .target (.lane lane)
  | some n =>
    match readFallback fallback with
    | none => s.refuse 16 .source (.lane lane)
    | some f => s.setLane n { s.lane n with settle := clampTo 1 15 settle.toNat, fallback := f }

/-- RESYNC on a lane by its state (R25). -/
def resyncLane (n : LaneId) (s : State) : State :=
  match (s.lane n).state with
  | .absent => s
  | .acquiring => s.setLane n { s.lane n with good := 0, resync := true }
  | .locked => moveLane n .acquiring (s.setLane n { s.lane n with resync := true })

/-- RESYNC(lane) (R25). -/
def doResync (lane : Byte) (s : State) : State :=
  match readLane lane with
  | none => s.refuse 17 .target (.lane lane)
  | some n => resyncLane n s

/-- The FULL scope on one lane (R29). -/
def laneFullReset (n : LaneId) (s : State) : State :=
  let t := s.setLane n { s.lane n with good := 0, settle := 4, fallback := none, resync := false }
  if (s.lane n).state = .locked then moveLane n .acquiring t else t

/-- A lane after power-on reset and the RESET pin: the record of R16, with the detector showing what its input carries (R17). -/
def Lane.restarted (l : Lane) : Lane :=
  { Lane.powerOn with detector := l.detector }

/-! ### Events of the lane inputs -/

/-- LANE_SIGNAL_CHANGE: the detector shows or stops showing signal; a picture in progress is then not whole (R17, R19). -/
def laneSignal (n : LaneId) (signal : Bool) (s : State) : State :=
  s.setLane n { s.lane n with detector := signal, tracking := (s.lane n).tracking && signal && (s.lane n).detector }

/-- LANE_PICTURE_START: the receiver notes the start (R18). A lane without signal shows no start. -/
def laneStart (n : LaneId) (start : LaneStart) (s : State) : State :=
  let l := s.lane n
  if l.detector then
    s.setLane n { l with noted := l.noted ++ [{ start := start, whole := l.tracking }], tracking := true }
  else s

/-- LANE_LOCK: the judgement that brings good-count to settle (R21). -/
def laneLock (n : LaneId) (s : State) : State :=
  let l := s.lane n
  if l.state = .acquiring ∧ l.good + 1 ≥ l.settle then judgeLane n true s else s

end Sys2Proof.Machine
end

