-- ==== Sys2Proof/Machine/Matrix.lean ====
section
/-! DEFINITION. The crosspoint matrix: selections, the exchange at completion, the matte, and the resolution of each source
code to a picture; the pictures on PROGRAM, PREVIEW and AUX (R53 to R68). -/

namespace Sys2Proof.Machine

/-! ### Writes (R54 to R62) -/

/-- Writes one bus of one bank. -/
def State.setBus (s : State) (bank : BankId) (bus : Bus) (src : Source) : State :=
  s.setBuses bank ((s.buses bank).set bus src)

/-- SELECT(me, bus, source) (R56). -/
def doSelect (me bus source : Byte) (s : State) : State :=
  match readBank me with
  | none => s.refuse 32 .target (.me me)
  | some bank =>
    match readBus bus with
    | none => s.refuse 32 .target (.me me)
    | some k =>
      match readBusSource bank source with
      | none => s.refuse 32 .source (.me me)
      | some src => s.setBus bank k src

/-- The preset source of a keyframe: a SELECT on bus B (R60). -/
def placePreset (bank : BankId) (source : Byte) (s : State) : State :=
  match readBusSource bank source with
  | none => s.refuse 32 .source (.me (bankByte bank))
  | some src => s.setBus bank .b src

/-- The exchange of bus A and bus B at a completion (R59). -/
def exchangeBuses (bank : BankId) (s : State) : State :=
  s.setBuses bank { s.buses bank with a := (s.buses bank).b, b := (s.buses bank).a }

/-- AUX_SELECT(source) (R61). -/
def doAuxSelect (source : Byte) (s : State) : State :=
  match readSource source with
  | none => s.refuse 33 .source .none
  | some src => { s with matrix := { s.matrix with aux := src } }

/-- A matte component clamped to 4–1019 (R62). -/
def matteComponent (w : Word16) : Code10 :=
  BitVec.ofNat 10 (clampTo 4 1019 w.toNat)

/-- MATTE(Y, Cb, Cr) (R62). -/
def doMatte (y cb cr : Word16) (s : State) : State :=
  { s with
    matrix := { s.matrix with matte := { y := matteComponent y, cb := matteComponent cb, cr := matteComponent cr } } }

/-! ### What each source delivers (R22, R23, R53, R155) -/

/-- What a slot delivers: its content, or black (R155). -/
def slotPicture (s : State) (m : SlotId) : Picture :=
  (s.slot m).content.getD (.flat Pixel.black)

/-- A lane's own picture of the period in progress (R22). A picture that begins the wrong field or is of another format is read at the
same frame line and pixel, where the spec maps no lines (DESIGN CHOICE, log 30). -/
def lanePicture (s : State) (n : LaneId) : Picture :=
  match s.window n with
  | [x] => .live x.start
  | _ => .torn n s.ref.picture ((s.received n).map (·.start))

/-- The fallback picture of a lane (R23). -/
def fallbackPicture (s : State) (n : LaneId) : Picture :=
  match (s.lane n).fallback with
  | none => .flat Pixel.black
  | some m => slotPicture s m

/-- The pictures of the sources that no bank composes: black, lanes, slots and the matte (R53). The composed sources are
resolved below; no bus of M/E A holds one (R55, log 18). -/
def plainPicture (s : State) : Source → Picture
  | .black => .flat Pixel.black
  | .lane n => if (s.lane n).state = .locked then lanePicture s n else fallbackPicture s n
  | .slot m => slotPicture s m
  | .matte => .flat s.matrix.matte
  | .meAProgramme => .flat Pixel.black
  | .meAPreview => .flat Pixel.black
  | .meBProgramme => .flat Pixel.black
  | .meBPreview => .flat Pixel.black

/-- What the composer of a bank reads of its bank for the period in progress (R68). -/
def State.look (s : State) (bank : BankId) : Look :=
  let m := s.me bank
  { format := s.periodFormat, atRest := m.drive = .rest, position := m.position, kind := m.kind,
    curve := m.curve.map s.curve, wipe := m.wipe, selection := m.selection, layers := m.layers, order := m.order }

/-- M/E A's programme of the period in progress: source 25 (R64). -/
def programmeA (s : State) : Picture :=
  let x := s.buses .a
  .programme (s.look .a) (plainPicture s x.a) (plainPicture s x.b) (plainPicture s x.dip) (plainPicture s x.fill[0])
    (plainPicture s x.fill[1]) (plainPicture s x.fill[2]) (plainPicture s x.fill[3]) (plainPicture s x.cut[0])
    (plainPicture s x.cut[1]) (plainPicture s x.cut[2]) (plainPicture s x.cut[3])

/-- The picture a source delivers to a bus of a bank: source 25 delivers M/E A's programme to M/E B (R53, R64). -/
def busPicture (s : State) (bank : BankId) (src : Source) : Picture :=
  if bank = .b ∧ src = .meAProgramme then programmeA s else plainPicture s src

/-- A bank's programme of the period in progress (R87). -/
def programmeOf (s : State) (bank : BankId) : Picture :=
  let x := s.buses bank
  let p := busPicture s bank
  .programme (s.look bank) (p x.a) (p x.b) (p x.dip) (p x.fill[0]) (p x.fill[1]) (p x.fill[2]) (p x.fill[3])
    (p x.cut[0]) (p x.cut[1]) (p x.cut[2]) (p x.cut[3])

/-- The samples on the buses of a bank at one position. -/
def busPixels (s : State) (bank : BankId) (x y : Nat) : BusPixels :=
  let k := s.buses bank
  let p := fun src => (busPicture s bank src).sample x y
  { a := p k.a, b := p k.b, dip := p k.dip, fill := k.fill.map p, cut := k.cut.map p }

/-! ### The samples of a period (R68) -/

/-- Whether the period in progress has position `x` of frame line `y`: the active picture of its format, and in an interlaced
format the lines of its field (R68). Before the first switch line, while the RESET pin is asserted as well, no period is in progress
and there is no picture: the spec is silent there (DESIGN CHOICE, log 29). -/
def State.carries (s : State) (x y : Nat) : Bool :=
  s.ref.started && x < s.periodFormat.width && y < s.periodFormat.height
    && (!s.periodFormat.interlaced || y % 2 = (match s.parity with | .first => 0 | .second => 1))

/-- The place of frame line `y` among the lines of the period in progress, which are sent in this order (R68). -/
def State.lineInPeriod (s : State) (y : Nat) : Nat :=
  if s.periodFormat.interlaced then y / 2 else y

/-- Whether the outputs send frame line `y` of the period in progress: a line that falls before the next switch line, which in the
uneven period of R9 comes after the lines counted there (R9, log 19). -/
def State.sends (s : State) (y : Nat) : Bool :=
  match s.ref.placed with
  | none => true
  | some lines => s.lineInPeriod y < lines

/-- A sample of the period in progress, where it has one (R68). -/
def State.sampleAt (s : State) (x y : Nat) (p : Pixel) : Option Pixel :=
  if s.carries x y then some p else none

/-- A sample of a bank's programme (R68, R69, R87). -/
def programmePixel (s : State) (bank : BankId) (x y : Nat) : Option Pixel :=
  s.sampleAt x y ((programmeOf s bank).pixel x y)

/-- A sample of a bank's preview composition (R67, R68, R69, R88). -/
def previewPixel (s : State) (bank : BankId) (x y : Nat) : Option Pixel :=
  s.sampleAt x y (pairwise (fun i j => (s.look bank).preview i j (busPixels s bank i j)) x y)

/-- A sample of the picture of a source that no bank composes (R53). -/
def plainPixel (s : State) (src : Source) (x y : Nat) : Option Pixel :=
  s.sampleAt x y ((plainPicture s src).pixel x y)

/-! ### The outputs (R61, R64, R67) -/

/-- A sample of the picture that a source code delivers (R53). -/
def sourcePixel (s : State) (src : Source) (x y : Nat) : Option Pixel :=
  match src with
  | .black => plainPixel s .black x y
  | .lane n => plainPixel s (.lane n) x y
  | .meAProgramme => programmePixel s .a x y
  | .slot m => plainPixel s (.slot m) x y
  | .matte => plainPixel s .matte x y
  | .meAPreview => previewPixel s .a x y
  | .meBProgramme => programmePixel s .b x y
  | .meBPreview => previewPixel s .b x y

/-- What an output carries of a picture: the lines that fall before the next switch line (R9). -/
def State.output (s : State) (y : Nat) (p : Option Pixel) : Option Pixel :=
  if s.sends y then p else none

/-- PROGRAM: M/E B's programme (00_scope.md, R53). -/
def programOutput (s : State) (x y : Nat) : Option Pixel :=
  s.output y (programmePixel s .b x y)

/-- PREVIEW: M/E B's preview composition (R67). -/
def previewOutput (s : State) (x y : Nat) : Option Pixel :=
  s.output y (previewPixel s .b x y)

/-- AUX: the selected source, with each sample clamped to 4–1019 as it leaves (R61). -/
def auxOutput (s : State) (x y : Nat) : Option Pixel :=
  s.output y ((sourcePixel s s.matrix.aux x y).map clampPixel)

end Sys2Proof.Machine
end

