-- ==== Sys2Proof/Machine/Transitions.lean ====
section
/-! DEFINITION. Transitions: completion, the automatic rate, TRANS_SET, NEXT_SET, CUT, AUTO and LEVER (R90 to R112). -/

namespace Sys2Proof.Machine

/-- Whether the drive state is REST. -/
def Drive.isRest : Drive → Bool
  | .rest => true
  | .manual => false
  | .auto .. => false
  | .keyed => false

/-! ### Completion (R94 to R96) -/

/-- The opposite sense. -/
def Sense.opposite : Sense → Sense
  | .forward => .reverse
  | .reverse => .forward

/-- Steps 2 to 4 of R94 on the bank's record: the selected layers toggle, P is 0, the drive state REST, and sense and pickup are
set by how the transition completed. -/
def Me.completed (m : Me) (how : DoneBy) : Me :=
  { m.toggleSelected with
    position := 0
    drive := .rest
    sense := if how = .lever then m.sense.opposite else m.sense
    pickup := if how = .lever then false else true }

/-- A completion (R94): the exchange when BKGD is selected, the record, and TRANSITION_DONE (R96). -/
def complete (bank : BankId) (how : DoneBy) (s : State) : State :=
  let exchanged := if hasBkgd (s.me bank).selection then exchangeBuses bank s else s
  (exchanged.modifyMe bank (fun m => m.completed how)).post (.transitionDone how) .info (.me (bankByte bank))

/-- A bank resolves by P without a completion: REST at 0, MANUAL elsewhere, pickup set (R109, R144, R150). -/
def Me.resolved (m : Me) : Me :=
  { m with drive := if m.position = 0 then .rest else .manual, pickup := true }

/-! ### The automatic rate (R93) -/

/-- P of an auto record: P0 + ⌊(4096 − P0) × k / D′⌋ (R93). -/
def autoPosition (start span counter : Nat) : Nat :=
  start + (4096 - start) * counter / span

/-- A bank enters AUTO with counter 1 (R101, R102). -/
def Me.startedAuto (m : Me) (start span : Nat) : Me :=
  { m with drive := .auto start span 1, position := autoPosition start span 1 }

/-- The span of an AUTO from MANUAL: max(1, ⌈D × (4096 − P0) / 4096⌉) (R102). -/
def spanFrom (rate start : Nat) : Nat :=
  max 1 ((rate * (4096 - start) + 4095) / 4096)

/-! ### TRANS_SET and NEXT_SET (R97 to R99) -/

/-- TRANS_SET part by part: away from REST a changed type is refused BUSY (R97, R98). -/
def transSet (bank : BankId) (kind : TransitionType) (rate : Nat) (curve : Option CurveId) (s : State) : State :=
  if (s.me bank).drive.isRest ∨ (s.me bank).kind = kind then
    s.modifyMe bank (fun m => { m with kind := kind, rate := rate, curve := curve })
  else
    (s.refuse 64 .busy (.me (bankByte bank))).modifyMe bank (fun m => { m with rate := rate, curve := curve })

/-- TRANS_SET(me, type, rate, curve) (R97, R98). -/
def doTransSet (me kind : Byte) (rate : Word16) (curve : Byte) (s : State) : State :=
  match readBank me, readTransitionType kind, readCurveNumber curve with
  | some bank, some k, some c => transSet bank k (clampTo 1 999 rate.toNat) c s
  | _, _, _ => s.refuse 64 .target (.me me)

/-- NEXT_SET(me, selection) (R99). -/
def doNextSet (me selection : Byte) (s : State) : State :=
  match readBank me, readSelection selection with
  | some bank, some sel =>
    if (s.me bank).drive.isRest then s.modifyMe bank (fun m => { m with selection := sel })
    else s.refuse 65 .busy (.me me)
  | _, _ => s.refuse 65 .target (.me me)

/-! ### CUT and AUTO (R100 to R103) -/

/-- CUT on a bank, by its drive state (R100). -/
def cutBank (bank : BankId) (s : State) : State :=
  let m := s.me bank
  match m.drive with
  | .rest =>
    if m.selection = 0 then s.refuse 66 .empty (.me (bankByte bank))
    else if m.selectedFading then s.refuse 66 .busy (.me (bankByte bank))
    else complete bank .cut s
  | .manual => complete bank .cut s
  | .auto .. => complete bank .cut s
  | .keyed => s.refuse 66 .busy (.me (bankByte bank))

/-- CUT(me) (R100). -/
def doCut (me : Byte) (s : State) : State :=
  match readBank me with
  | none => s.refuse 66 .target (.me me)
  | some bank => cutBank bank s

/-- AUTO that has passed the BUSY check on the drive state, from P0 with span D′ (R101 to R103). -/
def startAuto (bank : BankId) (start span : Nat) (s : State) : State :=
  let m := s.me bank
  if m.selection = 0 then s.refuse 67 .empty (.me (bankByte bank))
  else if m.selectedFading then s.refuse 67 .busy (.me (bankByte bank))
  else if m.kind = .cut then complete bank .cut s
  else s.modifyMe bank (fun m => m.startedAuto start span)

/-- AUTO on a bank, by its drive state (R101, R102). -/
def autoBank (bank : BankId) (s : State) : State :=
  let m := s.me bank
  match m.drive with
  | .rest => startAuto bank 0 m.rate s
  | .manual => startAuto bank m.position (spanFrom m.rate m.position) s
  | .auto .. => s.refuse 67 .busy (.me (bankByte bank))
  | .keyed => s.refuse 67 .busy (.me (bankByte bank))

/-- AUTO(me) (R101). -/
def doAuto (me : Byte) (s : State) : State :=
  match readBank me with
  | none => s.refuse 67 .target (.me me)
  | some bank => autoBank bank s

/-! ### LEVER (R104 to R108) -/

/-- The effective position e(v) (R104). -/
def effective (sense : Sense) (v : Nat) : Nat :=
  match sense with
  | .forward => v
  | .reverse => 4096 - v

/-- The distance |x − y| of two positions. -/
def gap (x y : Nat) : Nat :=
  (x - y) + (y - x)

/-- The bank follows the lever at effective position `e`, completing at 4096 and returning to REST at 0 (R106, R107). -/
def followLever (bank : BankId) (e : Nat) (s : State) : State :=
  if e ≥ 4096 then complete bank .lever (s.modifyMe bank (fun m => { m with drive := .manual, position := e }))
  else if e = 0 then s.modifyMe bank (fun m => { m with drive := .rest, position := 0 })
  else s.modifyMe bank (fun m => { m with drive := .manual, position := e })

/-- At REST with pickup set the lever is picked up at either end (R105). -/
def pickUpAtRest (bank : BankId) (v : Nat) (s : State) : State :=
  if v ≤ 64 then
    followLever bank (effective .forward v) (s.modifyMe bank (fun m => { m with sense := .forward, pickup := false }))
  else if v ≥ 4032 then
    followLever bank (effective .reverse v) (s.modifyMe bank (fun m => { m with sense := .reverse, pickup := false }))
  else s

/-- LEVER on a bank, by its drive state and pickup flag (R104 to R108). Every value is read by e(v) of R104, also where the
example that closes R107 gives another number (log 28). -/
def leverBank (bank : BankId) (v : Nat) (s : State) : State :=
  let m := s.me bank
  let e := effective m.sense v
  match m.drive with
  | .rest => if m.pickup then pickUpAtRest bank v s else followLever bank e s
  | .manual =>
    if m.pickup then
      (if gap e m.position ≤ 64 then followLever bank e (s.modifyMe bank (fun m => { m with pickup := false })) else s)
    else followLever bank e s
  | .auto .. => s
  | .keyed => s

/-- LEVER(me, value) (R104). -/
def doLever (me : Byte) (value : Word16) (s : State) : State :=
  match readBank me with
  | none => s.refuse 68 .target (.me me)
  | some bank => leverBank bank (clampTo 0 4096 value.toNat) s

end Sys2Proof.Machine
end

