-- ==== Sys2Proof/Machine/Runs.lean ====
section
/-! DEFINITION. Keyframe runs: the table and its settings, the step of a run, arrivals, partner marks, the end of a pass, and
RUN, STEP, HOLD and ABORT (R133 to R153); the work of a bank at a switch line (R92). -/

namespace Sys2Proof.Machine

/-! ### LOAD_KEYFRAMES and RUN_SET (R133 to R135) -/

/-- A layer set of a record: absent is the empty set, and a byte outside the sets is refused (R134, R186). -/
def readRecordSet (set : Option Byte) : Option LayerSet :=
  match set with
  | none => some 0
  | some b => readLayerSet b

/-- One record as it is held: target and duration clamped, sync and layer sets read (R134). -/
def readKeyframe (r : KeyframeBytes) : Option Keyframe :=
  match readSwitch r.sync, readRecordSet r.layerOn, readRecordSet r.layerOff with
  | some sync, some on, some off =>
    some
      { target := clampTo 0 4096 r.target.toNat, duration := clampTo 1 999 r.duration.toNat, sync := sync, layerOn := on,
        layerOff := off, preset := r.preset }
  | _, _, _ => none

/-- All records in turn, or none when one of them is outside its sets (R134). -/
def readKeyframes : List KeyframeBytes → Option (List Keyframe)
  | [] => some []
  | r :: rest =>
    match readKeyframe r, readKeyframes rest with
    | some k, some ks => some (k :: ks)
    | _, _ => none

/-- Writes consecutive records from an index (R134). -/
def writeKeyframes (table : Vector Keyframe 32) (first : Nat) : List Keyframe → Vector Keyframe 32
  | [] => table
  | k :: rest => writeKeyframes (table.setIfInBounds first k) (first + 1) rest

/-- Whether the run refuses changes of its table and settings: RUNNING, WAITING or HOLDING (R134, R135). -/
def RunState.playing : RunState → Bool
  | .idle => false
  | .running => true
  | .waiting _ => true
  | .holding => true
  | .paused => false

/-- LOAD_KEYFRAMES(me, first index, records) (R134). -/
def doLoadKeyframes (me first : Byte) (records : List KeyframeBytes) (s : State) : State :=
  match readBank me with
  | none => s.refuse 96 .target (.me me)
  | some bank =>
    if first.toNat > 31 ∨ first.toNat + records.length > 32 then s.refuse 96 .target (.me me)
    else
      match readKeyframes records with
      | none => s.refuse 96 .target (.me me)
      | some ks =>
        if (s.me bank).run.state.playing then s.refuse 96 .busy (.me me)
        else s.modifyMe bank (fun m => { m with table := writeKeyframes m.table first.toNat ks })

/-- RUN_SET(me, count, end, loops) (R135). -/
def doRunSet (me count endMode loops : Byte) (s : State) : State :=
  match readBank me, readEndMode endMode with
  | some bank, some e =>
    if (s.me bank).run.state.playing then s.refuse 97 .busy (.me me)
    else
      s.modifyMe bank
        (fun m => { m with count := clampTo 0 32 count.toNat, endMode := e, loops := clampTo 0 63 loops.toNat })
  | _, _ => s.refuse 97 .target (.me me)

/-! ### Segments (R137, R139) -/

/-- The entry of an index. -/
def Me.entry (m : Me) (i : Nat) : Keyframe :=
  m.table.getD i Keyframe.powerOn

/-- P0 + trunc((T − P0) × k / Dk) (R139). -/
def segmentPosition (start target counter duration : Nat) : Nat :=
  ((start : Int) + Int.tdiv (((target : Int) - start) * counter) duration).toNat

/-- The last step of R139: the entry's segment begins from P as it stands. -/
def Me.segmentBegun (m : Me) : Me :=
  let e := m.entry m.run.index
  { m with
    run := { m.run with start := m.position, counter := 1 }
    position := segmentPosition m.position e.target 1 e.duration }

/-- One step within a segment (R137). -/
def Me.segmentAdvanced (m : Me) : Me :=
  let e := m.entry m.run.index
  { m with
    run := { m.run with counter := m.run.counter + 1 }
    position := segmentPosition m.run.start e.target (m.run.counter + 1) e.duration }

/-! ### Arrival (R139 to R141) -/

/-- The layer requests of an entry: LAYER_ON, then LAYER_OFF, each in ascending layer number (R140). -/
def layerRequests (bank : BankId) (e : Keyframe) (s : State) : State :=
  let on := allLayers.foldl (fun t l => if inLayerSet e.layerOn l then layerOn bank l t else t) s
  allLayers.foldl (fun t l => if inLayerSet e.layerOff l then layerOff bank l t else t) on

/-- The preset of an entry (R140). -/
def presetRequest (bank : BankId) (e : Keyframe) (s : State) : State :=
  match e.preset with
  | none => s
  | some code => placePreset bank code s

/-- A run posts a mark to the other bank, or overruns the mark it holds (R141). -/
def postMark (bank : BankId) (s : State) : State :=
  if (s.me bank.other).mark then s.post .markOverrun .advisory (.me (bankByte bank.other))
  else s.modifyMe bank.other (fun m => { m with mark := true })

/-- The state in which a run that has to wait resumes (R142). -/
def RunState.resume : RunState → ResumeState
  | .idle => .running
  | .running => .running
  | .waiting r => r
  | .holding => .holding
  | .paused => .running

/-- The run state a waiting run resumes in (R142). -/
def ResumeState.state : ResumeState → RunState
  | .running => .running
  | .holding => .holding

/-- The arrival at an entry below the count (R139). At a sync entry the run posts its mark and stands WAITING until the marks of
the switch line are settled (R141, R142; `syncRelease`). -/
def arriveEntry (bank : BankId) (s : State) : State :=
  let e := (s.me bank).entry (s.me bank).run.index
  let asked := presetRequest bank e (layerRequests bank e s)
  if e.sync then
    (postMark bank asked).modifyMe bank
      (fun m => { m with run := { m.run with state := .waiting m.run.state.resume, counter := 0 } })
  else asked.modifyMe bank Me.segmentBegun

/-- R144: the run goes IDLE and posts RUN_DONE; at P = 4096 a completion is due, elsewhere the bank resolves by P. -/
def endRun (bank : BankId) (s : State) : State × Option DoneBy :=
  let idle := (s.modifyMe bank (fun m => { m with run := Run.idle })).post .runDone .info (.me (bankByte bank))
  if (s.me bank).position = 4096 then (idle, some .run) else (idle.modifyMe bank Me.resolved, none)

/-- Whether a pass that has ended is followed by another (R143). -/
def Me.loopsOn (m : Me) : Bool :=
  m.endMode = .loop && 1 ≤ m.count && (m.run.passes = 0 || 1 < m.run.passes)

/-- The run record at the start of the next pass (R143). -/
def Run.nextPass (r : Run) : Run :=
  { r with index := 0, counter := 0, passes := r.passes - 1 }

/-- The arrival at the index the run has reached, with the completion it makes due (R139, R143). -/
def arrive (bank : BankId) (s : State) : State × Option DoneBy :=
  let m := s.me bank
  if m.run.index < m.count then (arriveEntry bank s, none)
  else if m.loopsOn then (arriveEntry bank (s.modifyMe bank (fun m => { m with run := m.run.nextPass })), none)
  else endRun bank s

/-- The run record past a finished segment (R137). -/
def Run.pastSegment (r : Run) : Run :=
  { r with index := r.index + 1, counter := 0 }

/-- The end of a segment in HOLDING: the run pauses before the next entry, or its pass ends (R138). -/
def pauseAfterSegment (bank : BankId) (s : State) : State × Option DoneBy :=
  let moved := s.modifyMe bank (fun m => { m with run := m.run.pastSegment })
  let m := moved.me bank
  if m.run.index < m.count then
    (moved.modifyMe bank (fun m => { m with run := { m.run with state := .paused } }), none)
  else if m.loopsOn then
    (moved.modifyMe bank (fun m => { m with run := { m.run.nextPass with state := .paused } }), none)
  else endRun bank moved

/-- The step of a run that plays (R137, R138), up to its arrival and before any run at a sync entry begins its segment. -/
def stepPlaying (holding : Bool) (bank : BankId) (s : State) : State × Option DoneBy :=
  let m := s.me bank
  if m.run.counter = 0 then arrive bank s
  else if m.run.counter < (m.entry m.run.index).duration then (s.modifyMe bank Me.segmentAdvanced, none)
  else if holding then pauseAfterSegment bank s
  else arrive bank (s.modifyMe bank (fun m => { m with run := m.run.pastSegment }))

/-- Step 2 of R92 in KEYED (R137, R138, R142). -/
def runStep (bank : BankId) (s : State) : State × Option DoneBy :=
  match (s.me bank).run.state with
  | .idle => (s, none)
  | .running => stepPlaying false bank s
  | .waiting _ => (s, none)
  | .holding => stepPlaying true bank s
  | .paused => (s, none)

/-- R142: a run standing at a sync entry consumes its bank's mark and begins the entry's segment; without a mark it waits. -/
def syncRelease (bank : BankId) (s : State) : State :=
  let m := s.me bank
  match m.run.state with
  | .idle => s
  | .running => s
  | .waiting r =>
    if m.mark then
      s.modifyMe bank (fun m => { m with mark := false, run := { m.run with state := r.state } }.segmentBegun)
    else s
  | .holding => s
  | .paused => s

/-! ### The bank's work at a switch line (R92, R93) -/

/-- Step 2 of R92, with the completion that becomes due. -/
def driveStep (bank : BankId) (s : State) : State × Option DoneBy :=
  match (s.me bank).drive with
  | .rest => (s, none)
  | .manual => (s, none)
  | .auto start span k =>
    if k < span then
      (s.modifyMe bank
        (fun m => { m with drive := .auto start span (k + 1), position := autoPosition start span (k + 1) }), none)
    else (s, some .auto)
  | .keyed => runStep bank s

/-- Step 3 of R92: a due completion is taken. -/
def takeDue (bank : BankId) (stepped : State × Option DoneBy) : State :=
  match stepped.2 with
  | none => stepped.1
  | some how => complete bank how stepped.1

/-- Steps 1 to 3 of R92 for one bank, up to the settling of the marks. -/
def bankOwn (bank : BankId) (s : State) : State :=
  takeDue bank (driveStep bank (s.modifyMe bank Me.fadeStep))

/-- The own work of both banks: M/E A, then M/E B, with the marks settled once both runs have made their step up to the arrival
(R92, R141, R142, R173; log 16). -/
def banksWork (s : State) : State :=
  syncRelease .b (syncRelease .a (bankOwn .b (bankOwn .a s)))

/-! ### RUN, STEP, HOLD and ABORT (R145 to R151) -/

/-- The checks of R146 for a run that starts from IDLE; `none` passes. -/
def startRefusal (m : Me) : Option Reason :=
  if m.drive ≠ .rest ∧ m.drive ≠ .manual then some .busy
  else if m.count = 0 then some .empty
  else if m.selection = 0 then some .empty
  else if m.selectedFading then some .busy
  else none

/-- A run starts from IDLE in RUNNING or HOLDING (R146, R147). -/
def startRun (code : Byte) (first : RunState) (bank : BankId) (s : State) : State :=
  match startRefusal (s.me bank) with
  | some reason => s.refuse code reason (.me (bankByte bank))
  | none =>
    s.modifyMe bank
      (fun m =>
        { m with drive := .keyed, run := { state := first, index := 0, start := 0, counter := 0, passes := m.loops } })

/-- Changes the run state alone, with index and counter kept. -/
def setRunState (bank : BankId) (r : RunState) (s : State) : State :=
  s.modifyMe bank (fun m => { m with run := { m.run with state := r } })

/-- RUN on a bank, by its run state (R146). -/
def runBank (bank : BankId) (s : State) : State :=
  match (s.me bank).run.state with
  | .idle => startRun 98 .running bank s
  | .running => s
  | .waiting _ => s
  | .holding => setRunState bank .running s
  | .paused => setRunState bank .running s

/-- STEP on a bank, by its run state (R147). -/
def stepBank (bank : BankId) (s : State) : State :=
  match (s.me bank).run.state with
  | .idle => startRun 99 .holding bank s
  | .running => s.refuse 99 .busy (.me (bankByte bank))
  | .waiting _ => s.refuse 99 .busy (.me (bankByte bank))
  | .holding => s
  | .paused => setRunState bank .holding s

/-- HOLD on a bank, by its run state (R148). -/
def holdBank (bank : BankId) (s : State) : State :=
  match (s.me bank).run.state with
  | .idle => s
  | .running => setRunState bank .holding s
  | .waiting _ => setRunState bank .paused s
  | .holding => s
  | .paused => s

/-- ABORT on a bank: the run ends and the bank resolves by P without a completion (R150). -/
def abortBank (bank : BankId) (s : State) : State :=
  if (s.me bank).run.state = .idle then s
  else s.modifyMe bank (fun m => { m with run := Run.idle }.resolved)

/-- RUN(me) (R145, R146). -/
def doRun (me : Byte) (s : State) : State :=
  match readBank me with
  | none => s.refuse 98 .target (.me me)
  | some bank => runBank bank s

/-- STEP(me) (R145, R147). -/
def doStep (me : Byte) (s : State) : State :=
  match readBank me with
  | none => s.refuse 99 .target (.me me)
  | some bank => stepBank bank s

/-- HOLD(me) (R145, R148). -/
def doHold (me : Byte) (s : State) : State :=
  match readBank me with
  | none => s.refuse 100 .target (.me me)
  | some bank => holdBank bank s

/-- ABORT(me) (R145, R150). -/
def doAbort (me : Byte) (s : State) : State :=
  match readBank me with
  | none => s.refuse 101 .target (.me me)
  | some bank => abortBank bank s

/-! ### Parts of a bank's work with rows of their own (log 3) -/

/-- AUTO_COMPLETION_DUE: an AUTO whose counter equals its span completes (R93, R94). -/
def autoCompletionDue (bank : BankId) (s : State) : State :=
  match (s.me bank).drive with
  | .rest => s
  | .manual => s
  | .auto _ span k => if k < span then s else complete bank .auto s
  | .keyed => s

/-- Whether a bank's run stands at the end of a segment: RUNNING or HOLDING with the counter at the entry's duration (R137). -/
def Me.atSegmentEnd (m : Me) : Bool :=
  (m.run.state = .running || m.run.state = .holding) && m.run.counter ≠ 0 &&
    (m.entry m.run.index).duration ≤ m.run.counter

/-- SEGMENT_END: the step of a run at the end of a segment, with its arrival, the check of its own mark and a due completion
(R137 to R144). -/
def segmentEnd (bank : BankId) (s : State) : State :=
  if (s.me bank).atSegmentEnd then syncRelease bank (takeDue bank (runStep bank s)) else s

end Sys2Proof.Machine
end

