-- ==== Sys2Proof/Machine/Settings.lean ====
section
/-! DEFINITION. The settings of the composers: LOAD_CURVE, WIPE_SET, KEY_SET and MASK_SET (R72, R74, R76, R81, R83). -/

namespace Sys2Proof.Machine

/-! ### LOAD_CURVE (R74) -/

/-- Step 3 of R74: each point is raised to the point before it, as that point now stands. -/
def raisePoints (before : Nat) : List Nat → List Nat
  | [] => []
  | c :: rest => max before c :: raisePoints (max before c) rest

/-- The points after clamping (R74). -/
def clampedPoints (points : Vector Word16 65) : Curve :=
  points.map (fun w => clampTo 0 1024 w.toNat)

/-- The three corrections of R74: point 0 is 0, point 64 is 1024, and points 1 to 63 rise. -/
def correctedPoints (c : Curve) : Curve :=
  let raised := raisePoints 0 ((c.toList.drop 1).take 63)
  Vector.ofFn (fun i => if i.val = 0 then 0 else if i.val = 64 then 1024 else raised.getD (i.val - 1) 0)

/-- The count of corrected points: those that differ from their value after clamping (R74). -/
def correctedCount (c : Curve) : Nat :=
  ((c.toList.zip (correctedPoints c).toList).filter (fun p => p.1 ≠ p.2)).length

/-- LOAD_CURVE on a loadable curve (R74). -/
def loadCurve (k : CurveId) (points : Vector Word16 65) (s : State) : State :=
  let clamped := clampedPoints points
  let loaded := { s with curves := s.curves.set k (correctedPoints clamped) }
  if correctedCount clamped = 0 then loaded
  else loaded.post (.curve (correctedCount clamped)) .advisory (.curve (curveByte k))

/-- LOAD_CURVE(curve, points) (R74). -/
def doLoadCurve (curve : Byte) (points : Vector Word16 65) (s : State) : State :=
  match readLoadableCurve curve with
  | none => s.refuse 48 .target (.curve curve)
  | some k => loadCurve k points s

/-! ### WIPE_SET (R76) -/

/-- WIPE_SET(me, shape, reverse, softness) (R76). -/
def doWipeSet (me shape reverse : Byte) (softness : Word16) (s : State) : State :=
  match readBank me, readWipeShape shape, readSwitch reverse with
  | some bank, some k, some r =>
    s.modifyMe bank (fun m => { m with wipe := { shape := k, reverse := r, softness := clampTo 0 1023 softness.toNat } })
  | _, _, _ => s.refuse 49 .target (.me me)

/-! ### KEY_SET (R81) -/

/-- KEY_SET(me, layer, kind, clip, gain, invert) (R81). -/
def doKeySet (me layer kind : Byte) (clip : Word16) (gain invert : Byte) (s : State) : State :=
  match readBank me, readLayer layer, readKeyKind kind, readSwitch invert with
  | some bank, some l, some k, some v =>
    s.modifyMe bank (fun m =>
      m.setLayer l
        { m.layer l with kind := k, clip := clampTo 0 1023 clip.toNat, gain := clampTo 0 255 gain.toNat, invert := v })
  | _, _, _, _ => s.refuse 50 .target (.layer me layer)

/-! ### MASK_SET (R83) -/

/-- A box clamped to the active picture of a house format (R83). -/
def clampedBox (house : HouseFormat) (b : BoxWords) : MaskBox :=
  { left := clampTo 0 (house.width - 1) b.left.toNat, right := clampTo 0 (house.width - 1) b.right.toNat,
    top := clampTo 0 (house.height - 1) b.top.toNat, bottom := clampTo 0 (house.height - 1) b.bottom.toNat }

/-- MASK_SET(me, layer, box or none) (R83). -/
def doMaskSet (me layer : Byte) (box : Option BoxWords) (s : State) : State :=
  match readBank me, readLayer layer with
  | some bank, some l =>
    s.modifyMe bank (fun m => m.setLayer l { m.layer l with mask := box.map (clampedBox s.ref.house) })
  | _, _ => s.refuse 51 .target (.layer me layer)

end Sys2Proof.Machine
end

