-- ==== Sys2Proof/Machine/Stills.lean ====
section
/-! DEFINITION. The still store: grab ports, wait queue, captures, GRAB and CLEAR, and its work at a switch line
(R154 to R167). -/

namespace Sys2Proof.Machine

/-- Whether a slot's code is in the on-air set of the last report line (R159). -/
def slotOnAir (s : State) (m : SlotId) : Bool :=
  s.onAir (slotCode m)

/-- Changes the state of a slot. -/
def setSlotState (m : SlotId) (x : SlotState) (s : State) : State :=
  s.setSlot m { s.slot m with state := x }

/-- The entry of a slot in the wait queue (R156). -/
def queueEntry (s : State) (m : SlotId) : Option GrabEntry :=
  s.store.queue.find? (fun e => e.slot = m)

/-- Removes the entry of a slot from the wait queue; the entries left keep their order (R156). -/
def dropEntry (m : SlotId) (s : State) : State :=
  { s with store := { s.store with queue := s.store.queue.filter (fun e => e.slot ≠ m) } }

/-- The index of a free port. -/
def freePort (s : State) : Option (Fin 2) :=
  if s.store.ports[0] = none then some 0
  else if s.store.ports[1] = none then some 1
  else none

/-- A port becomes busy with a slot (R156). -/
def occupyPort (p : Fin 2) (m : SlotId) (s : State) : State :=
  { s with store := { s.store with ports := s.store.ports.set p (some m) } }

/-- The port that captures into a slot becomes free (R156). -/
def releasePort (m : SlotId) (s : State) : State :=
  { s with store := { s.store with ports := s.store.ports.map (fun p => if p = some m then none else p) } }

/-! ### Captures and completions (R161, R163) -/

/-- The picture that a source delivers in the period in progress (R163). -/
def capturedSource (s : State) (src : Source) : Picture :=
  match src with
  | .lane n => lanePicture s n
  | .meAProgramme => programmeA s
  | .black => plainPicture s .black
  | .slot m => plainPicture s (.slot m)
  | .matte => plainPicture s .matte
  | .meAPreview => plainPicture s .meAPreview
  | .meBProgramme => plainPicture s .meBProgramme
  | .meBPreview => plainPicture s .meBPreview

/-- The capture of the period in progress: a frame, or the field of the period with its parity (R163). -/
def capture (s : State) (src : Source) : Picture :=
  if s.periodFormat.interlaced then .woven s.parity (capturedSource s src) else capturedSource s src

/-- The completion of a slot's grab with the picture captured (R161, R164). -/
def finishGrab (m : SlotId) (src : Source) (picture : Picture) (s : State) : State :=
  ((releasePort m s).setSlot m { state := .idle, content := some picture }).post (.grabDone src) .info
    (.slot (slotByte m))

/-- Completes a slot's grab when it has one in hand; `period` is the state in the period captured. -/
def completeGrab (period : State) (m : SlotId) (s : State) : State :=
  match (s.slot m).state with
  | .idle => s
  | .waiting => s
  | .grabbing src _ => finishGrab m src (capture period src) s

/-- Step 1 of R161: the grabs of the previous switch line complete in ascending slot number. -/
def completions (period : State) (s : State) : State :=
  allSlots.foldl (fun t m => completeGrab period m t) s

/-! ### The walk (R162) -/

/-- Whether a source is ready, by the locked lanes (R163). -/
def sourceReady (locked : LaneId → Bool) (src : Source) : Bool :=
  match src with
  | .lane n => locked n
  | .meAProgramme => true
  | .black => false
  | .slot _ => false
  | .matte => false
  | .meAPreview => false
  | .meBProgramme => false
  | .meBPreview => false

/-- The walk removes an entry: the slot becomes IDLE with its content as it was, and GRAB_FAILED is posted (R162, R164). -/
def failGrab (m : SlotId) (why : GrabFault) (s : State) : State :=
  (setSlotState m .idle (dropEntry m s)).post (.grabFailed why) .degraded (.slot (slotByte m))

/-- A grab begins: the entry leaves the queue, a port becomes busy, and the slot is GRABBING (R162, R163). -/
def beginGrab (p : Fin 2) (e : GrabEntry) (s : State) : State :=
  setSlotState e.slot (.grabbing e.source s.ref.picture) (occupyPort p e.slot (dropEntry e.slot s))

/-- Writes the wait count of a slot's entry. -/
def setWait (m : SlotId) (n : Nat) (s : State) : State :=
  { s with
    store := { s.store with queue := s.store.queue.map (fun e => if e.slot = m then { e with wait := n } else e) } }

/-- The walk takes one entry: the first test of R162 that applies. -/
def walkEntry (locked : LaneId → Bool) (e : GrabEntry) (s : State) : State :=
  if slotOnAir s e.slot then failGrab e.slot .onAir s
  else if !sourceReady locked e.source then
    (if e.wait + 1 ≥ 8 then failGrab e.slot .noSource s else setWait e.slot (e.wait + 1) s)
  else
    match freePort s with
    | some p => beginGrab p e s
    | none => s

/-- The walk: each entry in turn, oldest first (R162). -/
def walk (locked : LaneId → Bool) (s : State) : State :=
  s.store.queue.foldl (fun t e => walkEntry locked e t) s

/-- Steps 1 and 2 of R161. `period` is the state in the period just ended and `locked` the lanes that are LOCKED after their
work of this switch line (R163). -/
def storeWork (period : State) (locked : LaneId → Bool) (s : State) : State :=
  walk locked (completions period s)

/-! ### GRAB and CLEAR (R157, R158) -/

/-- A GRAB that has passed its checks: the entry joins the queue and the slot is WAITING (R157). -/
def queueGrab (m : SlotId) (src : Source) (s : State) : State :=
  setSlotState m .waiting
    { s with store := { s.store with queue := s.store.queue ++ [{ slot := m, source := src, wait := 0 }] } }

/-- GRAB(slot, source) (R157). -/
def doGrab (slot source : Byte) (s : State) : State :=
  match readSlot slot with
  | none => s.refuse 112 .target (.slot slot)
  | some m =>
    match readGrabSource source with
    | none => s.refuse 112 .source (.slot slot)
    | some src =>
      if (s.slot m).state ≠ .idle then s.refuse 112 .busy (.slot slot)
      else if slotOnAir s m then s.refuse 112 .onAir (.slot slot)
      else if s.store.queue.length ≥ 4 then s.refuse 112 .full (.slot slot)
      else queueGrab m src s

/-- A slot withdraws any grab it has waiting or in hand and becomes IDLE with its content (R158, R166). -/
def withdrawGrab (m : SlotId) (s : State) : State :=
  match (s.slot m).state with
  | .idle => s
  | .waiting => setSlotState m .idle (dropEntry m s)
  | .grabbing .. => setSlotState m .idle (releasePort m s)

/-- Removes a slot's content. -/
def emptySlot (m : SlotId) (s : State) : State :=
  s.setSlot m { s.slot m with content := none }

/-- CLEAR(slot) (R158). -/
def doClear (slot : Byte) (s : State) : State :=
  match readSlot slot with
  | none => s.refuse 113 .target (.slot slot)
  | some m =>
    if slotOnAir s m then s.refuse 113 .onAir (.slot slot)
    else emptySlot m (withdrawGrab m s)

/-! ### Resets (R166, R167) -/

/-- The ENGINE scope on the store: every grab is withdrawn or abandoned and contents are kept (R166). -/
def Store.stopped (x : Store) : Store :=
  { x with
    slots := x.slots.map (fun slot => { slot with state := .idle })
    queue := []
    ports := Vector.replicate 2 none }

/-- Every slot's content is removed (R166, R167). -/
def Store.emptied (x : Store) : Store :=
  { x with slots := x.slots.map (fun slot => { slot with content := none }) }

/-! ### Parts of the store's work with rows of their own (log 3) -/

/-- Whether the lane is LOCKED now. -/
def lockedNow (s : State) (n : LaneId) : Bool :=
  (s.lane n).state = .locked

/-- GRAB_COMPLETION: a slot's grab completes with the picture of the period in progress (R161, log 23). -/
def grabCompletion (m : SlotId) (s : State) : State :=
  completeGrab s m s

/-- GRAB_BEGIN: a waiting entry whose slot is not on air and whose source is ready finds a free port (R162). -/
def grabBegin (m : SlotId) (s : State) : State :=
  match queueEntry s m with
  | none => s
  | some e =>
    if slotOnAir s m then s
    else if !sourceReady (lockedNow s) e.source then s
    else
      match freePort s with
      | none => s
      | some p => beginGrab p e s

/-- GRAB_WAIT_TIMEOUT: a waiting entry whose slot is not on air and whose source is not ready reaches wait count 8 (R162). -/
def grabWaitTimeout (m : SlotId) (s : State) : State :=
  match queueEntry s m with
  | none => s
  | some e =>
    if slotOnAir s m then s
    else if sourceReady (lockedNow s) e.source then s
    else if e.wait + 1 < 8 then s
    else failGrab m .noSource s

end Sys2Proof.Machine
end

