-- ==== Sys2Proof/Machine/Resets.lean ====
section
/-! DEFINITION. The two scopes of RESET and the values at power-on reset and the RESET pin (R15, R46 to R49, R111, R130, R153,
R166, R181). -/

namespace Sys2Proof.Machine

/-! ### The take unit's part (R46) -/

/-- The commands after a RESET in its take are discarded and the schedule list is emptied (R46). -/
def dropTake (s : State) : State :=
  { s with control := { s.control with take := [], schedule := [] } }

/-! ### The ENGINE scope (R47, R49) -/

/-- The ENGINE scope on a bank: REST at P = 0, pickup set, every layer OFF, run IDLE, no partner mark (R47). -/
def Me.engineReset (m : Me) : Me :=
  { m with
    drive := .rest
    position := 0
    pickup := true
    layers := m.layers.map (fun l => { l with state := .off })
    run := Run.idle
    mark := false }

/-- The ENGINE scope (R47): the report builder empties the queue and clears the lost flag (R49), both banks, layers and runs stop,
and the store's grabs are withdrawn. -/
def engineScope (s : State) : State :=
  { s with
    notices := s.notices.emptied
    meA := s.meA.engineReset
    meB := s.meB.engineReset
    store := s.store.stopped }

/-- RESET with the ENGINE scope at its place in a take (R46, R47). -/
def resetEngine (s : State) : State :=
  engineScope (dropTake s)

/-! ### The FULL scope (R48, R49) -/

/-- The FULL scope on the report builder: queue empty, lost flag, summary and recent flags clear, every class enabled (R48, R177). -/
def ReportBuilder.fullReset (_ : ReportBuilder) : ReportBuilder :=
  ReportBuilder.powerOn

/-- The FULL scope on the lanes, whose LANE notices come after the queue has been emptied (R29, R49). -/
def lanesFullReset (s : State) : State :=
  allLanes.foldl (fun t n => laneFullReset n t) s

/-- The FULL scope (R48): every block at its power-on values, but the reference timing unit, the lanes' presence and lock, the
tally sets and the unit number. -/
def fullScope (s : State) : State :=
  lanesFullReset
    { s with
      notices := s.notices.fullReset
      meA := Me.powerOn
      meB := Me.powerOn
      store := s.store.stopped.emptied
      matrix := Matrix.powerOn
      curves := Vector.replicate 4 Curve.powerOn }

/-- RESET with the FULL scope at its place in a take (R46, R48). -/
def resetFull (s : State) : State :=
  fullScope (dropTake s)

/-- RESET(scope): a scope outside ENGINE and FULL is refused TARGET and changes nothing (R46). -/
def doReset (scope : Byte) (s : State) : State :=
  match scope.toNat with
  | 0 => resetEngine s
  | 1 => resetFull s
  | _ => s.refuse 4 .target .none

/-! ### Power-on reset and the RESET pin (R15, R32) -/

/-- Every block at its power-on values, with the unit number and the pin level given. The detectors go on showing what the lane
inputs carry (R17, R29), and the waiting commands stay. -/
def restarted (unit : BitVec 2) (pin : Bool) (s : State) : State :=
  { State.reset with
    resetPin := pin
    unit := unit
    lanes := s.lanes.map Lane.restarted
    pending := s.pending }

end Sys2Proof.Machine
end

