-- ==== Sys2Proof/Machine/Take.lean ====
section
/-! DEFINITION. The take unit: the lists, CANCEL and CANCEL_ALL, the forming of the take and its handing out
(R36, R37, R39 to R45). -/

namespace Sys2Proof.Machine

/-! ### The take list and the schedule list (R37, R39, R40) -/

/-- A command is appended to the take list, or refused FULL (R37). -/
def appendTake (c : Command) (late : Bool) (s : State) : State :=
  if s.control.takeList.length < 128 then
    { s with control := { s.control with takeList := s.control.takeList ++ [{ command := c, late := late }] } }
  else s.refuse c.code .full c.subject

/-- N: the picture number of the switch line that will take the current window (R39). -/
def nextPicture (s : State) : PictureNumber :=
  s.ref.picture + 1

/-- Insertion into the schedule list: after every entry whose target is nearer or equal, before every entry whose target is
farther (R40). -/
def insertEntry (current : PictureNumber) (e : ScheduleEntry) : List ScheduleEntry → List ScheduleEntry
  | [] => [e]
  | f :: rest =>
    if distance current f.target ≤ distance current e.target then f :: insertEntry current e rest
    else e :: f :: rest

/-- A command is placed on the schedule list, or its AT is refused FULL (R40). -/
def scheduleCommand (target : PictureNumber) (c : Command) (s : State) : State :=
  if s.control.schedule.length < 64 then
    { s with
      control :=
        { s.control with
          schedule := insertEntry (nextPicture s) { target := target, command := c } s.control.schedule } }
  else s.refuse atCode .full .none

/-- The placing of the inner command of an AT by the distance from N to its target (R39). -/
def placeTimed (target : PictureNumber) (c : Command) (s : State) : State :=
  match relation (nextPicture s) target with
  | .same => appendTake c false s
  | .future => scheduleCommand target c s
  | .past => appendTake c true s

/-! ### CANCEL and CANCEL_ALL (R44, R45) -/

/-- CANCEL(target) (R44). -/
def doCancel (target : PictureNumber) (s : State) : State :=
  { s with control := { s.control with schedule := s.control.schedule.filter (fun e => e.target ≠ target) } }

/-- CANCEL_ALL (R45). -/
def doCancelAll (s : State) : State :=
  { s with control := { s.control with schedule := [] } }

/-! ### Carrying out a command (R43) -/

/-- The owner of a command carries it out at its place in the take (R43). -/
def runCommand (c : Command) (s : State) : State :=
  match c with
  | .cancel target => doCancel target s
  | .cancelAll => doCancelAll s
  | .reset scope => doReset scope s
  | .laneSet lane settle fallback => doLaneSet lane settle fallback s
  | .resync lane => doResync lane s
  | .select me bus source => doSelect me bus source s
  | .auxSelect source => doAuxSelect source s
  | .matte y cb cr => doMatte y cb cr s
  | .loadCurve curve points => doLoadCurve curve points s
  | .wipeSet me shape reverse softness => doWipeSet me shape reverse softness s
  | .keySet me layer kind clip gain invert => doKeySet me layer kind clip gain invert s
  | .maskSet me layer box => doMaskSet me layer box s
  | .transSet me kind rate curve => doTransSet me kind rate curve s
  | .nextSet me selection => doNextSet me selection s
  | .cut me => doCut me s
  | .auto me => doAuto me s
  | .lever me value => doLever me value s
  | .layerOn me layer => doLayerOn me layer s
  | .layerOff me layer => doLayerOff me layer s
  | .layerRate me layer rate => doLayerRate me layer rate s
  | .order me first second third fourth => doOrder me first second third fourth s
  | .raise me layer => doRaise me layer s
  | .lower me layer => doLower me layer s
  | .loadKeyframes me first records => doLoadKeyframes me first records s
  | .runSet me count endMode loops => doRunSet me count endMode loops s
  | .run me => doRun me s
  | .step me => doStep me s
  | .hold me => doHold me s
  | .abort me => doAbort me s
  | .grab slot source => doGrab slot source s
  | .clear slot => doClear slot s
  | .noticeMask info advisory degraded => doNoticeMask info advisory degraded s
  | .clearSummary => doClearSummary s

/-- An entry of the take: a late one posts LATE just before it is handed over (R41). -/
def runEntry (e : TakeEntry) (s : State) : State :=
  runCommand e.command (if e.late then s.post (.late e.command.code) .advisory .none else s)

/-! ### Forming and handing out the take (R42, R43) -/

/-- The front entry of the schedule list joins the take when its target is the present picture number (R42). -/
def dueEntry (s : State) : State :=
  match s.control.schedule with
  | [] => s
  | e :: rest =>
    if e.target = s.ref.picture then
      { s with
        control :=
          { s.control with schedule := rest, take := s.control.take ++ [{ command := e.command, late := false }] } }
    else s

/-- All due entries, at most `n`. -/
def dueEntries : Nat → State → State
  | 0, s => s
  | n + 1, s => dueEntries n (dueEntry s)

/-- The take: the due entries in list order, then the take list in arrival order, which is then empty (R42). -/
def formTake (s : State) : State :=
  let due := dueEntries s.control.schedule.length s
  { due with
    control :=
      { due.control with
        take := due.control.take ++ due.control.takeList, fill := due.control.takeList.length, takeList := [] } }

/-- Hands out the commands of the take in order; `n` bounds their number (R43). A RESET empties what remains (R46). -/
def handOut : Nat → State → State
  | 0, s => s
  | n + 1, s =>
    match s.control.take with
    | [] => s
    | e :: rest => handOut n (runEntry e { s with control := { s.control with take := rest } })

/-! ### The lanes as the take leaves them (R163) -/

/-- Whether a command is a RESET that is not refused (R46). -/
def Command.resets (c : Command) : Bool :=
  match c with
  | .reset scope => scope = 0 || scope = 1
  | _ => false

/-- Whether a command takes a LOCKED lane out of LOCKED: RESYNC of the lane, or RESET(FULL) (R25, R29). -/
def Command.unlocks (n : LaneId) (c : Command) : Bool :=
  match c with
  | .resync lane => readLane lane = some n
  | .reset scope => scope = 1
  | _ => false

/-- Whether the commands of a take that are carried out, up to a RESET, leave a LOCKED lane in LOCKED (R20, R46, R163,
log 26). -/
def keepsLock (n : LaneId) : List TakeEntry → Bool
  | [] => true
  | e :: rest =>
    if Command.unlocks n e.command then false
    else if Command.resets e.command then true
    else keepsLock n rest

/-- Whether a lane is LOCKED after its work of this switch line, the lane commands of the take included (R163, log 26). -/
def lockedAfterTake (s : State) (n : LaneId) : Bool :=
  lockedNow s n && keepsLock n s.control.take

end Sys2Proof.Machine
end

