-- ==== Sys2Proof/Machine/Collector.lean ====
section
/-! DEFINITION. The packet collector: the check of a packet, the cutting of its payload, the reading of each command, and AT
(R31 to R35, R38, R182 to R186). -/

namespace Sys2Proof.Machine

/-! ### Reading parameters (R182, R184, R186) -/

/-- A 2-byte number. -/
def word16 (hi lo : Byte) : Word16 :=
  hi ++ lo

/-- A 3-byte picture number. -/
def picture24 (hi mid lo : Byte) : PictureNumber :=
  hi ++ mid ++ lo

/-- 2-byte numbers laid end to end. -/
def readWords : List Byte → Option (List Word16)
  | [] => some []
  | [_] => none
  | hi :: lo :: rest => (readWords rest).map (word16 hi lo :: ·)

/-- The optional bytes of a keyframe record, in the order of R186, with the bytes that follow. -/
def readOptional (present : Bool) (bytes : List Byte) : Option (Option Byte × List Byte) :=
  if present then
    (match bytes with
    | [] => none
    | b :: rest => some (some b, rest))
  else some (none, bytes)

/-- One keyframe record and the bytes that follow it; a fields byte above 7 or a record cut short is not read (R186). -/
def readRecord : List Byte → Option (KeyframeBytes × List Byte)
  | t1 :: t0 :: d1 :: d0 :: sync :: fields :: rest =>
    if fields.toNat > 7 then none
    else
      match readOptional (fields.getLsbD 0) rest with
      | none => none
      | some (on, rest1) =>
        match readOptional (fields.getLsbD 1) rest1 with
        | none => none
        | some (off, rest2) =>
          match readOptional (fields.getLsbD 2) rest2 with
          | none => none
          | some (preset, rest3) =>
            some
              ({ target := word16 t1 t0, duration := word16 d1 d0, sync := sync, layerOn := on, layerOff := off,
                 preset := preset }, rest3)
  | _ => none

/-- The records of LOAD_KEYFRAMES, which fill the parameters exactly (R186); `n` bounds their number. -/
def readRecords : Nat → List Byte → Option (List KeyframeBytes)
  | 0, _ => none
  | n + 1, bytes =>
    match readRecord bytes with
    | none => none
    | some (r, []) => some [r]
    | some (r, next :: rest) => (readRecords n (next :: rest)).map (r :: ·)

/-- A command by its code and parameters, as R184 lists them. The outer `none` is no command code; the inner `none` a parameter
count that the command does not allow. AT is read apart (R185). -/
def readCommand (code : Byte) (params : List Byte) : Option (Option Command) :=
  match code.toNat with
  | 2 => some (match params with | [h, m, l] => some (.cancel (picture24 h m l)) | _ => none)
  | 3 => some (match params with | [] => some .cancelAll | _ => none)
  | 4 => some (match params with | [scope] => some (.reset scope) | _ => none)
  | 16 => some (match params with | [lane, settle, fallback] => some (.laneSet lane settle fallback) | _ => none)
  | 17 => some (match params with | [lane] => some (.resync lane) | _ => none)
  | 32 => some (match params with | [me, bus, source] => some (.select me bus source) | _ => none)
  | 33 => some (match params with | [source] => some (.auxSelect source) | _ => none)
  | 34 =>
    some
      (match params with
      | [y1, y0, b1, b0, r1, r0] => some (.matte (word16 y1 y0) (word16 b1 b0) (word16 r1 r0))
      | _ => none)
  | 48 =>
    some
      (match params with
      | curve :: bytes =>
        (match readWords bytes with
        | none => none
        | some words =>
          if h : words.length = 65 then some (.loadCurve curve ⟨words.toArray, by simpa using h⟩) else none)
      | _ => none)
  | 49 =>
    some
      (match params with
      | [me, shape, reverse, s1, s0] => some (.wipeSet me shape reverse (word16 s1 s0))
      | _ => none)
  | 50 =>
    some
      (match params with
      | [me, layer, kind, c1, c0, gain, invert] => some (.keySet me layer kind (word16 c1 c0) gain invert)
      | _ => none)
  | 51 =>
    some
      (match params with
      | [me, layer] => some (.maskSet me layer none)
      | [me, layer, l1, l0, r1, r0, t1, t0, b1, b0] =>
        some
          (.maskSet me layer
            (some
              { left := word16 l1 l0, right := word16 r1 r0, top := word16 t1 t0, bottom := word16 b1 b0 }))
      | _ => none)
  | 64 =>
    some (match params with | [me, kind, r1, r0, curve] => some (.transSet me kind (word16 r1 r0) curve) | _ => none)
  | 65 => some (match params with | [me, selection] => some (.nextSet me selection) | _ => none)
  | 66 => some (match params with | [me] => some (.cut me) | _ => none)
  | 67 => some (match params with | [me] => some (.auto me) | _ => none)
  | 68 => some (match params with | [me, v1, v0] => some (.lever me (word16 v1 v0)) | _ => none)
  | 80 => some (match params with | [me, layer] => some (.layerOn me layer) | _ => none)
  | 81 => some (match params with | [me, layer] => some (.layerOff me layer) | _ => none)
  | 82 => some (match params with | [me, layer, r1, r0] => some (.layerRate me layer (word16 r1 r0)) | _ => none)
  | 83 =>
    some
      (match params with
      | [me, first, second, third, fourth] => some (.order me first second third fourth)
      | _ => none)
  | 84 => some (match params with | [me, layer] => some (.raise me layer) | _ => none)
  | 85 => some (match params with | [me, layer] => some (.lower me layer) | _ => none)
  | 96 =>
    some
      (match params with
      | me :: first :: bytes => (readRecords bytes.length bytes).map (.loadKeyframes me first)
      | _ => none)
  | 97 =>
    some
      (match params with
      | [me, count, endMode, loops] => some (.runSet me count endMode loops)
      | _ => none)
  | 98 => some (match params with | [me] => some (.run me) | _ => none)
  | 99 => some (match params with | [me] => some (.step me) | _ => none)
  | 100 => some (match params with | [me] => some (.hold me) | _ => none)
  | 101 => some (match params with | [me] => some (.abort me) | _ => none)
  | 112 => some (match params with | [slot, source] => some (.grab slot source) | _ => none)
  | 113 => some (match params with | [slot] => some (.clear slot) | _ => none)
  | 128 =>
    some
      (match params with
      | [info, advisory, degraded] => some (.noticeMask info advisory degraded)
      | _ => none)
  | 129 => some (match params with | [] => some .clearSummary | _ => none)
  | _ => none

/-! ### AT (R38, R39, R185) -/

/-- An AT whose own count is at least 5, with the inner command's code, count and parameters (R38, R185). -/
def collectAt (target : PictureNumber) (innerCode innerCount : Byte) (inner : List Byte) (s : State) : State :=
  if inner.length ≠ innerCount.toNat then s.refuse atCode .length .none
  else if innerCode = atCode then s.refuse atCode .target .none
  else
    match readCommand innerCode inner with
    | none => s.refuse innerCode .unknown .none
    | some none => s.refuse innerCode .length .none
    | some (some c) => placeTimed target c s

/-- An AT by its parameter bytes (R185). -/
def collectAtBytes (params : List Byte) (s : State) : State :=
  match params with
  | h :: m :: l :: innerCode :: innerCount :: inner => collectAt (picture24 h m l) innerCode innerCount inner s
  | _ => s.refuse atCode .length .none

/-! ### Cutting a payload (R35) -/

/-- One command of a payload (R35). -/
def collectCommand (code : Byte) (params : List Byte) (s : State) : State :=
  if code = atCode then collectAtBytes params s
  else
    match readCommand code params with
    | none => s.refuse code .unknown .none
    | some none => s.refuse code .length .none
    | some (some c) => appendTake c false s

/-- The commands of a payload, back to back; `n` bounds their number (R35). -/
def cutPayload : Nat → List Byte → State → State
  | 0, _, s => s
  | _ + 1, [], s => s
  | _ + 1, [_], s => s.post (.packet .length) .advisory .none
  | n + 1, code :: count :: rest, s =>
    if rest.length < count.toNat then s.post (.packet .length) .advisory .none
    else cutPayload n (rest.drop count.toNat) (collectCommand code (rest.take count.toNat) s)

/-! ### Checking a packet (R32 to R34, R183) -/

/-- The payload of a packet that passes the check of R33: count in 1–248, carrier long enough, sum 0. -/
def checkedPayload (afterKind : List Byte) : Option (List Byte) :=
  match afterKind with
  | [] => none
  | count :: rest =>
    if 1 ≤ count.toNat ∧ count.toNat ≤ 248 ∧ count.toNat + 1 ≤ rest.length
        ∧ byteSum (count :: rest.take (count.toNat + 1)) = 0 then
      some (rest.take count.toNat)
    else none

/-- A packet addressed to this part: checked, counted and cut (R33 to R35). -/
def collectPacket (afterKind : List Byte) (s : State) : State :=
  match checkedPayload afterKind with
  | none => s.post (.packet .check) .advisory .none
  | some payload =>
    if s.control.packets < 16 then
      cutPayload payload.length payload { s with control := { s.control with packets := s.control.packets + 1 } }
    else if s.control.excess then s
    else { s with control := { s.control with excess := true } }.post (.packet .excess) .advisory .none

/-- A candidate: a control packet for this unit has the kind 200 plus the unit number; any other is passed over (R32, R183). -/
def collectCarrier (carrier : List Byte) (s : State) : State :=
  match carrier with
  | [] => s
  | kind :: afterKind => if kind.toNat = 200 + s.unit.toNat then collectPacket afterKind s else s

/-- The last byte of a candidate arrives: it is collected while the unit is LOCKED and every byte was passed, and held between a
switch line and its report line (R12, R31). -/
def packetArrives (whole : Bool) (carrier : List Byte) (s : State) : State :=
  if s.isLocked && whole then
    (if s.awaitingReport then { s with held := s.held ++ [.packet carrier] } else collectCarrier carrier s)
  else s

end Sys2Proof.Machine
end

