-- ==== Sys2Proof/Machine/ReferenceTiming.lean ====
section
/-! DEFINITION. The reference timing unit: judged pictures, missing starts and the reference state (R5 to R14). -/

namespace Sys2Proof.Machine

/-- The class of a REFERENCE notice: DEGRADED when the new state is FREE_RUN (R14). -/
def referenceClass (r : RefName) : NoticeClass :=
  if r = .freeRun then .degraded else .info

/-- Writes the reference state. -/
def setStatus (r : RefStatus) (s : State) : State :=
  { s with ref := { s.ref with status := r } }

/-- Posts REFERENCE with the state as it stands (R14). -/
def postReference (s : State) : State :=
  s.post (.reference s.ref.status.name) (referenceClass s.ref.status.name) .none

/-- A change of reference state posts REFERENCE at its event, except while a recorded format change waits (R9, R14). -/
def changeStatus (r : RefStatus) (s : State) : State :=
  let t := setStatus r s
  if t.ref.change.isSome then t else postReference t

/-- Step 1 of R9: the house format becomes the candidate, and a change from the format held is recorded. -/
def recordFormat (f : HouseFormat) (s : State) : State :=
  let change := if f ≠ s.ref.house ∧ s.ref.change.isNone then some s.ref.house else s.ref.change
  { s with ref := { s.ref with house := f, change := change } }

/-- The coming switch line is the one that R9 places, after `lines` lines of the active picture of the period in progress. -/
def placeSwitchLine (lines : Nat) (s : State) : State :=
  { s with ref := { s.ref with placed := some lines } }

/-- The unit enters LOCKED (R9). -/
def enterLocked (f : HouseFormat) (lines : Nat) (s : State) : State :=
  changeStatus (.locked 0 .arrived) (placeSwitchLine lines (recordFormat f s))

/-- A judged picture by the reference state: `some f` is a picture of format f, `none` is unsupported (R7, R8, R10, R11).
`lines` is of use when the picture enters LOCKED (R9). -/
def judgePicture (picture : Option HouseFormat) (lines : Nat) (s : State) : State :=
  match s.ref.status, picture with
  | .noReference, some f => changeStatus (.locking f 1 .noReference .arrived) s
  | .noReference, none => s
  | .freeRun, some f => changeStatus (.locking f 1 .freeRun .arrived) s
  | .freeRun, none => s
  | .locking candidate good back _, some f =>
    if f = candidate then
      (if good + 1 ≥ 8 then enterLocked candidate lines s else setStatus (.locking candidate (good + 1) back .arrived) s)
    else setStatus (.locking f 1 back .arrived) s
  | .locking _ _ back _, none => changeStatus back.status s
  | .locked .., some f => if f = s.ref.house then setStatus (.locked 0 .arrived) s else changeStatus .freeRun s
  | .locked .., none => changeStatus .freeRun s

/-- The expected start is measured from a start that arrived (R5). -/
def rebase : RefStatus → RefStatus
  | .noReference => .noReference
  | .locking candidate good back _ => .locking candidate good back .arrived
  | .locked missed _ => .locked missed .arrived
  | .freeRun => .freeRun

/-- The span from the previous start that arrived to the start at which the picture in progress begins: one period when the expected
start was missing, of the candidate format in LOCKING and of the house format in LOCKED, else none (R5). -/
def expectedLead (r : ReferenceUnit) : Nat :=
  match r.status with
  | .noReference => 0
  | .locking _ _ _ .arrived => 0
  | .locking candidate _ _ .missing => candidate.period
  | .locked _ .arrived => 0
  | .locked _ .missing => r.house.period
  | .freeRun => 0

/-- The picture that a start ends: measured from the previous expected start when that was missing, else from the previous start
that arrived (R5). -/
def measuredPicture (r : ReferenceUnit) (x : ReferenceStart) : PictureMeasure :=
  { x.picture with length := x.picture.length - expectedLead r }

/-- Whether a start begins a picture and judges nothing: the first one, and one after a span of more than two periods of the house
format in which no start arrived (R5). -/
def beginsOnly (r : ReferenceUnit) (x : ReferenceStart) : Bool :=
  !r.begun || 2 * r.house.period < x.picture.length

/-- A reference picture start is acted on: the first start, or one after a gap, begins a picture and judges nothing; any other
ends a picture, which is classified and judged (R5). -/
def actStart (x : ReferenceStart) (s : State) : State :=
  if beginsOnly s.ref x then { s with ref := { s.ref with begun := true, status := rebase s.ref.status } }
  else judgePicture (measuredPicture s.ref x).format x.lines s

/-- A missing start is acted on (R8, R10). In NO_REFERENCE and FREE_RUN no start is expected (R5). -/
def actMissing (s : State) : State :=
  match s.ref.status with
  | .noReference => s
  | .locking _ _ back _ => changeStatus back.status s
  | .locked missed _ => if missed = 0 then setStatus (.locked 1 .missing) s else changeStatus .freeRun s
  | .freeRun => s

/-- An event of the reference input is held between a switch line and its report line (R2). -/
def hold (e : HeldEvent) (s : State) : State :=
  { s with held := s.held ++ [e] }

/-- REFERENCE_PICTURE_START (R2, R5). -/
def referenceStart (x : ReferenceStart) (s : State) : State :=
  if s.awaitingReport then hold (.start x) s else actStart x s

/-- MISSING_START (R2, R8, R10). -/
def referenceMissing (s : State) : State :=
  if s.awaitingReport then hold .missing s else actMissing s

end Sys2Proof.Machine
end

