-- ==== Sys2Proof/Machine/TallyUnit.lean ====
section
/-! DEFINITION. The tally unit: programme and preview contributions and the two sets with their expansions (R168 to R171). -/

namespace Sys2Proof.Machine

/-- The set that holds one source's code; codes 35 to 37 are in no set (R168, R170). -/
def sourceBit (src : Source) : TallySet :=
  BitVec.ofNat 35 (2 ^ src.code)

/-- The sources of a layer: its FILL bus and, for LINEAR, its CUT bus (R169). -/
def layerSources (x : Buses) (kind : KeyKind) (l : LayerId) : TallySet :=
  match kind with
  | .luma => sourceBit x.fill[l]
  | .linear => sourceBit x.fill[l] ||| sourceBit x.cut[l]

/-- The union of the sources of the layers that `shown` picks. -/
def layersSet (m : Me) (x : Buses) (shown : LayerId → Bool) : TallySet :=
  allLayers.foldl (fun set l => if shown l then set ||| layerSources x (m.layer l).kind l else set) 0

/-- The sources of the background of a programme (R169). -/
def backgroundSet (m : Me) (x : Buses) : TallySet :=
  if !m.drive.isRest && hasBkgd m.selection then
    sourceBit x.a ||| sourceBit x.b ||| (if m.kind = .dip then sourceBit x.dip else 0)
  else sourceBit x.a

/-- The programme contribution of a bank (R169). -/
def programmeContribution (m : Me) (x : Buses) : TallySet :=
  backgroundSet m x
    ||| layersSet m x (fun l => !(m.layer l).state.isOff || (hasLayer m.selection l && !m.drive.isRest))

/-- The preview contribution of a bank (R171). -/
def previewContribution (m : Me) (x : Buses) : TallySet :=
  (if hasBkgd m.selection then sourceBit x.b else sourceBit x.a)
    ||| layersSet m x (fun l => afterOn (hasLayer m.selection l) (m.layer l).state)

/-- The slots that stand in for the lanes of a set that are not LOCKED (R170). -/
def fallbackSet (s : State) (set : TallySet) : TallySet :=
  allLanes.foldl
    (fun acc n =>
      if set.getLsbD (laneCode n) && (s.lane n).state ≠ .locked then
        (match (s.lane n).fallback with
        | none => acc
        | some m => acc ||| sourceBit (.slot m))
      else acc)
    0

/-- One pass of the two expansions, each reading the set at the start of the pass (R170). -/
def expandPass (s : State) (set : TallySet) : TallySet :=
  set ||| (if set.getLsbD 25 then programmeContribution (s.me .a) (s.buses .a) else 0) ||| fallbackSet s set

/-- The expansions, which end after at most three passes (R170). -/
def expand (s : State) (set : TallySet) : TallySet :=
  expandPass s (expandPass s (expandPass s set))

/-- The on-air set (R170). -/
def onAirSet (s : State) : TallySet :=
  expand s (programmeContribution (s.me .b) (s.buses .b))

/-- The preview set: the expanded preview contribution without the on-air set (R171). -/
def previewSet (s : State) : TallySet :=
  expand s (previewContribution (s.me .b) (s.buses .b)) &&& ~~~(onAirSet s)

/-- The tally unit forms both sets afresh (R168). -/
def formTally (s : State) : State :=
  { s with tally := { onAir := onAirSet s, preview := previewSet s } }

end Sys2Proof.Machine
end

