-- ==== Sys2Proof/Machine/PictureLines.lean ====
section
/-! DEFINITION. The two events of a picture period: the switch line, with or without a change of house format, and the report
line (R1 to R3, R13, R14, R42, R43, R168, R178). -/

namespace Sys2Proof.Machine

/-! ### The switch line -/

/-- The other field of a frame (R1). -/
def otherField : FieldParity → FieldParity
  | .first => .second
  | .second => .first

/-- Whether the coming switch line follows the reference input: in LOCKED (R10), and at the place of R9 when LOCKED has been left
before it. Every other switch line comes from internal timing (R6). -/
def State.followsReference (s : State) : Bool :=
  s.isLocked || s.ref.placed.isSome

/-- The field of the period that the coming switch line begins: in a progressive format every period is a frame (R1). The first
switch line after the power-on values is that of a first field (R15). One that follows the reference begins the field `p` of the
reference's picture (R10, log 8), and internal timing gives the two fields of a frame in turn (R1, R11). -/
def State.nextParity (s : State) (p : FieldParity) : FieldParity :=
  if !s.ref.house.interlaced || !s.ref.started then .first
  else if s.followsReference then p
  else otherField s.parity

/-- A picture period begins: the picture number rises by 1 (R3), the field is that of the switch line (R1), the switch line
that R9 placed has come, the collector's count and flag are reset (R34), and the span until the report line opens (R2). -/
def beginPeriod (p : FieldParity) (s : State) : State :=
  { s with
    ref := { s.ref with picture := s.ref.picture + 1, placed := none, started := true }
    parity := s.nextParity p
    awaitingReport := true
    control := { s.control with packets := 0, excess := false } }

/-- The banks' and the store's own work on a state whose take is formed; `before` is the state in the period just ended (R92, R161). -/
def ownWork (before formed : State) : State :=
  storeWork before (lockedAfterTake formed) (banksWork formed)

/-- The whole take is handed out (R43). -/
def handOutTake (s : State) : State :=
  handOut s.control.take.length s

/-- An ordinary switch line: every block's own work, then the take (R20, R42, R43, R92, R161, R173). -/
def plainSwitchLine (p : FieldParity) (s : State) : State :=
  handOutTake (ownWork s (formTake (lanesWork s (beginPeriod p s))))

/-- At a change of house format every still slot is emptied and the recorded change is carried out (R13, R167). -/
def emptyForChange (s : State) : State :=
  { s with store := s.store.emptied, ref := { s.ref with change := none } }

/-- The actions of R13 on a state in which the blocks have done their own work: the ENGINE scope as though first in the take, and
every still slot emptied (R13, R167). -/
def carryOutChange (s : State) : State :=
  emptyForChange (resetEngine s)

/-- The banks' and the store's own work at the switch line of a format change, where no lane is LOCKED (R13, R30, R163). -/
def ownWorkAtChange (before formed : State) : State :=
  storeWork before (fun _ => false) (banksWork formed)

/-- Posts FORMAT with the new house format (R13). -/
def postFormat (s : State) : State :=
  s.post (.format s.ref.house) .info .none

/-- The switch line that carries out a recorded change of house format (R13, R14, R30, R167): the take is formed and discarded, and the
REFERENCE, FORMAT and LANE notices come after the queue has been emptied. -/
def formatSwitchLine (p : FieldParity) (s : State) : State :=
  lanesFormatNotices s
    (postFormat (postReference (carryOutChange (ownWorkAtChange s (formTake (lanesFormatChange s (beginPeriod p s)))))))

/-- SWITCH_LINE: with a change recorded it is the first switch line of the new house format (R9, R13). -/
def switchLine (p : FieldParity) (s : State) : State :=
  if s.ref.change.isSome then formatSwitchLine p s else plainSwitchLine p s

/-- FORMAT_CHANGE: the switch line of a recorded change; without one there is no change to carry out (R13, log 3). -/
def formatChangeLine (p : FieldParity) (s : State) : State :=
  if s.ref.change.isSome then formatSwitchLine p s else s

/-! ### The report line -/

/-- A held event is acted on. A packet held after an event that ended LOCKED is discarded (R2, R31). -/
def actHeld (e : HeldEvent) (s : State) : State :=
  match e with
  | .start x => actStart x s
  | .missing => actMissing s
  | .packet carrier => if s.isLocked then collectCarrier carrier s else s

/-- The span since the switch line closes and the held events are taken, in arrival order (R2, R31). -/
def releaseHeld (s : State) : State :=
  s.held.foldl (fun t e => actHeld e t) { s with awaitingReport := false, held := [] }

/-- The report line of the period in progress: tally sets, report packet, then the held events (R2, R31, R168, R178). A period has
one report line, after its switch line (R1). -/
def reportLine (s : State) : State :=
  if s.awaitingReport then releaseHeld (sendReport (formTally s)) else s

end Sys2Proof.Machine
end

