-- ==== Sys2Proof/Machine/Meanings.lean ====
section
/-! DEFINITION. The meaning of each command: one definition for each constructor of `Instr`. Every command completes; while the
RESET pin is asserted the blocks carry out nothing (R15). -/

namespace Sys2Proof.Machine

/-- The outcome of a meaning: the part goes on. -/
abbrev Result := Host.Outcome State Fault Refusal

/-! ### Events of the inputs and steps of the blocks -/

/-- POWER_ON_RESET: every block takes its power-on values and the unit number is read from the strap pins; a RESET pin that is
asserted stays asserted (R15, R32, log 11). -/
def execPowerOnReset (straps : BitVec 2) (s : State) : Result :=
  .next (restarted straps s.resetPin s)

/-- RESET_PIN_ASSERT: every block holds its power-on values; the unit number is held until the release (R15, R32). -/
def execResetPinAssert (s : State) : Result :=
  .next (restarted s.unit true s)

/-- RESET_PIN_RELEASE: every field takes its power-on value, internal timing begins in 1080i50 and the unit number is read
(R15, R32). -/
def execResetPinRelease (straps : BitVec 2) (s : State) : Result :=
  .next (restarted straps false s)

/-- REFERENCE_PICTURE_START (R2, R5, R7 to R11). -/
def execReferencePictureStart (start : ReferenceStart) (s : State) : Result :=
  .next (s.live (referenceStart start))

/-- MISSING_START (R2, R5, R8, R10). -/
def execMissingStart (s : State) : Result :=
  .next (s.live referenceMissing)

/-- SWITCH_LINE (R3, R20, R42, R43, R92, R161); the operand is the field of the reference's picture, where the switch line follows
the reference (R1, R10, log 8). -/
def execSwitchLine (parity : FieldParity) (s : State) : Result :=
  .next (s.live (switchLine parity))

/-- REPORT_LINE (R2, R31, R168, R178). -/
def execReportLine (s : State) : Result :=
  .next (s.live reportLine)

/-- CONTROL_PACKET: the last byte of a candidate arrives; `whole` says that its first byte arrived in the same spell of LOCKED
(R12, R31 to R35, log 15). -/
def execControlPacket (whole : Bool) (carrier : List Byte) (s : State) : Result :=
  .next (s.live (packetArrives whole carrier))

/-- SCHEDULED_ENTRY_DUE (R42, log 3). -/
def execScheduledEntryDue (s : State) : Result :=
  .next (s.live dueEntry)

/-- FORMAT_CHANGE (R13, R30, R89, R167, log 3). -/
def execFormatChange (parity : FieldParity) (s : State) : Result :=
  .next (s.live (formatChangeLine parity))

/-- LANE_SIGNAL_CHANGE: what the lane input carries does not depend on the RESET pin (R17). -/
def execLaneSignalChange (lane : LaneId) (signal : Bool) (s : State) : Result :=
  .next (laneSignal lane signal s)

/-- LANE_PICTURE_START (R18, R22). -/
def execLanePictureStart (lane : LaneId) (start : LaneStart) (s : State) : Result :=
  .next (s.live (laneStart lane start))

/-- LANE_LOCK (R21, R26, R27, log 3). -/
def execLaneLock (lane : LaneId) (s : State) : Result :=
  .next (s.live (Machine.laneLock lane))

/-- FADE_END (R115, log 3). -/
def execFadeEnd (bank : BankId) (layer : LayerId) (s : State) : Result :=
  .next (s.live (Machine.fadeEnd bank layer))

/-- AUTO_COMPLETION_DUE (R93, R94, log 3). -/
def execAutoCompletionDue (bank : BankId) (s : State) : Result :=
  .next (s.live (Machine.autoCompletionDue bank))

/-- SEGMENT_END (R137 to R144, log 3). -/
def execSegmentEnd (bank : BankId) (s : State) : Result :=
  .next (s.live (Machine.segmentEnd bank))

/-- SYNC_RELEASE (R142, log 3). -/
def execSyncRelease (bank : BankId) (s : State) : Result :=
  .next (s.live (Machine.syncRelease bank))

/-- GRAB_COMPLETION (R161, log 3, log 23). -/
def execGrabCompletion (slot : SlotId) (s : State) : Result :=
  .next (s.live (Machine.grabCompletion slot))

/-- GRAB_BEGIN (R162, log 3). -/
def execGrabBegin (slot : SlotId) (s : State) : Result :=
  .next (s.live (Machine.grabBegin slot))

/-- GRAB_WAIT_TIMEOUT (R162, log 3). -/
def execGrabWaitTimeout (slot : SlotId) (s : State) : Result :=
  .next (s.live (Machine.grabWaitTimeout slot))

/-- AT, as dealt with at collection (R38, R39, R40, R185). -/
def execAtPicture (target : PictureNumber) (innerCode innerCount : Byte) (inner : List Byte) (s : State) : Result :=
  .next (s.live (collectAt target innerCode innerCount inner))

/-- CANCEL(target) (R44). -/
def execCancel (target : PictureNumber) (s : State) : Result :=
  .next (s.live (doCancel target))

/-- CANCEL_ALL (R45). -/
def execCancelAll (s : State) : Result :=
  .next (s.live doCancelAll)

/-- RESET(ENGINE) (R46, R47, R49). -/
def execResetEngine (s : State) : Result :=
  .next (s.live Machine.resetEngine)

/-- RESET(FULL) (R46, R48, R49). -/
def execResetFull (s : State) : Result :=
  .next (s.live Machine.resetFull)

/-! ### Commands of the control processor, each as carried out at its place in a take (R43, log 4) -/

/-- LANE_SET(lane, settle, fallback) (R24). -/
def execLaneSet (lane settle fallback : Byte) (s : State) : Result :=
  .next (s.live (doLaneSet lane settle fallback))

/-- RESYNC(lane) (R25). -/
def execResync (lane : Byte) (s : State) : Result :=
  .next (s.live (doResync lane))

/-- SELECT(me, bus, source) (R56, R57). -/
def execSelect (me bus source : Byte) (s : State) : Result :=
  .next (s.live (doSelect me bus source))

/-- AUX_SELECT(source) (R61). -/
def execAuxSelect (source : Byte) (s : State) : Result :=
  .next (s.live (doAuxSelect source))

/-- MATTE(Y, Cb, Cr) (R62). -/
def execMatte (y cb cr : Word16) (s : State) : Result :=
  .next (s.live (doMatte y cb cr))

/-- LOAD_CURVE(curve, points) (R74). -/
def execLoadCurve (curve : Byte) (points : Vector Word16 65) (s : State) : Result :=
  .next (s.live (doLoadCurve curve points))

/-- WIPE_SET(me, shape, reverse, softness) (R76). -/
def execWipeSet (me shape reverse : Byte) (softness : Word16) (s : State) : Result :=
  .next (s.live (doWipeSet me shape reverse softness))

/-- KEY_SET(me, layer, kind, clip, gain, invert) (R81). -/
def execKeySet (me layer kind : Byte) (clip : Word16) (gain invert : Byte) (s : State) : Result :=
  .next (s.live (doKeySet me layer kind clip gain invert))

/-- MASK_SET(me, layer, box or none) (R83). -/
def execMaskSet (me layer : Byte) (box : Option BoxWords) (s : State) : Result :=
  .next (s.live (doMaskSet me layer box))

/-- TRANS_SET(me, type, rate, curve) (R97, R98). -/
def execTransSet (me kind : Byte) (rate : Word16) (curve : Byte) (s : State) : Result :=
  .next (s.live (doTransSet me kind rate curve))

/-- NEXT_SET(me, selection) (R99). -/
def execNextSet (me selection : Byte) (s : State) : Result :=
  .next (s.live (doNextSet me selection))

/-- CUT(me) (R100). -/
def execCut (me : Byte) (s : State) : Result :=
  .next (s.live (doCut me))

/-- AUTO(me) (R101 to R103). -/
def execAuto (me : Byte) (s : State) : Result :=
  .next (s.live (doAuto me))

/-- LEVER(me, value) (R104 to R108). -/
def execLever (me : Byte) (value : Word16) (s : State) : Result :=
  .next (s.live (doLever me value))

/-- LAYER_ON(me, layer) (R116, R117). -/
def execLayerOn (me layer : Byte) (s : State) : Result :=
  .next (s.live (doLayerOn me layer))

/-- LAYER_OFF(me, layer) (R116, R118). -/
def execLayerOff (me layer : Byte) (s : State) : Result :=
  .next (s.live (doLayerOff me layer))

/-- LAYER_RATE(me, layer, rate) (R120). -/
def execLayerRate (me layer : Byte) (rate : Word16) (s : State) : Result :=
  .next (s.live (doLayerRate me layer rate))

/-- ORDER(me, first, second, third, fourth) (R125). -/
def execOrder (me first second third fourth : Byte) (s : State) : Result :=
  .next (s.live (doOrder me first second third fourth))

/-- RAISE(me, layer) (R126). -/
def execRaise (me layer : Byte) (s : State) : Result :=
  .next (s.live (doRaise me layer))

/-- LOWER(me, layer) (R127). -/
def execLower (me layer : Byte) (s : State) : Result :=
  .next (s.live (doLower me layer))

/-- LOAD_KEYFRAMES(me, first index, records) (R134). -/
def execLoadKeyframes (me first : Byte) (records : List KeyframeBytes) (s : State) : Result :=
  .next (s.live (doLoadKeyframes me first records))

/-- RUN_SET(me, count, end, loops) (R135). -/
def execRunSet (me count endMode loops : Byte) (s : State) : Result :=
  .next (s.live (doRunSet me count endMode loops))

/-- RUN(me) (R146). -/
def execRun (me : Byte) (s : State) : Result :=
  .next (s.live (doRun me))

/-- STEP(me) (R147). -/
def execStep (me : Byte) (s : State) : Result :=
  .next (s.live (doStep me))

/-- HOLD(me) (R148). -/
def execHold (me : Byte) (s : State) : Result :=
  .next (s.live (doHold me))

/-- ABORT(me) (R150). -/
def execAbort (me : Byte) (s : State) : Result :=
  .next (s.live (doAbort me))

/-- GRAB(slot, source) (R157). -/
def execGrab (slot source : Byte) (s : State) : Result :=
  .next (s.live (doGrab slot source))

/-- CLEAR(slot) (R158). -/
def execClear (slot : Byte) (s : State) : Result :=
  .next (s.live (doClear slot))

/-- NOTICE_MASK(INFO, ADVISORY, DEGRADED) (R177). -/
def execNoticeMask (info advisory degraded : Byte) (s : State) : Result :=
  .next (s.live (doNoticeMask info advisory degraded))

/-- CLEAR_SUMMARY (R177). -/
def execClearSummary (s : State) : Result :=
  .next (s.live doClearSummary)

end Sys2Proof.Machine
end

