-- ==== Sys2Proof/Machine/Dispatch.lean ====
section
/-! DEFINITION. Each command goes to its meaning. -/

namespace Sys2Proof.Machine

/-- One direct call of a meaning for each constructor. -/
def exec (i : Instr) (s : State) : Host.Outcome State Fault Refusal :=
  match i with
  | .powerOnReset straps => Sys2Proof.Machine.execPowerOnReset straps s
  | .resetPinAssert => Sys2Proof.Machine.execResetPinAssert s
  | .resetPinRelease straps => Sys2Proof.Machine.execResetPinRelease straps s
  | .referencePictureStart start => Sys2Proof.Machine.execReferencePictureStart start s
  | .missingStart => Sys2Proof.Machine.execMissingStart s
  | .switchLine parity => Sys2Proof.Machine.execSwitchLine parity s
  | .reportLine => Sys2Proof.Machine.execReportLine s
  | .controlPacket whole carrier => Sys2Proof.Machine.execControlPacket whole carrier s
  | .scheduledEntryDue => Sys2Proof.Machine.execScheduledEntryDue s
  | .formatChange parity => Sys2Proof.Machine.execFormatChange parity s
  | .laneSignalChange lane signal => Sys2Proof.Machine.execLaneSignalChange lane signal s
  | .lanePictureStart lane start => Sys2Proof.Machine.execLanePictureStart lane start s
  | .laneLock lane => Sys2Proof.Machine.execLaneLock lane s
  | .fadeEnd bank layer => Sys2Proof.Machine.execFadeEnd bank layer s
  | .autoCompletionDue bank => Sys2Proof.Machine.execAutoCompletionDue bank s
  | .segmentEnd bank => Sys2Proof.Machine.execSegmentEnd bank s
  | .syncRelease bank => Sys2Proof.Machine.execSyncRelease bank s
  | .grabCompletion slot => Sys2Proof.Machine.execGrabCompletion slot s
  | .grabBegin slot => Sys2Proof.Machine.execGrabBegin slot s
  | .grabWaitTimeout slot => Sys2Proof.Machine.execGrabWaitTimeout slot s
  | .atPicture target innerCode innerCount inner => Sys2Proof.Machine.execAtPicture target innerCode innerCount inner s
  | .cancel target => Sys2Proof.Machine.execCancel target s
  | .cancelAll => Sys2Proof.Machine.execCancelAll s
  | .resetEngine => Sys2Proof.Machine.execResetEngine s
  | .resetFull => Sys2Proof.Machine.execResetFull s
  | .laneSet lane settle fallback => Sys2Proof.Machine.execLaneSet lane settle fallback s
  | .resync lane => Sys2Proof.Machine.execResync lane s
  | .select me bus source => Sys2Proof.Machine.execSelect me bus source s
  | .auxSelect source => Sys2Proof.Machine.execAuxSelect source s
  | .matte y cb cr => Sys2Proof.Machine.execMatte y cb cr s
  | .loadCurve curve points => Sys2Proof.Machine.execLoadCurve curve points s
  | .wipeSet me shape reverse softness => Sys2Proof.Machine.execWipeSet me shape reverse softness s
  | .keySet me layer kind clip gain invert => Sys2Proof.Machine.execKeySet me layer kind clip gain invert s
  | .maskSet me layer box => Sys2Proof.Machine.execMaskSet me layer box s
  | .transSet me kind rate curve => Sys2Proof.Machine.execTransSet me kind rate curve s
  | .nextSet me selection => Sys2Proof.Machine.execNextSet me selection s
  | .cut me => Sys2Proof.Machine.execCut me s
  | .auto me => Sys2Proof.Machine.execAuto me s
  | .lever me value => Sys2Proof.Machine.execLever me value s
  | .layerOn me layer => Sys2Proof.Machine.execLayerOn me layer s
  | .layerOff me layer => Sys2Proof.Machine.execLayerOff me layer s
  | .layerRate me layer rate => Sys2Proof.Machine.execLayerRate me layer rate s
  | .order me first second third fourth => Sys2Proof.Machine.execOrder me first second third fourth s
  | .raise me layer => Sys2Proof.Machine.execRaise me layer s
  | .lower me layer => Sys2Proof.Machine.execLower me layer s
  | .loadKeyframes me first records => Sys2Proof.Machine.execLoadKeyframes me first records s
  | .runSet me count endMode loops => Sys2Proof.Machine.execRunSet me count endMode loops s
  | .run me => Sys2Proof.Machine.execRun me s
  | .step me => Sys2Proof.Machine.execStep me s
  | .hold me => Sys2Proof.Machine.execHold me s
  | .abort me => Sys2Proof.Machine.execAbort me s
  | .grab slot source => Sys2Proof.Machine.execGrab slot source s
  | .clear slot => Sys2Proof.Machine.execClear slot s
  | .noticeMask info advisory degraded => Sys2Proof.Machine.execNoticeMask info advisory degraded s
  | .clearSummary => Sys2Proof.Machine.execClearSummary s

end Sys2Proof.Machine
end

