-- ==== Sys2Proof/Safety.lean ====
section
/-! DEFINITION. What holds in every state of a sound run, block by block: the limits and relations that the rules give the state.
Each predicate is kept by every step; together they are `State.sound`. Then the words in which statements speak of what a run
comes to at a switch line and of several commands: rows carried out in turn, the row that a command of a take is, and the bytes that
a command is sent in. -/

namespace Sys2Proof.Machine

/-! ### Lanes (R16) -/

/-- R16: settle is 1 to 15, good-count 0 to 14, and good-count is 0 in ABSENT and LOCKED. R26: a LOCKED lane has no
resync pending. -/
def Lane.sound (l : Lane) : Prop :=
  1 ≤ l.settle ∧ l.settle ≤ 15 ∧ l.good ≤ 14 ∧ (l.state ≠ .acquiring → l.good = 0) ∧ (l.state = .locked → l.resync = false)

/-- Every lane record is sound. -/
def State.lanesSound (s : State) : Prop :=
  ∀ n : LaneId, (s.lane n).sound

/-! ### Reference timing unit (R6) -/

/-- R6: the good count in LOCKING is 1 to 7 between events and the missing count in LOCKED 0 to 1. -/
def RefStatus.sound : RefStatus → Prop
  | .noReference => True
  | .locking _ good _ _ => 1 ≤ good ∧ good ≤ 7
  | .locked missed _ => missed ≤ 1
  | .freeRun => True

/-- R2, R31: events are held only between a switch line and its report line. -/
def State.heldSound (s : State) : Prop :=
  s.awaitingReport = false → s.held = []

/-! ### Take unit (R34, R36, R37, R40) -/

/-- R36: the limits of the lists and of the window's packet count. -/
def State.listsBounded (s : State) : Prop :=
  s.control.takeList.length ≤ 128 ∧ s.control.schedule.length ≤ 64 ∧ s.control.packets ≤ 16

/-- R40: during a window each target is N or a future picture relative to N, and the list is ordered by distance, nearest first. -/
def State.scheduleOrdered (s : State) : Prop :=
  (∀ e ∈ s.control.schedule, distance (nextPicture s) e.target ≤ 8388607) ∧
    s.control.schedule.Pairwise (fun e f => distance (nextPicture s) e.target ≤ distance (nextPicture s) f.target)

/-! ### Matrix (R54, R55) -/

/-- R55: every bus of the bank holds a source legal on the bank. -/
def State.busesLegal (s : State) : Prop :=
  ∀ (bank : BankId) (k : Bus), legalOn bank ((s.buses bank).get k) = true

/-- R54: each matte component lies in 4–1019. -/
def State.matteSound (s : State) : Prop :=
  (4 ≤ s.matrix.matte.y.toNat ∧ s.matrix.matte.y.toNat ≤ 1019) ∧
    (4 ≤ s.matrix.matte.cb.toNat ∧ s.matrix.matte.cb.toNat ≤ 1019) ∧
    (4 ≤ s.matrix.matte.cr.toNat ∧ s.matrix.matte.cr.toNat ≤ 1019)

/-! ### Curve store (R72) -/

/-- R72: point 0 is 0, point 64 is 1024, and each point is at least the point before it. -/
def Curve.sound (table : Curve) : Prop :=
  table[0] = 0 ∧ table[64] = 1024 ∧ ∀ i : Fin 64, table[i.val] ≤ table[i.val + 1]

/-- Every table of the curve store is sound. -/
def State.curvesSound (s : State) : Prop :=
  ∀ k : CurveId, (s.curve k).sound

/-! ### Layers (R113, R114, R124) -/

/-- R113: the counter of a fade lies in 1 to Rf − 1. -/
def LayerState.sound : LayerState → Prop
  | .off => True
  | .rising c rf => 1 ≤ c ∧ c < rf
  | .on => True
  | .falling c rf => 1 ≤ c ∧ c < rf

/-- R113: the rate of a layer is 1 to 999 and its fade is sound. -/
def Layer.sound (l : Layer) : Prop :=
  1 ≤ l.rate ∧ l.rate ≤ 999 ∧ l.state.sound

/-- R113, R124: the layers of a bank are sound and its stacking order holds each layer exactly once. -/
def Me.layersSound (m : Me) : Prop :=
  (∀ l : LayerId, (m.layer l).sound) ∧ m.order.Perm [0, 1, 2, 3]

/-! ### Transition and run (R90, R91, R109, R133, R135, R136) -/

/-- R133: a record's target is 0–4096 and its duration 1–999. -/
def Keyframe.sound (k : Keyframe) : Prop :=
  k.target ≤ 4096 ∧ 1 ≤ k.duration ∧ k.duration ≤ 999

/-- R90, R91: what P may be in each drive state, with the auto record of AUTO. -/
def Me.positionSound (m : Me) : Prop :=
  match m.drive with
  | .rest => m.position = 0
  | .manual => 1 ≤ m.position ∧ m.position ≤ 4096
  | .auto start span k =>
    start ≤ 4096 ∧ 1 ≤ k ∧ k ≤ span ∧ span ≤ 999 ∧ m.position = autoPosition start span k
  | .keyed => m.position ≤ 4096

/-- R136, R137: where the index, start and counter of the run record lie, by run state. -/
def Me.runSound (m : Me) : Prop :=
  match m.run.state with
  | .idle => m.run = Run.idle
  | .running => m.run.index ≤ 32 ∧ m.run.start ≤ 4096 ∧ m.run.counter ≤ (m.entry m.run.index).duration ∧
      (m.run.counter ≠ 0 → m.run.index < m.count)
  | .holding => m.run.index ≤ 32 ∧ m.run.start ≤ 4096 ∧ m.run.counter ≤ (m.entry m.run.index).duration ∧
      (m.run.counter ≠ 0 → m.run.index < m.count)
  | .waiting _ => m.run.counter = 0 ∧ m.run.index < m.count ∧ m.run.start ≤ 4096
  | .paused => m.run.counter = 0 ∧ m.run.index ≤ 32 ∧ m.run.start ≤ 4096

/-- R90, R109, R135, R136: the transition and run of a bank; a bank is KEYED exactly while its run is not IDLE. -/
def Me.driveSound (m : Me) : Prop :=
  1 ≤ m.rate ∧ m.rate ≤ 999 ∧ m.positionSound ∧ (m.drive = .keyed ↔ m.run.state ≠ .idle) ∧ m.count ≤ 32 ∧ m.loops ≤ 63 ∧
    m.runSound ∧ m.run.passes ≤ 63 ∧ ∀ i : Fin 32, (m.table[i]).sound

/-! ### Still store (R154, R156, R162) -/

/-- Whether a slot is GRABBING. -/
def SlotState.isGrabbing : SlotState → Bool
  | .idle => false
  | .waiting => false
  | .grabbing .. => true

/-- R156: queue and ports against the slots. The queue holds at most four entries, one for each WAITING slot and none for any
other, with wait counts 0–7 and sources 1–25; the ports capture into exactly the GRABBING slots, each into one. -/
def Store.sound (x : Store) : Prop :=
  x.queue.length ≤ 4 ∧ (x.queue.map (·.slot)).Nodup ∧ (∀ e ∈ x.queue, e.wait ≤ 7 ∧ 1 ≤ e.source.code ∧ e.source.code ≤ 25) ∧
    (∀ m : SlotId, x.slots[m].state = .waiting ↔ m ∈ x.queue.map (·.slot)) ∧
    (∀ m : SlotId, x.slots[m].state.isGrabbing = true ↔ x.ports[0] = some m ∨ x.ports[1] = some m) ∧
    (x.ports[0] = none ∨ x.ports[0] ≠ x.ports[1])

/-! ### Tally and notices (R168, R171, R174) -/

/-- R171: the on-air set and the preview set are disjoint. -/
def State.tallyDisjoint (s : State) : Prop :=
  s.tally.onAir &&& s.tally.preview = 0

/-- R174: the queue holds at most 32 notices and never two LANE notices for the same lane. -/
def ReportBuilder.sound (r : ReportBuilder) : Prop :=
  r.queue.length ≤ 32 ∧ r.queue.Pairwise (fun p q => p.sameLane q = false)

/-! ### The whole part -/

/-- Everything above, for both banks. -/
def State.sound (s : State) : Prop :=
  s.lanesSound ∧ s.ref.status.sound ∧ s.heldSound ∧ s.listsBounded ∧ s.scheduleOrdered ∧ s.busesLegal ∧
    s.matteSound ∧ s.curvesSound ∧ (∀ bank : BankId, (s.me bank).layersSound) ∧ (∀ bank : BankId, (s.me bank).driveSound) ∧ s.store.sound ∧
    s.tallyDisjoint ∧ s.notices.sound

/-! ### What the step of a run comes to at a switch line (R137 to R143) -/

/-- A KEYED run reaches index `i` with its pass not over: RUNNING or HOLDING before its entry has begun, or RUNNING at the end of a
segment (R137, R138). -/
def Me.reaches (m : Me) (i : Nat) : Prop :=
  m.drive = .keyed ∧
    (m.run.counter = 0 ∧ (m.run.state = .running ∨ m.run.state = .holding) ∧ i = m.run.index ∨
      m.run.counter ≠ 0 ∧ m.run.state = .running ∧ (m.entry m.run.index).duration ≤ m.run.counter ∧ i = m.run.index + 1)

/-- The run arrives at entry `j` with `passes` passes left: the entry it reaches, or entry 0 of the next pass (R139, R143). -/
def Me.arrivesAt (m : Me) (j passes : Nat) : Prop :=
  ∃ i : Nat,
    m.reaches i ∧
      (i < m.count ∧ j = i ∧ passes = m.run.passes ∨
        m.count ≤ i ∧ 1 ≤ m.count ∧ m.endMode = .loop ∧ m.run.passes ≠ 1 ∧ j = 0 ∧ passes = m.run.passes - 1)

/-- The run arrives at a sync entry (R141). -/
def Me.meets (m : Me) : Prop :=
  ∃ j passes : Nat, m.arrivesAt j passes ∧ (m.entry j).sync = true

/-- The run ends at the end of a pass: RUNNING or HOLDING at an index at or beyond the count, before its entry has begun or past the
segment it has played, with no pass to follow (R138, R143, R144). -/
def Me.endsRun (m : Me) : Prop :=
  m.drive = .keyed ∧ (m.run.state = .running ∨ m.run.state = .holding) ∧
    (m.run.counter = 0 ∧ m.count ≤ m.run.index ∨
      m.run.counter ≠ 0 ∧ (m.entry m.run.index).duration ≤ m.run.counter ∧ m.count ≤ m.run.index + 1) ∧
    (m.endMode = .stop ∨ m.run.passes = 1 ∨ m.count = 0)

/-! ### Rows carried out in turn -/

/-- The state after a list of rows, each carried out on what the one before it left. -/
def carryOut : List Instr → State → State
  | [], s => s
  | c :: rest, s =>
    match exec c s with
    | .next t => carryOut rest t
    | .fault _ => s
    | .refused _ => s

/-- The row that a held event is when it is acted on (R2, R31). -/
def rowOfHeld : HeldEvent → Instr
  | .start x => .referencePictureStart x
  | .missing => .missingStart
  | .packet carrier => .controlPacket true carrier

/-! ### Commands of a take as rows of the table -/

/-- The row of spec/opcode_table.json that a command of a take is; RESET has a row for each legal scope (R46, R184). -/
def rowOf : Command → Option Instr
  | .cancel target => some (.cancel target)
  | .cancelAll => some .cancelAll
  | .reset scope => if scope = 0 then some .resetEngine else if scope = 1 then some .resetFull else none
  | .laneSet lane settle fallback => some (.laneSet lane settle fallback)
  | .resync lane => some (.resync lane)
  | .select me bus source => some (.select me bus source)
  | .auxSelect source => some (.auxSelect source)
  | .matte y cb cr => some (.matte y cb cr)
  | .loadCurve curve points => some (.loadCurve curve points)
  | .wipeSet me shape reverse softness => some (.wipeSet me shape reverse softness)
  | .keySet me layer kind clip gain invert => some (.keySet me layer kind clip gain invert)
  | .maskSet me layer box => some (.maskSet me layer box)
  | .transSet me kind rate curve => some (.transSet me kind rate curve)
  | .nextSet me selection => some (.nextSet me selection)
  | .cut me => some (.cut me)
  | .auto me => some (.auto me)
  | .lever me value => some (.lever me value)
  | .layerOn me layer => some (.layerOn me layer)
  | .layerOff me layer => some (.layerOff me layer)
  | .layerRate me layer rate => some (.layerRate me layer rate)
  | .order me first second third fourth => some (.order me first second third fourth)
  | .raise me layer => some (.raise me layer)
  | .lower me layer => some (.lower me layer)
  | .loadKeyframes me first records => some (.loadKeyframes me first records)
  | .runSet me count endMode loops => some (.runSet me count endMode loops)
  | .run me => some (.run me)
  | .step me => some (.step me)
  | .hold me => some (.hold me)
  | .abort me => some (.abort me)
  | .grab slot source => some (.grab slot source)
  | .clear slot => some (.clear slot)
  | .noticeMask info advisory degraded => some (.noticeMask info advisory degraded)
  | .clearSummary => some .clearSummary

/-! ### The parameter bytes of a command (R182, R184, R186) -/

/-- A number in one byte for each flag given, weights 1, 2 and 4. -/
def fieldsByte (first second third : Bool) : Byte :=
  byteOf ((if first then 1 else 0) + (if second then 2 else 0) + (if third then 4 else 0))

/-- A 2-byte number, most significant byte first (R182). -/
def wordBytes (w : Word16) : List Byte :=
  [byteOf (w.toNat / 256), byteOf (w.toNat % 256)]

/-- A keyframe record as it is sent (R186). -/
def recordBytes (r : KeyframeBytes) : List Byte :=
  wordBytes r.target ++ wordBytes r.duration ++
    [r.sync, fieldsByte r.layerOn.isSome r.layerOff.isSome r.preset.isSome] ++ r.layerOn.toList ++ r.layerOff.toList ++
    r.preset.toList

/-- The parameters of a command in the order and widths of R184. -/
def paramBytes : Command → List Byte
  | .cancel target => [byteOf (target.toNat / 65536), byteOf (target.toNat / 256 % 256), byteOf (target.toNat % 256)]
  | .cancelAll => []
  | .reset scope => [scope]
  | .laneSet lane settle fallback => [lane, settle, fallback]
  | .resync lane => [lane]
  | .select me bus source => [me, bus, source]
  | .auxSelect source => [source]
  | .matte y cb cr => wordBytes y ++ wordBytes cb ++ wordBytes cr
  | .loadCurve curve points => curve :: points.toList.flatMap wordBytes
  | .wipeSet me shape reverse softness => [me, shape, reverse] ++ wordBytes softness
  | .keySet me layer kind clip gain invert => [me, layer, kind] ++ wordBytes clip ++ [gain, invert]
  | .maskSet me layer none => [me, layer]
  | .maskSet me layer (some box) =>
    [me, layer] ++ wordBytes box.left ++ wordBytes box.right ++ wordBytes box.top ++ wordBytes box.bottom
  | .transSet me kind rate curve => [me, kind] ++ wordBytes rate ++ [curve]
  | .nextSet me selection => [me, selection]
  | .cut me => [me]
  | .auto me => [me]
  | .lever me value => me :: wordBytes value
  | .layerOn me layer => [me, layer]
  | .layerOff me layer => [me, layer]
  | .layerRate me layer rate => [me, layer] ++ wordBytes rate
  | .order me first second third fourth => [me, first, second, third, fourth]
  | .raise me layer => [me, layer]
  | .lower me layer => [me, layer]
  | .loadKeyframes me first records => [me, first] ++ records.flatMap recordBytes
  | .runSet me count endMode loops => [me, count, endMode, loops]
  | .run me => [me]
  | .step me => [me]
  | .hold me => [me]
  | .abort me => [me]
  | .grab slot source => [slot, source]
  | .clear slot => [slot]
  | .noticeMask info advisory degraded => [info, advisory, degraded]
  | .clearSummary => []

end Sys2Proof.Machine
end

