-- ==== Sys2Proof/Certificates/Slice0/Obligations.lean ====
section
/-! DEFINITION. The statements for the provers, one Prop for each. -/

open Sys2Proof Sys2Proof.Machine

/-! ### The queue, the RESET pin and the reset values -/

/-- The command at the front of the queue runs on the state with the rest of the queue; an empty queue idles (log 1). -/
def Obligations.StepRunsTheFrontCommand : Prop :=
  ∀ (c : Instr) (s : State) (rest : List Instr),
    step { s with pending := c :: rest } = exec c { s with pending := rest } ∧
      step { s with pending := [] } = .next { s with pending := [] }

/-- Every command answers a next state and leaves the waiting commands as they are (log 1). That no command faults or is refused
is the model's reading of the spec (log 22, DEDUCED). -/
def Obligations.EveryCommandCompletesAndKeepsTheQueue : Prop :=
  ∀ (c : Instr) (s : State), ∃ t : State, exec c s = .next t ∧ t.pending = s.pending

/-- R15, R32: power-on reset and both edges of the RESET pin give every block its power-on values; the unit number is read
at the release, and the detectors follow their inputs. While the pin is asserted no other event changes anything. -/
def Obligations.ResetPinGivesPowerOnValues : Prop :=
  (∀ (s : State) (straps : BitVec 2),
    exec (.powerOnReset straps) s =
        .next
          { State.reset with
            resetPin := s.resetPin
            unit := straps
            lanes := s.lanes.map (fun l => { Lane.powerOn with detector := l.detector })
            pending := s.pending } ∧
      exec .resetPinAssert s =
        .next
          { State.reset with
            resetPin := true
            unit := s.unit
            lanes := s.lanes.map (fun l => { Lane.powerOn with detector := l.detector })
            pending := s.pending } ∧
      exec (.resetPinRelease straps) s =
        .next
          { State.reset with
            resetPin := false
            unit := straps
            lanes := s.lanes.map (fun l => { Lane.powerOn with detector := l.detector })
            pending := s.pending }) ∧
    ∀ (c : Instr) (s : State), s.resetPin = true →
      match c with
      | .powerOnReset _ => True
      | .resetPinAssert => True
      | .resetPinRelease _ => True
      | .laneSignalChange _ _ => True
      | _ => exec c s = .next s

/-- The power-on values that R6, R16, R36, R54, R72, R76, R81, R83, R90, R113, R124, R133, R135, R136, R154, R156, R168, R176
and R177 list. -/
def Obligations.PowerOnValuesOfEveryBlock : Prop :=
  (State.reset.ref.status = .noReference ∧ State.reset.ref.house = .hd1080i50 ∧ State.reset.ref.picture = 0) ∧
    (∀ n : LaneId,
      (State.reset.lane n).state = .absent ∧ (State.reset.lane n).good = 0 ∧ (State.reset.lane n).settle = 4 ∧
        (State.reset.lane n).fallback = none ∧ (State.reset.lane n).resync = false) ∧
    (State.reset.control.takeList = [] ∧ State.reset.control.schedule = [] ∧ State.reset.control.packets = 0 ∧
      State.reset.control.excess = false) ∧
    (∀ (bank : BankId) (k : Bus), (State.reset.buses bank).get k = .black) ∧
    (State.reset.matrix.aux = .meBProgramme ∧ State.reset.matrix.matte = { y := 64, cb := 512, cr := 512 }) ∧
    (∀ (c : CurveId) (i : Fin 65), (State.reset.curve c)[i.val] = 16 * i.val) ∧
    (∀ bank : BankId,
      let m := State.reset.me bank
      m.kind = .mix ∧ m.rate = 25 ∧ m.curve = none ∧ m.selection = 1 ∧ m.drive = .rest ∧ m.position = 0 ∧
        m.sense = .forward ∧ m.pickup = true ∧ m.wipe = { shape := .horizontal, reverse := false, softness := 0 } ∧
        m.order = [0, 1, 2, 3] ∧ m.count = 0 ∧ m.endMode = .stop ∧ m.loops = 0 ∧ m.mark = false ∧
        m.run = { state := .idle, index := 0, start := 0, counter := 0, passes := 0 }) ∧
    (∀ (bank : BankId) (l : LayerId),
      (State.reset.me bank).layer l =
        { state := .off, rate := 25, kind := .luma, clip := 64, gain := 16, invert := false, mask := none }) ∧
    (∀ (bank : BankId) (i : Fin 32),
      (State.reset.me bank).table[i] =
        { target := 0, duration := 1, sync := false, layerOn := 0, layerOff := 0, preset := none }) ∧
    (∀ m : SlotId, State.reset.slot m = { state := .idle, content := none }) ∧
    (State.reset.store.queue = [] ∧ State.reset.store.ports[0] = none ∧ State.reset.store.ports[1] = none) ∧
    (State.reset.tally.onAir = 0 ∧ State.reset.tally.preview = 0) ∧
    (State.reset.notices.queue = [] ∧ State.reset.notices.lost = false) ∧
    (State.reset.notices.enabled = { info := true, advisory := true, degraded := true } ∧
      State.reset.notices.summary = { info := false, advisory := false, degraded := false } ∧
      State.reset.notices.recent = { info := false, advisory := false, degraded := false })

/-- The state after reset has every property that the step invariants below keep. -/
def Obligations.StateAfterResetIsSound : Prop :=
  State.reset.sound

/-- R182: how naming parameters, choices and sets are read from their bytes. R53, R55: which source codes exist and which are
legal on the buses of each bank. R184, R186: a code and a list of bytes are a command exactly when they are its code and its
parameters in the order and widths of the table. R50, R188: the subject of a command's refusal, in the bytes that the command gave; that
RAISE and LOWER name the bank alone when they are refused FULL is the model's reading (log 14, DEDUCED). -/
def Obligations.ParameterCodesAndLegalSources : Prop :=
  (∀ b : Byte, readBank b = if b = 0 then some .a else if b = 1 then some .b else none) ∧
    (∀ (b : Byte) (n : LaneId), readLane b = some n ↔ b.toNat = n.val + 1) ∧
    (∀ (b : Byte) (l : LayerId), readLayer b = some l ↔ b.toNat = l.val + 1) ∧
    (∀ (b : Byte) (m : SlotId), readSlot b = some m ↔ b.toNat = m.val + 1) ∧
    (∀ (b : Byte) (c : CurveId), readLoadableCurve b = some c ↔ b.toNat = c.val + 1) ∧
    (∀ (b : Byte) (l : LayerId),
      (readBus b = some (.fill l) ↔ b.toNat = l.val + 3) ∧ (readBus b = some (.cut l) ↔ b.toNat = l.val + 7)) ∧
    (∀ b : Byte,
      (readBus b = some .a ↔ b = 0) ∧ (readBus b = some .b ↔ b = 1) ∧ (readBus b = some .dip ↔ b = 2) ∧
        (readBus b = none ↔ 10 < b.toNat)) ∧
    (∀ b : Byte,
      (readSelection b = none ↔ 31 < b.toNat) ∧ (readLayerSet b = none ↔ 15 < b.toNat) ∧
        (readSwitch b = if b = 0 then some false else if b = 1 then some true else none)) ∧
    (∀ (b : Byte) (sel : Selection),
      readSelection b = some sel ↔
        b.toNat =
          (if hasBkgd sel then 1 else 0) + (if hasLayer sel 0 then 2 else 0) + (if hasLayer sel 1 then 4 else 0) +
            (if hasLayer sel 2 then 8 else 0) + (if hasLayer sel 3 then 16 else 0)) ∧
    (∀ (b : Byte) (set : LayerSet),
      readLayerSet b = some set ↔
        b.toNat =
          (if inLayerSet set 0 then 1 else 0) + (if inLayerSet set 1 then 2 else 0) + (if inLayerSet set 2 then 4 else 0) +
            (if inLayerSet set 3 then 8 else 0)) ∧
    (∀ b : Byte,
      (readTransitionType b =
          if b = 0 then some .cut else if b = 1 then some .mix else if b = 2 then some .wipe else if b = 3 then some .dip
          else none) ∧
        (readWipeShape b =
          if b = 0 then some .horizontal else if b = 1 then some .vertical else if b = 2 then some .box
          else if b = 3 then some .diamond else none) ∧
        (readKeyKind b = if b = 0 then some .luma else if b = 1 then some .linear else none) ∧
        (readEndMode b = if b = 0 then some .stop else if b = 1 then some .loop else none) ∧
        (readCurveNumber b = some none ↔ b = 0) ∧ (readCurveNumber b = none ↔ 4 < b.toNat) ∧
        ∀ c : CurveId, readCurveNumber b = some (some c) ↔ b.toNat = c.val + 1) ∧
    (∀ (b : Byte) (src : Source), readSource b = some src ↔ b.toNat = src.code) ∧
    (∀ b : Byte, (readSource b).isSome = true ↔ b.toNat ≤ 37) ∧
    (∀ (bank : BankId) (b : Byte),
      (readBusSource bank b).isSome = true ↔ b.toNat ≤ 34 ∧ (bank = .a → b.toNat ≠ 25)) ∧
    (∀ (code : Byte) (params : List Byte) (c : Command),
      readCommand code params = some (some c) ↔
        code = c.code ∧ params = paramBytes c ∧ ∀ me first records, c = .loadKeyframes me first records → records ≠ []) ∧
    (∀ (code : Byte) (params : List Byte),
      readCommand code params = none ↔
        code.toNat ∉
          [2, 3, 4, 16, 17, 32, 33, 34, 48, 49, 50, 51, 64, 65, 66, 67, 68, 80, 81, 82, 83, 84, 85, 96, 97, 98, 99, 100, 101,
            112, 113, 128, 129]) ∧
    ∀ c : Command,
      match c with
      | .laneSet lane _ _ => c.subject = .lane lane
      | .resync lane => c.subject = .lane lane
      | .loadCurve curve _ => c.subject = .curve curve
      | .grab slot _ => c.subject = .slot slot
      | .clear slot => c.subject = .slot slot
      | .keySet me layer _ _ _ _ => c.subject = .layer me layer
      | .maskSet me layer _ => c.subject = .layer me layer
      | .layerOn me layer => c.subject = .layer me layer
      | .layerOff me layer => c.subject = .layer me layer
      | .layerRate me layer _ => c.subject = .layer me layer
      | .select me _ _ => c.subject = .me me
      | .wipeSet me _ _ _ => c.subject = .me me
      | .transSet me _ _ _ => c.subject = .me me
      | .nextSet me _ => c.subject = .me me
      | .cut me => c.subject = .me me
      | .auto me => c.subject = .me me
      | .lever me _ => c.subject = .me me
      | .order me _ _ _ _ => c.subject = .me me
      | .raise me _ => c.subject = .me me
      | .lower me _ => c.subject = .me me
      | .loadKeyframes me _ _ => c.subject = .me me
      | .runSet me _ _ _ => c.subject = .me me
      | .run me => c.subject = .me me
      | .step me => c.subject = .me me
      | .hold me => c.subject = .me me
      | .abort me => c.subject = .me me
      | _ => c.subject = .none

/-! ### Picture numbers and the reference timing unit -/

/-- R4: the distance from one picture number to another, and the same, future and past pictures. -/
def Obligations.DistanceOrdersPictureNumbers : Prop :=
  ∀ x y : PictureNumber,
    distance x y = (y.toNat + 16777216 - x.toNat) % 16777216 ∧
      (relation x y = .same ↔ distance x y = 0) ∧
      (relation x y = .future ↔ 1 ≤ distance x y ∧ distance x y ≤ 8388607) ∧
      (relation x y = .past ↔ 8388608 ≤ distance x y)

/-- R3, R34, R36, R42: a switch line begins a picture period with the next picture number, empties the take list, resets the
collector's count and flag, reports the fill, and leaves the reference state, house format, tally sets, unit number and the
report packet sent as they were. R15, R1, R10: the field it begins, which is the first after the power-on values, that of the operand
where the switch line follows the reference (log 8), and the other field of the frame on internal timing. The switch line that R9
placed has come. A switch line without a report line before it keeps what is held (log 9). -/
def Obligations.SwitchLineBeginsAPeriod : Prop :=
  ∀ (s : State) (p : FieldParity), s.resetPin = false →
    ∃ t : State,
      exec (.switchLine p) s = .next t ∧
        t.ref = { s.ref with picture := s.ref.picture + 1, change := none, placed := none, started := true } ∧
        t.awaitingReport = true ∧ t.held = s.held ∧
        t.parity =
            (if s.ref.house.interlaced = false ∨ s.ref.started = false then .first
            else if s.ref.status.name = .locked ∨ s.ref.placed ≠ none then p
            else if s.parity = .first then .second
            else .first) ∧
        t.control.takeList = [] ∧ t.control.take = [] ∧ t.control.fill = s.control.takeList.length ∧
        t.control.packets = 0 ∧ t.control.excess = false ∧
        t.resetPin = false ∧ t.unit = s.unit ∧ t.tally = s.tally ∧ t.report = s.report ∧ t.pending = s.pending

/-- R2, R31: between a switch line and its report line, reference events and complete packets are held. R5: the first start, or a start
after more than two periods of the house format without one, begins a picture and judges nothing, in every reference state. R5, R1:
a measured picture is of the format whose line structure, interlace and length it has, lengths in units of 1/299,700 second
(log 5), and unsupported when it is of none. -/
def Obligations.HeldEventsAndTheFirstStart : Prop :=
  (∀ s : State, s.resetPin = false → s.awaitingReport = true →
    (∀ x : ReferenceStart, exec (.referencePictureStart x) s = .next { s with held := s.held ++ [.start x] }) ∧
      exec .missingStart s = .next { s with held := s.held ++ [.missing] } ∧
      ∀ carrier : List Byte, s.ref.status.name = .locked →
        exec (.controlPacket true carrier) s = .next { s with held := s.held ++ [.packet carrier] }) ∧
    (∀ (m : PictureMeasure) (f : HouseFormat),
      m.format = some f ↔
        m.total = (if f = .uhd2160p50 ∨ f = .uhd2160p5994 then 2250 else 1125) ∧
          m.samples = (if f = .uhd2160p50 ∨ f = .uhd2160p5994 then 3840 else 1920) ∧
          m.active = (if f = .uhd2160p50 ∨ f = .uhd2160p5994 then 2160 else 1080) ∧
          (m.interlaced = true ↔ f = .hd1080i50 ∨ f = .hd1080i5994) ∧ m.length = f.period) ∧
    (∀ f : HouseFormat,
      (f = .hd1080i50 ∨ f = .hd1080p50 ∨ f = .uhd2160p50 → 50 * f.period = 299700) ∧
        (f = .hd1080i5994 ∨ f = .hd1080p5994 ∨ f = .uhd2160p5994 → 5994 * f.period = 299700 * 100)) ∧
    ∀ (s : State) (x : ReferenceStart),
      s.resetPin = false → s.awaitingReport = false → (2 * s.ref.house.period < x.picture.length ∨ s.ref.begun = false) →
        ∃ r : RefStatus,
          exec (.referencePictureStart x) s = .next { s with ref := { s.ref with begun := true, status := r } } ∧
            (s.ref.status = .noReference → r = .noReference) ∧
            (∀ candidate good back e,
              s.ref.status = .locking candidate good back e → r = .locking candidate good back .arrived) ∧
            (∀ missed e, s.ref.status = .locked missed e → r = .locked missed .arrived) ∧
            (s.ref.status = .freeRun → r = .freeRun)

/-- R7: what NO_REFERENCE does with a judged picture, classified as R5 says, and with the loss of the reference input. FREE_RUN does the same with return
state FREE_RUN (R11, R5), where MISSING_START does nothing (log 24). While a recorded format change waits, the change of state
posts no notice (R9). -/
def Obligations.UnlockedStatesActOnAPicture : Prop :=
  (∀ (s : State) (x : ReferenceStart),
    s.resetPin = false → s.awaitingReport = false → x.picture.length ≤ 2 * s.ref.house.period → s.ref.begun = true → s.ref.change = none →
      s.ref.status = .noReference →
        (∀ f : HouseFormat, x.picture.format = some f →
          exec (.referencePictureStart x) s =
            .next
              (State.post { s with ref := { s.ref with status := .locking f 1 .noReference .arrived } }
                (.reference .locking) .info .none)) ∧
          (x.picture.format = none → exec (.referencePictureStart x) s = .next s) ∧
          exec .missingStart s = .next s) ∧
    (∀ (s : State) (x : ReferenceStart),
      s.resetPin = false → s.awaitingReport = false → x.picture.length ≤ 2 * s.ref.house.period → s.ref.begun = true → s.ref.change = none →
        s.ref.status = .freeRun →
          (∀ f : HouseFormat, x.picture.format = some f →
            exec (.referencePictureStart x) s =
              .next
                (State.post { s with ref := { s.ref with status := .locking f 1 .freeRun .arrived } }
                  (.reference .locking) .info .none)) ∧
            (x.picture.format = none → exec (.referencePictureStart x) s = .next s) ∧
            exec .missingStart s = .next s) ∧
    ∀ (s : State) (x : ReferenceStart) (back : ReturnState),
      s.resetPin = false → s.awaitingReport = false → x.picture.length ≤ 2 * s.ref.house.period → s.ref.begun = true → s.ref.change ≠ none →
        s.ref.status = back.status →
          (∀ f : HouseFormat, x.picture.format = some f →
            exec (.referencePictureStart x) s =
              .next { s with ref := { s.ref with status := .locking f 1 back .arrived } }) ∧
            (x.picture.format = none → exec (.referencePictureStart x) s = .next s) ∧
            exec .missingStart s = .next s

/-- R8, R9: what LOCKING does with a judged picture and with a missing start. The eighth picture of the candidate enters LOCKED;
with another house format it records the change and its REFERENCE notice waits. The coming switch line is then the one that R9
places, after the lines of the active picture that the start gives (log 19). While a recorded change waits, no change of state
posts a notice, and a second change keeps the format of the period in progress (log 27). -/
def Obligations.LockingActsOnPicturesAndMisses : Prop :=
  (∀ (s : State) (x : ReferenceStart) (candidate : HouseFormat) (good : Nat) (back : ReturnState) (e : ExpectedFrom)
    (picture : Option HouseFormat),
    s.resetPin = false → s.awaitingReport = false → x.picture.length ≤ 2 * s.ref.house.period → s.ref.begun = true → s.ref.change = none →
      s.ref.status = .locking candidate good back e →
      picture =
          (if e = .arrived then x.picture.format
          else PictureMeasure.format { x.picture with length := x.picture.length - candidate.period }) →
        (picture = some candidate → good < 7 →
          exec (.referencePictureStart x) s =
            .next { s with ref := { s.ref with status := .locking candidate (good + 1) back .arrived } }) ∧
          (picture = some candidate → good = 7 → candidate = s.ref.house →
            exec (.referencePictureStart x) s =
              .next
                (State.post { s with ref := { s.ref with status := .locked 0 .arrived, placed := some x.lines } } (.reference .locked)
                  .info .none)) ∧
          (picture = some candidate → good = 7 → candidate ≠ s.ref.house →
            exec (.referencePictureStart x) s =
              .next
                { s with
                  ref :=
                    { s.ref with
                      status := .locked 0 .arrived
                      house := candidate
                      change := some s.ref.house
                      placed := some x.lines } }) ∧
          (∀ other : HouseFormat, picture = some other → other ≠ candidate →
            exec (.referencePictureStart x) s =
              .next { s with ref := { s.ref with status := .locking other 1 back .arrived } }) ∧
          (back = .noReference →
            (picture = none →
              exec (.referencePictureStart x) s =
                .next
                  (State.post { s with ref := { s.ref with status := .noReference } } (.reference .noReference) .info
                    .none)) ∧
              exec .missingStart s =
                .next
                  (State.post { s with ref := { s.ref with status := .noReference } } (.reference .noReference) .info
                    .none)) ∧
          (back = .freeRun →
            (picture = none →
              exec (.referencePictureStart x) s =
                .next
                  (State.post { s with ref := { s.ref with status := .freeRun } } (.reference .freeRun) .degraded .none)) ∧
              exec .missingStart s =
                .next
                  (State.post { s with ref := { s.ref with status := .freeRun } } (.reference .freeRun) .degraded .none))) ∧
    ∀ (s : State) (x : ReferenceStart) (candidate : HouseFormat) (good : Nat) (back : ReturnState) (e : ExpectedFrom)
      (picture : Option HouseFormat),
      s.resetPin = false → s.awaitingReport = false → x.picture.length ≤ 2 * s.ref.house.period → s.ref.begun = true → s.ref.change ≠ none →
        s.ref.status = .locking candidate good back e →
        picture =
            (if e = .arrived then x.picture.format
            else PictureMeasure.format { x.picture with length := x.picture.length - candidate.period }) →
          (picture = some candidate → good < 7 →
            exec (.referencePictureStart x) s =
              .next { s with ref := { s.ref with status := .locking candidate (good + 1) back .arrived } }) ∧
            (picture = some candidate → good = 7 →
              exec (.referencePictureStart x) s =
                .next
                  { s with ref := { s.ref with status := .locked 0 .arrived, house := candidate, placed := some x.lines } }) ∧
            (∀ other : HouseFormat, picture = some other → other ≠ candidate →
              exec (.referencePictureStart x) s =
                .next { s with ref := { s.ref with status := .locking other 1 back .arrived } }) ∧
            (picture = none →
              exec (.referencePictureStart x) s = .next { s with ref := { s.ref with status := back.status } }) ∧
            exec .missingStart s = .next { s with ref := { s.ref with status := back.status } }

/-- R10, R9: what LOCKED does with a judged picture and with a missing start. R5: after a missing start the picture is measured from
the expected start, one house period after the last start that arrived. While a recorded format change waits, leaving LOCKED
posts no notice. -/
def Obligations.LockedActsOnPicturesAndMisses : Prop :=
  ∀ (s : State) (x : ReferenceStart) (missed : Nat) (e : ExpectedFrom) (picture : Option HouseFormat) (left : State),
    s.resetPin = false → s.awaitingReport = false → x.picture.length ≤ 2 * s.ref.house.period → s.ref.begun = true →
      s.ref.status = .locked missed e →
      picture =
        (if e = .arrived then x.picture.format
        else PictureMeasure.format { x.picture with length := x.picture.length - s.ref.house.period }) →
      left =
        (if s.ref.change = none then
          State.post { s with ref := { s.ref with status := .freeRun } } (.reference .freeRun) .degraded .none
        else { s with ref := { s.ref with status := .freeRun } }) →
        (picture = some s.ref.house →
          exec (.referencePictureStart x) s =
            .next { s with ref := { s.ref with status := .locked 0 .arrived } }) ∧
          (picture ≠ some s.ref.house → exec (.referencePictureStart x) s = .next left) ∧
          (missed = 0 →
            exec .missingStart s = .next { s with ref := { s.ref with status := .locked 1 .missing } }) ∧
          (missed = 1 → exec .missingStart s = .next left)

/-- R13, R14, R30, R36, R167: the switch line that carries out a recorded change of house format. The bus selections are kept: the DIP,
FILL and CUT buses of both banks are as they were, and so are A and B of a bank that the switch line's own work does not bring to a
completion or to a preset. FORMAT_CHANGE is that switch
line, and without a recorded change it does nothing (log 3). -/
def Obligations.FormatChangeRestartsTheEngine : Prop :=
  ∀ (s : State) (p : FieldParity), s.resetPin = false →
    (s.ref.change = none → exec (.formatChange p) s = .next s) ∧
      (s.ref.change ≠ none →
        exec (.switchLine p) s = exec (.formatChange p) s ∧
          ∃ t : State,
            exec (.formatChange p) s = .next t ∧
              t.ref = { s.ref with picture := s.ref.picture + 1, change := none, placed := none, started := true } ∧
              t.control.takeList = [] ∧ t.control.take = [] ∧ t.control.schedule = [] ∧
              (∀ bank : BankId,
                t.me bank =
                    { s.me bank with
                      drive := .rest, position := 0, pickup := true, layers := (t.me bank).layers, run := Run.idle, mark := false } ∧
                  ∀ l : LayerId, (t.me bank).layer l = { (s.me bank).layer l with state := .off }) ∧
              (∀ m : SlotId, t.slot m = { state := .idle, content := none }) ∧
              t.store.queue = [] ∧ t.store.ports = Vector.replicate 2 none ∧
              (∀ n : LaneId,
                (t.lane n).state = (if (s.lane n).detector then .acquiring else .absent) ∧ (t.lane n).good = 0 ∧
                  (t.lane n).settle = (s.lane n).settle ∧ (t.lane n).fallback = (s.lane n).fallback ∧
                  (t.lane n).resync = (s.lane n).resync) ∧
              (∀ bank : BankId,
                (t.buses bank).dip = (s.buses bank).dip ∧ (t.buses bank).fill = (s.buses bank).fill ∧
                  (t.buses bank).cut = (s.buses bank).cut ∧
                  ((s.me bank).drive = .rest ∨ (s.me bank).drive = .manual → t.buses bank = s.buses bank)) ∧
              t.curves = s.curves ∧ t.matrix.matte = s.matrix.matte ∧ t.matrix.aux = s.matrix.aux ∧ t.tally = s.tally ∧
              t.notices.lost = false ∧ t.notices.enabled = s.notices.enabled ∧
              (s.notices.enabled = ClassFlags.all →
                t.notices.queue.take 2 =
                  [{ kind := .reference s.ref.status.name, cls := if s.ref.status.name = .freeRun then .degraded else .info,
                     subject := .none, number := s.ref.picture + 1 },
                   { kind := .format s.ref.house, cls := .info, subject := .none, number := s.ref.picture + 1 }]))

/-! ### Source lanes -/

/-- R17, R18, R19, R21: what the events of a lane input and a lane's lock do; LANE_LOCK acts only on a lane that one more aligned
picture locks (log 3). The detector follows its input while the RESET pin is asserted too (log 11). -/
def Obligations.LaneInputEventsAndLock : Prop :=
  (∀ (s : State) (n : LaneId) (signal : Bool),
    exec (.laneSignalChange n signal) s =
      .next
        (s.setLane n
          { s.lane n with detector := signal, tracking := (s.lane n).tracking && signal && (s.lane n).detector })) ∧
    (∀ (s : State) (n : LaneId) (start : LaneStart), s.resetPin = false →
      ((s.lane n).detector = true →
        exec (.lanePictureStart n start) s =
          .next
            (s.setLane n
              { s.lane n with
                noted := (s.lane n).noted ++ [{ start := start, whole := (s.lane n).tracking }]
                tracking := true })) ∧
        ((s.lane n).detector = false → exec (.lanePictureStart n start) s = .next s)) ∧
    ∀ (s : State) (n : LaneId), s.resetPin = false →
      ((s.lane n).state = .acquiring → (s.lane n).settle ≤ (s.lane n).good + 1 →
        exec (.laneLock n) s =
          .next
            ((s.setLane n { s.lane n with state := .locked, good := 0, resync := false }).post (.lane .locked true) .info
              (.lane (laneByte n)))) ∧
        ((s.lane n).state ≠ .acquiring ∨ (s.lane n).good + 1 < (s.lane n).settle → exec (.laneLock n) s = .next s)

/-- R17, R19, R20, R21: every lane after a switch line that takes no command and carries out no format change. R18: the judging
window, 8 lines to either side of a picture start that comes 6 lines, or in the 2160-line formats 13, before the switch line, and
a start in two windows that counts for the later period alone. R27, R28: the LANE notice of every change and its class. -/
def Obligations.LanesAtASwitchLine : Prop :=
  (∀ (s : State) (n : LaneId) (lead leadNext : Nat),
    lead = (if s.periodFormat = .uhd2160p50 ∨ s.periodFormat = .uhd2160p5994 then 13 else 6) →
      leadNext = (if s.ref.house = .uhd2160p50 ∨ s.ref.house = .uhd2160p5994 then 13 else 6) →
        s.window n =
          (s.lane n).reaching ++
            (s.lane n).carried.filter
              (fun x =>
                decide (lead - 8 ≤ x.start.before ∧ x.start.before ≤ lead + 8) &&
                  !decide (leadNext - 8 ≤ x.start.beyond ∧ x.start.beyond ≤ leadNext + 8)) ++
            (s.lane n).noted.filter
              (fun x =>
                decide (x.start.after + lead ≤ 8) &&
                  !decide (leadNext - 8 ≤ x.start.before ∧ x.start.before ≤ leadNext + 8)) ∧
          ∀ x : StartNote,
            (s.carriedHere x = true ↔ lead - 8 ≤ x.start.before ∧ x.start.before ≤ lead + 8) ∧
              (s.carriedNext x = true ↔ leadNext - 8 ≤ x.start.beyond ∧ x.start.beyond ≤ leadNext + 8) ∧
              (s.notedHere x = true ↔ x.start.after + lead ≤ 8) ∧
              (s.notedNext x = true ↔ leadNext - 8 ≤ x.start.before ∧ x.start.before ≤ leadNext + 8)) ∧
    ∀ (s : State) (p : FieldParity), s.resetPin = false → s.ref.change = none → s.control.takeList = [] →
      s.control.take = [] → (∀ e ∈ s.control.schedule, e.target ≠ s.ref.picture + 1) →
        ∃ t : State,
          exec (.switchLine p) s = .next t ∧
            ∀ n : LaneId,
              (s.aligned n = true ↔
                  ∃ x : StartNote, s.window n = [x] ∧ x.whole = true ∧ x.start.ended.format = some s.ref.house ∧
                    (s.ref.house.interlaced = true → x.start.parity = s.parity)) ∧
                (t.lane n).settle = (s.lane n).settle ∧ (t.lane n).fallback = (s.lane n).fallback ∧
                (t.lane n).detector = (s.lane n).detector ∧ (t.lane n).tracking = (s.lane n).tracking ∧
                (t.lane n).noted = [] ∧
                (∀ lead : Nat, lead = (if s.ref.house = .uhd2160p50 ∨ s.ref.house = .uhd2160p5994 then 13 else 6) →
                  (t.lane n).reaching =
                      (s.lane n).carried.filter
                        (fun x => decide (lead - 8 ≤ x.start.beyond ∧ x.start.beyond ≤ lead + 8)) ∧
                    (t.lane n).carried =
                      (s.lane n).noted.filter
                        (fun x =>
                          !(decide (x.start.after + lead ≤ 8) &&
                              !decide (lead - 8 ≤ x.start.before ∧ x.start.before ≤ lead + 8)))) ∧
                ((s.lane n).state = .absent → (s.lane n).detector = false →
                  (t.lane n).state = .absent ∧ (t.lane n).good = (s.lane n).good ∧ (t.lane n).resync = (s.lane n).resync) ∧
                ((s.lane n).state = .absent → (s.lane n).detector = true →
                  (t.lane n).state = .acquiring ∧ (t.lane n).good = 0 ∧ (t.lane n).resync = (s.lane n).resync) ∧
                ((s.lane n).state ≠ .absent → (s.lane n).detector = false →
                  (t.lane n).state = .absent ∧ (t.lane n).good = 0 ∧ (t.lane n).resync = (s.lane n).resync) ∧
                ((s.lane n).state = .acquiring → (s.lane n).detector = true → s.aligned n = true →
                  (s.lane n).settle ≤ (s.lane n).good + 1 →
                  (t.lane n).state = .locked ∧ (t.lane n).good = 0 ∧ (t.lane n).resync = false) ∧
                ((s.lane n).state = .acquiring → (s.lane n).detector = true → s.aligned n = true →
                  (s.lane n).good + 1 < (s.lane n).settle →
                  (t.lane n).state = .acquiring ∧ (t.lane n).good = (s.lane n).good + 1 ∧
                    (t.lane n).resync = (s.lane n).resync) ∧
                ((s.lane n).state = .acquiring → (s.lane n).detector = true → s.aligned n = false →
                  (t.lane n).state = .acquiring ∧ (t.lane n).good = 0 ∧ (t.lane n).resync = (s.lane n).resync) ∧
                ((s.lane n).state = .locked → (s.lane n).detector = true → s.aligned n = true →
                  (t.lane n).state = .locked ∧ (t.lane n).good = (s.lane n).good ∧ (t.lane n).resync = (s.lane n).resync) ∧
                ((s.lane n).state = .locked → (s.lane n).detector = true → s.aligned n = false →
                  (t.lane n).state = .acquiring ∧ (t.lane n).good = 0 ∧ (t.lane n).resync = (s.lane n).resync) ∧
                ((t.lane n).state = (s.lane n).state →
                  ∀ q ∈ t.notices.queue, q.isLane = true → q.subject = .lane (laneByte n) → q ∈ s.notices.queue) ∧
                ((t.lane n).state ≠ (s.lane n).state → ∀ cls : NoticeClass,
                  cls =
                      (if (s.lane n).state = .locked ∧ s.tally.onAir.getLsbD (n.val + 1) = true then .degraded
                      else .info) →
                    t.notices.summary.get cls = true ∧ t.notices.recent.get cls = true ∧
                      (s.notices.enabled.get cls = true → t.notices.lost = false →
                        ∃ q ∈ t.notices.queue,
                          q.kind = .lane (t.lane n).state (decide ((t.lane n).state ≠ .absent)) ∧
                            q.subject = .lane (laneByte n) ∧ q.number = s.ref.picture + 1 ∧
                            (cls = .degraded → q.cls = .degraded) ∧
                            ((∀ old ∈ s.notices.queue, old.subject = .lane (laneByte n) → old.isLane = false) → q.cls = cls)))

/-- R24: LANE_SET in every lane state, and its two refusals. R25, R27, R28: RESYNC by the lane's state. -/
def Obligations.LaneSetAndResync : Prop :=
  (∀ (s : State) (lane settle fallback : Byte), s.resetPin = false →
    (lane.toNat = 0 ∨ 24 < lane.toNat → exec (.laneSet lane settle fallback) s = .next (s.refuse 16 .target (.lane lane))) ∧
      ∀ n : LaneId, lane.toNat = n.val + 1 →
        (fallback = 0 →
          exec (.laneSet lane settle fallback) s =
            .next (s.setLane n { s.lane n with settle := max 1 (min 15 settle.toNat), fallback := none })) ∧
          (∀ m : SlotId, fallback.toNat = m.val + 26 →
            exec (.laneSet lane settle fallback) s =
              .next (s.setLane n { s.lane n with settle := max 1 (min 15 settle.toNat), fallback := some m })) ∧
          (fallback ≠ 0 → fallback.toNat < 26 ∨ 33 < fallback.toNat →
            exec (.laneSet lane settle fallback) s = .next (s.refuse 16 .source (.lane lane)))) ∧
    ∀ (s : State) (lane : Byte), s.resetPin = false →
      (lane.toNat = 0 ∨ 24 < lane.toNat → exec (.resync lane) s = .next (s.refuse 17 .target (.lane lane))) ∧
        ∀ n : LaneId, lane.toNat = n.val + 1 →
          ((s.lane n).state = .absent → exec (.resync lane) s = .next s) ∧
            ((s.lane n).state = .acquiring →
              exec (.resync lane) s = .next (s.setLane n { s.lane n with good := 0, resync := true })) ∧
            ((s.lane n).state = .locked →
              exec (.resync lane) s =
                .next
                  ((s.setLane n { s.lane n with state := .acquiring, good := 0, resync := true }).post
                    (.lane .acquiring true)
                    (if s.tally.onAir.getLsbD (n.val + 1) then .degraded else .info) (.lane (laneByte n))))

/-! ### Buses, sources and re-entry -/

/-- R56, R57: SELECT in every drive state, and its refusals in the order of its parameters. -/
def Obligations.SelectSetsOneBus : Prop :=
  ∀ (s : State) (me bus source : Byte), s.resetPin = false →
    (readBank me = none → exec (.select me bus source) s = .next (s.refuse 32 .target (.me me))) ∧
      (∀ bank : BankId, readBank me = some bank →
        (readBus bus = none → exec (.select me bus source) s = .next (s.refuse 32 .target (.me me))) ∧
          ∀ k : Bus, readBus bus = some k →
            (34 < source.toNat ∨ (bank = .a ∧ source.toNat = 25) →
              exec (.select me bus source) s = .next (s.refuse 32 .source (.me me))) ∧
              ∀ src : Source, source.toNat = src.code → src.code ≤ 34 → (bank = .a → src.code ≠ 25) →
                ∃ t : State,
                  exec (.select me bus source) s = .next t ∧ (t.buses bank).get k = src ∧
                    (∀ other : Bus, other ≠ k → (t.buses bank).get other = (s.buses bank).get other) ∧
                    t.buses bank.other = s.buses bank.other ∧ t.matrix.aux = s.matrix.aux ∧
                    t.matrix.matte = s.matrix.matte ∧ t = { s with matrix := t.matrix })

/-- R61, R62: AUX_SELECT and MATTE in every state. -/
def Obligations.AuxSelectAndMatteWriteTheMatrix : Prop :=
  ∀ s : State, s.resetPin = false →
    (∀ (source : Byte) (src : Source), source.toNat = src.code →
      exec (.auxSelect source) s = .next { s with matrix := { s.matrix with aux := src } }) ∧
      (∀ source : Byte, 37 < source.toNat → exec (.auxSelect source) s = .next (s.refuse 33 .source .none)) ∧
      ∀ y cb cr : Word16, ∃ colour : Pixel,
        exec (.matte y cb cr) s = .next { s with matrix := { s.matrix with matte := colour } } ∧
          colour.y.toNat = max 4 (min 1019 y.toNat) ∧ colour.cb.toNat = max 4 (min 1019 cb.toNat) ∧
          colour.cr.toNat = max 4 (min 1019 cr.toNat)

/-- R53, R64: source 25 delivers M/E A's programme of the same period to M/E B and to AUX, sample for sample, and that programme
depends on nothing that M/E B holds. R22, R23, R53, R155: the pictures of the other sources that a bus may hold. A torn period delivers
each line that a start received in time, as received, and black for the others; which of the starts that have a line supplies it is a
free value (log 7). That a picture of the wrong field or of another format is read at the same frame line and pixel is the model's
choice (log 30, DESIGN CHOICE). R68: the positions that a period carries; that nothing is carried before the first switch line is the model's
choice (log 29, DESIGN CHOICE). R9: the outputs send the lines that fall before the next switch line; that the start which enters
LOCKED gives their number is the model's choice (log 19, DESIGN CHOICE). -/
def Obligations.ReEntryDeliversTheProgrammeOfMeA : Prop :=
  (∀ (s : State) (x y : Nat),
    busPicture s .b .meAProgramme = programmeOf s .a ∧
      sourcePixel s .meAProgramme x y = programmePixel s .a x y ∧
      (s.carries x y = true → programmePixel s .a x y = some ((busPicture s .b .meAProgramme).pixel x y)) ∧
      ∀ (m : Me) (k : Buses), programmeOf ((s.setMe .b m).setBuses .b k) .a = programmeOf s .a) ∧
    (∀ (s : State) (x y : Nat),
      (s.carries x y = true ↔
          s.ref.started = true ∧ x < s.periodFormat.width ∧ y < s.periodFormat.height ∧
            (s.periodFormat.interlaced = true → (y % 2 = 0 ↔ s.parity = .first))) ∧
        (s.ref.placed = none → s.sends y = true) ∧
        (∀ lines : Nat, s.ref.placed = some lines →
          (s.sends y = true ↔ (if s.periodFormat.interlaced then y / 2 else y) < lines)) ∧
        (s.sends y = false → programOutput s x y = none ∧ previewOutput s x y = none ∧ auxOutput s x y = none) ∧
        (s.carries x y = false →
          programOutput s x y = none ∧ previewOutput s x y = none ∧ auxOutput s x y = none ∧
            ∀ src : Source, sourcePixel s src x y = none) ∧
        (s.carries x y = true →
          (∀ src : Source, src.code ≤ 34 → src ≠ .meAProgramme →
            sourcePixel s src x y = some ((plainPicture s src).pixel x y) ∧
              ∀ bank : BankId, busPicture s bank src = plainPicture s src) ∧
            (s.sends y = true →
              programOutput s x y = some ((programmeOf s .b).pixel x y) ∧ previewOutput s x y = sourcePixel s .meBPreview x y ∧
                auxOutput s x y = (sourcePixel s s.matrix.aux x y).map clampPixel))) ∧
    (∀ (s : State) (x y : Nat),
      (plainPicture s .black).sample x y = { y := 64, cb := 512, cr := 512 } ∧
        (plainPicture s .matte).sample x y = s.matrix.matte ∧
        (∀ m : SlotId,
          ((s.slot m).content = none → (plainPicture s (.slot m)).sample x y = { y := 64, cb := 512, cr := 512 }) ∧
            ∀ p : Picture, (s.slot m).content = some p → plainPicture s (.slot m) = p) ∧
        ∀ n : LaneId,
          ((s.lane n).state ≠ .locked →
            ((s.lane n).fallback = none → (plainPicture s (.lane n)).sample x y = { y := 64, cb := 512, cr := 512 }) ∧
              ∀ m : SlotId, (s.lane n).fallback = some m → plainPicture s (.lane n) = plainPicture s (.slot m)) ∧
            ((s.lane n).state = .locked → plainPicture s (.lane n) = lanePicture s n)) ∧
    (∀ (s : State) (n : LaneId) (y : Nat),
      (∀ note : StartNote, s.window n = [note] →
        ∀ x : Nat,
          (lanePicture s n).sample x y =
            if y ∈ note.start.missing then { y := 64, cb := 512, cr := 512 } else Raster.sample note.start.raster x y) ∧
        ((∀ note : StartNote, s.window n ≠ [note]) →
          ∀ received : List StartNote,
            received =
                (s.lane n).reaching ++
                  (s.lane n).carried.filter (fun note => s.carriedHere note || !s.carriedNext note) ++
                  (s.lane n).noted.filter (fun note => s.notedHere note || !s.notedNext note) →
              ((∀ note ∈ received, y ∈ note.start.missing) →
                ∀ x : Nat, (lanePicture s n).sample x y = { y := 64, cb := 512, cr := 512 }) ∧
                ((∃ note ∈ received, y ∉ note.start.missing) →
                  ∃ note ∈ received,
                    y ∉ note.start.missing ∧ ∀ x : Nat, (lanePicture s n).sample x y = Raster.sample note.start.raster x y))) ∧
    ∀ (content : Picture) (x y : Nat),
      (Picture.woven .first content).sample x y = content.sample x (if y % 2 = 0 then y else y - 1) ∧
        (Picture.woven .second content).sample x y = content.sample x (if y % 2 = 1 then y else y + 1)

/-! ### Picture arithmetic -/

/-- R70: the mix, for the three components alike, and the chain of mixes that a programme is. -/
def Obligations.MixOfTwoSamples : Prop :=
  (∀ a b w : Nat, w ≤ 1024 → a ≤ 1023 → b ≤ 1023 →
    mix a b w = (a * (1024 - w) + b * w + 512) / 1024 ∧ mix a b 0 = a ∧ mix a b 1024 = b ∧ min a b ≤ mix a b w ∧
      mix a b w ≤ max a b ∧ mix a b w ≤ 1023 ∧ mix a a w = a) ∧
    (∀ (p q : Pixel) (w : Nat), w ≤ 1024 →
      (mixPixel p q w).y.toNat = mix p.y.toNat q.y.toNat w ∧ (mixPixel p q w).cb.toNat = mix p.cb.toNat q.cb.toNat w ∧
        (mixPixel p q w).cr.toNat = mix p.cr.toNat q.cr.toNat w) ∧
    ∀ (l : Look) (x y : Nat) (p : BusPixels) (n1 n2 n3 n4 : LayerId), l.order = [n1, n2, n3, n4] →
      l.programme x y p =
        clampPixel
          (mixPixel
            (mixPixel
              (mixPixel (mixPixel (l.background x y p) p.fill[n1] (l.finalAlpha n1 x y p)) p.fill[n2]
                (l.finalAlpha n2 x y p))
              p.fill[n3] (l.finalAlpha n3 x y p))
            p.fill[n4] (l.finalAlpha n4 x y p))

/-- R71, R61: every component of PROGRAM, PREVIEW and AUX, and of the pictures of codes 25, 35, 36 and 37, lies in 4 to 1019; the
clamp comes once, after the last layer, and changes nothing else. -/
def Obligations.OutputSamplesLieInRange : Prop :=
  (∀ (s : State) (x y : Nat) (p : Pixel),
    some p ∈ [programOutput s x y, previewOutput s x y, auxOutput s x y, sourcePixel s .meAProgramme x y,
        sourcePixel s .meAPreview x y, sourcePixel s .meBProgramme x y, sourcePixel s .meBPreview x y] →
      (4 ≤ p.y.toNat ∧ p.y.toNat ≤ 1019) ∧ (4 ≤ p.cb.toNat ∧ p.cb.toNat ≤ 1019) ∧ (4 ≤ p.cr.toNat ∧ p.cr.toNat ≤ 1019)) ∧
    (∀ a : Code10, (clampCode a).toNat = if a.toNat < 4 then 4 else if 1019 < a.toNat then 1019 else a.toNat) ∧
    ∀ (l : Look) (x y : Nat) (p : BusPixels),
      l.programme x y p =
          clampPixel
            (l.order.foldl (fun out n => mixPixel out p.fill[n] (l.finalAlpha n x y p)) (l.background x y p)) ∧
        l.preview x y p =
          clampPixel
            ((l.order.filter (fun n => afterOn (hasLayer l.selection n) l.layers[n].state)).foldl
              (fun out n => mixPixel out p.fill[n] (l.layers[n].maskedAlpha x y (l.keySource n p)))
              (if hasBkgd l.selection then p.b else p.a))

/-- R73: the curve weight of curve 0 and of every table that the curve store may hold. -/
def Obligations.CurveWeightFollowsTheTable : Prop :=
  (∀ p : Nat, curveWeight none p = p / 4) ∧
    (∀ table : Curve, table.sound →
      (∀ (i : Fin 64) (f : Nat), f < 64 →
        curveWeight (some table) (64 * i.val + f) = table[i.val] + ((table[i.val + 1] - table[i.val]) * f + 32) / 64 ∧
          table[i.val] ≤ curveWeight (some table) (64 * i.val + f) ∧ curveWeight (some table) (64 * i.val + f) ≤ table[i.val + 1] ∧
          curveWeight (some table) (64 * i.val + f) ≤ 1024) ∧
        (∀ i : Fin 65, curveWeight (some table) (64 * i.val) = table[i.val]) ∧ curveWeight (some table) 0 = 0 ∧
        curveWeight (some table) 4096 = 1024) ∧
    (curveWeight none 0 = 0 ∧ curveWeight none 4096 = 1024) ∧
    ∀ p : Nat, p ≤ 4096 →
      curveWeight (some Curve.powerOn) p = 16 * (p / 64) + (16 * (p % 64) + 32) / 64 ∧
        curveWeight none p ≤ curveWeight (some Curve.powerOn) p ∧
        curveWeight (some Curve.powerOn) p ≤ curveWeight none p + 1

/-- R77: the pattern value of each shape, and its range. R78: the wipe weight of a pattern value, at both ends of P, and for the luma
position and the chroma pair. That the chroma at an odd position is that of the even position of its pair is log 25 (DEDUCED),
after R69. -/
def Obligations.PatternValuesAndWipeWeights : Prop :=
  (∀ (f : HouseFormat) (x y dx dy : Nat), x < f.width → y < f.height →
    dx = (2 * (x : Int) + 1 - f.width).natAbs → dy = (2 * (y : Int) + 1 - f.height).natAbs →
      (∀ softness : Nat,
        patternValue { shape := .horizontal, reverse := false, softness := softness } f.width f.height x y =
            4096 * x / f.width ∧
          patternValue { shape := .vertical, reverse := false, softness := softness } f.width f.height x y =
            4096 * y / f.height ∧
          patternValue { shape := .box, reverse := false, softness := softness } f.width f.height x y =
            max (4096 * dx / f.width) (4096 * dy / f.height) ∧
          patternValue { shape := .diamond, reverse := false, softness := softness } f.width f.height x y =
            (4096 * dx / f.width + 4096 * dy / f.height) / 2) ∧
        (∀ w : Wipe,
          patternValue { w with reverse := true } f.width f.height x y =
              4095 - patternValue { w with reverse := false } f.width f.height x y ∧
            patternValue w f.width f.height x y ≤ 4095) ∧
        (1 ≤ dx ∧ dx ≤ f.width - 1) ∧ 1 ≤ dy ∧ dy ≤ f.height - 1) ∧
    (∀ p q : Nat, wipeWeight 0 p q = if q < p then 1024 else 0) ∧
      (∀ (softness p q : Nat) (e : Int), 1 ≤ softness → softness ≤ 1023 → p ≤ 4096 → q ≤ 4095 →
        e = ((p * (4096 + softness) / 4096 : Nat) : Int) - softness →
          ((q : Int) ≤ e → wipeWeight softness p q = 1024) ∧
            (e + softness ≤ q → wipeWeight softness p q = 0) ∧
            (e < q → (q : Int) < e + softness →
              (wipeWeight softness p q : Int) = (e + softness - q) * 1024 / softness ∧ 1 ≤ wipeWeight softness p q ∧
                wipeWeight softness p q ≤ 1023)) ∧
      (∀ softness q : Nat, softness ≤ 1023 → q ≤ 4095 → wipeWeight softness 0 q = 0 ∧ wipeWeight softness 4096 q = 1024) ∧
      (∀ p q : Nat, p ≤ 4096 → q ≤ 4095 → wipeWeight 1 p q = wipeWeight 0 p q) ∧
      (∀ (l : Look) (c : Option Curve) (x y : Nat), Look.wipeAt { l with curve := c } x y = l.wipeAt x y) ∧
      ∀ (pic : Picture) (x y : Nat),
        (pic.pixel x y).y = (pic.sample x y).y ∧ (pic.pixel x y).cb = (pic.sample (x - x % 2) y).cb ∧
          (pic.pixel x y).cr = (pic.sample (x - x % 2) y).cr

/-- R82, R84: the key alpha and the mask of a layer at a position. -/
def Obligations.KeyAlphaAndMaskOfALayer : Prop :=
  (∀ clip gain k : Nat,
    (keyAlpha clip gain k : Int) = max 0 (min 1024 (((k : Int) - clip) * gain * 64 / 876)) ∧ keyAlpha clip 0 k = 0 ∧
      (k ≤ clip → keyAlpha clip gain k = 0) ∧ keyAlpha clip 16 (clip + 876) = 1024) ∧
    (∀ (l : Layer) (x y k : Nat), l.maskedAlpha x y k ≤ 1024) ∧
    (∀ (l : Layer) (x y k : Nat), l.mask = none →
      l.maskedAlpha x y k = if l.invert then 1024 - keyAlpha l.clip l.gain k else keyAlpha l.clip l.gain k) ∧
    (∀ (l : Layer) (box : MaskBox) (x y k : Nat), l.mask = some box →
      (box.left ≤ x ∧ x ≤ box.right ∧ box.top ≤ y ∧ y ≤ box.bottom →
        l.maskedAlpha x y k = Layer.maskedAlpha { l with mask := none } x y k) ∧
        (¬(box.left ≤ x ∧ x ≤ box.right ∧ box.top ≤ y ∧ y ≤ box.bottom) → l.maskedAlpha x y k = 0) ∧
        (box.right < box.left ∨ box.bottom < box.top → l.maskedAlpha x y k = 0)) ∧
    ∀ (l : Look) (n : LayerId) (p : BusPixels),
      (l.layers[n].kind = .luma → l.keySource n p = p.fill[n].y.toNat) ∧
        (l.layers[n].kind = .linear → l.keySource n p = p.cut[n].y.toNat)

/-- R79, R80, R88: the background is bus A at REST, without BKGD and at P = 0, and bus B at P = 4096, for every type; the preview
reads no transition setting. R75, R79, R80: the background between the ends for each type. R85, R86, R87: the level factor, the
transition factor and the final alpha of a layer. -/
def Obligations.BackgroundAtTheEndsAndSteadyPreview : Prop :=
  (∀ (l : Look) (x y : Nat) (p : BusPixels), x < l.format.width → y < l.format.height →
    (∀ c : Curve, l.curve = some c → c.sound) → l.wipe.softness ≤ 1023 →
      (l.atRest = true → l.background x y p = p.a) ∧
        (hasBkgd l.selection = false → l.background x y p = p.a) ∧
        (l.position = 0 → l.background x y p = p.a) ∧
        (l.atRest = false → hasBkgd l.selection = true → l.position = 4096 → l.background x y p = p.b) ∧
        (l.atRest = false → hasBkgd l.selection = true → l.kind = .dip → l.position = 2048 → l.background x y p = p.dip)) ∧
    (∀ (l : Look) (x y : Nat) (p : BusPixels) (rest : Bool) (position : Nat) (kind : TransitionType) (c : Option Curve)
      (w : Wipe),
      Look.preview { l with atRest := rest, position := position, kind := kind, curve := c, wipe := w } x y p =
        l.preview x y p) ∧
    (∀ (l : Look) (x y : Nat) (p : BusPixels), l.atRest = false → hasBkgd l.selection = true →
      (l.kind = .mix → l.background x y p = mixPixel p.a p.b (curveWeight l.curve l.position)) ∧
        (l.kind = .cut →
          (l.position < 2048 → l.background x y p = p.a) ∧ (2048 ≤ l.position → l.background x y p = p.b)) ∧
        (l.kind = .wipe →
          l.background x y p =
            mixPixel p.a p.b
              (wipeWeight l.wipe.softness l.position (patternValue l.wipe l.format.width l.format.height x y))) ∧
        (l.kind = .dip →
          (l.position ≤ 2048 → l.background x y p = mixPixel p.a p.dip (curveWeight l.curve (2 * l.position))) ∧
            (2049 ≤ l.position →
              l.background x y p = mixPixel p.dip p.b (curveWeight l.curve (2 * l.position - 4096))))) ∧
    ∀ (l : Look) (n : LayerId) (x y : Nat) (p : BusPixels) (alpha weight : Nat),
      alpha = l.layers[n].maskedAlpha x y (l.keySource n p) →
        (l.kind = .mix ∨ l.kind = .dip → weight = curveWeight l.curve l.position) →
        (l.kind = .cut → weight = if l.position < 2048 then 0 else 1024) →
        (l.kind = .wipe →
          weight = wipeWeight l.wipe.softness l.position (patternValue l.wipe l.format.width l.format.height x y)) →
          (l.atRest = true ∨ hasLayer l.selection n = false →
            l.finalAlpha n x y p = alpha * l.layers[n].state.level / 1024) ∧
            (l.atRest = false → hasLayer l.selection n = true →
              (l.layers[n].state = .off ∨ (∃ c rf, l.layers[n].state = .falling c rf) →
                l.finalAlpha n x y p = alpha * weight / 1024) ∧
                (l.layers[n].state = .on ∨ (∃ c rf, l.layers[n].state = .rising c rf) →
                  l.finalAlpha n x y p = alpha * (1024 - weight) / 1024))

/-! ### Settings of the composers -/

/-- R74: LOAD_CURVE clamps, corrects, counts and stores; the other tables are kept. -/
def Obligations.LoadCurveCorrectsAndStores : Prop :=
  ∀ (s : State) (curve : Byte) (points : Vector Word16 65), s.resetPin = false →
    (curve.toNat = 0 ∨ 4 < curve.toNat → exec (.loadCurve curve points) s = .next (s.refuse 48 .target (.curve curve))) ∧
      ∀ k : CurveId, curve.toNat = k.val + 1 →
        ∃ (table : Curve) (corrected : Nat) (t : State),
          t = { s with curves := s.curves.set k table } ∧ table[0] = 0 ∧ table[64] = 1024 ∧
            (∀ i : Fin 63,
              table[i.val + 1] = max (if i.val = 0 then 0 else table[i.val]) (min 1024 (points[i.val + 1]).toNat)) ∧
            corrected = ((List.finRange 65).filter (fun i => table[i.val] ≠ min 1024 (points[i.val]).toNat)).length ∧
            corrected ≤ 65 ∧
            (corrected = 0 → exec (.loadCurve curve points) s = .next t) ∧
            (1 ≤ corrected →
              exec (.loadCurve curve points) s = .next (t.post (.curve corrected) .advisory (.curve (curveByte k))))

/-- R76, R81, R83: WIPE_SET, KEY_SET and MASK_SET write their settings in every state and nothing else, or are refused TARGET. -/
def Obligations.WipeKeyAndMaskSettings : Prop :=
  ∀ (s : State) (me : Byte), s.resetPin = false →
    (∀ (shape reverse : Byte) (softness : Word16),
      (∀ (bank : BankId) (k : WipeShape) (r : Bool), readBank me = some bank → readWipeShape shape = some k →
        readSwitch reverse = some r →
        exec (.wipeSet me shape reverse softness) s =
          .next
            (s.modifyMe bank
              (fun m => { m with wipe := { shape := k, reverse := r, softness := min 1023 softness.toNat } }))) ∧
        (readBank me = none ∨ readWipeShape shape = none ∨ readSwitch reverse = none →
          exec (.wipeSet me shape reverse softness) s = .next (s.refuse 49 .target (.me me)))) ∧
      (∀ (layer kind : Byte) (clip : Word16) (gain invert : Byte),
        (∀ (bank : BankId) (l : LayerId) (k : KeyKind) (v : Bool), readBank me = some bank → readLayer layer = some l →
          readKeyKind kind = some k → readSwitch invert = some v →
          exec (.keySet me layer kind clip gain invert) s =
            .next
              (s.modifyMe bank
                (fun m =>
                  m.setLayer l
                    { m.layer l with kind := k, clip := min 1023 clip.toNat, gain := gain.toNat, invert := v }))) ∧
          (readBank me = none ∨ readLayer layer = none ∨ readKeyKind kind = none ∨ readSwitch invert = none →
            exec (.keySet me layer kind clip gain invert) s = .next (s.refuse 50 .target (.layer me layer)))) ∧
      ∀ layer : Byte,
        (∀ (bank : BankId) (l : LayerId), readBank me = some bank → readLayer layer = some l →
          exec (.maskSet me layer none) s =
              .next (s.modifyMe bank (fun m => m.setLayer l { m.layer l with mask := none })) ∧
            ∀ box : BoxWords,
              exec (.maskSet me layer (some box)) s =
                .next
                  (s.modifyMe bank
                    (fun m =>
                      m.setLayer l
                        { m.layer l with
                          mask :=
                            some
                              { left := min (s.ref.house.width - 1) box.left.toNat
                                right := min (s.ref.house.width - 1) box.right.toNat
                                top := min (s.ref.house.height - 1) box.top.toNat
                                bottom := min (s.ref.house.height - 1) box.bottom.toNat } }))) ∧
          (readBank me = none ∨ readLayer layer = none →
            ∀ box : Option BoxWords,
              exec (.maskSet me layer box) s = .next (s.refuse 51 .target (.layer me layer)))

/-! ### Transitions -/

/-- R97, R98, R99: TRANS_SET part by part, and NEXT_SET. -/
def Obligations.TransitionSettings : Prop :=
  ∀ (s : State) (me : Byte), s.resetPin = false →
    (∀ (kind : Byte) (rate : Word16) (curve : Byte),
      (readBank me = none ∨ readTransitionType kind = none ∨ readCurveNumber curve = none →
        exec (.transSet me kind rate curve) s = .next (s.refuse 64 .target (.me me))) ∧
        ∀ (bank : BankId) (k : TransitionType) (c : Option CurveId), readBank me = some bank →
          readTransitionType kind = some k → readCurveNumber curve = some c →
            ((s.me bank).drive = .rest ∨ (s.me bank).kind = k →
              exec (.transSet me kind rate curve) s =
                .next
                  (s.modifyMe bank (fun m => { m with kind := k, rate := max 1 (min 999 rate.toNat), curve := c }))) ∧
              ((s.me bank).drive ≠ .rest → (s.me bank).kind ≠ k →
                exec (.transSet me kind rate curve) s =
                  .next
                    ((s.refuse 64 .busy (.me me)).modifyMe bank
                      (fun m => { m with rate := max 1 (min 999 rate.toNat), curve := c })))) ∧
      ∀ selection : Byte,
        (readBank me = none ∨ 31 < selection.toNat →
          exec (.nextSet me selection) s = .next (s.refuse 65 .target (.me me))) ∧
          ∀ bank : BankId, readBank me = some bank → selection.toNat ≤ 31 →
            ((s.me bank).drive = .rest →
              exec (.nextSet me selection) s =
                .next (s.modifyMe bank (fun m => { m with selection := selection.setWidth 5 }))) ∧
              ((s.me bank).drive ≠ .rest → exec (.nextSet me selection) s = .next (s.refuse 65 .busy (.me me)))

/-- R59, R94, R95, R96: what a completion does, and all it does. -/
def Obligations.CompletionEndsATransition : Prop :=
  ∀ (s : State) (bank : BankId) (how : DoneBy) (t : State), t = complete bank how s →
    (hasBkgd (s.me bank).selection = true →
      t.buses bank = { s.buses bank with a := (s.buses bank).b, b := (s.buses bank).a }) ∧
      (hasBkgd (s.me bank).selection = false → t.buses bank = s.buses bank) ∧
      t.buses bank.other = s.buses bank.other ∧ t.matrix.aux = s.matrix.aux ∧ t.matrix.matte = s.matrix.matte ∧
      (∀ l : LayerId,
        (hasLayer (s.me bank).selection l = false → (t.me bank).layer l = (s.me bank).layer l) ∧
          (hasLayer (s.me bank).selection l = true →
            (t.me bank).layer l = { (s.me bank).layer l with state := ((t.me bank).layer l).state } ∧
              (((s.me bank).layer l).state = .off → ((t.me bank).layer l).state = .on) ∧
              (((s.me bank).layer l).state = .on → ((t.me bank).layer l).state = .off) ∧
              (∀ c rf, ((s.me bank).layer l).state = .rising c rf → ((t.me bank).layer l).state = .off) ∧
              ∀ c rf, ((s.me bank).layer l).state = .falling c rf → ((t.me bank).layer l).state = .on)) ∧
      t.me bank =
        { s.me bank with
          layers := (t.me bank).layers
          position := 0
          drive := .rest
          sense :=
            if how = .lever then (if (s.me bank).sense = .forward then .reverse else .forward) else (s.me bank).sense
          pickup := if how = .lever then false else true } ∧
      t.me bank.other = s.me bank.other ∧
      t.notices =
        s.notices.take
          { kind := .transitionDone how, cls := .info, subject := .me (bankByte bank), number := s.ref.picture } ∧
      t = { s with meA := t.meA, meB := t.meB, matrix := t.matrix, notices := t.notices }

/-- R100: CUT by the bank's drive state. -/
def Obligations.CutCompletesAtOnce : Prop :=
  ∀ (s : State) (me : Byte), s.resetPin = false →
    (readBank me = none → exec (.cut me) s = .next (s.refuse 66 .target (.me me))) ∧
      ∀ bank : BankId, readBank me = some bank →
        ((s.me bank).drive = .rest → (s.me bank).selection = 0 →
          exec (.cut me) s = .next (s.refuse 66 .empty (.me me))) ∧
          ((s.me bank).drive = .rest → (s.me bank).selection ≠ 0 →
            (∃ l : LayerId, hasLayer (s.me bank).selection l = true ∧ ((s.me bank).layer l).state.fading = true) →
              exec (.cut me) s = .next (s.refuse 66 .busy (.me me))) ∧
          ((s.me bank).drive = .rest → (s.me bank).selection ≠ 0 →
            (∀ l : LayerId, hasLayer (s.me bank).selection l = true → ((s.me bank).layer l).state.fading = false) →
              exec (.cut me) s = .next (complete bank .cut s)) ∧
          ((s.me bank).drive = .manual → exec (.cut me) s = .next (complete bank .cut s)) ∧
          (∀ start span k, (s.me bank).drive = .auto start span k →
            exec (.cut me) s = .next (complete bank .cut s)) ∧
          ((s.me bank).drive = .keyed → exec (.cut me) s = .next (s.refuse 66 .busy (.me me)))

/-- R101, R102, R103: AUTO from REST and from MANUAL, of type CUT, and its refusals. -/
def Obligations.AutoStartsTheAutomaticRate : Prop :=
  ∀ (s : State) (me : Byte), s.resetPin = false →
    (readBank me = none → exec (.auto me) s = .next (s.refuse 67 .target (.me me))) ∧
      ∀ bank : BankId, readBank me = some bank →
        (∀ start span k, (s.me bank).drive = .auto start span k →
          exec (.auto me) s = .next (s.refuse 67 .busy (.me me))) ∧
          ((s.me bank).drive = .keyed → exec (.auto me) s = .next (s.refuse 67 .busy (.me me))) ∧
          ((s.me bank).drive = .rest ∨ (s.me bank).drive = .manual →
            ((s.me bank).selection = 0 → exec (.auto me) s = .next (s.refuse 67 .empty (.me me))) ∧
              ((s.me bank).selection ≠ 0 →
                (∃ l : LayerId, hasLayer (s.me bank).selection l = true ∧ ((s.me bank).layer l).state.fading = true) →
                  exec (.auto me) s = .next (s.refuse 67 .busy (.me me))) ∧
              ((s.me bank).selection ≠ 0 →
                (∀ l : LayerId, hasLayer (s.me bank).selection l = true → ((s.me bank).layer l).state.fading = false) →
                  ((s.me bank).kind = .cut → exec (.auto me) s = .next (complete bank .cut s)) ∧
                    ((s.me bank).kind ≠ .cut → (s.me bank).drive = .rest →
                      exec (.auto me) s =
                        .next
                          (s.modifyMe bank
                            (fun m => { m with drive := .auto 0 m.rate 1, position := 4096 / m.rate }))) ∧
                    ((s.me bank).kind ≠ .cut → (s.me bank).drive = .manual →
                      ∀ p d : Nat, p = (s.me bank).position →
                        d = max 1 (((s.me bank).rate * (4096 - p) + 4095) / 4096) →
                          exec (.auto me) s =
                            .next
                              (s.modifyMe bank
                                (fun m => { m with drive := .auto p d 1, position := p + (4096 - p) / d })))))

/-- R92, R93, R94, R95, R96, R115, R137: a bank's own work at a switch line that takes no command and carries out no format change,
in REST, MANUAL and AUTO, inside a segment of a run and PAUSED, where its drive and run records agree as StepsKeepDriveAndRunSound
says; CompletionEndsATransition says what `complete` does. AUTO_COMPLETION_DUE is the completion of an AUTO whose counter has
reached its span (log 3). -/
def Obligations.BankAtASwitchLine : Prop :=
  (∀ (s : State) (p : FieldParity) (bank : BankId), s.resetPin = false → (s.me bank).driveSound → s.ref.change = none →
    s.control.takeList = [] → s.control.take = [] → (∀ e ∈ s.control.schedule, e.target ≠ s.ref.picture + 1) →
      ∃ t : State,
        exec (.switchLine p) s = .next t ∧
          ((s.me bank).drive = .rest ∨ (s.me bank).drive = .manual →
            t.me bank = { (s.me bank).fadeStep with mark := (t.me bank).mark } ∧ t.buses bank = s.buses bank) ∧
          (∀ start span k, (s.me bank).drive = .auto start span k → k < span →
            t.me bank =
                { (s.me bank).fadeStep with
                  drive := .auto start span (k + 1)
                  position := start + (4096 - start) * (k + 1) / span
                  mark := (t.me bank).mark } ∧
              t.buses bank = s.buses bank) ∧
          (∀ start span k, (s.me bank).drive = .auto start span k → span ≤ k →
            ((t.me bank).drive = .rest ∧ (t.me bank).position = 0 ∧ (t.me bank).pickup = true ∧
              (t.me bank).sense = (s.me bank).sense ∧
              (hasBkgd (s.me bank).selection = true →
                (t.buses bank).a = (s.buses bank).b ∧ (t.buses bank).b = (s.buses bank).a) ∧
              (hasBkgd (s.me bank).selection = false → t.buses bank = s.buses bank)) ∧
              (∀ done : State, done = complete bank .auto (s.modifyMe bank Me.fadeStep) →
                t.me bank = { done.me bank with mark := (t.me bank).mark } ∧ t.buses bank = done.buses bank) ∧
              t.notices.summary.info = true ∧ t.notices.recent.info = true ∧
              (s.notices.enabled.info = true → t.notices.lost = false →
                { kind := .transitionDone .auto, cls := .info, subject := .me (bankByte bank), number := s.ref.picture + 1 } ∈
                  t.notices.queue)) ∧
          ((s.me bank).drive = .keyed → (s.me bank).run.state = .running ∨ (s.me bank).run.state = .holding →
            ∀ e : Keyframe, e = (s.me bank).entry (s.me bank).run.index → (s.me bank).run.counter ≠ 0 →
              (s.me bank).run.counter < e.duration →
                t.me bank =
                    { (s.me bank).fadeStep with
                      run := { (s.me bank).run with counter := (s.me bank).run.counter + 1 }
                      position := segmentPosition (s.me bank).run.start e.target ((s.me bank).run.counter + 1) e.duration
                      mark := (t.me bank).mark } ∧
                  t.buses bank = s.buses bank) ∧
          ((s.me bank).drive = .keyed → (s.me bank).run.state = .paused →
            t.me bank = { (s.me bank).fadeStep with mark := (t.me bank).mark } ∧ t.buses bank = s.buses bank)) ∧
    (∀ (m : Me) (l : LayerId),
      (m.fadeStep).layer l = { m.layer l with state := (m.layer l).state.fadeStep } ∧
        ((m.layer l).state = .off → ((m.fadeStep).layer l).state = .off) ∧
        ((m.layer l).state = .on → ((m.fadeStep).layer l).state = .on) ∧
        (∀ c rf, (m.layer l).state = .rising c rf → c < rf →
          ((m.fadeStep).layer l).state = if c + 1 = rf then .on else .rising (c + 1) rf) ∧
        ∀ c rf, (m.layer l).state = .falling c rf → 1 ≤ c →
          ((m.fadeStep).layer l).state = if c = 1 then .off else .falling (c - 1) rf) ∧
    ∀ (s : State) (bank : BankId), s.resetPin = false →
      (∀ start span k, (s.me bank).drive = .auto start span k →
        (span ≤ k → exec (.autoCompletionDue bank) s = .next (complete bank .auto s)) ∧
          (k < span → exec (.autoCompletionDue bank) s = .next s)) ∧
        ((s.me bank).drive = .rest ∨ (s.me bank).drive = .manual ∨ (s.me bank).drive = .keyed →
          exec (.autoCompletionDue bank) s = .next s)

/-- R104 to R108: LEVER by drive state, pickup and sense. P is e(v) of R104 in both senses, so P = 4096 − v in the reversed sense; the
example that closes R107 gives another value for v = 2000 there, and that R104 is followed is the model's choice (log 28, DESIGN
CHOICE). -/
def Obligations.LeverDrivesThePosition : Prop :=
  ∀ (s : State) (me : Byte) (value : Word16), s.resetPin = false →
    (readBank me = none → exec (.lever me value) s = .next (s.refuse 68 .target (.me me))) ∧
      ∀ (bank : BankId) (v e : Nat), readBank me = some bank → v = min 4096 value.toNat →
        e = (if (s.me bank).sense = .forward then v else 4096 - v) →
          (∀ start span k, (s.me bank).drive = .auto start span k → exec (.lever me value) s = .next s) ∧
            ((s.me bank).drive = .keyed → exec (.lever me value) s = .next s) ∧
            ((s.me bank).drive = .rest → (s.me bank).position = 0 → (s.me bank).pickup = true →
              (64 < v → v < 4032 → exec (.lever me value) s = .next s) ∧
                (v = 0 →
                  exec (.lever me value) s =
                    .next (s.modifyMe bank (fun m => { m with sense := .forward, pickup := false }))) ∧
                (1 ≤ v → v ≤ 64 →
                  exec (.lever me value) s =
                    .next
                      (s.modifyMe bank
                        (fun m => { m with sense := .forward, pickup := false, drive := .manual, position := v }))) ∧
                (v = 4096 →
                  exec (.lever me value) s =
                    .next (s.modifyMe bank (fun m => { m with sense := .reverse, pickup := false }))) ∧
                (4032 ≤ v → v ≤ 4095 →
                  exec (.lever me value) s =
                    .next
                      (s.modifyMe bank
                        (fun m =>
                          { m with sense := .reverse, pickup := false, drive := .manual, position := 4096 - v })))) ∧
            ((s.me bank).drive = .rest → (s.me bank).position = 0 → (s.me bank).pickup = false →
              (e = 0 → exec (.lever me value) s = .next s) ∧
                (1 ≤ e → e ≤ 4095 →
                  exec (.lever me value) s =
                    .next (s.modifyMe bank (fun m => { m with drive := .manual, position := e }))) ∧
                (e = 4096 →
                  exec (.lever me value) s =
                    .next (complete bank .lever (s.modifyMe bank (fun m => { m with drive := .manual, position := 4096 }))))) ∧
            ((s.me bank).drive = .manual →
              ((s.me bank).pickup = true → e + 64 < (s.me bank).position ∨ (s.me bank).position + 64 < e →
                exec (.lever me value) s = .next s) ∧
                ((s.me bank).pickup = false ∨
                    ((s.me bank).position ≤ e + 64 ∧ e ≤ (s.me bank).position + 64) →
                  (e = 0 →
                    exec (.lever me value) s =
                      .next (s.modifyMe bank (fun m => { m with pickup := false, drive := .rest, position := 0 }))) ∧
                    (1 ≤ e → e ≤ 4095 →
                      exec (.lever me value) s =
                        .next (s.modifyMe bank (fun m => { m with pickup := false, drive := .manual, position := e }))) ∧
                    (e = 4096 →
                      exec (.lever me value) s =
                        .next
                          (complete bank .lever
                            (s.modifyMe bank
                              (fun m => { m with pickup := false, drive := .manual, position := 4096 }))))))

/-! ### Key layers -/

/-- R116, R117, R118: LAYER_ON and LAYER_OFF, with their refusals in order. -/
def Obligations.LayerOnAndOffStartOrReverseAFade : Prop :=
  ∀ (s : State) (me layer : Byte), s.resetPin = false →
    (readBank me = none ∨ readLayer layer = none →
      exec (.layerOn me layer) s = .next (s.refuse 80 .target (.layer me layer)) ∧
        exec (.layerOff me layer) s = .next (s.refuse 81 .target (.layer me layer))) ∧
      ∀ (bank : BankId) (l : LayerId), readBank me = some bank → readLayer layer = some l →
        (hasLayer (s.me bank).selection l = true → (s.me bank).drive ≠ .rest →
          exec (.layerOn me layer) s = .next (s.refuse 80 .busy (.layer me layer)) ∧
            exec (.layerOff me layer) s = .next (s.refuse 81 .busy (.layer me layer))) ∧
          (hasLayer (s.me bank).selection l = false ∨ (s.me bank).drive = .rest →
            ∃ up down : LayerState,
              exec (.layerOn me layer) s =
                  .next (s.modifyMe bank (fun m => m.setLayer l { m.layer l with state := up })) ∧
                exec (.layerOff me layer) s =
                  .next (s.modifyMe bank (fun m => m.setLayer l { m.layer l with state := down })) ∧
                (((s.me bank).layer l).state = .off → 2 ≤ ((s.me bank).layer l).rate →
                  up = .rising 1 ((s.me bank).layer l).rate ∧ down = .off) ∧
                (((s.me bank).layer l).state = .off → ((s.me bank).layer l).rate = 1 → up = .on ∧ down = .off) ∧
                (∀ c rf, ((s.me bank).layer l).state = .rising c rf → up = .rising c rf ∧ down = .falling c rf) ∧
                (((s.me bank).layer l).state = .on → 2 ≤ ((s.me bank).layer l).rate →
                  up = .on ∧ down = .falling (((s.me bank).layer l).rate - 1) ((s.me bank).layer l).rate) ∧
                (((s.me bank).layer l).state = .on → ((s.me bank).layer l).rate = 1 → up = .on ∧ down = .off) ∧
                ∀ c rf, ((s.me bank).layer l).state = .falling c rf → up = .rising c rf ∧ down = .falling c rf)

/-- R114, R115, R120: LAYER_RATE, the level of a layer, and FADE_END, which acts only on a fade that its next step ends (log 3). -/
def Obligations.LayerRateLevelAndFadeEnd : Prop :=
  (∀ (s : State) (me layer : Byte) (rate : Word16), s.resetPin = false →
    (readBank me = none ∨ readLayer layer = none →
      exec (.layerRate me layer rate) s = .next (s.refuse 82 .target (.layer me layer))) ∧
      ∀ (bank : BankId) (l : LayerId), readBank me = some bank → readLayer layer = some l →
        exec (.layerRate me layer rate) s =
          .next (s.modifyMe bank (fun m => m.setLayer l { m.layer l with rate := max 1 (min 999 rate.toNat) }))) ∧
    (LayerState.level .off = 0 ∧ LayerState.level .on = 1024 ∧
      ∀ c rf : Nat, 1 ≤ c → c < rf → rf ≤ 999 →
        (LayerState.rising c rf).level = 1024 * c / rf ∧ (LayerState.falling c rf).level = 1024 * c / rf ∧
          1 ≤ (LayerState.rising c rf).level ∧ (LayerState.rising c rf).level ≤ 1023) ∧
    ∀ (s : State) (bank : BankId) (l : LayerId), s.resetPin = false →
      (∀ c rf, ((s.me bank).layer l).state = .rising c rf →
        (rf ≤ c + 1 →
          exec (.fadeEnd bank l) s = .next (s.modifyMe bank (fun m => m.setLayer l { m.layer l with state := .on }))) ∧
          (c + 1 < rf → exec (.fadeEnd bank l) s = .next s)) ∧
        (∀ c rf, ((s.me bank).layer l).state = .falling c rf →
          (c ≤ 1 →
            exec (.fadeEnd bank l) s = .next (s.modifyMe bank (fun m => m.setLayer l { m.layer l with state := .off }))) ∧
            (2 ≤ c → exec (.fadeEnd bank l) s = .next s)) ∧
        (((s.me bank).layer l).state = .off ∨ ((s.me bank).layer l).state = .on → exec (.fadeEnd bank l) s = .next s)

/-- R126, R127: RAISE moves one layer to the last place of the stacking order and LOWER to the first; the others keep their order
relative to one another. -/
def Obligations.RaiseAndLowerMoveOneLayer : Prop :=
  (∀ (s : State) (me layer : Byte), s.resetPin = false →
    (readBank me = none ∨ readLayer layer = none →
      exec (.raise me layer) s = .next (s.refuse 84 .target (.layer me layer))) ∧
      ∀ (bank : BankId) (l : LayerId), readBank me = some bank → readLayer layer = some l →
        (∃ order : List LayerId,
          exec (.raise me layer) s = .next (s.modifyMe bank (fun m => { m with order := order })) ∧
            order = (s.me bank).order.filter (· ≠ l) ++ [l]) ∧
          ∀ below : List LayerId, (s.me bank).order = below ++ [l] → l ∉ below → exec (.raise me layer) s = .next s) ∧
    ∀ (s : State) (me layer : Byte), s.resetPin = false →
      (readBank me = none ∨ readLayer layer = none →
        exec (.lower me layer) s = .next (s.refuse 85 .target (.layer me layer))) ∧
        ∀ (bank : BankId) (l : LayerId), readBank me = some bank → readLayer layer = some l →
          (∃ order : List LayerId,
            exec (.lower me layer) s = .next (s.modifyMe bank (fun m => { m with order := order })) ∧
              order = l :: (s.me bank).order.filter (· ≠ l)) ∧
            ∀ above : List LayerId, (s.me bank).order = l :: above → l ∉ above → exec (.lower me layer) s = .next s

/-- R125: ORDER replaces the whole stacking order, or is refused TARGET on the M/E and ORDER on the list as a whole. -/
def Obligations.OrderReplacesTheStackingOrder : Prop :=
  ∀ (s : State) (me first second third fourth : Byte), s.resetPin = false →
    (readBank me = none → exec (.order me first second third fourth) s = .next (s.refuse 83 .target (.me me))) ∧
      ∀ bank : BankId, readBank me = some bank →
        ((∃ n ∈ [first, second, third, fourth], n.toNat = 0 ∨ 4 < n.toNat) ∨ ¬[first, second, third, fourth].Nodup →
          exec (.order me first second third fourth) s = .next (s.refuse 83 .order (.me me))) ∧
          ((∀ n ∈ [first, second, third, fourth], 1 ≤ n.toNat ∧ n.toNat ≤ 4) → [first, second, third, fourth].Nodup →
            ∃ order : List LayerId,
              exec (.order me first second third fourth) s = .next (s.modifyMe bank (fun m => { m with order := order })) ∧
                order.map (fun l => l.val + 1) = [first.toNat, second.toNat, third.toNat, fourth.toNat] ∧
                ∀ l : LayerId, l ∈ order)

/-! ### Keyframe runs -/

/-- R134: LOAD_KEYFRAMES writes consecutive records, clamped, and nothing else, with its refusals in order. R135: RUN_SET. -/
def Obligations.KeyframeTableAndRunSettings : Prop :=
  ∀ (s : State) (me : Byte), s.resetPin = false →
    (∀ (first : Byte) (records : List KeyframeBytes),
      (readBank me = none ∨ 31 < first.toNat ∨ 32 < first.toNat + records.length →
        exec (.loadKeyframes me first records) s = .next (s.refuse 96 .target (.me me))) ∧
        ∀ bank : BankId, readBank me = some bank → first.toNat ≤ 31 → first.toNat + records.length ≤ 32 →
          ((∃ r ∈ records, 1 < r.sync.toNat ∨ (∃ x, r.layerOn = some x ∧ 15 < x.toNat) ∨
              ∃ x, r.layerOff = some x ∧ 15 < x.toNat) →
            exec (.loadKeyframes me first records) s = .next (s.refuse 96 .target (.me me))) ∧
            ((∀ r ∈ records, r.sync.toNat ≤ 1 ∧ (∀ x, r.layerOn = some x → x.toNat ≤ 15) ∧
                ∀ x, r.layerOff = some x → x.toNat ≤ 15) →
              ((s.me bank).run.state ≠ .idle → (s.me bank).run.state ≠ .paused →
                exec (.loadKeyframes me first records) s = .next (s.refuse 96 .busy (.me me))) ∧
                ((s.me bank).run.state = .idle ∨ (s.me bank).run.state = .paused →
                  ∃ table : Vector Keyframe 32,
                    exec (.loadKeyframes me first records) s =
                        .next (s.modifyMe bank (fun m => { m with table := table })) ∧
                      (∀ i : Fin 32, i.val < first.toNat ∨ first.toNat + records.length ≤ i.val →
                        table[i] = (s.me bank).table[i]) ∧
                      ∀ (i : Fin 32) (r : KeyframeBytes), first.toNat ≤ i.val →
                        records[i.val - first.toNat]? = some r →
                          (table[i]).target = min 4096 r.target.toNat ∧
                            (table[i]).duration = max 1 (min 999 r.duration.toNat) ∧
                            (table[i]).sync = (r.sync = 1 : Bool) ∧
                            (table[i]).layerOn.toNat = (r.layerOn.getD 0).toNat ∧
                            (table[i]).layerOff.toNat = (r.layerOff.getD 0).toNat ∧ (table[i]).preset = r.preset))) ∧
      ∀ count endMode loops : Byte,
        (readBank me = none ∨ 1 < endMode.toNat →
          exec (.runSet me count endMode loops) s = .next (s.refuse 97 .target (.me me))) ∧
          ∀ bank : BankId, readBank me = some bank → endMode.toNat ≤ 1 →
            ((s.me bank).run.state ≠ .idle → (s.me bank).run.state ≠ .paused →
              exec (.runSet me count endMode loops) s = .next (s.refuse 97 .busy (.me me))) ∧
              ((s.me bank).run.state = .idle ∨ (s.me bank).run.state = .paused →
                exec (.runSet me count endMode loops) s =
                  .next
                    (s.modifyMe bank
                      (fun m =>
                        { m with
                          count := min 32 count.toNat
                          endMode := if endMode = 0 then .stop else .loop
                          loops := min 63 loops.toNat })))

/-- R145, R146, R147: RUN and STEP by the run's state, with the checks of a start from IDLE in order. -/
def Obligations.RunAndStepStartOrResumeARun : Prop :=
  ∀ (s : State) (me : Byte), s.resetPin = false →
    (readBank me = none →
      exec (.run me) s = .next (s.refuse 98 .target (.me me)) ∧
        exec (.step me) s = .next (s.refuse 99 .target (.me me))) ∧
      ∀ (bank : BankId) (fading : Prop), readBank me = some bank →
        (fading ↔
          ∃ l : LayerId, hasLayer (s.me bank).selection l = true ∧ ((s.me bank).layer l).state.fading = true) →
          ((s.me bank).run.state = .idle →
            (∀ start span k, (s.me bank).drive = .auto start span k →
              exec (.run me) s = .next (s.refuse 98 .busy (.me me)) ∧
                exec (.step me) s = .next (s.refuse 99 .busy (.me me))) ∧
              ((s.me bank).drive = .rest ∨ (s.me bank).drive = .manual →
                ((s.me bank).count = 0 ∨ (s.me bank).selection = 0 →
                  exec (.run me) s = .next (s.refuse 98 .empty (.me me)) ∧
                    exec (.step me) s = .next (s.refuse 99 .empty (.me me))) ∧
                  ((s.me bank).count ≠ 0 → (s.me bank).selection ≠ 0 → fading →
                    exec (.run me) s = .next (s.refuse 98 .busy (.me me)) ∧
                      exec (.step me) s = .next (s.refuse 99 .busy (.me me))) ∧
                  ((s.me bank).count ≠ 0 → (s.me bank).selection ≠ 0 → ¬fading →
                    exec (.run me) s =
                        .next
                          (s.modifyMe bank
                            (fun m =>
                              { m with
                                drive := .keyed
                                run := { state := .running, index := 0, start := 0, counter := 0, passes := m.loops } })) ∧
                      exec (.step me) s =
                        .next
                          (s.modifyMe bank
                            (fun m =>
                              { m with
                                drive := .keyed
                                run :=
                                  { state := .holding, index := 0, start := 0, counter := 0, passes := m.loops } }))))) ∧
            ((s.me bank).run.state = .running →
              exec (.run me) s = .next s ∧ exec (.step me) s = .next (s.refuse 99 .busy (.me me))) ∧
            (∀ r, (s.me bank).run.state = .waiting r →
              exec (.run me) s = .next s ∧ exec (.step me) s = .next (s.refuse 99 .busy (.me me))) ∧
            ((s.me bank).run.state = .holding →
              exec (.run me) s = .next (s.modifyMe bank (fun m => { m with run := { m.run with state := .running } })) ∧
                exec (.step me) s = .next s) ∧
            ((s.me bank).run.state = .paused →
              exec (.run me) s = .next (s.modifyMe bank (fun m => { m with run := { m.run with state := .running } })) ∧
                exec (.step me) s =
                  .next (s.modifyMe bank (fun m => { m with run := { m.run with state := .holding } })))

/-- R145, R148, R150: HOLD and ABORT by the run's state; an aborted bank resolves by P without a completion. -/
def Obligations.HoldAndAbortARun : Prop :=
  ∀ (s : State) (me : Byte), s.resetPin = false →
    (readBank me = none →
      exec (.hold me) s = .next (s.refuse 100 .target (.me me)) ∧
        exec (.abort me) s = .next (s.refuse 101 .target (.me me))) ∧
      ∀ bank : BankId, readBank me = some bank →
        ((s.me bank).run.state = .idle ∨ (s.me bank).run.state = .holding ∨ (s.me bank).run.state = .paused →
          exec (.hold me) s = .next s) ∧
          ((s.me bank).run.state = .running →
            exec (.hold me) s = .next (s.modifyMe bank (fun m => { m with run := { m.run with state := .holding } }))) ∧
          (∀ r, (s.me bank).run.state = .waiting r →
            exec (.hold me) s = .next (s.modifyMe bank (fun m => { m with run := { m.run with state := .paused } }))) ∧
          ((s.me bank).run.state = .idle → exec (.abort me) s = .next s) ∧
          ((s.me bank).run.state ≠ .idle →
            ((s.me bank).position = 0 →
              exec (.abort me) s =
                .next (s.modifyMe bank (fun m => { m with run := Run.idle, drive := .rest, pickup := true }))) ∧
              ((s.me bank).position ≠ 0 →
                exec (.abort me) s =
                  .next (s.modifyMe bank (fun m => { m with run := Run.idle, drive := .manual, pickup := true }))))

/-- R137, R138, R139, R143, R144: the formula of a segment, and SEGMENT_END at the end of a segment, for an entry after it that
asks for nothing, for a HOLDING run and for the end of a pass; away from the end of a segment it does nothing (log 3). R60, R123,
R140 to R143: SEGMENT_END where the run arrives at the next entry, or at entry 0 of a new pass: the layer requests and the preset
are the commands of the same names carried out in turn, and a sync entry posts a mark (RunsMeetAtSyncEntries says what `postMark`
does) and waits or begins by the mark its bank holds. SWITCH_LINE makes the same steps in the bank's own work, after the fades: the
arrival at an entry, for the first entry of a run that has just started or resumed too, where a run at a sync entry begins when its bank
holds a mark or gets one on that line and waits otherwise; and R143, R144, R149 the end of a pass that does not go on, with RUN_DONE and
the bank resolved by P, also for a run whose index is at or beyond the count before it has begun a segment. -/
def Obligations.SegmentsOfARun : Prop :=
  (∀ start target k duration : Nat, start ≤ 4096 → target ≤ 4096 → 1 ≤ duration → k ≤ duration →
    (segmentPosition start target k duration : Int) =
        start + Int.tdiv (((target : Int) - start) * k) duration ∧
      min start target ≤ segmentPosition start target k duration ∧
      segmentPosition start target k duration ≤ max start target ∧
      segmentPosition start target duration duration = target) ∧
    (∀ (s : State) (bank : BankId) (m : Me), s.resetPin = false → m = s.me bank →
      (m.run.counter = 0 ∨ m.run.counter < (m.entry m.run.index).duration ∨
          (m.run.state ≠ .running ∧ m.run.state ≠ .holding) →
        exec (.segmentEnd bank) s = .next s) ∧
        (m.run.counter ≠ 0 → (m.entry m.run.index).duration ≤ m.run.counter →
          (∀ e : Keyframe, m.run.state = .running → m.run.index + 1 < m.count → e = m.entry (m.run.index + 1) →
            e.sync = false → e.layerOn = 0 → e.layerOff = 0 → e.preset = none →
              exec (.segmentEnd bank) s =
                .next
                  (s.modifyMe bank
                    (fun m =>
                      { m with
                        run := { m.run with index := m.run.index + 1, start := m.position, counter := 1 }
                        position := segmentPosition m.position e.target 1 e.duration }))) ∧
            (m.run.state = .holding → m.run.index + 1 < m.count →
              exec (.segmentEnd bank) s =
                .next
                  (s.modifyMe bank
                    (fun m => { m with run := { m.run with state := .paused, index := m.run.index + 1, counter := 0 } }))) ∧
            (m.run.state = .running ∨ m.run.state = .holding → m.count ≤ m.run.index + 1 →
              (m.endMode = .stop ∨ m.run.passes = 1 ∨ m.count = 0) → ∀ ended : State,
                ended =
                    (s.modifyMe bank (fun m => { m with run := Run.idle })).post .runDone .info (.me (bankByte bank)) →
                  (m.position = 4096 → exec (.segmentEnd bank) s = .next (complete bank .run ended)) ∧
                    (m.position = 0 →
                      exec (.segmentEnd bank) s =
                        .next (ended.modifyMe bank (fun m => { m with drive := .rest, pickup := true }))) ∧
                    (m.position ≠ 0 → m.position ≠ 4096 →
                      exec (.segmentEnd bank) s =
                        .next (ended.modifyMe bank (fun m => { m with drive := .manual, pickup := true })))))) ∧
    (∀ (s : State) (bank : BankId) (m : Me) (j passes : Nat), s.resetPin = false → m = s.me bank → m.run.counter ≠ 0 →
      (m.entry m.run.index).duration ≤ m.run.counter →
        (m.run.index + 1 < m.count ∧ j = m.run.index + 1 ∧ passes = m.run.passes ∨
            m.count ≤ m.run.index + 1 ∧ 1 ≤ m.count ∧ m.endMode = .loop ∧ m.run.passes ≠ 1 ∧ j = 0 ∧
              passes = m.run.passes - 1) →
          (m.run.state = .holding →
            exec (.segmentEnd bank) s =
              .next
                (s.modifyMe bank
                  (fun m => { m with run := { m.run with state := .paused, index := j, counter := 0, passes := passes } }))) ∧
            (m.run.state = .running → ∀ (e : Keyframe) (requests : List Instr) (asked : State), e = m.entry j →
              requests =
                  (allLayers.filter (inLayerSet e.layerOn)).map (fun l => .layerOn (bankByte bank) (layerByte l)) ++
                    (allLayers.filter (inLayerSet e.layerOff)).map (fun l => .layerOff (bankByte bank) (layerByte l)) ++
                    e.preset.toList.map (fun code => .select (bankByte bank) 1 code) →
                asked =
                    carryOut requests
                      (s.modifyMe bank
                        (fun m => { m with run := { m.run with index := j, counter := 0, passes := passes } })) →
                  (e.sync = false →
                    exec (.segmentEnd bank) s =
                      .next
                        (asked.modifyMe bank
                          (fun m =>
                            { m with
                              run := { m.run with start := m.position, counter := 1 }
                              position := segmentPosition m.position e.target 1 e.duration }))) ∧
                    (e.sync = true → m.mark = false →
                      exec (.segmentEnd bank) s =
                        .next
                          ((postMark bank asked).modifyMe bank
                            (fun m => { m with run := { m.run with state := .waiting .running, counter := 0 } }))) ∧
                    (e.sync = true → m.mark = true →
                      exec (.segmentEnd bank) s =
                        .next
                          ((postMark bank asked).modifyMe bank
                            (fun m =>
                              { m with
                                mark := false
                                run := { m.run with state := .running, start := m.position, counter := 1 }
                                position := segmentPosition m.position e.target 1 e.duration }))))) ∧
    ∀ (s : State) (p : FieldParity) (bank : BankId) (m : Me), s.resetPin = false → s.ref.change = none →
      s.control.takeList = [] → s.control.take = [] → (∀ e ∈ s.control.schedule, e.target ≠ s.ref.picture + 1) →
        m = s.me bank → m.drive = .keyed →
          ∃ t : State,
            exec (.switchLine p) s = .next t ∧
              (∀ (j passes : Nat) (e : Keyframe) (requests : List Instr) (asked : State), m.arrivesAt j passes → e = m.entry j →
                requests =
                    (allLayers.filter (inLayerSet e.layerOn)).map (fun l => .layerOn (bankByte bank) (layerByte l)) ++
                      (allLayers.filter (inLayerSet e.layerOff)).map (fun l => .layerOff (bankByte bank) (layerByte l)) ++
                      e.preset.toList.map (fun code => .select (bankByte bank) 1 code) →
                  asked =
                      carryOut requests
                        (s.modifyMe bank
                          (fun m => { m.fadeStep with run := { m.run with index := j, counter := 0, passes := passes } })) →
                    t.buses bank = asked.buses bank ∧
                      (e.sync = false ∨ m.mark = true ∨ (s.me bank.other).meets →
                        t.me bank =
                          { asked.me bank with
                            run := { (asked.me bank).run with start := m.position, counter := 1 }
                            position := segmentPosition m.position e.target 1 e.duration
                            mark := (t.me bank).mark }) ∧
                      (e.sync = true → m.mark = false → ¬(s.me bank.other).meets →
                        t.me bank =
                          { asked.me bank with
                            run :=
                              { (asked.me bank).run with
                                state := .waiting (if m.run.state = .holding then .holding else .running) } }) ∧
                      (e.sync = true → (s.me bank.other).run.state = .idle → (t.me bank.other).mark = true)) ∧
              (m.endsRun → ∀ ended done : State,
                ended = s.modifyMe bank (fun m => { m.fadeStep with run := Run.idle }) → done = complete bank .run ended →
                  (m.position = 4096 →
                    t.me bank = { done.me bank with mark := (t.me bank).mark } ∧ t.buses bank = done.buses bank ∧
                      (s.notices.enabled.info = true → t.notices.lost = false →
                        { kind := .transitionDone .run, cls := .info, subject := .me (bankByte bank),
                            number := s.ref.picture + 1 } ∈
                          t.notices.queue)) ∧
                    (m.position = 0 →
                      t.me bank = { ended.me bank with drive := .rest, pickup := true, mark := (t.me bank).mark } ∧
                        t.buses bank = s.buses bank) ∧
                    (m.position ≠ 0 → m.position ≠ 4096 →
                      t.me bank = { ended.me bank with drive := .manual, pickup := true, mark := (t.me bank).mark } ∧
                        t.buses bank = s.buses bank) ∧
                    t.notices.summary.info = true ∧ t.notices.recent.info = true ∧
                    (s.notices.enabled.info = true → t.notices.lost = false →
                      { kind := .runDone, cls := .info, subject := .me (bankByte bank), number := s.ref.picture + 1 } ∈
                        t.notices.queue)) ∧
              (m.run.counter ≠ 0 → (m.entry m.run.index).duration ≤ m.run.counter →
                (m.run.state = .holding ∨
                    m.run.state = .running ∧ m.count ≤ m.run.index + 1 ∧
                      (m.endMode = .stop ∨ m.run.passes = 1 ∨ m.count = 0)) →
                  ∀ stepped : State, exec (.segmentEnd bank) (s.modifyMe bank Me.fadeStep) = .next stepped →
                    t.me bank = { stepped.me bank with mark := (t.me bank).mark } ∧
                      t.buses bank = stepped.buses bank)

/-- R141, R142: a WAITING run whose bank holds a mark consumes it and begins its segment; without a mark it goes on waiting. A run
that arrives at a sync entry gives the other bank a mark, or posts MARK_OVERRUN when it holds one. Two runs that arrive at sync
entries of the same switch line each begin their segments there. SWITCH_LINE settles the marks once both runs have made their step: a
WAITING run whose bank holds a mark, or gets one from the other bank's run on that line, consumes it and begins its segment in its
resume state; one without stays WAITING with P held; a WAITING run and one that arrives at a sync entry begin together when the
mark of the waiting run is with the other bank; and the mark of each bank after the line. -/
def Obligations.RunsMeetAtSyncEntries : Prop :=
  (∀ (s : State) (bank : BankId), s.resetPin = false →
    (∀ r : ResumeState, (s.me bank).run.state = .waiting r →
      ((s.me bank).mark = true →
        exec (.syncRelease bank) s =
          .next
            (s.modifyMe bank
              (fun m =>
                { m with
                  mark := false
                  run := { m.run with state := r.state, start := m.position, counter := 1 }
                  position :=
                    segmentPosition m.position (m.entry m.run.index).target 1 (m.entry m.run.index).duration }))) ∧
        ((s.me bank).mark = false → exec (.syncRelease bank) s = .next s)) ∧
      ((∀ r : ResumeState, (s.me bank).run.state ≠ .waiting r) → exec (.syncRelease bank) s = .next s)) ∧
    (∀ (s : State) (bank : BankId),
      ((s.me bank.other).mark = false →
        postMark bank s = s.modifyMe bank.other (fun m => { m with mark := true })) ∧
        ((s.me bank.other).mark = true →
          postMark bank s = s.post .markOverrun .advisory (.me (bankByte bank.other)))) ∧
    (∀ (s : State) (p : FieldParity), s.resetPin = false → s.ref.change = none → s.control.takeList = [] →
      s.control.take = [] → (∀ e ∈ s.control.schedule, e.target ≠ s.ref.picture + 1) →
        (∀ bank : BankId,
          (s.me bank).drive = .keyed ∧ (s.me bank).run.state = .running ∧ (s.me bank).run.counter = 0 ∧
            (s.me bank).run.index < (s.me bank).count ∧ ((s.me bank).entry (s.me bank).run.index).sync = true ∧
            (s.me bank).mark = false) →
          ∃ t : State,
            exec (.switchLine p) s = .next t ∧
              ∀ bank : BankId,
                (t.me bank).run.state = .running ∧ (t.me bank).run.counter = 1 ∧
                  (t.me bank).run.start = (s.me bank).position ∧ (t.me bank).mark = false ∧
                  (t.me bank).position =
                    segmentPosition (s.me bank).position ((s.me bank).entry (s.me bank).run.index).target 1
                      ((s.me bank).entry (s.me bank).run.index).duration) ∧
    ∀ (s : State) (p : FieldParity), s.resetPin = false → s.ref.change = none → s.control.takeList = [] →
      s.control.take = [] → (∀ e ∈ s.control.schedule, e.target ≠ s.ref.picture + 1) →
        (∀ bank : BankId, (s.me bank).drive = .keyed ↔ (s.me bank).run.state ≠ .idle) →
          ∃ t : State,
            exec (.switchLine p) s = .next t ∧
              ∀ (bank : BankId) (m other : Me), m = s.me bank → other = s.me bank.other →
                (∀ r : ResumeState, m.run.state = .waiting r →
                  t.buses bank = s.buses bank ∧
                    (m.mark = true ∨ other.meets →
                      t.me bank =
                        { m.fadeStep with
                          mark := false
                          run := { m.run with state := r.state, start := m.position, counter := 1 }
                          position :=
                            segmentPosition m.position (m.entry m.run.index).target 1 (m.entry m.run.index).duration }) ∧
                    (m.mark = false → ¬other.meets → t.me bank = m.fadeStep) ∧
                    ∀ j passes : Nat, other.arrivesAt j passes → (other.entry j).sync = true → other.mark = true →
                      (t.me bank).run.state = r.state ∧ (t.me bank).run.counter = 1 ∧
                        (t.me bank.other).run =
                          { other.run with index := j, start := other.position, counter := 1, passes := passes } ∧
                        (t.me bank.other).position =
                          segmentPosition other.position (other.entry j).target 1 (other.entry j).duration) ∧
                  ((t.me bank).mark = true ↔
                    (m.mark = true ∨ other.meets) ∧ ¬m.meets ∧ ∀ r : ResumeState, m.run.state ≠ .waiting r) ∧
                  (m.meets → other.mark = true →
                    t.notices.summary.advisory = true ∧ t.notices.recent.advisory = true ∧
                      (s.notices.enabled.advisory = true → t.notices.lost = false →
                        { kind := .markOverrun, cls := .advisory, subject := .me (bankByte bank.other),
                            number := s.ref.picture + 1 } ∈
                          t.notices.queue))

/-! ### Still store -/

/-- R157, R158, R159: GRAB and CLEAR with their checks in order; "on air" is the on-air set of the last report line. -/
def Obligations.GrabAndClearASlot : Prop :=
  ∀ (s : State) (slot : Byte), s.resetPin = false →
    (slot.toNat = 0 ∨ 8 < slot.toNat →
      (∀ source : Byte, exec (.grab slot source) s = .next (s.refuse 112 .target (.slot slot))) ∧
        exec (.clear slot) s = .next (s.refuse 113 .target (.slot slot))) ∧
      ∀ (m : SlotId) (onAir : Bool), slot.toNat = m.val + 1 → onAir = s.tally.onAir.getLsbD (m.val + 26) →
        (∀ source : Byte,
          (source.toNat = 0 ∨ 25 < source.toNat →
            exec (.grab slot source) s = .next (s.refuse 112 .source (.slot slot))) ∧
            ∀ src : Source, source.toNat = src.code → 1 ≤ src.code → src.code ≤ 25 →
              ((s.slot m).state ≠ .idle → exec (.grab slot source) s = .next (s.refuse 112 .busy (.slot slot))) ∧
                ((s.slot m).state = .idle → onAir = true →
                  exec (.grab slot source) s = .next (s.refuse 112 .onAir (.slot slot))) ∧
                ((s.slot m).state = .idle → onAir = false → 4 ≤ s.store.queue.length →
                  exec (.grab slot source) s = .next (s.refuse 112 .full (.slot slot))) ∧
                ((s.slot m).state = .idle → onAir = false → s.store.queue.length < 4 →
                  exec (.grab slot source) s =
                    .next
                      { s with
                        store :=
                          { s.store with
                            slots := s.store.slots.set m { s.slot m with state := .waiting }
                            queue := s.store.queue ++ [{ slot := m, source := src, wait := 0 }] } })) ∧
          (onAir = true → exec (.clear slot) s = .next (s.refuse 113 .onAir (.slot slot))) ∧
          (onAir = false →
            ((s.slot m).state = .idle →
              exec (.clear slot) s =
                .next
                  { s with
                    store := { s.store with slots := s.store.slots.set m { state := .idle, content := none } } }) ∧
              ((s.slot m).state = .waiting →
                exec (.clear slot) s =
                  .next
                    { s with
                      store :=
                        { s.store with
                          slots := s.store.slots.set m { state := .idle, content := none }
                          queue := s.store.queue.filter (fun e => e.slot ≠ m) } }) ∧
              ∀ src number, (s.slot m).state = .grabbing src number →
                exec (.clear slot) s =
                  .next
                    { s with
                      store :=
                        { s.store with
                          slots := s.store.slots.set m { state := .idle, content := none }
                          ports := s.store.ports.map (fun p => if p = some m then none else p) } })

/-- R161, R162, R163, R164: a grab that completes, one that begins, and one whose wait runs out; otherwise these three do nothing
(log 3, log 23). Then the store's own work at a switch line whose take holds RESYNC commands alone: the grabs in hand complete, with
the picture of the period just ended, and the queue is walked oldest first, a lane being ready when its work of the switch line, the
RESYNC included, leaves it LOCKED. -/
def Obligations.GrabsCompleteBeginAndTimeOut : Prop :=
  (∀ (s : State) (m : SlotId), s.resetPin = false →
    (∀ src number, (s.slot m).state = .grabbing src number →
      exec (.grabCompletion m) s =
        .next
          (State.post
            { s with
              store :=
                { s.store with
                  slots := s.store.slots.set m { state := .idle, content := some (capture s src) }
                  ports := s.store.ports.map (fun p => if p = some m then none else p) } }
            (.grabDone src) .info (.slot (slotByte m)))) ∧
      ((∀ src number, (s.slot m).state ≠ .grabbing src number) → exec (.grabCompletion m) s = .next s) ∧
      ((∀ e ∈ s.store.queue, e.slot ≠ m) →
        exec (.grabBegin m) s = .next s ∧ exec (.grabWaitTimeout m) s = .next s) ∧
      ∀ (before after : List GrabEntry) (e : GrabEntry) (ready : Prop), s.store.queue = before ++ e :: after →
        e.slot = m → (∀ f ∈ before, f.slot ≠ m) → (∀ f ∈ after, f.slot ≠ m) → 1 ≤ e.source.code → e.source.code ≤ 25 →
          (ready ↔ e.source = .meAProgramme ∨ ∃ n : LaneId, e.source = .lane n ∧ (s.lane n).state = .locked) →
            (s.tally.onAir.getLsbD (m.val + 26) = true →
              exec (.grabBegin m) s = .next s ∧ exec (.grabWaitTimeout m) s = .next s) ∧
              (s.tally.onAir.getLsbD (m.val + 26) = false →
                (ready → exec (.grabWaitTimeout m) s = .next s) ∧ (¬ready → exec (.grabBegin m) s = .next s) ∧
                  (ready → s.store.ports[0] ≠ none → s.store.ports[1] ≠ none → exec (.grabBegin m) s = .next s) ∧
                  (ready → s.store.ports[0] = none ∨ s.store.ports[1] = none →
                    ∃ p : Fin 2,
                      s.store.ports[p] = none ∧
                        exec (.grabBegin m) s =
                          .next
                            { s with
                              store :=
                                { slots :=
                                    s.store.slots.set m { s.slot m with state := .grabbing e.source s.ref.picture }
                                  queue := before ++ after
                                  ports := s.store.ports.set p (some m) } }) ∧
                  (¬ready → 7 ≤ e.wait →
                    exec (.grabWaitTimeout m) s =
                      .next
                        (State.post
                          { s with
                            store :=
                              { s.store with
                                slots := s.store.slots.set m { s.slot m with state := .idle }
                                queue := before ++ after } }
                          (.grabFailed .noSource) .degraded (.slot (slotByte m)))) ∧
                  (¬ready → e.wait < 7 → exec (.grabWaitTimeout m) s = .next s))) ∧
    (∀ (s : State) (n : LaneId),
      capture s (.lane n) =
          (if s.periodFormat.interlaced then .woven s.parity (lanePicture s n) else lanePicture s n) ∧
        capture s .meAProgramme =
          (if s.periodFormat.interlaced then .woven s.parity (programmeOf s .a) else programmeOf s .a)) ∧
    ∀ (s : State) (p : FieldParity), s.resetPin = false → s.store.sound → s.ref.change = none → s.control.take = [] →
      (∀ c ∈ s.control.takeList, ∃ lane : Byte, c.command = .resync lane) →
        (∀ e ∈ s.control.schedule, e.target ≠ s.ref.picture + 1) →
          ∃ t : State,
            exec (.switchLine p) s = .next t ∧
              (∀ (m : SlotId) (src : Source) (number : PictureNumber), (s.slot m).state = .grabbing src number →
                t.slot m = { state := .idle, content := some (capture s src) } ∧
                  t.notices.summary.info = true ∧ t.notices.recent.info = true ∧
                  (s.notices.enabled.info = true → t.notices.lost = false →
                    { kind := .grabDone src, cls := .info, subject := .slot (slotByte m), number := s.ref.picture + 1 } ∈
                      t.notices.queue)) ∧
              (∀ m : SlotId, (s.slot m).state = .idle → t.slot m = s.slot m) ∧
              (t.store.queue.map (·.slot)).Sublist (s.store.queue.map (·.slot)) ∧
              ∀ (before after : List GrabEntry) (e : GrabEntry) (onAir ready : GrabEntry → Prop) (ahead : List GrabEntry),
                s.store.queue = before ++ e :: after →
                  (∀ f : GrabEntry, onAir f ↔ s.tally.onAir.getLsbD (f.slot.val + 26) = true) →
                    (∀ f : GrabEntry,
                      ready f ↔
                        f.source = .meAProgramme ∨ ∃ n : LaneId, f.source = .lane n ∧ (t.lane n).state = .locked) →
                      (ahead.Sublist before ∧ ∀ f ∈ before, f ∈ ahead ↔ ¬onAir f ∧ ready f) →
                        (onAir e →
                          t.slot e.slot = { s.slot e.slot with state := .idle } ∧ (∀ f ∈ t.store.queue, f.slot ≠ e.slot) ∧
                            t.notices.summary.degraded = true ∧ t.notices.recent.degraded = true ∧
                            (s.notices.enabled.degraded = true → t.notices.lost = false →
                              { kind := .grabFailed .onAir, cls := .degraded, subject := .slot (slotByte e.slot),
                                  number := s.ref.picture + 1 } ∈
                                t.notices.queue)) ∧
                          (¬onAir e → ready e → ahead.length < 2 →
                            t.slot e.slot = { s.slot e.slot with state := .grabbing e.source (s.ref.picture + 1) } ∧
                              ∀ f ∈ t.store.queue, f.slot ≠ e.slot) ∧
                          (¬onAir e → ready e → 2 ≤ ahead.length → t.slot e.slot = s.slot e.slot ∧ e ∈ t.store.queue) ∧
                          (¬onAir e → ¬ready e → e.wait < 7 →
                            t.slot e.slot = s.slot e.slot ∧ { e with wait := e.wait + 1 } ∈ t.store.queue) ∧
                          (¬onAir e → ¬ready e → 7 ≤ e.wait →
                            t.slot e.slot = { s.slot e.slot with state := .idle } ∧
                              (∀ f ∈ t.store.queue, f.slot ≠ e.slot) ∧ t.notices.summary.degraded = true ∧
                              t.notices.recent.degraded = true ∧
                              (s.notices.enabled.degraded = true → t.notices.lost = false →
                                { kind := .grabFailed .noSource, cls := .degraded, subject := .slot (slotByte e.slot),
                                    number := s.ref.picture + 1 } ∈
                                  t.notices.queue))

/-! ### Notices, tally and the report packet -/

/-- R174, R175, R176: how the report builder takes a notice, in its three steps. -/
def Obligations.ReportBuilderTakesANotice : Prop :=
  ∀ (r f : ReportBuilder) (n : Notice), f = { r with summary := r.summary.raise n.cls, recent := r.recent.raise n.cls } →
    (r.summary.raise n.cls).get n.cls = true ∧
      (∀ other : NoticeClass, other ≠ n.cls → (r.summary.raise n.cls).get other = r.summary.get other) ∧
      (r.enabled.get n.cls = false → r.take n = f) ∧
      (r.enabled.get n.cls = true →
        ((∃ q ∈ r.queue, q.sameLane n = true) →
          ∃ queue : List Notice,
            r.take n = { f with queue := queue } ∧ queue.length = r.queue.length ∧
              ∀ (i : Nat) (q : Notice), r.queue[i]? = some q →
                (q.sameLane n = false → queue[i]? = some q) ∧
                  (q.sameLane n = true →
                    queue[i]? =
                      some
                        { kind := n.kind, subject := q.subject, number := n.number,
                          cls := if q.cls = .degraded ∨ n.cls = .degraded then .degraded else q.cls })) ∧
          ((∀ q ∈ r.queue, q.sameLane n = false) → r.queue.length < 32 →
            r.take n = { f with queue := r.queue ++ [n] }) ∧
          ((∀ q ∈ r.queue, q.sameLane n = false) → 32 ≤ r.queue.length → r.take n = { f with lost := true })) ∧
      (r.sound → (r.take n).sound)

/-- R177: NOTICE_MASK and CLEAR_SUMMARY. -/
def Obligations.MaskAndSummaryFlags : Prop :=
  ∀ s : State, s.resetPin = false →
    (∀ info advisory degraded : Byte,
      (info.toNat ≤ 1 → advisory.toNat ≤ 1 → degraded.toNat ≤ 1 →
        exec (.noticeMask info advisory degraded) s =
          .next
            { s with
              notices :=
                { s.notices with
                  enabled := { info := info = 1, advisory := advisory = 1, degraded := degraded = 1 } } }) ∧
        (1 < info.toNat ∨ 1 < advisory.toNat ∨ 1 < degraded.toNat →
          exec (.noticeMask info advisory degraded) s = .next (s.refuse 128 .target .none))) ∧
      ∃ flags : ClassFlags,
        exec .clearSummary s = .next { s with notices := { s.notices with summary := flags } } ∧
          ∀ cls : NoticeClass, flags.get cls = (s.notices.summary.get cls && s.notices.recent.get cls)

/-- R169, R171: the programme contribution and the preview contribution of a bank. R168, R170, R171: what the report line puts into
the two sets: each is the smallest set that holds M/E B's contribution and that both expansions leave as it is, the preview set
without what is on air. -/
def Obligations.TallySetsFollowReEntryAndFallback : Prop :=
  (∀ (m : Me) (x : Buses) (code : Nat), code ≤ 34 →
    ((programmeContribution m x).getLsbD code = true ↔
        code = x.a.code ∨
          m.drive ≠ .rest ∧ hasBkgd m.selection = true ∧ (code = x.b.code ∨ m.kind = .dip ∧ code = x.dip.code) ∨
          ∃ l : LayerId,
            ((m.layer l).state ≠ .off ∨ hasLayer m.selection l = true ∧ m.drive ≠ .rest) ∧
              (code = (x.get (.fill l)).code ∨ (m.layer l).kind = .linear ∧ code = (x.get (.cut l)).code)) ∧
      ((previewContribution m x).getLsbD code = true ↔
        code = (if hasBkgd m.selection then x.b.code else x.a.code) ∨
          ∃ l : LayerId,
            afterOn (hasLayer m.selection l) (m.layer l).state = true ∧
              (code = (x.get (.fill l)).code ∨ (m.layer l).kind = .linear ∧ code = (x.get (.cut l)).code))) ∧
    (∀ (selected : Bool) (l : LayerState),
      afterOn selected l = true ↔
        (selected = true ∧ (l = .off ∨ ∃ c rf, l = .falling c rf) ∨
          selected = false ∧ (l = .on ∨ ∃ c rf, l = .rising c rf))) ∧
    ∀ s : State, s.busesLegal →
      (∀ code : Nat,
        (programmeContribution s.meB s.matrix.busesB).getLsbD code = true → (onAirSet s).getLsbD code = true) ∧
        ((onAirSet s).getLsbD 25 = true →
          ∀ code : Nat,
            (programmeContribution s.meA s.matrix.busesA).getLsbD code = true → (onAirSet s).getLsbD code = true) ∧
        (∀ (n : LaneId) (m : SlotId), (onAirSet s).getLsbD (n.val + 1) = true → (s.lane n).state ≠ .locked →
          (s.lane n).fallback = some m → (onAirSet s).getLsbD (m.val + 26) = true) ∧
        (∀ set : TallySet,
          (∀ code : Nat, (programmeContribution s.meB s.matrix.busesB).getLsbD code = true → set.getLsbD code = true) →
            expandPass s set = set → ∀ code : Nat, (onAirSet s).getLsbD code = true → set.getLsbD code = true) ∧
        onAirSet s &&& previewSet s = 0 ∧
        (∀ code : Nat, (previewContribution s.meB s.matrix.busesB).getLsbD code = true →
          (onAirSet s).getLsbD code = false → (previewSet s).getLsbD code = true) ∧
        (∀ set : TallySet,
          expandPass s set = set ↔
            (set.getLsbD 25 = true →
                ∀ code : Nat, (programmeContribution s.meA s.matrix.busesA).getLsbD code = true → set.getLsbD code = true) ∧
              ∀ (n : LaneId) (m : SlotId), set.getLsbD (n.val + 1) = true → (s.lane n).state ≠ .locked →
                (s.lane n).fallback = some m → set.getLsbD (m.val + 26) = true) ∧
        ∃ shown : TallySet,
          (∀ code : Nat, (previewContribution s.meB s.matrix.busesB).getLsbD code = true → shown.getLsbD code = true) ∧
            expandPass s shown = shown ∧
            (∀ set : TallySet,
              (∀ code : Nat, (previewContribution s.meB s.matrix.busesB).getLsbD code = true → set.getLsbD code = true) →
                expandPass s set = set → ∀ code : Nat, shown.getLsbD code = true → set.getLsbD code = true) ∧
            ∀ code : Nat,
              (previewSet s).getLsbD code = true ↔ shown.getLsbD code = true ∧ (onAirSet s).getLsbD code = false

/-- R2, R31, R168, R176, R177, R178, R180: the report line. It acts only when its period has not had it yet (log 9). The events held
are acted on in their order, each as the row it is, and a packet held after an event that ended LOCKED is discarded. -/
def Obligations.ReportLineReportsThePeriod : Prop :=
  ∀ s : State, s.resetPin = false →
    (s.awaitingReport = false → exec .reportLine s = .next s) ∧
      (s.awaitingReport = true →
        ∀ sent : State,
          sent =
              { s with
                awaitingReport := false
                held := []
                tally := { onAir := onAirSet s, preview := previewSet s }
                report := some (reportPacket { s with tally := { onAir := onAirSet s, preview := previewSet s } })
                notices :=
                  { s.notices with
                    queue := s.notices.queue.drop 6
                    lost := false
                    recent := { info := false, advisory := false, degraded := false } } } →
            (s.held = [] → exec .reportLine s = .next sent) ∧
              (∀ x : ReferenceStart, s.held = [.start x] →
                exec .reportLine s = exec (.referencePictureStart x) sent) ∧
              (s.held = [.missing] → exec .reportLine s = exec .missingStart sent) ∧
              (∀ carrier : List Byte, s.held = [.packet carrier] →
                exec .reportLine s = exec (.controlPacket true carrier) sent) ∧
              exec .reportLine s = .next (carryOut (s.held.map rowOfHeld) sent) ∧
              ∀ (before after : List HeldEvent) (carrier : List Byte), s.held = before ++ .packet carrier :: after →
                (carryOut (before.map rowOfHeld) sent).ref.status.name ≠ .locked →
                  exec .reportLine s = .next (carryOut ((before ++ after).map rowOfHeld) sent))

/-- R187, R188: the framing of the report packet, the places of its fields and the bytes of its notice entries. -/
def Obligations.ReportPacketLayout : Prop :=
  (∀ (s : State) (body : List Byte) (k : Nat), (∀ bank : BankId, (s.me bank).layersSound) → body = reportBody s →
    k = min 6 s.notices.queue.length →
      body.length = 103 + 10 * k ∧
        (∃ check : Byte,
          reportPacket s = [byteOf (208 + s.unit.toNat), byteOf body.length] ++ body ++ [check] ∧
            byteOf body.length + byteSum body + check = 0) ∧
        body.take 4 = [9, 96, 1, byteOf s.unit.toNat] ∧
        (((body.getD 4 0).toNat * 256 + (body.getD 5 0).toNat) * 256 + (body.getD 6 0).toNat = s.ref.picture.toNat) ∧
        (body.getD 7 0).toNat =
          (match s.ref.status with | .noReference => 0 | .locking .. => 1 | .locked .. => 2 | .freeRun => 3) ∧
        (body.getD 8 0).toNat =
          (match s.ref.house with
          | .hd1080i50 => 0 | .hd1080i5994 => 1 | .hd1080p50 => 2 | .hd1080p5994 => 3 | .uhd2160p50 => 4
          | .uhd2160p5994 => 5) ∧
        (body.getD 9 0).toNat =
          (if s.notices.summary.info then 1 else 0) + (if s.notices.summary.advisory then 2 else 0) +
            (if s.notices.summary.degraded then 4 else 0) + (if s.notices.lost then 8 else 0) ∧
        (∀ n : LaneId,
          (body.getD (10 + n.val) 0).toNat =
            (match (s.lane n).state with | .absent => 0 | .acquiring => 1 | .locked => 2) +
              if (s.lane n).resync then 4 else 0) ∧
        (∀ code : Nat, code ≤ 34 →
          (body.getD (34 + code / 8) 0).getLsbD (code % 8) = s.tally.onAir.getLsbD code ∧
            (body.getD (39 + code / 8) 0).getLsbD (code % 8) = s.tally.preview.getLsbD code) ∧
        (∀ (bank : BankId) (base : Nat) (m : Me), base = (if bank = .a then 44 else 68) → m = s.me bank →
          (body.getD base 0).toNat =
              (match m.drive with | .rest => 0 | .manual => 1 | .auto .. => 2 | .keyed => 3) ∧
            (m.position ≤ 4096 →
              (body.getD (base + 1) 0).toNat * 256 + (body.getD (base + 2) 0).toNat = m.position) ∧
            (body.getD (base + 3) 0).toNat = m.selection.toNat ∧
            (body.getD (base + 4) 0).toNat =
              (match m.sense with | .forward => 0 | .reverse => 1) + (if m.pickup then 2 else 0) ∧
            (body.getD (base + 5) 0).toNat =
              (match m.run.state with | .idle => 0 | .running => 1 | .waiting _ => 2 | .holding => 3 | .paused => 4) ∧
            (m.run.index ≤ 32 → (body.getD (base + 6) 0).toNat = m.run.index) ∧
            (body.getD (base + 7) 0).toNat = (if m.mark then 1 else 0) ∧
            (∀ l : LayerId,
              (body.getD (base + 8 + 3 * l.val) 0).toNat =
                  (match (m.layer l).state with | .off => 0 | .rising .. => 1 | .on => 2 | .falling .. => 3) ∧
                (body.getD (base + 9 + 3 * l.val) 0).toNat * 256 + (body.getD (base + 10 + 3 * l.val) 0).toNat =
                  (m.layer l).state.level) ∧
            ∀ (i : Fin 4) (l : LayerId), m.order[i.val]? = some l → (body.getD (base + 20 + i.val) 0).toNat = l.val + 1) ∧
        (∀ m : SlotId,
          (body.getD (92 + m.val) 0).toNat =
            (match (s.slot m).state with | .idle => 0 | .waiting => 1 | .grabbing .. => 2) +
              if (s.slot m).content.isSome then 4 else 0) ∧
        body.getD 100 0 = byteOf s.control.fill ∧ body.getD 101 0 = byteOf s.control.schedule.length ∧
        (body.getD 102 0).toNat = k ∧
        ∀ (i : Nat) (n : Notice), i < k → s.notices.queue[i]? = some n →
          (body.drop (103 + 10 * i)).take 10 = n.entry ∧ n.entry.length = 10) ∧
    ∀ n : Notice,
      (n.entry.take 1).map BitVec.toNat =
          [match n.kind with
            | .lane .. => 1 | .reference .. => 2 | .format .. => 3 | .refused .. => 4 | .late .. => 5 | .packet .. => 6
            | .curve .. => 7 | .markOverrun => 8 | .transitionDone .. => 9 | .runDone => 10 | .grabDone .. => 11
            | .grabFailed .. => 12] ∧
        ((n.entry.drop 1).take 1).map BitVec.toNat =
          [match n.cls with | .info => 0 | .advisory => 1 | .degraded => 2] ∧
        (n.entry.drop 2).take 3 =
          (match n.subject with
          | .none => [0, 0, 0]
          | .lane b => [1, b, 0]
          | .me b => [2, b, 0]
          | .layer b c => [3, b, c]
          | .slot b => [4, b, 0]
          | .curve b => [5, b, 0]) ∧
        (n.entry.drop 5).take 2 =
          (match n.kind with
          | .lane st present =>
            [match st with | .absent => 0 | .acquiring => 1 | .locked => 2, if present then 1 else 0]
          | .reference r => [match r with | .noReference => 0 | .locking => 1 | .locked => 2 | .freeRun => 3, 0]
          | .format f =>
            [match f with
              | .hd1080i50 => 0 | .hd1080i5994 => 1 | .hd1080p50 => 2 | .hd1080p5994 => 3 | .uhd2160p50 => 4
              | .uhd2160p5994 => 5, 0]
          | .refused code reason =>
            [code,
              match reason with
              | .unknown => 1 | .length => 2 | .target => 3 | .source => 4 | .busy => 5 | .onAir => 6 | .full => 7
              | .empty => 8 | .order => 9]
          | .late code => [code, 0]
          | .packet fault => [match fault with | .check => 0 | .excess => 1 | .length => 2, 0]
          | .curve corrected => [byteOf corrected, 0]
          | .markOverrun => [0, 0]
          | .transitionDone how => [match how with | .cut => 0 | .auto => 1 | .lever => 2 | .run => 3, 0]
          | .runDone => [0, 0]
          | .grabDone src => [byteOf src.code, 0]
          | .grabFailed fault => [match fault with | .onAir => 0 | .noSource => 1, 0]) ∧
        n.entry.length = 10 ∧
        (((n.entry.getD 7 0).toNat * 256 + (n.entry.getD 8 0).toNat) * 256 + (n.entry.getD 9 0).toNat = n.number.toNat)

/-! ### Collection, the take and the resets -/

/-- R44, R45: CANCEL and CANCEL_ALL. R42: SCHEDULED_ENTRY_DUE moves a due front entry to the take, and does nothing when no front
entry is due (log 3); the take is the due entries in list order and then the take list. R41, R43: the take hands each command in
turn to what its row does, a late one after its LATE notice. R46: a RESET of another scope is refused TARGET and the take goes on.
R42, R43: SWITCH_LINE hands out that take after the blocks' own work, which is that of the same switch line with nothing to take, but
that the still store reads the lanes as the lane commands of the take leave them (R163). That a LOCKED lane is out of LOCKED there
exactly when a RESYNC of it stands in the take before the first RESET of a legal scope, or that RESET is of scope FULL, is the model's
reading of R25, R29, R46 and R163 together (log 26, DEDUCED). -/
def Obligations.ScheduleListAndTheTake : Prop :=
  (∀ s : State, s.resetPin = false →
    (∀ target : PictureNumber,
      exec (.cancel target) s =
          .next
            { s with
              control := { s.control with schedule := s.control.schedule.filter (fun e => decide (e.target ≠ target)) } } ∧
        ((∀ e ∈ s.control.schedule, e.target ≠ target) → exec (.cancel target) s = .next s)) ∧
      exec .cancelAll s = .next { s with control := { s.control with schedule := [] } } ∧
      (∀ (e : ScheduleEntry) (rest : List ScheduleEntry), s.control.schedule = e :: rest → e.target = s.ref.picture →
        exec .scheduledEntryDue s =
          .next
            { s with
              control :=
                { s.control with
                  schedule := rest
                  take := s.control.take ++ [{ command := e.command, late := false }] } }) ∧
      ((∀ e ∈ s.control.schedule.head?, e.target ≠ s.ref.picture) → exec .scheduledEntryDue s = .next s)) ∧
    (∀ (s : State) (due left : List ScheduleEntry), s.control.schedule = due ++ left →
      (∀ e ∈ due, e.target = s.ref.picture) → (∀ e ∈ left.head?, e.target ≠ s.ref.picture) →
        formTake s =
          { s with
            control :=
              { s.control with
                schedule := left
                takeList := []
                fill := s.control.takeList.length
                take :=
                  s.control.take ++ due.map (fun e => { command := e.command, late := false }) ++ s.control.takeList } }) ∧
    (∀ (s : State) (e : TakeEntry) (rest : List TakeEntry) (handed : State), s.resetPin = false →
      s.control.take = e :: rest →
        handed =
          (if e.late then
            State.post { s with control := { s.control with take := rest } } (.late e.command.code) .advisory .none
          else { s with control := { s.control with take := rest } }) →
          (∀ (c : Instr) (t : State), rowOf e.command = some c → exec c handed = .next t →
            handOutTake s = handOutTake t) ∧
            ∀ scope : Byte, e.command = .reset scope → 1 < scope.toNat →
              handOutTake s = handOutTake (handed.refuse 4 .target .none)) ∧
    (∀ s : State, s.control.take = [] → handOutTake s = s) ∧
    (∀ (formed : State) (n : LaneId),
      lockedAfterTake formed n = true ↔
        (formed.lane n).state = .locked ∧
          ∀ (before after : List TakeEntry) (e : TakeEntry), formed.control.take = before ++ e :: after →
            (∀ d ∈ before, d.command ≠ .reset 0 ∧ d.command ≠ .reset 1) →
              e.command ≠ .reset 1 ∧ ∀ lane : Byte, e.command = .resync lane → lane.toNat ≠ n.val + 1) ∧
    ∀ (s : State) (p : FieldParity) (due left : List ScheduleEntry), s.resetPin = false → s.ref.change = none →
      s.control.schedule = due ++ left → (∀ e ∈ due, e.target = s.ref.picture + 1) →
        (∀ e ∈ left.head?, e.target ≠ s.ref.picture + 1) →
          ∃ quiet formed own : State,
            formed = formTake (lanesWork s (beginPeriod p s)) ∧ own = storeWork s (lockedAfterTake formed) (banksWork formed) ∧
            exec (.switchLine p) { s with control := { s.control with takeList := [], take := [], schedule := left } } =
                .next quiet ∧
              own =
                { quiet with
                  control :=
                    { quiet.control with
                      fill := s.control.takeList.length
                      take :=
                        s.control.take ++ due.map (fun e => { command := e.command, late := false }) ++
                          s.control.takeList }
                  store := own.store
                  notices := own.notices } ∧
              ((∀ e ∈ own.control.take, ∀ b : Byte, e.command ≠ .resync b ∧ e.command ≠ .reset b) →
                own.store = quiet.store ∧ own.notices = quiet.notices) ∧
              exec (.switchLine p) s = .next (handOutTake own)

/-- R46, R47, R49: RESET(ENGINE) keeps what is set up and stops what is in motion. R29, R48, R49: RESET(FULL) gives every block its
power-on values but for the reference timing unit, the lanes' presence, the tally sets and the unit number; the LANE notices of
lanes it takes out of LOCKED come after the queue is emptied and the flags are cleared, and set their flags again. -/
def Obligations.BothScopesOfReset : Prop :=
  (∀ s : State, s.resetPin = false →
    ∃ t : State,
      exec .resetEngine s = .next t ∧
        t =
          { s with
            control := { s.control with take := [], schedule := [] }
            meA := t.meA
            meB := t.meB
            store := t.store
            notices := { s.notices with queue := [], lost := false } } ∧
        (∀ bank : BankId,
          t.me bank =
              { s.me bank with
                drive := .rest, position := 0, pickup := true, layers := (t.me bank).layers, run := Run.idle, mark := false } ∧
            ∀ l : LayerId, (t.me bank).layer l = { (s.me bank).layer l with state := .off }) ∧
        (∀ m : SlotId, t.slot m = { s.slot m with state := .idle }) ∧ t.store.queue = [] ∧
        t.store.ports = Vector.replicate 2 none) ∧
    ∀ s : State, s.resetPin = false →
      ∃ t : State,
        exec .resetFull s = .next t ∧
          t =
            { s with
              control := { s.control with take := [], schedule := [] }
              meA := (State.reset).meA
              meB := (State.reset).meB
              store := (State.reset).store
              matrix := (State.reset).matrix
              curves := (State.reset).curves
              lanes := t.lanes
              notices := t.notices } ∧
          (∀ n : LaneId,
            t.lane n =
              { s.lane n with
                state := if (s.lane n).state = .locked then .acquiring else (s.lane n).state
                good := 0
                settle := 4
                fallback := none
                resync := false }) ∧
          t.notices.enabled = { info := true, advisory := true, degraded := true } ∧ t.notices.lost = false ∧
          t.notices.recent = t.notices.summary ∧ t.notices.summary.advisory = false ∧
          (t.notices.summary.info = true ↔
            ∃ n : LaneId, (s.lane n).state = .locked ∧ s.tally.onAir.getLsbD (n.val + 1) = false) ∧
          (t.notices.summary.degraded = true ↔
            ∃ n : LaneId, (s.lane n).state = .locked ∧ s.tally.onAir.getLsbD (n.val + 1) = true) ∧
          t.notices.queue =
            ((List.finRange 24).filter (fun n => (s.lane n).state = .locked)).map
              (fun n =>
                { kind := .lane .acquiring true,
                  cls := if s.tally.onAir.getLsbD (n.val + 1) then .degraded else .info,
                  subject := .lane (laneByte n), number := s.ref.picture })

/-- R37, R38, R39, R40: how an AT at collection is refused, or places its inner command by the distance from N to its target. -/
def Obligations.AtPlacesItsInnerCommand : Prop :=
  ∀ (s : State) (target : PictureNumber) (code count : Byte) (inner : List Byte), s.resetPin = false →
    (inner.length ≠ count.toNat → exec (.atPicture target code count inner) s = .next (s.refuse 1 .length .none)) ∧
      (inner.length = count.toNat →
        (code = 1 → exec (.atPicture target code count inner) s = .next (s.refuse 1 .target .none)) ∧
          (code ≠ 1 → readCommand code inner = none →
            exec (.atPicture target code count inner) s = .next (s.refuse code .unknown .none)) ∧
          (code ≠ 1 → readCommand code inner = some none →
            exec (.atPicture target code count inner) s = .next (s.refuse code .length .none)) ∧
          ∀ c : Command, code ≠ 1 → readCommand code inner = some (some c) →
            (distance (s.ref.picture + 1) target = 0 →
              (s.control.takeList.length < 128 →
                exec (.atPicture target code count inner) s =
                  .next
                    { s with
                      control :=
                        { s.control with takeList := s.control.takeList ++ [{ command := c, late := false }] } }) ∧
                (128 ≤ s.control.takeList.length →
                  exec (.atPicture target code count inner) s = .next (s.refuse c.code .full c.subject))) ∧
              (8388608 ≤ distance (s.ref.picture + 1) target →
                (s.control.takeList.length < 128 →
                  exec (.atPicture target code count inner) s =
                    .next
                      { s with
                        control :=
                          { s.control with takeList := s.control.takeList ++ [{ command := c, late := true }] } }) ∧
                  (128 ≤ s.control.takeList.length →
                    exec (.atPicture target code count inner) s = .next (s.refuse c.code .full c.subject))) ∧
              (1 ≤ distance (s.ref.picture + 1) target → distance (s.ref.picture + 1) target ≤ 8388607 →
                (64 ≤ s.control.schedule.length →
                  exec (.atPicture target code count inner) s = .next (s.refuse 1 .full .none)) ∧
                  (s.control.schedule.length < 64 →
                    ∃ before after : List ScheduleEntry,
                      s.control.schedule = before ++ after ∧
                        (∀ e ∈ before,
                          distance (s.ref.picture + 1) e.target ≤ distance (s.ref.picture + 1) target) ∧
                        (∀ e ∈ after.head?,
                          distance (s.ref.picture + 1) target < distance (s.ref.picture + 1) e.target) ∧
                        exec (.atPicture target code count inner) s =
                          .next
                            { s with
                              control :=
                                { s.control with
                                  schedule := before ++ { target := target, command := c } :: after } })))

/-- R12, R32, R33, R34, R35, R37, R38: a candidate is passed over, dropped or accepted, and an accepted payload is cut into commands,
an AT among them. -/
def Obligations.ControlPacketsAreCheckedAndCut : Prop :=
  (∀ (s : State) (carrier : List Byte), s.resetPin = false →
    (s.ref.status.name ≠ .locked → exec (.controlPacket true carrier) s = .next s) ∧
      exec (.controlPacket false carrier) s = .next s) ∧
    (∀ (s : State) (kind : Byte) (rest : List Byte), s.resetPin = false → s.ref.status.name = .locked →
      s.awaitingReport = false →
        (kind.toNat ≠ 200 + s.unit.toNat → exec (.controlPacket true (kind :: rest)) s = .next s) ∧
          (kind.toNat = 200 + s.unit.toNat →
            (rest = [] → exec (.controlPacket true [kind]) s = .next (s.post (.packet .check) .advisory .none)) ∧
              ∀ (count : Byte) (after : List Byte), rest = count :: after →
                ((count.toNat = 0 ∨ 248 < count.toNat ∨ after.length < count.toNat + 1 ∨
                    byteSum (count :: after.take (count.toNat + 1)) ≠ 0 →
                  exec (.controlPacket true (kind :: rest)) s = .next (s.post (.packet .check) .advisory .none)) ∧
                  (1 ≤ count.toNat → count.toNat ≤ 248 → count.toNat + 1 ≤ after.length →
                    byteSum (count :: after.take (count.toNat + 1)) = 0 →
                      (16 ≤ s.control.packets → s.control.excess = true →
                        exec (.controlPacket true (kind :: rest)) s = .next s) ∧
                        (16 ≤ s.control.packets → s.control.excess = false →
                          exec (.controlPacket true (kind :: rest)) s =
                            .next
                              (State.post { s with control := { s.control with excess := true } } (.packet .excess)
                                .advisory .none)) ∧
                        (s.control.packets < 16 →
                          exec (.controlPacket true (kind :: rest)) s =
                            .next
                              (cutPayload count.toNat (after.take count.toNat)
                                { s with control := { s.control with packets := s.control.packets + 1 } })))))) ∧
    ∀ (s : State) (n : Nat) (code count : Byte) (rest : List Byte),
      cutPayload (n + 1) [] s = s ∧ cutPayload (n + 1) [code] s = s.post (.packet .length) .advisory .none ∧
        (rest.length < count.toNat →
          cutPayload (n + 1) (code :: count :: rest) s = s.post (.packet .length) .advisory .none) ∧
        (count.toNat ≤ rest.length → code ≠ 1 →
          (readCommand code (rest.take count.toNat) = none →
            cutPayload (n + 1) (code :: count :: rest) s =
              cutPayload n (rest.drop count.toNat) (s.refuse code .unknown .none)) ∧
            (readCommand code (rest.take count.toNat) = some none →
              cutPayload (n + 1) (code :: count :: rest) s =
                cutPayload n (rest.drop count.toNat) (s.refuse code .length .none)) ∧
            ∀ c : Command, readCommand code (rest.take count.toNat) = some (some c) →
              (s.control.takeList.length < 128 →
                cutPayload (n + 1) (code :: count :: rest) s =
                  cutPayload n (rest.drop count.toNat)
                    { s with
                      control :=
                        { s.control with takeList := s.control.takeList ++ [{ command := c, late := false }] } }) ∧
                (128 ≤ s.control.takeList.length →
                  cutPayload (n + 1) (code :: count :: rest) s =
                    cutPayload n (rest.drop count.toNat) (s.refuse c.code .full c.subject))) ∧
        (count.toNat ≤ rest.length → code = 1 →
          (count.toNat < 5 →
            cutPayload (n + 1) (code :: count :: rest) s =
              cutPayload n (rest.drop count.toNat) (s.refuse 1 .length .none)) ∧
            ∀ (high middle low innerCode innerCount : Byte) (inner : List Byte) (t : State), s.resetPin = false →
              rest.take count.toNat = high :: middle :: low :: innerCode :: innerCount :: inner →
                exec (.atPicture (high ++ middle ++ low) innerCode innerCount inner) s = .next t →
                  cutPayload (n + 1) (code :: count :: rest) s = cutPayload n (rest.drop count.toNat) t)

/-! ### Invariants of every step -/

/-- R174: every step keeps the notice queue at most 32 long, without two LANE notices for one lane. -/
def Obligations.StepsKeepTheNoticeQueueSound : Prop :=
  ∀ s t : State, s.notices.sound → step s = .next t → t.notices.sound

/-- R154, R156, R162: every step keeps the wait queue, the ports and the slot states in agreement. -/
def Obligations.StepsKeepTheStillStoreSound : Prop :=
  ∀ s t : State, s.store.sound → step s = .next t → t.store.sound

/-- R55: every step keeps every bus on a source legal on its bank, so no bus ever holds 35, 36 or 37. -/
def Obligations.StepsKeepEveryBusLegal : Prop :=
  ∀ s t : State, s.busesLegal → step s = .next t → t.busesLegal

/-- R113, R124: every step keeps every fade counter within its fade and every stacking order holding each layer exactly once. -/
def Obligations.StepsKeepLayersAndOrderSound : Prop :=
  ∀ s t : State, (∀ bank : BankId, (s.me bank).layersSound) → step s = .next t → ∀ bank : BankId, (t.me bank).layersSound

/-- R90, R91, R109, R133, R135, R136: every step keeps P in the range of the drive state, each bank KEYED exactly while its run is
not IDLE, and the run record within its limits. -/
def Obligations.StepsKeepDriveAndRunSound : Prop :=
  ∀ s t : State, (∀ bank : BankId, (s.me bank).driveSound) → step s = .next t → ∀ bank : BankId, (t.me bank).driveSound

/-- R36, R40: every step keeps the lists within their limits and the schedule list ordered by distance, with no target past. -/
def Obligations.StepsKeepTheListsSound : Prop :=
  ∀ s t : State, s.listsBounded → s.scheduleOrdered → step s = .next t → t.listsBounded ∧ t.scheduleOrdered

/-- R2, R6, R16, R26, R54, R72, R171: every step keeps the lane records, the reference state, the held events, the matte, the curve
tables and the tally sets within their limits. -/
def Obligations.StepsKeepTheRecordsInRange : Prop :=
  ∀ s t : State,
    s.lanesSound ∧ s.ref.status.sound ∧ s.heldSound ∧ s.matteSound ∧ s.curvesSound ∧ s.tallyDisjoint →
      step s = .next t →
        t.lanesSound ∧ t.ref.status.sound ∧ t.heldSound ∧ t.matteSound ∧ t.curvesSound ∧ t.tallyDisjoint
end

