-- ==== Sys2Proof/Laws/State.lean ====
section
/-! SUPPORT. One lemma for each field of State under each named update. -/

namespace Sys2Proof.Machine

/-! ### The record of a bank -/

@[simp] theorem State.setMe_resetPin (s : State) (bank : BankId) (m : Me) : (s.setMe bank m).resetPin = s.resetPin := by cases bank <;> rfl

@[simp] theorem State.setMe_unit (s : State) (bank : BankId) (m : Me) : (s.setMe bank m).unit = s.unit := by cases bank <;> rfl

@[simp] theorem State.setMe_ref (s : State) (bank : BankId) (m : Me) : (s.setMe bank m).ref = s.ref := by cases bank <;> rfl

@[simp] theorem State.setMe_awaitingReport (s : State) (bank : BankId) (m : Me) : (s.setMe bank m).awaitingReport = s.awaitingReport := by cases bank <;> rfl

@[simp] theorem State.setMe_held (s : State) (bank : BankId) (m : Me) : (s.setMe bank m).held = s.held := by cases bank <;> rfl

@[simp] theorem State.setMe_parity (s : State) (bank : BankId) (m : Me) : (s.setMe bank m).parity = s.parity := by cases bank <;> rfl

@[simp] theorem State.setMe_lanes (s : State) (bank : BankId) (m : Me) : (s.setMe bank m).lanes = s.lanes := by cases bank <;> rfl

@[simp] theorem State.setMe_control (s : State) (bank : BankId) (m : Me) : (s.setMe bank m).control = s.control := by cases bank <;> rfl

@[simp] theorem State.setMe_matrix (s : State) (bank : BankId) (m : Me) : (s.setMe bank m).matrix = s.matrix := by cases bank <;> rfl

@[simp] theorem State.setMe_curves (s : State) (bank : BankId) (m : Me) : (s.setMe bank m).curves = s.curves := by cases bank <;> rfl

@[simp] theorem State.setMe_store (s : State) (bank : BankId) (m : Me) : (s.setMe bank m).store = s.store := by cases bank <;> rfl

@[simp] theorem State.setMe_tally (s : State) (bank : BankId) (m : Me) : (s.setMe bank m).tally = s.tally := by cases bank <;> rfl

@[simp] theorem State.setMe_notices (s : State) (bank : BankId) (m : Me) : (s.setMe bank m).notices = s.notices := by cases bank <;> rfl

@[simp] theorem State.setMe_report (s : State) (bank : BankId) (m : Me) : (s.setMe bank m).report = s.report := by cases bank <;> rfl

@[simp] theorem State.setMe_pending (s : State) (bank : BankId) (m : Me) : (s.setMe bank m).pending = s.pending := by cases bank <;> rfl

@[simp] theorem State.setMe_a_meA (s : State) (m : Me) : (s.setMe .a m).meA = m := rfl

@[simp] theorem State.setMe_a_meB (s : State) (m : Me) : (s.setMe .a m).meB = s.meB := rfl

@[simp] theorem State.setMe_b_meA (s : State) (m : Me) : (s.setMe .b m).meA = s.meA := rfl

@[simp] theorem State.setMe_b_meB (s : State) (m : Me) : (s.setMe .b m).meB = m := rfl

@[simp] theorem State.me_setMe (s : State) (bank : BankId) (m : Me) : (s.setMe bank m).me bank = m := by
  cases bank <;> rfl

@[simp] theorem State.me_other_setMe (s : State) (bank : BankId) (m : Me) :
    (s.setMe bank m).me bank.other = s.me bank.other := by
  cases bank <;> rfl

theorem State.me_setMe_of_ne (s : State) {bank x : BankId} (m : Me) (h : x ≠ bank) : (s.setMe bank m).me x = s.me x := by
  cases bank <;> cases x <;> first | rfl | exact absurd rfl h

@[simp] theorem State.buses_setMe (s : State) (bank : BankId) (m : Me) (x : BankId) :
    (s.setMe bank m).buses x = s.buses x := by
  cases bank <;> cases x <;> rfl

@[simp] theorem State.setMe_setMe (s : State) (bank : BankId) (m m' : Me) :
    (s.setMe bank m).setMe bank m' = s.setMe bank m' := by
  cases bank <;> rfl

@[simp] theorem State.setMe_me (s : State) (bank : BankId) : s.setMe bank (s.me bank) = s := by
  cases bank <;> rfl

/-! ### A changed record of a bank -/

@[simp] theorem State.modifyMe_resetPin (s : State) (bank : BankId) (f : Me → Me) : (s.modifyMe bank f).resetPin = s.resetPin := by cases bank <;> rfl

@[simp] theorem State.modifyMe_unit (s : State) (bank : BankId) (f : Me → Me) : (s.modifyMe bank f).unit = s.unit := by cases bank <;> rfl

@[simp] theorem State.modifyMe_ref (s : State) (bank : BankId) (f : Me → Me) : (s.modifyMe bank f).ref = s.ref := by cases bank <;> rfl

@[simp] theorem State.modifyMe_awaitingReport (s : State) (bank : BankId) (f : Me → Me) : (s.modifyMe bank f).awaitingReport = s.awaitingReport := by cases bank <;> rfl

@[simp] theorem State.modifyMe_held (s : State) (bank : BankId) (f : Me → Me) : (s.modifyMe bank f).held = s.held := by cases bank <;> rfl

@[simp] theorem State.modifyMe_parity (s : State) (bank : BankId) (f : Me → Me) : (s.modifyMe bank f).parity = s.parity := by cases bank <;> rfl

@[simp] theorem State.modifyMe_lanes (s : State) (bank : BankId) (f : Me → Me) : (s.modifyMe bank f).lanes = s.lanes := by cases bank <;> rfl

@[simp] theorem State.modifyMe_control (s : State) (bank : BankId) (f : Me → Me) : (s.modifyMe bank f).control = s.control := by cases bank <;> rfl

@[simp] theorem State.modifyMe_matrix (s : State) (bank : BankId) (f : Me → Me) : (s.modifyMe bank f).matrix = s.matrix := by cases bank <;> rfl

@[simp] theorem State.modifyMe_curves (s : State) (bank : BankId) (f : Me → Me) : (s.modifyMe bank f).curves = s.curves := by cases bank <;> rfl

@[simp] theorem State.modifyMe_store (s : State) (bank : BankId) (f : Me → Me) : (s.modifyMe bank f).store = s.store := by cases bank <;> rfl

@[simp] theorem State.modifyMe_tally (s : State) (bank : BankId) (f : Me → Me) : (s.modifyMe bank f).tally = s.tally := by cases bank <;> rfl

@[simp] theorem State.modifyMe_notices (s : State) (bank : BankId) (f : Me → Me) : (s.modifyMe bank f).notices = s.notices := by cases bank <;> rfl

@[simp] theorem State.modifyMe_report (s : State) (bank : BankId) (f : Me → Me) : (s.modifyMe bank f).report = s.report := by cases bank <;> rfl

@[simp] theorem State.modifyMe_pending (s : State) (bank : BankId) (f : Me → Me) : (s.modifyMe bank f).pending = s.pending := by cases bank <;> rfl

@[simp] theorem State.me_modifyMe (s : State) (bank : BankId) (f : Me → Me) :
    (s.modifyMe bank f).me bank = f (s.me bank) := by
  cases bank <;> rfl

@[simp] theorem State.me_other_modifyMe (s : State) (bank : BankId) (f : Me → Me) :
    (s.modifyMe bank f).me bank.other = s.me bank.other := by
  cases bank <;> rfl

theorem State.me_modifyMe_of_ne (s : State) {bank x : BankId} (f : Me → Me) (h : x ≠ bank) :
    (s.modifyMe bank f).me x = s.me x :=
  State.me_setMe_of_ne s _ h

@[simp] theorem State.buses_modifyMe (s : State) (bank : BankId) (f : Me → Me) (x : BankId) :
    (s.modifyMe bank f).buses x = s.buses x := by
  cases bank <;> cases x <;> rfl

theorem State.modifyMe_modifyMe (s : State) (bank : BankId) (f g : Me → Me) :
    (s.modifyMe bank f).modifyMe bank g = s.modifyMe bank (fun m => g (f m)) := by
  cases bank <;> rfl

/-! ### The buses of a bank -/

@[simp] theorem State.setBuses_resetPin (s : State) (bank : BankId) (x : Buses) : (s.setBuses bank x).resetPin = s.resetPin := by cases bank <;> rfl

@[simp] theorem State.setBuses_unit (s : State) (bank : BankId) (x : Buses) : (s.setBuses bank x).unit = s.unit := by cases bank <;> rfl

@[simp] theorem State.setBuses_ref (s : State) (bank : BankId) (x : Buses) : (s.setBuses bank x).ref = s.ref := by cases bank <;> rfl

@[simp] theorem State.setBuses_awaitingReport (s : State) (bank : BankId) (x : Buses) : (s.setBuses bank x).awaitingReport = s.awaitingReport := by cases bank <;> rfl

@[simp] theorem State.setBuses_held (s : State) (bank : BankId) (x : Buses) : (s.setBuses bank x).held = s.held := by cases bank <;> rfl

@[simp] theorem State.setBuses_parity (s : State) (bank : BankId) (x : Buses) : (s.setBuses bank x).parity = s.parity := by cases bank <;> rfl

@[simp] theorem State.setBuses_lanes (s : State) (bank : BankId) (x : Buses) : (s.setBuses bank x).lanes = s.lanes := by cases bank <;> rfl

@[simp] theorem State.setBuses_control (s : State) (bank : BankId) (x : Buses) : (s.setBuses bank x).control = s.control := by cases bank <;> rfl

@[simp] theorem State.setBuses_curves (s : State) (bank : BankId) (x : Buses) : (s.setBuses bank x).curves = s.curves := by cases bank <;> rfl

@[simp] theorem State.setBuses_meA (s : State) (bank : BankId) (x : Buses) : (s.setBuses bank x).meA = s.meA := by cases bank <;> rfl

@[simp] theorem State.setBuses_meB (s : State) (bank : BankId) (x : Buses) : (s.setBuses bank x).meB = s.meB := by cases bank <;> rfl

@[simp] theorem State.setBuses_store (s : State) (bank : BankId) (x : Buses) : (s.setBuses bank x).store = s.store := by cases bank <;> rfl

@[simp] theorem State.setBuses_tally (s : State) (bank : BankId) (x : Buses) : (s.setBuses bank x).tally = s.tally := by cases bank <;> rfl

@[simp] theorem State.setBuses_notices (s : State) (bank : BankId) (x : Buses) : (s.setBuses bank x).notices = s.notices := by cases bank <;> rfl

@[simp] theorem State.setBuses_report (s : State) (bank : BankId) (x : Buses) : (s.setBuses bank x).report = s.report := by cases bank <;> rfl

@[simp] theorem State.setBuses_pending (s : State) (bank : BankId) (x : Buses) : (s.setBuses bank x).pending = s.pending := by cases bank <;> rfl

@[simp] theorem State.buses_setBuses (s : State) (bank : BankId) (x : Buses) : (s.setBuses bank x).buses bank = x := by
  cases bank <;> rfl

@[simp] theorem State.buses_other_setBuses (s : State) (bank : BankId) (x : Buses) :
    (s.setBuses bank x).buses bank.other = s.buses bank.other := by
  cases bank <;> rfl

theorem State.buses_setBuses_of_ne (s : State) {bank y : BankId} (x : Buses) (h : y ≠ bank) :
    (s.setBuses bank x).buses y = s.buses y := by
  cases bank <;> cases y <;> first | rfl | exact absurd rfl h

@[simp] theorem State.setBuses_aux (s : State) (bank : BankId) (x : Buses) :
    (s.setBuses bank x).matrix.aux = s.matrix.aux := by
  cases bank <;> rfl

@[simp] theorem State.setBuses_matte (s : State) (bank : BankId) (x : Buses) :
    (s.setBuses bank x).matrix.matte = s.matrix.matte := by
  cases bank <;> rfl

@[simp] theorem State.me_setBuses (s : State) (bank : BankId) (x : Buses) (y : BankId) :
    (s.setBuses bank x).me y = s.me y := by
  cases bank <;> cases y <;> rfl

/-! ### One bus -/

@[simp] theorem State.setBus_resetPin (s : State) (bank : BankId) (bus : Bus) (src : Source) : (s.setBus bank bus src).resetPin = s.resetPin := by cases bank <;> rfl

@[simp] theorem State.setBus_unit (s : State) (bank : BankId) (bus : Bus) (src : Source) : (s.setBus bank bus src).unit = s.unit := by cases bank <;> rfl

@[simp] theorem State.setBus_ref (s : State) (bank : BankId) (bus : Bus) (src : Source) : (s.setBus bank bus src).ref = s.ref := by cases bank <;> rfl

@[simp] theorem State.setBus_awaitingReport (s : State) (bank : BankId) (bus : Bus) (src : Source) : (s.setBus bank bus src).awaitingReport = s.awaitingReport := by cases bank <;> rfl

@[simp] theorem State.setBus_held (s : State) (bank : BankId) (bus : Bus) (src : Source) : (s.setBus bank bus src).held = s.held := by cases bank <;> rfl

@[simp] theorem State.setBus_parity (s : State) (bank : BankId) (bus : Bus) (src : Source) : (s.setBus bank bus src).parity = s.parity := by cases bank <;> rfl

@[simp] theorem State.setBus_lanes (s : State) (bank : BankId) (bus : Bus) (src : Source) : (s.setBus bank bus src).lanes = s.lanes := by cases bank <;> rfl

@[simp] theorem State.setBus_control (s : State) (bank : BankId) (bus : Bus) (src : Source) : (s.setBus bank bus src).control = s.control := by cases bank <;> rfl

@[simp] theorem State.setBus_curves (s : State) (bank : BankId) (bus : Bus) (src : Source) : (s.setBus bank bus src).curves = s.curves := by cases bank <;> rfl

@[simp] theorem State.setBus_meA (s : State) (bank : BankId) (bus : Bus) (src : Source) : (s.setBus bank bus src).meA = s.meA := by cases bank <;> rfl

@[simp] theorem State.setBus_meB (s : State) (bank : BankId) (bus : Bus) (src : Source) : (s.setBus bank bus src).meB = s.meB := by cases bank <;> rfl

@[simp] theorem State.setBus_store (s : State) (bank : BankId) (bus : Bus) (src : Source) : (s.setBus bank bus src).store = s.store := by cases bank <;> rfl

@[simp] theorem State.setBus_tally (s : State) (bank : BankId) (bus : Bus) (src : Source) : (s.setBus bank bus src).tally = s.tally := by cases bank <;> rfl

@[simp] theorem State.setBus_notices (s : State) (bank : BankId) (bus : Bus) (src : Source) : (s.setBus bank bus src).notices = s.notices := by cases bank <;> rfl

@[simp] theorem State.setBus_report (s : State) (bank : BankId) (bus : Bus) (src : Source) : (s.setBus bank bus src).report = s.report := by cases bank <;> rfl

@[simp] theorem State.setBus_pending (s : State) (bank : BankId) (bus : Bus) (src : Source) : (s.setBus bank bus src).pending = s.pending := by cases bank <;> rfl

@[simp] theorem State.buses_setBus (s : State) (bank : BankId) (bus : Bus) (src : Source) :
    (s.setBus bank bus src).buses bank = (s.buses bank).set bus src := by
  cases bank <;> rfl

@[simp] theorem State.me_setBus (s : State) (bank : BankId) (bus : Bus) (src : Source) (y : BankId) :
    (s.setBus bank bus src).me y = s.me y := by
  cases bank <;> cases y <;> rfl

/-! ### A lane -/

@[simp] theorem State.setLane_resetPin (s : State) (n : LaneId) (x : Lane) : (s.setLane n x).resetPin = s.resetPin := rfl

@[simp] theorem State.setLane_unit (s : State) (n : LaneId) (x : Lane) : (s.setLane n x).unit = s.unit := rfl

@[simp] theorem State.setLane_ref (s : State) (n : LaneId) (x : Lane) : (s.setLane n x).ref = s.ref := rfl

@[simp] theorem State.setLane_awaitingReport (s : State) (n : LaneId) (x : Lane) : (s.setLane n x).awaitingReport = s.awaitingReport := rfl

@[simp] theorem State.setLane_held (s : State) (n : LaneId) (x : Lane) : (s.setLane n x).held = s.held := rfl

@[simp] theorem State.setLane_parity (s : State) (n : LaneId) (x : Lane) : (s.setLane n x).parity = s.parity := rfl

@[simp] theorem State.setLane_control (s : State) (n : LaneId) (x : Lane) : (s.setLane n x).control = s.control := rfl

@[simp] theorem State.setLane_matrix (s : State) (n : LaneId) (x : Lane) : (s.setLane n x).matrix = s.matrix := rfl

@[simp] theorem State.setLane_curves (s : State) (n : LaneId) (x : Lane) : (s.setLane n x).curves = s.curves := rfl

@[simp] theorem State.setLane_meA (s : State) (n : LaneId) (x : Lane) : (s.setLane n x).meA = s.meA := rfl

@[simp] theorem State.setLane_meB (s : State) (n : LaneId) (x : Lane) : (s.setLane n x).meB = s.meB := rfl

@[simp] theorem State.setLane_store (s : State) (n : LaneId) (x : Lane) : (s.setLane n x).store = s.store := rfl

@[simp] theorem State.setLane_tally (s : State) (n : LaneId) (x : Lane) : (s.setLane n x).tally = s.tally := rfl

@[simp] theorem State.setLane_notices (s : State) (n : LaneId) (x : Lane) : (s.setLane n x).notices = s.notices := rfl

@[simp] theorem State.setLane_report (s : State) (n : LaneId) (x : Lane) : (s.setLane n x).report = s.report := rfl

@[simp] theorem State.setLane_pending (s : State) (n : LaneId) (x : Lane) : (s.setLane n x).pending = s.pending := rfl

@[simp] theorem State.lane_setLane (s : State) (n : LaneId) (x : Lane) : (s.setLane n x).lane n = x := by
  simp [State.lane, State.setLane]

theorem State.lane_setLane_of_ne (s : State) {n k : LaneId} (x : Lane) (h : k ≠ n) : (s.setLane n x).lane k = s.lane k := by
  have : (n : Nat) ≠ k := fun e => h (Fin.ext e.symm)
  simp [State.lane, State.setLane, Vector.getElem_set_ne, this]

/-! ### A slot -/

@[simp] theorem State.setSlot_resetPin (s : State) (m : SlotId) (x : Slot) : (s.setSlot m x).resetPin = s.resetPin := rfl

@[simp] theorem State.setSlot_unit (s : State) (m : SlotId) (x : Slot) : (s.setSlot m x).unit = s.unit := rfl

@[simp] theorem State.setSlot_ref (s : State) (m : SlotId) (x : Slot) : (s.setSlot m x).ref = s.ref := rfl

@[simp] theorem State.setSlot_awaitingReport (s : State) (m : SlotId) (x : Slot) : (s.setSlot m x).awaitingReport = s.awaitingReport := rfl

@[simp] theorem State.setSlot_held (s : State) (m : SlotId) (x : Slot) : (s.setSlot m x).held = s.held := rfl

@[simp] theorem State.setSlot_parity (s : State) (m : SlotId) (x : Slot) : (s.setSlot m x).parity = s.parity := rfl

@[simp] theorem State.setSlot_lanes (s : State) (m : SlotId) (x : Slot) : (s.setSlot m x).lanes = s.lanes := rfl

@[simp] theorem State.setSlot_control (s : State) (m : SlotId) (x : Slot) : (s.setSlot m x).control = s.control := rfl

@[simp] theorem State.setSlot_matrix (s : State) (m : SlotId) (x : Slot) : (s.setSlot m x).matrix = s.matrix := rfl

@[simp] theorem State.setSlot_curves (s : State) (m : SlotId) (x : Slot) : (s.setSlot m x).curves = s.curves := rfl

@[simp] theorem State.setSlot_meA (s : State) (m : SlotId) (x : Slot) : (s.setSlot m x).meA = s.meA := rfl

@[simp] theorem State.setSlot_meB (s : State) (m : SlotId) (x : Slot) : (s.setSlot m x).meB = s.meB := rfl

@[simp] theorem State.setSlot_tally (s : State) (m : SlotId) (x : Slot) : (s.setSlot m x).tally = s.tally := rfl

@[simp] theorem State.setSlot_notices (s : State) (m : SlotId) (x : Slot) : (s.setSlot m x).notices = s.notices := rfl

@[simp] theorem State.setSlot_report (s : State) (m : SlotId) (x : Slot) : (s.setSlot m x).report = s.report := rfl

@[simp] theorem State.setSlot_pending (s : State) (m : SlotId) (x : Slot) : (s.setSlot m x).pending = s.pending := rfl

@[simp] theorem State.setSlot_queue (s : State) (m : SlotId) (x : Slot) : (s.setSlot m x).store.queue = s.store.queue := rfl

@[simp] theorem State.setSlot_ports (s : State) (m : SlotId) (x : Slot) : (s.setSlot m x).store.ports = s.store.ports := rfl

@[simp] theorem State.slot_setSlot (s : State) (m : SlotId) (x : Slot) : (s.setSlot m x).slot m = x := by
  simp [State.slot, State.setSlot]

theorem State.slot_setSlot_of_ne (s : State) {m k : SlotId} (x : Slot) (h : k ≠ m) : (s.setSlot m x).slot k = s.slot k := by
  have : (m : Nat) ≠ k := fun e => h (Fin.ext e.symm)
  simp [State.slot, State.setSlot, Vector.getElem_set_ne, this]

/-! ### A posted notice -/

@[simp] theorem State.post_resetPin (s : State) (kind : NoticeKind) (cls : NoticeClass) (subject : Subject) : (s.post kind cls subject).resetPin = s.resetPin := rfl

@[simp] theorem State.post_unit (s : State) (kind : NoticeKind) (cls : NoticeClass) (subject : Subject) : (s.post kind cls subject).unit = s.unit := rfl

@[simp] theorem State.post_ref (s : State) (kind : NoticeKind) (cls : NoticeClass) (subject : Subject) : (s.post kind cls subject).ref = s.ref := rfl

@[simp] theorem State.post_awaitingReport (s : State) (kind : NoticeKind) (cls : NoticeClass) (subject : Subject) : (s.post kind cls subject).awaitingReport = s.awaitingReport := rfl

@[simp] theorem State.post_held (s : State) (kind : NoticeKind) (cls : NoticeClass) (subject : Subject) : (s.post kind cls subject).held = s.held := rfl

@[simp] theorem State.post_parity (s : State) (kind : NoticeKind) (cls : NoticeClass) (subject : Subject) : (s.post kind cls subject).parity = s.parity := rfl

@[simp] theorem State.post_lanes (s : State) (kind : NoticeKind) (cls : NoticeClass) (subject : Subject) : (s.post kind cls subject).lanes = s.lanes := rfl

@[simp] theorem State.post_control (s : State) (kind : NoticeKind) (cls : NoticeClass) (subject : Subject) : (s.post kind cls subject).control = s.control := rfl

@[simp] theorem State.post_matrix (s : State) (kind : NoticeKind) (cls : NoticeClass) (subject : Subject) : (s.post kind cls subject).matrix = s.matrix := rfl

@[simp] theorem State.post_curves (s : State) (kind : NoticeKind) (cls : NoticeClass) (subject : Subject) : (s.post kind cls subject).curves = s.curves := rfl

@[simp] theorem State.post_meA (s : State) (kind : NoticeKind) (cls : NoticeClass) (subject : Subject) : (s.post kind cls subject).meA = s.meA := rfl

@[simp] theorem State.post_meB (s : State) (kind : NoticeKind) (cls : NoticeClass) (subject : Subject) : (s.post kind cls subject).meB = s.meB := rfl

@[simp] theorem State.post_store (s : State) (kind : NoticeKind) (cls : NoticeClass) (subject : Subject) : (s.post kind cls subject).store = s.store := rfl

@[simp] theorem State.post_tally (s : State) (kind : NoticeKind) (cls : NoticeClass) (subject : Subject) : (s.post kind cls subject).tally = s.tally := rfl

@[simp] theorem State.post_report (s : State) (kind : NoticeKind) (cls : NoticeClass) (subject : Subject) : (s.post kind cls subject).report = s.report := rfl

@[simp] theorem State.post_pending (s : State) (kind : NoticeKind) (cls : NoticeClass) (subject : Subject) : (s.post kind cls subject).pending = s.pending := rfl

theorem State.post_notices (s : State) (kind : NoticeKind) (cls : NoticeClass) (subject : Subject) :
    (s.post kind cls subject).notices =
      s.notices.take { kind := kind, cls := cls, subject := subject, number := s.ref.picture } := rfl

@[simp] theorem State.me_post (s : State) (kind : NoticeKind) (cls : NoticeClass) (subject : Subject) (x : BankId) :
    (s.post kind cls subject).me x = s.me x := by
  cases x <;> rfl

@[simp] theorem State.buses_post (s : State) (kind : NoticeKind) (cls : NoticeClass) (subject : Subject) (x : BankId) :
    (s.post kind cls subject).buses x = s.buses x := by
  cases x <;> rfl

@[simp] theorem State.lane_post (s : State) (kind : NoticeKind) (cls : NoticeClass) (subject : Subject) (n : LaneId) :
    (s.post kind cls subject).lane n = s.lane n := rfl

@[simp] theorem State.slot_post (s : State) (kind : NoticeKind) (cls : NoticeClass) (subject : Subject) (m : SlotId) :
    (s.post kind cls subject).slot m = s.slot m := rfl

@[simp] theorem State.curve_post (s : State) (kind : NoticeKind) (cls : NoticeClass) (subject : Subject) (c : CurveId) :
    (s.post kind cls subject).curve c = s.curve c := rfl

/-! ### A refusal (R50) -/

@[simp] theorem State.refuse_resetPin (s : State) (code : Byte) (reason : Reason) (subject : Subject) : (s.refuse code reason subject).resetPin = s.resetPin := rfl

@[simp] theorem State.refuse_unit (s : State) (code : Byte) (reason : Reason) (subject : Subject) : (s.refuse code reason subject).unit = s.unit := rfl

@[simp] theorem State.refuse_ref (s : State) (code : Byte) (reason : Reason) (subject : Subject) : (s.refuse code reason subject).ref = s.ref := rfl

@[simp] theorem State.refuse_awaitingReport (s : State) (code : Byte) (reason : Reason) (subject : Subject) : (s.refuse code reason subject).awaitingReport = s.awaitingReport := rfl

@[simp] theorem State.refuse_held (s : State) (code : Byte) (reason : Reason) (subject : Subject) : (s.refuse code reason subject).held = s.held := rfl

@[simp] theorem State.refuse_parity (s : State) (code : Byte) (reason : Reason) (subject : Subject) : (s.refuse code reason subject).parity = s.parity := rfl

@[simp] theorem State.refuse_lanes (s : State) (code : Byte) (reason : Reason) (subject : Subject) : (s.refuse code reason subject).lanes = s.lanes := rfl

@[simp] theorem State.refuse_control (s : State) (code : Byte) (reason : Reason) (subject : Subject) : (s.refuse code reason subject).control = s.control := rfl

@[simp] theorem State.refuse_matrix (s : State) (code : Byte) (reason : Reason) (subject : Subject) : (s.refuse code reason subject).matrix = s.matrix := rfl

@[simp] theorem State.refuse_curves (s : State) (code : Byte) (reason : Reason) (subject : Subject) : (s.refuse code reason subject).curves = s.curves := rfl

@[simp] theorem State.refuse_meA (s : State) (code : Byte) (reason : Reason) (subject : Subject) : (s.refuse code reason subject).meA = s.meA := rfl

@[simp] theorem State.refuse_meB (s : State) (code : Byte) (reason : Reason) (subject : Subject) : (s.refuse code reason subject).meB = s.meB := rfl

@[simp] theorem State.refuse_store (s : State) (code : Byte) (reason : Reason) (subject : Subject) : (s.refuse code reason subject).store = s.store := rfl

@[simp] theorem State.refuse_tally (s : State) (code : Byte) (reason : Reason) (subject : Subject) : (s.refuse code reason subject).tally = s.tally := rfl

@[simp] theorem State.refuse_report (s : State) (code : Byte) (reason : Reason) (subject : Subject) : (s.refuse code reason subject).report = s.report := rfl

@[simp] theorem State.refuse_pending (s : State) (code : Byte) (reason : Reason) (subject : Subject) : (s.refuse code reason subject).pending = s.pending := rfl

@[simp] theorem State.me_refuse (s : State) (code : Byte) (reason : Reason) (subject : Subject) (x : BankId) :
    (s.refuse code reason subject).me x = s.me x := by
  cases x <;> rfl

@[simp] theorem State.buses_refuse (s : State) (code : Byte) (reason : Reason) (subject : Subject) (x : BankId) :
    (s.refuse code reason subject).buses x = s.buses x := by
  cases x <;> rfl

@[simp] theorem State.lane_refuse (s : State) (code : Byte) (reason : Reason) (subject : Subject) (n : LaneId) :
    (s.refuse code reason subject).lane n = s.lane n := rfl

@[simp] theorem State.slot_refuse (s : State) (code : Byte) (reason : Reason) (subject : Subject) (m : SlotId) :
    (s.refuse code reason subject).slot m = s.slot m := rfl

@[simp] theorem State.curve_refuse (s : State) (code : Byte) (reason : Reason) (subject : Subject) (c : CurveId) :
    (s.refuse code reason subject).curve c = s.curve c := rfl

/-! ### The reference state -/

@[simp] theorem setStatus_resetPin (r : RefStatus) (s : State) : (setStatus r s).resetPin = s.resetPin := rfl

@[simp] theorem setStatus_unit (r : RefStatus) (s : State) : (setStatus r s).unit = s.unit := rfl

@[simp] theorem setStatus_awaitingReport (r : RefStatus) (s : State) : (setStatus r s).awaitingReport = s.awaitingReport := rfl

@[simp] theorem setStatus_held (r : RefStatus) (s : State) : (setStatus r s).held = s.held := rfl

@[simp] theorem setStatus_parity (r : RefStatus) (s : State) : (setStatus r s).parity = s.parity := rfl

@[simp] theorem setStatus_lanes (r : RefStatus) (s : State) : (setStatus r s).lanes = s.lanes := rfl

@[simp] theorem setStatus_control (r : RefStatus) (s : State) : (setStatus r s).control = s.control := rfl

@[simp] theorem setStatus_matrix (r : RefStatus) (s : State) : (setStatus r s).matrix = s.matrix := rfl

@[simp] theorem setStatus_curves (r : RefStatus) (s : State) : (setStatus r s).curves = s.curves := rfl

@[simp] theorem setStatus_meA (r : RefStatus) (s : State) : (setStatus r s).meA = s.meA := rfl

@[simp] theorem setStatus_meB (r : RefStatus) (s : State) : (setStatus r s).meB = s.meB := rfl

@[simp] theorem setStatus_store (r : RefStatus) (s : State) : (setStatus r s).store = s.store := rfl

@[simp] theorem setStatus_tally (r : RefStatus) (s : State) : (setStatus r s).tally = s.tally := rfl

@[simp] theorem setStatus_notices (r : RefStatus) (s : State) : (setStatus r s).notices = s.notices := rfl

@[simp] theorem setStatus_report (r : RefStatus) (s : State) : (setStatus r s).report = s.report := rfl

@[simp] theorem setStatus_pending (r : RefStatus) (s : State) : (setStatus r s).pending = s.pending := rfl

@[simp] theorem setStatus_status (r : RefStatus) (s : State) : (setStatus r s).ref.status = r := rfl

@[simp] theorem setStatus_house (r : RefStatus) (s : State) : (setStatus r s).ref.house = s.ref.house := rfl

@[simp] theorem setStatus_picture (r : RefStatus) (s : State) : (setStatus r s).ref.picture = s.ref.picture := rfl

@[simp] theorem setStatus_begun (r : RefStatus) (s : State) : (setStatus r s).ref.begun = s.ref.begun := rfl

@[simp] theorem setStatus_change (r : RefStatus) (s : State) : (setStatus r s).ref.change = s.ref.change := rfl

@[simp] theorem setStatus_placed (r : RefStatus) (s : State) : (setStatus r s).ref.placed = s.ref.placed := rfl

@[simp] theorem setStatus_started (r : RefStatus) (s : State) : (setStatus r s).ref.started = s.ref.started := rfl

/-! ### The RESET pin (R15) -/

theorem State.live_of_released {s : State} (h : s.resetPin = false) (f : State → State) : s.live f = f s := by
  simp [State.live, h]

theorem State.live_of_asserted {s : State} (h : s.resetPin = true) (f : State → State) : s.live f = s := by
  simp [State.live, h]

end Sys2Proof.Machine
end

