-- ==== Sys2Proof/Laws/Frame.lean ====
section
/-! SUPPORT. What a piece of work may change: the relations between the states before and after it, closed under doing nothing
and under doing one piece after another. -/

namespace Sys2Proof.Machine

/-! ### Notices -/

/-- The report builder has taken some notices, and nothing else has happened to it. -/
inductive Posted : ReportBuilder → ReportBuilder → Prop where
  | refl (r : ReportBuilder) : Posted r r
  | take {r r' : ReportBuilder} (n : Notice) : Posted r r' → Posted r (r'.take n)

theorem Posted.trans {r r' r'' : ReportBuilder} (h : Posted r r') (k : Posted r' r'') : Posted r r'' := by
  induction k with
  | refl => exact h
  | take n _ ih => exact .take n ih

/-- A property that taking a notice keeps is kept by any posted notices. -/
theorem Posted.keeps {P : ReportBuilder → Prop} (hP : ∀ r n, P r → P (r.take n)) {r r' : ReportBuilder} (h : Posted r r')
    (p : P r) : P r' := by
  induction h with
  | refl => exact p
  | take n _ ih => exact hP _ n ih

/-! ### The relations -/

/-- Only notices are posted. -/
def OnlyPosts (s t : State) : Prop :=
  t = { s with notices := t.notices } ∧ Posted s.notices t.notices

/-- Only the reference timing unit changes, and notices are posted. -/
def OnlyRef (s t : State) : Prop :=
  t = { s with ref := t.ref, notices := t.notices } ∧ Posted s.notices t.notices

/-- Only the lane records change, and notices are posted. -/
def OnlyLanes (s t : State) : Prop :=
  t = { s with lanes := t.lanes, notices := t.notices } ∧ Posted s.notices t.notices

/-- Only the take unit changes, and notices are posted. -/
def OnlyControl (s t : State) : Prop :=
  t = { s with control := t.control, notices := t.notices } ∧ Posted s.notices t.notices

/-- Only the banks and their buses change, and notices are posted. -/
def OnlyEngine (s t : State) : Prop :=
  t =
      { s with
        meA := t.meA
        meB := t.meB
        matrix := { s.matrix with busesA := t.matrix.busesA, busesB := t.matrix.busesB }
        notices := t.notices } ∧
    Posted s.notices t.notices

/-- Only the still store changes, and notices are posted. -/
def OnlyStore (s t : State) : Prop :=
  t = { s with store := t.store, notices := t.notices } ∧ Posted s.notices t.notices

/-- Only what the commands of a take may reach changes. -/
def OnlyBlocks (s t : State) : Prop :=
  t =
    { s with
      lanes := t.lanes
      control := { s.control with schedule := t.control.schedule, take := t.control.take }
      matrix := t.matrix
      curves := t.curves
      meA := t.meA
      meB := t.meB
      store := t.store
      notices := t.notices }

/-! ### Doing nothing -/

theorem OnlyPosts.refl (s : State) : OnlyPosts s s := ⟨rfl, .refl _⟩
theorem OnlyRef.refl (s : State) : OnlyRef s s := ⟨rfl, .refl _⟩
theorem OnlyLanes.refl (s : State) : OnlyLanes s s := ⟨rfl, .refl _⟩
theorem OnlyControl.refl (s : State) : OnlyControl s s := ⟨rfl, .refl _⟩
theorem OnlyEngine.refl (s : State) : OnlyEngine s s := ⟨rfl, .refl _⟩
theorem OnlyStore.refl (s : State) : OnlyStore s s := ⟨rfl, .refl _⟩
theorem OnlyBlocks.refl (s : State) : OnlyBlocks s s := rfl

/-! ### One piece of work after another -/

theorem OnlyPosts.trans {s t u : State} (h : OnlyPosts s t) (k : OnlyPosts t u) : OnlyPosts s u := by
  obtain ⟨h, p⟩ := h; obtain ⟨k, q⟩ := k
  refine ⟨?_, p.trans q⟩
  rw [h] at k; exact k

theorem OnlyRef.trans {s t u : State} (h : OnlyRef s t) (k : OnlyRef t u) : OnlyRef s u := by
  obtain ⟨h, p⟩ := h; obtain ⟨k, q⟩ := k
  refine ⟨?_, p.trans q⟩
  rw [h] at k; exact k

theorem OnlyLanes.trans {s t u : State} (h : OnlyLanes s t) (k : OnlyLanes t u) : OnlyLanes s u := by
  obtain ⟨h, p⟩ := h; obtain ⟨k, q⟩ := k
  refine ⟨?_, p.trans q⟩
  rw [h] at k; exact k

theorem OnlyControl.trans {s t u : State} (h : OnlyControl s t) (k : OnlyControl t u) : OnlyControl s u := by
  obtain ⟨h, p⟩ := h; obtain ⟨k, q⟩ := k
  refine ⟨?_, p.trans q⟩
  rw [h] at k; exact k

theorem OnlyEngine.trans {s t u : State} (h : OnlyEngine s t) (k : OnlyEngine t u) : OnlyEngine s u := by
  obtain ⟨h, p⟩ := h; obtain ⟨k, q⟩ := k
  refine ⟨?_, p.trans q⟩
  rw [h] at k; exact k

theorem OnlyStore.trans {s t u : State} (h : OnlyStore s t) (k : OnlyStore t u) : OnlyStore s u := by
  obtain ⟨h, p⟩ := h; obtain ⟨k, q⟩ := k
  refine ⟨?_, p.trans q⟩
  rw [h] at k; exact k

theorem OnlyBlocks.trans {s t u : State} (h : OnlyBlocks s t) (k : OnlyBlocks t u) : OnlyBlocks s u := by
  unfold OnlyBlocks at *
  rw [h] at k; exact k

/-! ### Folds -/

theorem OnlyLanes.foldl {α : Type} {f : State → α → State} (h : ∀ s a, OnlyLanes s (f s a)) (l : List α) :
    ∀ s, OnlyLanes s (l.foldl f s) := by
  induction l with
  | nil => exact OnlyLanes.refl
  | cons a l ih => exact fun s => (h s a).trans (ih _)

theorem OnlyEngine.foldl {α : Type} {f : State → α → State} (h : ∀ s a, OnlyEngine s (f s a)) (l : List α) :
    ∀ s, OnlyEngine s (l.foldl f s) := by
  induction l with
  | nil => exact OnlyEngine.refl
  | cons a l ih => exact fun s => (h s a).trans (ih _)

theorem OnlyStore.foldl {α : Type} {f : State → α → State} (h : ∀ s a, OnlyStore s (f s a)) (l : List α) :
    ∀ s, OnlyStore s (l.foldl f s) := by
  induction l with
  | nil => exact OnlyStore.refl
  | cons a l ih => exact fun s => (h s a).trans (ih _)

/-! ### The named updates -/

theorem onlyPosts_post (s : State) (kind : NoticeKind) (cls : NoticeClass) (subject : Subject) :
    OnlyPosts s (s.post kind cls subject) :=
  ⟨rfl, .take _ (.refl _)⟩

theorem onlyPosts_refuse (s : State) (code : Byte) (reason : Reason) (subject : Subject) :
    OnlyPosts s (s.refuse code reason subject) :=
  onlyPosts_post ..

theorem OnlyPosts.ref {s t : State} (h : OnlyPosts s t) : OnlyRef s t := by
  obtain ⟨h, p⟩ := h; exact ⟨by rw [h], p⟩

theorem OnlyPosts.lanes {s t : State} (h : OnlyPosts s t) : OnlyLanes s t := by
  obtain ⟨h, p⟩ := h; exact ⟨by rw [h], p⟩

theorem OnlyPosts.control {s t : State} (h : OnlyPosts s t) : OnlyControl s t := by
  obtain ⟨h, p⟩ := h; exact ⟨by rw [h], p⟩

theorem OnlyPosts.engine {s t : State} (h : OnlyPosts s t) : OnlyEngine s t := by
  obtain ⟨h, p⟩ := h; exact ⟨by rw [h], p⟩

theorem OnlyPosts.store {s t : State} (h : OnlyPosts s t) : OnlyStore s t := by
  obtain ⟨h, p⟩ := h; exact ⟨by rw [h], p⟩

theorem OnlyPosts.blocks {s t : State} (h : OnlyPosts s t) : OnlyBlocks s t := by
  obtain ⟨h, -⟩ := h; unfold OnlyBlocks; rw [h]

theorem OnlyLanes.blocks {s t : State} (h : OnlyLanes s t) : OnlyBlocks s t := by
  obtain ⟨h, -⟩ := h; unfold OnlyBlocks; rw [h]

theorem OnlyEngine.blocks {s t : State} (h : OnlyEngine s t) : OnlyBlocks s t := by
  obtain ⟨h, -⟩ := h; unfold OnlyBlocks; rw [h]

theorem OnlyStore.blocks {s t : State} (h : OnlyStore s t) : OnlyBlocks s t := by
  obtain ⟨h, -⟩ := h; unfold OnlyBlocks; rw [h]

theorem onlyEngine_setMe (s : State) (bank : BankId) (m : Me) : OnlyEngine s (s.setMe bank m) := by
  cases bank <;> exact ⟨rfl, .refl _⟩

theorem onlyEngine_modifyMe (s : State) (bank : BankId) (f : Me → Me) : OnlyEngine s (s.modifyMe bank f) :=
  onlyEngine_setMe ..

theorem onlyEngine_setBuses (s : State) (bank : BankId) (x : Buses) : OnlyEngine s (s.setBuses bank x) := by
  cases bank <;> exact ⟨rfl, .refl _⟩

theorem onlyEngine_setBus (s : State) (bank : BankId) (bus : Bus) (src : Source) : OnlyEngine s (s.setBus bank bus src) :=
  onlyEngine_setBuses ..

theorem onlyLanes_setLane (s : State) (n : LaneId) (x : Lane) : OnlyLanes s (s.setLane n x) :=
  ⟨rfl, .refl _⟩

theorem onlyStore_setSlot (s : State) (m : SlotId) (x : Slot) : OnlyStore s (s.setSlot m x) :=
  ⟨rfl, .refl _⟩

theorem onlyRef_setStatus (r : RefStatus) (s : State) : OnlyRef s (setStatus r s) :=
  ⟨rfl, .refl _⟩

/-! ### What a relation leaves unchanged, field by field -/

theorem OnlyPosts.resetPin_eq {s t : State} (h : OnlyPosts s t) : t.resetPin = s.resetPin := by rw [h.1]
theorem OnlyPosts.unit_eq {s t : State} (h : OnlyPosts s t) : t.unit = s.unit := by rw [h.1]
theorem OnlyPosts.ref_eq {s t : State} (h : OnlyPosts s t) : t.ref = s.ref := by rw [h.1]
theorem OnlyPosts.awaitingReport_eq {s t : State} (h : OnlyPosts s t) : t.awaitingReport = s.awaitingReport := by rw [h.1]
theorem OnlyPosts.held_eq {s t : State} (h : OnlyPosts s t) : t.held = s.held := by rw [h.1]
theorem OnlyPosts.parity_eq {s t : State} (h : OnlyPosts s t) : t.parity = s.parity := by rw [h.1]
theorem OnlyPosts.lanes_eq {s t : State} (h : OnlyPosts s t) : t.lanes = s.lanes := by rw [h.1]
theorem OnlyPosts.control_eq {s t : State} (h : OnlyPosts s t) : t.control = s.control := by rw [h.1]
theorem OnlyPosts.matrix_eq {s t : State} (h : OnlyPosts s t) : t.matrix = s.matrix := by rw [h.1]
theorem OnlyPosts.curves_eq {s t : State} (h : OnlyPosts s t) : t.curves = s.curves := by rw [h.1]
theorem OnlyPosts.meA_eq {s t : State} (h : OnlyPosts s t) : t.meA = s.meA := by rw [h.1]
theorem OnlyPosts.meB_eq {s t : State} (h : OnlyPosts s t) : t.meB = s.meB := by rw [h.1]
theorem OnlyPosts.store_eq {s t : State} (h : OnlyPosts s t) : t.store = s.store := by rw [h.1]
theorem OnlyPosts.tally_eq {s t : State} (h : OnlyPosts s t) : t.tally = s.tally := by rw [h.1]
theorem OnlyPosts.report_eq {s t : State} (h : OnlyPosts s t) : t.report = s.report := by rw [h.1]
theorem OnlyPosts.pending_eq {s t : State} (h : OnlyPosts s t) : t.pending = s.pending := by rw [h.1]

theorem OnlyRef.resetPin_eq {s t : State} (h : OnlyRef s t) : t.resetPin = s.resetPin := by rw [h.1]
theorem OnlyRef.unit_eq {s t : State} (h : OnlyRef s t) : t.unit = s.unit := by rw [h.1]
theorem OnlyRef.awaitingReport_eq {s t : State} (h : OnlyRef s t) : t.awaitingReport = s.awaitingReport := by rw [h.1]
theorem OnlyRef.held_eq {s t : State} (h : OnlyRef s t) : t.held = s.held := by rw [h.1]
theorem OnlyRef.parity_eq {s t : State} (h : OnlyRef s t) : t.parity = s.parity := by rw [h.1]
theorem OnlyRef.lanes_eq {s t : State} (h : OnlyRef s t) : t.lanes = s.lanes := by rw [h.1]
theorem OnlyRef.control_eq {s t : State} (h : OnlyRef s t) : t.control = s.control := by rw [h.1]
theorem OnlyRef.matrix_eq {s t : State} (h : OnlyRef s t) : t.matrix = s.matrix := by rw [h.1]
theorem OnlyRef.curves_eq {s t : State} (h : OnlyRef s t) : t.curves = s.curves := by rw [h.1]
theorem OnlyRef.meA_eq {s t : State} (h : OnlyRef s t) : t.meA = s.meA := by rw [h.1]
theorem OnlyRef.meB_eq {s t : State} (h : OnlyRef s t) : t.meB = s.meB := by rw [h.1]
theorem OnlyRef.store_eq {s t : State} (h : OnlyRef s t) : t.store = s.store := by rw [h.1]
theorem OnlyRef.tally_eq {s t : State} (h : OnlyRef s t) : t.tally = s.tally := by rw [h.1]
theorem OnlyRef.report_eq {s t : State} (h : OnlyRef s t) : t.report = s.report := by rw [h.1]
theorem OnlyRef.pending_eq {s t : State} (h : OnlyRef s t) : t.pending = s.pending := by rw [h.1]

theorem OnlyLanes.resetPin_eq {s t : State} (h : OnlyLanes s t) : t.resetPin = s.resetPin := by rw [h.1]
theorem OnlyLanes.unit_eq {s t : State} (h : OnlyLanes s t) : t.unit = s.unit := by rw [h.1]
theorem OnlyLanes.ref_eq {s t : State} (h : OnlyLanes s t) : t.ref = s.ref := by rw [h.1]
theorem OnlyLanes.awaitingReport_eq {s t : State} (h : OnlyLanes s t) : t.awaitingReport = s.awaitingReport := by rw [h.1]
theorem OnlyLanes.held_eq {s t : State} (h : OnlyLanes s t) : t.held = s.held := by rw [h.1]
theorem OnlyLanes.parity_eq {s t : State} (h : OnlyLanes s t) : t.parity = s.parity := by rw [h.1]
theorem OnlyLanes.control_eq {s t : State} (h : OnlyLanes s t) : t.control = s.control := by rw [h.1]
theorem OnlyLanes.matrix_eq {s t : State} (h : OnlyLanes s t) : t.matrix = s.matrix := by rw [h.1]
theorem OnlyLanes.curves_eq {s t : State} (h : OnlyLanes s t) : t.curves = s.curves := by rw [h.1]
theorem OnlyLanes.meA_eq {s t : State} (h : OnlyLanes s t) : t.meA = s.meA := by rw [h.1]
theorem OnlyLanes.meB_eq {s t : State} (h : OnlyLanes s t) : t.meB = s.meB := by rw [h.1]
theorem OnlyLanes.store_eq {s t : State} (h : OnlyLanes s t) : t.store = s.store := by rw [h.1]
theorem OnlyLanes.tally_eq {s t : State} (h : OnlyLanes s t) : t.tally = s.tally := by rw [h.1]
theorem OnlyLanes.report_eq {s t : State} (h : OnlyLanes s t) : t.report = s.report := by rw [h.1]
theorem OnlyLanes.pending_eq {s t : State} (h : OnlyLanes s t) : t.pending = s.pending := by rw [h.1]

theorem OnlyControl.resetPin_eq {s t : State} (h : OnlyControl s t) : t.resetPin = s.resetPin := by rw [h.1]
theorem OnlyControl.unit_eq {s t : State} (h : OnlyControl s t) : t.unit = s.unit := by rw [h.1]
theorem OnlyControl.ref_eq {s t : State} (h : OnlyControl s t) : t.ref = s.ref := by rw [h.1]
theorem OnlyControl.awaitingReport_eq {s t : State} (h : OnlyControl s t) : t.awaitingReport = s.awaitingReport := by rw [h.1]
theorem OnlyControl.held_eq {s t : State} (h : OnlyControl s t) : t.held = s.held := by rw [h.1]
theorem OnlyControl.parity_eq {s t : State} (h : OnlyControl s t) : t.parity = s.parity := by rw [h.1]
theorem OnlyControl.lanes_eq {s t : State} (h : OnlyControl s t) : t.lanes = s.lanes := by rw [h.1]
theorem OnlyControl.matrix_eq {s t : State} (h : OnlyControl s t) : t.matrix = s.matrix := by rw [h.1]
theorem OnlyControl.curves_eq {s t : State} (h : OnlyControl s t) : t.curves = s.curves := by rw [h.1]
theorem OnlyControl.meA_eq {s t : State} (h : OnlyControl s t) : t.meA = s.meA := by rw [h.1]
theorem OnlyControl.meB_eq {s t : State} (h : OnlyControl s t) : t.meB = s.meB := by rw [h.1]
theorem OnlyControl.store_eq {s t : State} (h : OnlyControl s t) : t.store = s.store := by rw [h.1]
theorem OnlyControl.tally_eq {s t : State} (h : OnlyControl s t) : t.tally = s.tally := by rw [h.1]
theorem OnlyControl.report_eq {s t : State} (h : OnlyControl s t) : t.report = s.report := by rw [h.1]
theorem OnlyControl.pending_eq {s t : State} (h : OnlyControl s t) : t.pending = s.pending := by rw [h.1]

theorem OnlyEngine.resetPin_eq {s t : State} (h : OnlyEngine s t) : t.resetPin = s.resetPin := by rw [h.1]
theorem OnlyEngine.unit_eq {s t : State} (h : OnlyEngine s t) : t.unit = s.unit := by rw [h.1]
theorem OnlyEngine.ref_eq {s t : State} (h : OnlyEngine s t) : t.ref = s.ref := by rw [h.1]
theorem OnlyEngine.awaitingReport_eq {s t : State} (h : OnlyEngine s t) : t.awaitingReport = s.awaitingReport := by rw [h.1]
theorem OnlyEngine.held_eq {s t : State} (h : OnlyEngine s t) : t.held = s.held := by rw [h.1]
theorem OnlyEngine.parity_eq {s t : State} (h : OnlyEngine s t) : t.parity = s.parity := by rw [h.1]
theorem OnlyEngine.lanes_eq {s t : State} (h : OnlyEngine s t) : t.lanes = s.lanes := by rw [h.1]
theorem OnlyEngine.control_eq {s t : State} (h : OnlyEngine s t) : t.control = s.control := by rw [h.1]
theorem OnlyEngine.curves_eq {s t : State} (h : OnlyEngine s t) : t.curves = s.curves := by rw [h.1]
theorem OnlyEngine.store_eq {s t : State} (h : OnlyEngine s t) : t.store = s.store := by rw [h.1]
theorem OnlyEngine.tally_eq {s t : State} (h : OnlyEngine s t) : t.tally = s.tally := by rw [h.1]
theorem OnlyEngine.report_eq {s t : State} (h : OnlyEngine s t) : t.report = s.report := by rw [h.1]
theorem OnlyEngine.pending_eq {s t : State} (h : OnlyEngine s t) : t.pending = s.pending := by rw [h.1]

theorem OnlyStore.resetPin_eq {s t : State} (h : OnlyStore s t) : t.resetPin = s.resetPin := by rw [h.1]
theorem OnlyStore.unit_eq {s t : State} (h : OnlyStore s t) : t.unit = s.unit := by rw [h.1]
theorem OnlyStore.ref_eq {s t : State} (h : OnlyStore s t) : t.ref = s.ref := by rw [h.1]
theorem OnlyStore.awaitingReport_eq {s t : State} (h : OnlyStore s t) : t.awaitingReport = s.awaitingReport := by rw [h.1]
theorem OnlyStore.held_eq {s t : State} (h : OnlyStore s t) : t.held = s.held := by rw [h.1]
theorem OnlyStore.parity_eq {s t : State} (h : OnlyStore s t) : t.parity = s.parity := by rw [h.1]
theorem OnlyStore.lanes_eq {s t : State} (h : OnlyStore s t) : t.lanes = s.lanes := by rw [h.1]
theorem OnlyStore.control_eq {s t : State} (h : OnlyStore s t) : t.control = s.control := by rw [h.1]
theorem OnlyStore.matrix_eq {s t : State} (h : OnlyStore s t) : t.matrix = s.matrix := by rw [h.1]
theorem OnlyStore.curves_eq {s t : State} (h : OnlyStore s t) : t.curves = s.curves := by rw [h.1]
theorem OnlyStore.meA_eq {s t : State} (h : OnlyStore s t) : t.meA = s.meA := by rw [h.1]
theorem OnlyStore.meB_eq {s t : State} (h : OnlyStore s t) : t.meB = s.meB := by rw [h.1]
theorem OnlyStore.tally_eq {s t : State} (h : OnlyStore s t) : t.tally = s.tally := by rw [h.1]
theorem OnlyStore.report_eq {s t : State} (h : OnlyStore s t) : t.report = s.report := by rw [h.1]
theorem OnlyStore.pending_eq {s t : State} (h : OnlyStore s t) : t.pending = s.pending := by rw [h.1]

theorem OnlyBlocks.resetPin_eq {s t : State} (h : OnlyBlocks s t) : t.resetPin = s.resetPin := by rw [h]
theorem OnlyBlocks.unit_eq {s t : State} (h : OnlyBlocks s t) : t.unit = s.unit := by rw [h]
theorem OnlyBlocks.ref_eq {s t : State} (h : OnlyBlocks s t) : t.ref = s.ref := by rw [h]
theorem OnlyBlocks.awaitingReport_eq {s t : State} (h : OnlyBlocks s t) : t.awaitingReport = s.awaitingReport := by rw [h]
theorem OnlyBlocks.held_eq {s t : State} (h : OnlyBlocks s t) : t.held = s.held := by rw [h]
theorem OnlyBlocks.parity_eq {s t : State} (h : OnlyBlocks s t) : t.parity = s.parity := by rw [h]
theorem OnlyBlocks.tally_eq {s t : State} (h : OnlyBlocks s t) : t.tally = s.tally := by rw [h]
theorem OnlyBlocks.report_eq {s t : State} (h : OnlyBlocks s t) : t.report = s.report := by rw [h]
theorem OnlyBlocks.pending_eq {s t : State} (h : OnlyBlocks s t) : t.pending = s.pending := by rw [h]

theorem OnlyEngine.aux_eq {s t : State} (h : OnlyEngine s t) : t.matrix.aux = s.matrix.aux := by rw [h.1]
theorem OnlyEngine.matte_eq {s t : State} (h : OnlyEngine s t) : t.matrix.matte = s.matrix.matte := by rw [h.1]
theorem OnlyBlocks.takeList_eq {s t : State} (h : OnlyBlocks s t) : t.control.takeList = s.control.takeList := by rw [h]
theorem OnlyBlocks.packets_eq {s t : State} (h : OnlyBlocks s t) : t.control.packets = s.control.packets := by rw [h]
theorem OnlyBlocks.excess_eq {s t : State} (h : OnlyBlocks s t) : t.control.excess = s.control.excess := by rw [h]
theorem OnlyBlocks.fill_eq {s t : State} (h : OnlyBlocks s t) : t.control.fill = s.control.fill := by rw [h]

end Sys2Proof.Machine
end

