-- ==== Sys2Proof/Laws/Blocks.lean ====
section
/-! SUPPORT. What each operation of the blocks may change: one lemma for each, by the relations of Laws/Frame.lean. -/

namespace Sys2Proof.Machine

/-! ### Lanes -/

theorem onlyLanes_postLane (n : LaneId) (before : LaneState) (s : State) : OnlyLanes s (postLane n before s) :=
  (onlyPosts_post ..).lanes

theorem onlyLanes_moveLane (n : LaneId) (target : LaneState) (s : State) : OnlyLanes s (moveLane n target s) :=
  (onlyLanes_setLane ..).trans (onlyLanes_postLane ..)

theorem onlyLanes_presenceUpdate (n : LaneId) (s : State) : OnlyLanes s (presenceUpdate n s) := by
  simp only [presenceUpdate]
  split <;> split <;> first | exact .refl _ | exact onlyLanes_moveLane ..

theorem onlyLanes_judgeLane (n : LaneId) (aligned : Bool) (s : State) : OnlyLanes s (judgeLane n aligned s) := by
  simp only [judgeLane]
  split
  · exact .refl _
  · split
    · split <;> first | exact onlyLanes_moveLane .. | exact onlyLanes_setLane ..
    · exact onlyLanes_setLane ..
  · split <;> first | exact .refl _ | exact onlyLanes_moveLane ..

theorem onlyLanes_judgeIfPresent (before : State) (n : LaneId) (s : State) :
    OnlyLanes s (judgeIfPresent before n s) := by
  unfold judgeIfPresent; split
  · exact onlyLanes_judgeLane ..
  · exact .refl _

theorem onlyLanes_lanesWork (before s : State) : OnlyLanes s (lanesWork before s) :=
  ((OnlyLanes.foldl (fun t n => onlyLanes_setLane t n _) _ _).trans
    (OnlyLanes.foldl (fun t n => onlyLanes_presenceUpdate n t) _ _)).trans
    (OnlyLanes.foldl (fun t n => onlyLanes_judgeIfPresent before n t) _ _)

theorem onlyLanes_laneFormatChange (n : LaneId) (s : State) : OnlyLanes s (laneFormatChange n s) := by
  simp only [laneFormatChange]; split <;> exact onlyLanes_setLane ..

theorem onlyLanes_lanesFormatChange (before s : State) : OnlyLanes s (lanesFormatChange before s) :=
  (OnlyLanes.foldl (fun t n => onlyLanes_setLane t n _) _ _).trans
    (OnlyLanes.foldl (fun t n => onlyLanes_laneFormatChange n t) _ _)

theorem onlyLanes_lanesFormatNotices (before s : State) : OnlyLanes s (lanesFormatNotices before s) :=
  OnlyLanes.foldl (fun t n => by split <;> first | exact .refl _ | exact onlyLanes_postLane ..) _ _

theorem onlyLanes_doLaneSet (lane settle fallback : Byte) (s : State) : OnlyLanes s (doLaneSet lane settle fallback s) := by
  unfold doLaneSet; split
  · exact (onlyPosts_refuse ..).lanes
  · split
    · exact (onlyPosts_refuse ..).lanes
    · exact onlyLanes_setLane ..

theorem onlyLanes_resyncLane (n : LaneId) (s : State) : OnlyLanes s (resyncLane n s) := by
  unfold resyncLane; split
  · exact .refl _
  · exact onlyLanes_setLane ..
  · exact (onlyLanes_setLane ..).trans (onlyLanes_moveLane ..)

theorem onlyLanes_doResync (lane : Byte) (s : State) : OnlyLanes s (doResync lane s) := by
  unfold doResync; split
  · exact (onlyPosts_refuse ..).lanes
  · exact onlyLanes_resyncLane ..

theorem onlyLanes_laneFullReset (n : LaneId) (s : State) : OnlyLanes s (laneFullReset n s) := by
  simp only [laneFullReset]; split
  · exact (onlyLanes_setLane ..).trans (onlyLanes_moveLane ..)
  · exact onlyLanes_setLane ..

theorem onlyLanes_lanesFullReset (s : State) : OnlyLanes s (lanesFullReset s) :=
  OnlyLanes.foldl (fun t n => onlyLanes_laneFullReset n t) _ _

theorem onlyLanes_laneSignal (n : LaneId) (signal : Bool) (s : State) : OnlyLanes s (laneSignal n signal s) :=
  onlyLanes_setLane ..

theorem onlyLanes_laneStart (n : LaneId) (start : LaneStart) (s : State) : OnlyLanes s (laneStart n start s) := by
  simp only [laneStart]; split <;> first | exact onlyLanes_setLane .. | exact .refl _

theorem onlyLanes_laneLock (n : LaneId) (s : State) : OnlyLanes s (laneLock n s) := by
  simp only [laneLock]; split <;> first | exact onlyLanes_judgeLane .. | exact .refl _

/-! ### Buses and settings -/

theorem onlyEngine_doSelect (me bus source : Byte) (s : State) : OnlyEngine s (doSelect me bus source s) := by
  unfold doSelect; split
  · exact (onlyPosts_refuse ..).engine
  · split
    · exact (onlyPosts_refuse ..).engine
    · split
      · exact (onlyPosts_refuse ..).engine
      · exact onlyEngine_setBus ..

theorem onlyEngine_placePreset (bank : BankId) (source : Byte) (s : State) : OnlyEngine s (placePreset bank source s) := by
  unfold placePreset; split
  · exact (onlyPosts_refuse ..).engine
  · exact onlyEngine_setBus ..

theorem onlyEngine_exchangeBuses (bank : BankId) (s : State) : OnlyEngine s (exchangeBuses bank s) :=
  onlyEngine_setBuses ..

theorem onlyBlocks_doAuxSelect (source : Byte) (s : State) : OnlyBlocks s (doAuxSelect source s) := by
  unfold doAuxSelect; split
  · exact (onlyPosts_refuse ..).blocks
  · rfl

theorem onlyBlocks_doMatte (y cb cr : Word16) (s : State) : OnlyBlocks s (doMatte y cb cr s) := rfl

theorem onlyBlocks_doLoadCurve (curve : Byte) (points : Vector Word16 65) (s : State) :
    OnlyBlocks s (doLoadCurve curve points s) := by
  unfold doLoadCurve; split
  · exact (onlyPosts_refuse ..).blocks
  · simp only [loadCurve]; split <;> rfl

theorem onlyEngine_doWipeSet (me shape reverse : Byte) (softness : Word16) (s : State) :
    OnlyEngine s (doWipeSet me shape reverse softness s) := by
  unfold doWipeSet; split
  · exact onlyEngine_modifyMe ..
  · exact (onlyPosts_refuse ..).engine

theorem onlyEngine_doKeySet (me layer kind : Byte) (clip : Word16) (gain invert : Byte) (s : State) :
    OnlyEngine s (doKeySet me layer kind clip gain invert s) := by
  unfold doKeySet; split
  · exact onlyEngine_modifyMe ..
  · exact (onlyPosts_refuse ..).engine

theorem onlyEngine_doMaskSet (me layer : Byte) (box : Option BoxWords) (s : State) :
    OnlyEngine s (doMaskSet me layer box s) := by
  unfold doMaskSet; split
  · exact onlyEngine_modifyMe ..
  · exact (onlyPosts_refuse ..).engine

/-! ### Layers -/

theorem onlyEngine_layerOn (bank : BankId) (l : LayerId) (s : State) : OnlyEngine s (layerOn bank l s) := by
  unfold layerOn; split
  · exact (onlyPosts_refuse ..).engine
  · exact onlyEngine_modifyMe ..

theorem onlyEngine_layerOff (bank : BankId) (l : LayerId) (s : State) : OnlyEngine s (layerOff bank l s) := by
  unfold layerOff; split
  · exact (onlyPosts_refuse ..).engine
  · exact onlyEngine_modifyMe ..

theorem onlyEngine_doLayerOn (me layer : Byte) (s : State) : OnlyEngine s (doLayerOn me layer s) := by
  unfold doLayerOn; split
  · exact onlyEngine_layerOn ..
  · exact (onlyPosts_refuse ..).engine

theorem onlyEngine_doLayerOff (me layer : Byte) (s : State) : OnlyEngine s (doLayerOff me layer s) := by
  unfold doLayerOff; split
  · exact onlyEngine_layerOff ..
  · exact (onlyPosts_refuse ..).engine

theorem onlyEngine_doLayerRate (me layer : Byte) (rate : Word16) (s : State) :
    OnlyEngine s (doLayerRate me layer rate s) := by
  unfold doLayerRate; split
  · exact onlyEngine_modifyMe ..
  · exact (onlyPosts_refuse ..).engine

theorem onlyEngine_doOrder (me first second third fourth : Byte) (s : State) :
    OnlyEngine s (doOrder me first second third fourth s) := by
  unfold doOrder; split
  · exact (onlyPosts_refuse ..).engine
  · split
    · exact (onlyPosts_refuse ..).engine
    · exact onlyEngine_modifyMe ..

theorem onlyEngine_doRaise (me layer : Byte) (s : State) : OnlyEngine s (doRaise me layer s) := by
  unfold doRaise; split
  · exact onlyEngine_modifyMe ..
  · exact (onlyPosts_refuse ..).engine

theorem onlyEngine_doLower (me layer : Byte) (s : State) : OnlyEngine s (doLower me layer s) := by
  unfold doLower; split
  · exact onlyEngine_modifyMe ..
  · exact (onlyPosts_refuse ..).engine

theorem onlyEngine_fadeEnd (bank : BankId) (l : LayerId) (s : State) : OnlyEngine s (fadeEnd bank l s) := by
  unfold fadeEnd; split
  · exact onlyEngine_modifyMe ..
  · exact .refl _

/-! ### Transitions -/

theorem onlyEngine_complete (bank : BankId) (how : DoneBy) (s : State) : OnlyEngine s (complete bank how s) := by
  simp only [complete]
  refine OnlyEngine.trans (t := if hasBkgd (s.me bank).selection then exchangeBuses bank s else s) ?_
    ((onlyEngine_modifyMe ..).trans (onlyPosts_post ..).engine)
  split
  · exact onlyEngine_exchangeBuses ..
  · exact .refl _

theorem onlyEngine_doTransSet (me kind : Byte) (rate : Word16) (curve : Byte) (s : State) :
    OnlyEngine s (doTransSet me kind rate curve s) := by
  unfold doTransSet; split
  · unfold transSet; split
    · exact onlyEngine_modifyMe ..
    · exact (onlyPosts_refuse ..).engine.trans (onlyEngine_modifyMe ..)
  · exact (onlyPosts_refuse ..).engine

theorem onlyEngine_doNextSet (me selection : Byte) (s : State) : OnlyEngine s (doNextSet me selection s) := by
  unfold doNextSet; split
  · split
    · exact onlyEngine_modifyMe ..
    · exact (onlyPosts_refuse ..).engine
  · exact (onlyPosts_refuse ..).engine

theorem onlyEngine_cutBank (bank : BankId) (s : State) : OnlyEngine s (cutBank bank s) := by
  simp only [cutBank]; split
  · split
    · exact (onlyPosts_refuse ..).engine
    · split
      · exact (onlyPosts_refuse ..).engine
      · exact onlyEngine_complete ..
  · exact onlyEngine_complete ..
  · exact onlyEngine_complete ..
  · exact (onlyPosts_refuse ..).engine

theorem onlyEngine_doCut (me : Byte) (s : State) : OnlyEngine s (doCut me s) := by
  unfold doCut; split
  · exact (onlyPosts_refuse ..).engine
  · exact onlyEngine_cutBank ..

theorem onlyEngine_startAuto (bank : BankId) (start span : Nat) (s : State) :
    OnlyEngine s (startAuto bank start span s) := by
  simp only [startAuto]; split
  · exact (onlyPosts_refuse ..).engine
  · split
    · exact (onlyPosts_refuse ..).engine
    · split
      · exact onlyEngine_complete ..
      · exact onlyEngine_modifyMe ..

theorem onlyEngine_autoBank (bank : BankId) (s : State) : OnlyEngine s (autoBank bank s) := by
  simp only [autoBank]; split
  · exact onlyEngine_startAuto ..
  · exact onlyEngine_startAuto ..
  · exact (onlyPosts_refuse ..).engine
  · exact (onlyPosts_refuse ..).engine

theorem onlyEngine_doAuto (me : Byte) (s : State) : OnlyEngine s (doAuto me s) := by
  unfold doAuto; split
  · exact (onlyPosts_refuse ..).engine
  · exact onlyEngine_autoBank ..

theorem onlyEngine_followLever (bank : BankId) (e : Nat) (s : State) : OnlyEngine s (followLever bank e s) := by
  unfold followLever; split
  · exact (onlyEngine_modifyMe ..).trans (onlyEngine_complete ..)
  · split <;> exact onlyEngine_modifyMe ..

theorem onlyEngine_leverBank (bank : BankId) (v : Nat) (s : State) : OnlyEngine s (leverBank bank v s) := by
  simp only [leverBank]; split
  · split
    · unfold pickUpAtRest; split
      · exact (onlyEngine_modifyMe ..).trans (onlyEngine_followLever ..)
      · split
        · exact (onlyEngine_modifyMe ..).trans (onlyEngine_followLever ..)
        · exact .refl _
    · exact onlyEngine_followLever ..
  · split
    · split
      · exact (onlyEngine_modifyMe ..).trans (onlyEngine_followLever ..)
      · exact .refl _
    · exact onlyEngine_followLever ..
  · exact .refl _
  · exact .refl _

theorem onlyEngine_doLever (me : Byte) (value : Word16) (s : State) : OnlyEngine s (doLever me value s) := by
  unfold doLever; split
  · exact (onlyPosts_refuse ..).engine
  · exact onlyEngine_leverBank ..

/-! ### Runs -/

theorem onlyEngine_doLoadKeyframes (me first : Byte) (records : List KeyframeBytes) (s : State) :
    OnlyEngine s (doLoadKeyframes me first records s) := by
  unfold doLoadKeyframes; split
  · exact (onlyPosts_refuse ..).engine
  · split
    · exact (onlyPosts_refuse ..).engine
    · split
      · exact (onlyPosts_refuse ..).engine
      · split
        · exact (onlyPosts_refuse ..).engine
        · exact onlyEngine_modifyMe ..

theorem onlyEngine_doRunSet (me count endMode loops : Byte) (s : State) :
    OnlyEngine s (doRunSet me count endMode loops s) := by
  unfold doRunSet; split
  · split
    · exact (onlyPosts_refuse ..).engine
    · exact onlyEngine_modifyMe ..
  · exact (onlyPosts_refuse ..).engine

theorem onlyEngine_layerRequests (bank : BankId) (e : Keyframe) (s : State) :
    OnlyEngine s (layerRequests bank e s) :=
  (OnlyEngine.foldl (fun t l => by split <;> first | exact onlyEngine_layerOn .. | exact .refl _) _ _).trans
    (OnlyEngine.foldl (fun t l => by split <;> first | exact onlyEngine_layerOff .. | exact .refl _) _ _)

theorem onlyEngine_presetRequest (bank : BankId) (e : Keyframe) (s : State) :
    OnlyEngine s (presetRequest bank e s) := by
  unfold presetRequest; split
  · exact .refl _
  · exact onlyEngine_placePreset ..

theorem onlyEngine_postMark (bank : BankId) (s : State) : OnlyEngine s (postMark bank s) := by
  unfold postMark; split
  · exact (onlyPosts_post ..).engine
  · exact onlyEngine_modifyMe ..

theorem onlyEngine_arriveEntry (bank : BankId) (s : State) : OnlyEngine s (arriveEntry bank s) := by
  simp only [arriveEntry]
  split
  all_goals
    refine ((onlyEngine_layerRequests bank ((s.me bank).entry (s.me bank).run.index) s).trans
      (onlyEngine_presetRequest bank ((s.me bank).entry (s.me bank).run.index) _)).trans ?_
  · exact (onlyEngine_postMark ..).trans (onlyEngine_modifyMe ..)
  · exact onlyEngine_modifyMe ..

theorem onlyEngine_endRun (bank : BankId) (s : State) : OnlyEngine s (endRun bank s).1 := by
  simp only [endRun]; split
  · exact (onlyEngine_modifyMe ..).trans (onlyPosts_post ..).engine
  · exact ((onlyEngine_modifyMe ..).trans (onlyPosts_post ..).engine).trans (onlyEngine_modifyMe ..)

theorem onlyEngine_arrive (bank : BankId) (s : State) : OnlyEngine s (arrive bank s).1 := by
  simp only [arrive]; split
  · exact onlyEngine_arriveEntry ..
  · split
    · exact (onlyEngine_modifyMe ..).trans (onlyEngine_arriveEntry ..)
    · exact onlyEngine_endRun ..

theorem OnlyEngine.pair {s t : State} (h : OnlyEngine s t) (due : Option DoneBy) : OnlyEngine s (t, due).1 := h

theorem onlyEngine_pauseAfterSegment (bank : BankId) (s : State) : OnlyEngine s (pauseAfterSegment bank s).1 := by
  simp only [pauseAfterSegment]; split
  · exact ((onlyEngine_modifyMe ..).trans (onlyEngine_modifyMe ..)).pair _
  · split
    · exact ((onlyEngine_modifyMe ..).trans (onlyEngine_modifyMe ..)).pair _
    · exact (onlyEngine_modifyMe ..).trans (onlyEngine_endRun ..)

theorem onlyEngine_stepPlaying (holding : Bool) (bank : BankId) (s : State) :
    OnlyEngine s (stepPlaying holding bank s).1 := by
  simp only [stepPlaying]; split
  · exact onlyEngine_arrive ..
  · split
    · exact onlyEngine_modifyMe ..
    · split
      · exact onlyEngine_pauseAfterSegment ..
      · exact (onlyEngine_modifyMe ..).trans (onlyEngine_arrive ..)

theorem onlyEngine_runStep (bank : BankId) (s : State) : OnlyEngine s (runStep bank s).1 := by
  unfold runStep; split
  · exact .refl _
  · exact onlyEngine_stepPlaying ..
  · exact .refl _
  · exact onlyEngine_stepPlaying ..
  · exact .refl _

theorem onlyEngine_syncRelease (bank : BankId) (s : State) : OnlyEngine s (syncRelease bank s) := by
  simp only [syncRelease]; split
  · exact .refl _
  · exact .refl _
  · split
    · exact onlyEngine_modifyMe ..
    · exact .refl _
  · exact .refl _
  · exact .refl _

theorem onlyEngine_driveStep (bank : BankId) (s : State) : OnlyEngine s (driveStep bank s).1 := by
  unfold driveStep; split
  · exact .refl _
  · exact .refl _
  · split
    · exact (onlyEngine_modifyMe ..).pair _
    · exact .refl _
  · exact onlyEngine_runStep ..

theorem onlyEngine_takeDue (bank : BankId) {s : State} (p : State × Option DoneBy) (h : OnlyEngine s p.1) :
    OnlyEngine s (takeDue bank p) := by
  unfold takeDue; split
  · exact h
  · exact h.trans (onlyEngine_complete ..)

theorem onlyEngine_bankOwn (bank : BankId) (s : State) : OnlyEngine s (bankOwn bank s) :=
  onlyEngine_takeDue bank _ ((onlyEngine_modifyMe ..).trans (onlyEngine_driveStep ..))

theorem onlyEngine_banksWork (s : State) : OnlyEngine s (banksWork s) :=
  (((onlyEngine_bankOwn .a s).trans (onlyEngine_bankOwn .b _)).trans (onlyEngine_syncRelease .a _)).trans
    (onlyEngine_syncRelease .b _)

theorem onlyEngine_startRun (code : Byte) (first : RunState) (bank : BankId) (s : State) :
    OnlyEngine s (startRun code first bank s) := by
  unfold startRun; split
  · exact (onlyPosts_refuse ..).engine
  · exact onlyEngine_modifyMe ..

theorem onlyEngine_doRun (me : Byte) (s : State) : OnlyEngine s (doRun me s) := by
  unfold doRun; split
  · exact (onlyPosts_refuse ..).engine
  · unfold runBank; split <;> first | exact .refl _ | exact onlyEngine_startRun .. | exact onlyEngine_modifyMe ..

theorem onlyEngine_doStep (me : Byte) (s : State) : OnlyEngine s (doStep me s) := by
  unfold doStep; split
  · exact (onlyPosts_refuse ..).engine
  · unfold stepBank; split <;>
      first | exact .refl _ | exact onlyEngine_startRun .. | exact onlyEngine_modifyMe .. | exact (onlyPosts_refuse ..).engine

theorem onlyEngine_doHold (me : Byte) (s : State) : OnlyEngine s (doHold me s) := by
  unfold doHold; split
  · exact (onlyPosts_refuse ..).engine
  · unfold holdBank; split <;> first | exact .refl _ | exact onlyEngine_modifyMe ..

theorem onlyEngine_doAbort (me : Byte) (s : State) : OnlyEngine s (doAbort me s) := by
  unfold doAbort; split
  · exact (onlyPosts_refuse ..).engine
  · unfold abortBank; split <;> first | exact .refl _ | exact onlyEngine_modifyMe ..

theorem onlyEngine_autoCompletionDue (bank : BankId) (s : State) : OnlyEngine s (autoCompletionDue bank s) := by
  unfold autoCompletionDue; split
  · exact .refl _
  · exact .refl _
  · split
    · exact .refl _
    · exact onlyEngine_complete ..
  · exact .refl _

theorem onlyEngine_segmentEnd (bank : BankId) (s : State) : OnlyEngine s (segmentEnd bank s) := by
  unfold segmentEnd; split
  · exact (onlyEngine_takeDue bank _ (onlyEngine_runStep bank s)).trans (onlyEngine_syncRelease ..)
  · exact .refl _

/-! ### Still store -/

theorem onlyStore_setSlotState (m : SlotId) (x : SlotState) (s : State) : OnlyStore s (setSlotState m x s) :=
  onlyStore_setSlot ..

theorem onlyStore_dropEntry (m : SlotId) (s : State) : OnlyStore s (dropEntry m s) := ⟨rfl, .refl _⟩

theorem onlyStore_releasePort (m : SlotId) (s : State) : OnlyStore s (releasePort m s) := ⟨rfl, .refl _⟩

theorem onlyStore_occupyPort (p : Fin 2) (m : SlotId) (s : State) : OnlyStore s (occupyPort p m s) := ⟨rfl, .refl _⟩

theorem onlyStore_setWait (m : SlotId) (n : Nat) (s : State) : OnlyStore s (setWait m n s) := ⟨rfl, .refl _⟩

theorem onlyStore_completeGrab (period : State) (m : SlotId) (s : State) : OnlyStore s (completeGrab period m s) := by
  unfold completeGrab; split
  · exact .refl _
  · exact .refl _
  · exact ((onlyStore_releasePort ..).trans (onlyStore_setSlot ..)).trans (onlyPosts_post ..).store

theorem onlyStore_completions (period s : State) : OnlyStore s (completions period s) :=
  OnlyStore.foldl (fun t m => onlyStore_completeGrab period m t) _ _

theorem onlyStore_failGrab (m : SlotId) (why : GrabFault) (s : State) : OnlyStore s (failGrab m why s) :=
  ((onlyStore_dropEntry ..).trans (onlyStore_setSlotState ..)).trans (onlyPosts_post ..).store

theorem onlyStore_beginGrab (p : Fin 2) (e : GrabEntry) (s : State) : OnlyStore s (beginGrab p e s) :=
  ((onlyStore_dropEntry ..).trans (onlyStore_occupyPort ..)).trans (onlyStore_setSlotState ..)

theorem onlyStore_walkEntry (locked : LaneId → Bool) (e : GrabEntry) (s : State) :
    OnlyStore s (walkEntry locked e s) := by
  unfold walkEntry; split
  · exact onlyStore_failGrab ..
  · split
    · split
      · exact onlyStore_failGrab ..
      · exact onlyStore_setWait ..
    · split
      · exact onlyStore_beginGrab ..
      · exact .refl _

theorem onlyStore_walk (locked : LaneId → Bool) (s : State) : OnlyStore s (walk locked s) :=
  OnlyStore.foldl (fun t e => onlyStore_walkEntry locked e t) _ _

theorem onlyStore_storeWork (period : State) (locked : LaneId → Bool) (s : State) :
    OnlyStore s (storeWork period locked s) :=
  (onlyStore_completions ..).trans (onlyStore_walk ..)

theorem onlyStore_doGrab (slot source : Byte) (s : State) : OnlyStore s (doGrab slot source s) := by
  unfold doGrab; split
  · exact (onlyPosts_refuse ..).store
  · split
    · exact (onlyPosts_refuse ..).store
    · split
      · exact (onlyPosts_refuse ..).store
      · split
        · exact (onlyPosts_refuse ..).store
        · split
          · exact (onlyPosts_refuse ..).store
          · exact ⟨rfl, .refl _⟩

theorem onlyStore_doClear (slot : Byte) (s : State) : OnlyStore s (doClear slot s) := by
  unfold doClear; split
  · exact (onlyPosts_refuse ..).store
  · split
    · exact (onlyPosts_refuse ..).store
    · refine OnlyStore.trans ?_ (onlyStore_setSlot ..)
      unfold withdrawGrab; split
      · exact .refl _
      · exact (onlyStore_dropEntry ..).trans (onlyStore_setSlotState ..)
      · exact (onlyStore_releasePort ..).trans (onlyStore_setSlotState ..)

theorem onlyStore_grabBegin (m : SlotId) (s : State) : OnlyStore s (grabBegin m s) := by
  unfold grabBegin; split
  · exact .refl _
  · split
    · exact .refl _
    · split
      · exact .refl _
      · split
        · exact .refl _
        · exact onlyStore_beginGrab ..

theorem onlyStore_grabWaitTimeout (m : SlotId) (s : State) : OnlyStore s (grabWaitTimeout m s) := by
  unfold grabWaitTimeout; split
  · exact .refl _
  · split
    · exact .refl _
    · split
      · exact .refl _
      · split
        · exact .refl _
        · exact onlyStore_failGrab ..

/-! ### Resets and the commands of a take -/

theorem onlyBlocks_resetEngine (s : State) : OnlyBlocks s (resetEngine s) := rfl

theorem onlyBlocks_resetFull (s : State) : OnlyBlocks s (resetFull s) :=
  OnlyBlocks.trans (t :=
      { dropTake s with
        notices := (dropTake s).notices.fullReset
        meA := Me.powerOn
        meB := Me.powerOn
        store := (dropTake s).store.stopped.emptied
        matrix := Matrix.powerOn
        curves := Vector.replicate 4 Curve.powerOn })
    rfl (onlyLanes_lanesFullReset _).blocks

theorem onlyBlocks_doReset (scope : Byte) (s : State) : OnlyBlocks s (doReset scope s) := by
  unfold doReset; split
  · exact onlyBlocks_resetEngine s
  · exact onlyBlocks_resetFull s
  · exact (onlyPosts_refuse ..).blocks

theorem onlyBlocks_doNoticeMask (info advisory degraded : Byte) (s : State) :
    OnlyBlocks s (doNoticeMask info advisory degraded s) := by
  unfold doNoticeMask; split
  · rfl
  · exact (onlyPosts_refuse ..).blocks

theorem onlyBlocks_runCommand (c : Command) (s : State) : OnlyBlocks s (runCommand c s) := by
  cases c with
  | cancel _ => rfl
  | cancelAll => rfl
  | reset _ => exact onlyBlocks_doReset ..
  | laneSet _ _ _ => exact (onlyLanes_doLaneSet ..).blocks
  | resync _ => exact (onlyLanes_doResync ..).blocks
  | select _ _ _ => exact (onlyEngine_doSelect ..).blocks
  | auxSelect _ => exact onlyBlocks_doAuxSelect ..
  | matte _ _ _ => exact onlyBlocks_doMatte ..
  | loadCurve _ _ => exact onlyBlocks_doLoadCurve ..
  | wipeSet _ _ _ _ => exact (onlyEngine_doWipeSet ..).blocks
  | keySet _ _ _ _ _ _ => exact (onlyEngine_doKeySet ..).blocks
  | maskSet _ _ _ => exact (onlyEngine_doMaskSet ..).blocks
  | transSet _ _ _ _ => exact (onlyEngine_doTransSet ..).blocks
  | nextSet _ _ => exact (onlyEngine_doNextSet ..).blocks
  | cut _ => exact (onlyEngine_doCut ..).blocks
  | auto _ => exact (onlyEngine_doAuto ..).blocks
  | lever _ _ => exact (onlyEngine_doLever ..).blocks
  | layerOn _ _ => exact (onlyEngine_doLayerOn ..).blocks
  | layerOff _ _ => exact (onlyEngine_doLayerOff ..).blocks
  | layerRate _ _ _ => exact (onlyEngine_doLayerRate ..).blocks
  | order _ _ _ _ _ => exact (onlyEngine_doOrder ..).blocks
  | raise _ _ => exact (onlyEngine_doRaise ..).blocks
  | lower _ _ => exact (onlyEngine_doLower ..).blocks
  | loadKeyframes _ _ _ => exact (onlyEngine_doLoadKeyframes ..).blocks
  | runSet _ _ _ _ => exact (onlyEngine_doRunSet ..).blocks
  | run _ => exact (onlyEngine_doRun ..).blocks
  | step _ => exact (onlyEngine_doStep ..).blocks
  | hold _ => exact (onlyEngine_doHold ..).blocks
  | abort _ => exact (onlyEngine_doAbort ..).blocks
  | grab _ _ => exact (onlyStore_doGrab ..).blocks
  | clear _ => exact (onlyStore_doClear ..).blocks
  | noticeMask _ _ _ => exact onlyBlocks_doNoticeMask ..
  | clearSummary => rfl

theorem onlyBlocks_runEntry (e : TakeEntry) (s : State) : OnlyBlocks s (runEntry e s) := by
  unfold runEntry
  refine OnlyBlocks.trans (t := if e.late then s.post (.late e.command.code) .advisory .none else s) ?_
    (onlyBlocks_runCommand ..)
  split
  · exact (onlyPosts_post ..).blocks
  · exact .refl _

theorem onlyBlocks_handOut (n : Nat) : ∀ s : State, OnlyBlocks s (handOut n s) := by
  induction n with
  | zero => exact .refl
  | succ n ih =>
    intro s
    unfold handOut; split
    · exact .refl _
    · rename_i e rest _
      exact OnlyBlocks.trans (t := { s with control := { s.control with take := rest } }) rfl
        ((onlyBlocks_runEntry e _).trans (ih _))

theorem resetEngine_take (s : State) : (resetEngine s).control.take = [] := rfl

theorem resetFull_take (s : State) : (resetFull s).control.take = [] := by
  unfold resetFull fullScope
  rw [(onlyLanes_lanesFullReset _).control_eq]
  rfl

theorem doReset_take (scope : Byte) (s : State) :
    (doReset scope s).control.take = s.control.take ∨ (doReset scope s).control.take = [] := by
  unfold doReset; split
  · exact .inr (resetEngine_take s)
  · exact .inr (resetFull_take s)
  · exact .inl rfl

/-- No command adds to the take that is being handed out. -/
theorem runCommand_take (c : Command) (s : State) :
    (runCommand c s).control.take = s.control.take ∨ (runCommand c s).control.take = [] := by
  cases c with
  | cancel _ => exact .inl rfl
  | cancelAll => exact .inl rfl
  | reset scope => exact doReset_take scope s
  | laneSet _ _ _ => exact .inl (congrArg TakeUnit.take (onlyLanes_doLaneSet ..).control_eq)
  | resync _ => exact .inl (congrArg TakeUnit.take (onlyLanes_doResync ..).control_eq)
  | select _ _ _ => exact .inl (congrArg TakeUnit.take (onlyEngine_doSelect ..).control_eq)
  | auxSelect _ => left; simp only [runCommand, doAuxSelect]; split <;> rfl
  | matte _ _ _ => exact .inl rfl
  | loadCurve _ _ =>
    left; simp only [runCommand, doLoadCurve]; split
    · rfl
    · simp only [loadCurve]; split <;> rfl
  | wipeSet _ _ _ _ => exact .inl (congrArg TakeUnit.take (onlyEngine_doWipeSet ..).control_eq)
  | keySet _ _ _ _ _ _ => exact .inl (congrArg TakeUnit.take (onlyEngine_doKeySet ..).control_eq)
  | maskSet _ _ _ => exact .inl (congrArg TakeUnit.take (onlyEngine_doMaskSet ..).control_eq)
  | transSet _ _ _ _ => exact .inl (congrArg TakeUnit.take (onlyEngine_doTransSet ..).control_eq)
  | nextSet _ _ => exact .inl (congrArg TakeUnit.take (onlyEngine_doNextSet ..).control_eq)
  | cut _ => exact .inl (congrArg TakeUnit.take (onlyEngine_doCut ..).control_eq)
  | auto _ => exact .inl (congrArg TakeUnit.take (onlyEngine_doAuto ..).control_eq)
  | lever _ _ => exact .inl (congrArg TakeUnit.take (onlyEngine_doLever ..).control_eq)
  | layerOn _ _ => exact .inl (congrArg TakeUnit.take (onlyEngine_doLayerOn ..).control_eq)
  | layerOff _ _ => exact .inl (congrArg TakeUnit.take (onlyEngine_doLayerOff ..).control_eq)
  | layerRate _ _ _ => exact .inl (congrArg TakeUnit.take (onlyEngine_doLayerRate ..).control_eq)
  | order _ _ _ _ _ => exact .inl (congrArg TakeUnit.take (onlyEngine_doOrder ..).control_eq)
  | raise _ _ => exact .inl (congrArg TakeUnit.take (onlyEngine_doRaise ..).control_eq)
  | lower _ _ => exact .inl (congrArg TakeUnit.take (onlyEngine_doLower ..).control_eq)
  | loadKeyframes _ _ _ => exact .inl (congrArg TakeUnit.take (onlyEngine_doLoadKeyframes ..).control_eq)
  | runSet _ _ _ _ => exact .inl (congrArg TakeUnit.take (onlyEngine_doRunSet ..).control_eq)
  | run _ => exact .inl (congrArg TakeUnit.take (onlyEngine_doRun ..).control_eq)
  | step _ => exact .inl (congrArg TakeUnit.take (onlyEngine_doStep ..).control_eq)
  | hold _ => exact .inl (congrArg TakeUnit.take (onlyEngine_doHold ..).control_eq)
  | abort _ => exact .inl (congrArg TakeUnit.take (onlyEngine_doAbort ..).control_eq)
  | grab _ _ => exact .inl (congrArg TakeUnit.take (onlyStore_doGrab ..).control_eq)
  | clear _ => exact .inl (congrArg TakeUnit.take (onlyStore_doClear ..).control_eq)
  | noticeMask _ _ _ => left; simp only [runCommand, doNoticeMask]; split <;> rfl
  | clearSummary => exact .inl rfl

theorem runEntry_take (e : TakeEntry) (s : State) :
    (runEntry e s).control.take = s.control.take ∨ (runEntry e s).control.take = [] := by
  unfold runEntry; split
  · exact runCommand_take e.command (s.post (.late e.command.code) .advisory .none)
  · exact runCommand_take ..

/-- The take is empty once its commands have been handed out. -/
theorem handOut_take (n : Nat) : ∀ s : State, s.control.take.length ≤ n → (handOut n s).control.take = [] := by
  induction n with
  | zero => intro s h; exact List.eq_nil_of_length_eq_zero (Nat.le_zero.mp h)
  | succ n ih =>
    intro s h
    unfold handOut; split
    · assumption
    · rename_i e rest hr
      apply ih
      rcases runEntry_take e { s with control := { s.control with take := rest } } with k | k
      · rw [k]; simp only [hr, List.length_cons] at h; simpa using h
      · rw [k]; exact Nat.zero_le _

/-! ### Collection -/

theorem onlyControl_appendTake (c : Command) (late : Bool) (s : State) : OnlyControl s (appendTake c late s) := by
  unfold appendTake; split
  · exact ⟨rfl, .refl _⟩
  · exact (onlyPosts_refuse ..).control

theorem onlyControl_scheduleCommand (target : PictureNumber) (c : Command) (s : State) :
    OnlyControl s (scheduleCommand target c s) := by
  unfold scheduleCommand; split
  · exact ⟨rfl, .refl _⟩
  · exact (onlyPosts_refuse ..).control

theorem onlyControl_placeTimed (target : PictureNumber) (c : Command) (s : State) :
    OnlyControl s (placeTimed target c s) := by
  unfold placeTimed; split
  · exact onlyControl_appendTake ..
  · exact onlyControl_scheduleCommand ..
  · exact onlyControl_appendTake ..

theorem onlyControl_collectAt (target : PictureNumber) (code count : Byte) (inner : List Byte) (s : State) :
    OnlyControl s (collectAt target code count inner s) := by
  unfold collectAt; split
  · exact (onlyPosts_refuse ..).control
  · split
    · exact (onlyPosts_refuse ..).control
    · split
      · exact (onlyPosts_refuse ..).control
      · exact (onlyPosts_refuse ..).control
      · exact onlyControl_placeTimed ..

theorem onlyControl_collectCommand (code : Byte) (params : List Byte) (s : State) :
    OnlyControl s (collectCommand code params s) := by
  unfold collectCommand; split
  · unfold collectAtBytes; split
    · exact onlyControl_collectAt ..
    · exact (onlyPosts_refuse ..).control
  · split
    · exact (onlyPosts_refuse ..).control
    · exact (onlyPosts_refuse ..).control
    · exact onlyControl_appendTake ..

theorem onlyControl_cutPayload (n : Nat) : ∀ (bytes : List Byte) (s : State), OnlyControl s (cutPayload n bytes s) := by
  induction n with
  | zero => intro bytes s; unfold cutPayload; exact .refl _
  | succ n ih =>
    intro bytes s
    match bytes with
    | [] => exact .refl _
    | [_] => exact (onlyPosts_post ..).control
    | code :: count :: rest =>
      unfold cutPayload; split
      · exact (onlyPosts_post ..).control
      · exact (onlyControl_collectCommand ..).trans (ih ..)

theorem onlyControl_collectCarrier (carrier : List Byte) (s : State) : OnlyControl s (collectCarrier carrier s) := by
  unfold collectCarrier; split
  · exact .refl _
  · split
    · unfold collectPacket; split
      · exact (onlyPosts_post ..).control
      · split
        · exact OnlyControl.trans (t := { s with control := { s.control with packets := s.control.packets + 1 } })
            ⟨rfl, .refl _⟩ (onlyControl_cutPayload ..)
        · split
          · exact .refl _
          · exact OnlyControl.trans (t := { s with control := { s.control with excess := true } }) ⟨rfl, .refl _⟩
              (onlyPosts_post ..).control
    · exact .refl _

/-! ### The reference timing unit -/

theorem onlyRef_changeStatus (r : RefStatus) (s : State) : OnlyRef s (changeStatus r s) := by
  simp only [changeStatus]; split
  · exact onlyRef_setStatus ..
  · exact (onlyRef_setStatus ..).trans (onlyPosts_post ..).ref

theorem onlyRef_judgePicture (picture : Option HouseFormat) (lines : Nat) (s : State) :
    OnlyRef s (judgePicture picture lines s) := by
  unfold judgePicture; split
  · exact onlyRef_changeStatus ..
  · exact .refl _
  · exact onlyRef_changeStatus ..
  · exact .refl _
  · split
    · split
      · exact OnlyRef.trans (t := placeSwitchLine lines (recordFormat _ s)) ⟨rfl, .refl _⟩ (onlyRef_changeStatus ..)
      · exact onlyRef_setStatus ..
    · exact onlyRef_setStatus ..
  · exact onlyRef_changeStatus ..
  · split
    · exact onlyRef_setStatus ..
    · exact onlyRef_changeStatus ..
  · exact onlyRef_changeStatus ..

theorem onlyRef_actStart (x : ReferenceStart) (s : State) : OnlyRef s (actStart x s) := by
  unfold actStart; split
  · exact ⟨rfl, .refl _⟩
  · exact onlyRef_judgePicture ..

theorem onlyRef_actMissing (s : State) : OnlyRef s (actMissing s) := by
  unfold actMissing; split
  · exact .refl _
  · exact onlyRef_changeStatus ..
  · split
    · exact onlyRef_setStatus ..
    · exact onlyRef_changeStatus ..
  · exact .refl _

end Sys2Proof.Machine
end

