-- ==== Sys2Proof/Laws/Engine.lean ====
section
/-! SUPPORT. What the banks' own work and the commands that play a transition, a layer or a run do to a bank: its settings stay,
its layers stay sound, and its buses stay legal. -/

namespace Sys2Proof.Machine

/-! ### Layers -/

theorem LayerState.fadeStep_sound (x : LayerState) (h : x.sound) : x.fadeStep.sound := by
  cases x with
  | off => trivial
  | on => trivial
  | rising c rf =>
    simp only [LayerState.fadeStep]; simp only [LayerState.sound] at h
    split
    · trivial
    · simp only [LayerState.sound]; omega
  | falling c rf =>
    simp only [LayerState.fadeStep]; simp only [LayerState.sound] at h
    split
    · trivial
    · simp only [LayerState.sound]; omega

theorem LayerState.turnedOn_sound (rate : Nat) (x : LayerState) (h : x.sound) : (x.turnedOn rate).sound := by
  cases x with
  | off => simp only [LayerState.turnedOn]; split <;> simp only [LayerState.sound]; omega
  | on => trivial
  | rising c rf => exact h
  | falling c rf => exact h

theorem LayerState.turnedOff_sound (rate : Nat) (x : LayerState) (h : x.sound) : (x.turnedOff rate).sound := by
  cases x with
  | off => trivial
  | on => simp only [LayerState.turnedOff]; split <;> simp only [LayerState.sound]; omega
  | rising c rf => exact h
  | falling c rf => exact h

theorem LayerState.toggled_sound (x : LayerState) : x.toggled.sound := by
  cases x <;> trivial

/-! ### A bank's record -/

@[simp] theorem Me.layer_setLayer (m : Me) (l : LayerId) (x : Layer) : (m.setLayer l x).layer l = x := by
  simp [Me.layer, Me.setLayer]

theorem Me.layer_setLayer_of_ne (m : Me) {l k : LayerId} (x : Layer) (h : k ≠ l) :
    (m.setLayer l x).layer k = m.layer k := by
  simp only [Me.layer, Me.setLayer, Fin.getElem_fin]
  exact Vector.getElem_set_ne _ _ (fun e => h (Fin.ext e.symm))

@[simp] theorem Me.fadeStep_layer (m : Me) (l : LayerId) :
    m.fadeStep.layer l = { m.layer l with state := (m.layer l).state.fadeStep } := by
  simp [Me.layer, Me.fadeStep]

@[simp] theorem Me.toggleSelected_layer (m : Me) (l : LayerId) :
    m.toggleSelected.layer l =
      if hasLayer m.selection l then { m.layer l with state := (m.layer l).state.toggled } else m.layer l := by
  simp [Me.layer, Me.toggleSelected]

/-- What a transition, a layer command or a run may do to the record of a bank, one move after another. -/
inductive Moves : Me → Me → Prop where
  | refl (m : Me) : Moves m m
  | trans {m m' m'' : Me} : Moves m m' → Moves m' m'' → Moves m m''
  | fade (m : Me) : Moves m m.fadeStep
  | toggle (m : Me) : Moves m m.toggleSelected
  | turnOn (m : Me) (l : LayerId) :
      Moves m (m.setLayer l { m.layer l with state := (m.layer l).state.turnedOn (m.layer l).rate })
  | turnOff (m : Me) (l : LayerId) :
      Moves m (m.setLayer l { m.layer l with state := (m.layer l).state.turnedOff (m.layer l).rate })
  | stepFade (m : Me) (l : LayerId) :
      Moves m (m.setLayer l { m.layer l with state := (m.layer l).state.fadeStep })
  | play (m : Me) (drive : Drive) (position : Nat) (sense : Sense) (pickup : Bool) (run : Run) (mark : Bool) :
      Moves m { m with drive := drive, position := position, sense := sense, pickup := pickup, run := run, mark := mark }

/-- The settings of a bank: what no move changes. -/
theorem Moves.settings {m m' : Me} (h : Moves m m') :
    m' =
      { m with
        drive := m'.drive
        position := m'.position
        sense := m'.sense
        pickup := m'.pickup
        layers := m'.layers
        run := m'.run
        mark := m'.mark } := by
  induction h with
  | refl => rfl
  | trans _ _ h k => rw [k, h]
  | fade => rfl
  | toggle => rfl
  | turnOn => rfl
  | turnOff => rfl
  | stepFade => rfl
  | play => rfl

/-- The settings of a layer: what no move changes. -/
theorem Moves.layerSettings {m m' : Me} (h : Moves m m') (l : LayerId) :
    m'.layer l = { m.layer l with state := (m'.layer l).state } := by
  have set : ∀ (m : Me) (k : LayerId) (x : LayerState),
      (m.setLayer k { m.layer k with state := x }).layer l =
        { m.layer l with state := ((m.setLayer k { m.layer k with state := x }).layer l).state } := by
    intro m k x
    by_cases e : l = k
    · subst e; simp
    · rw [Me.layer_setLayer_of_ne _ _ e]
  induction h with
  | refl => rfl
  | trans _ _ h k => rw [k, h]
  | fade m => simp
  | toggle m => simp only [Me.toggleSelected_layer]; split <;> rfl
  | turnOn m k => exact set m k _
  | turnOff m k => exact set m k _
  | stepFade m k => exact set m k _
  | play => rfl

/-- Moves keep every layer and the stacking order sound (R113, R124). -/
theorem Moves.layersSound {m m' : Me} (h : Moves m m') (hm : m.layersSound) : m'.layersSound := by
  have set : ∀ (m : Me) (k : LayerId) (x : LayerState), m.layersSound → x.sound →
      (m.setLayer k { m.layer k with state := x }).layersSound := by
    intro m k x hm hx
    refine ⟨fun l => ?_, hm.2⟩
    by_cases e : l = k
    · subst e; rw [Me.layer_setLayer]; exact ⟨(hm.1 l).1, (hm.1 l).2.1, hx⟩
    · rw [Me.layer_setLayer_of_ne _ _ e]; exact hm.1 l
  induction h with
  | refl => exact hm
  | trans _ _ h k => exact k (h hm)
  | fade m =>
    exact ⟨fun l => by
      rw [Me.fadeStep_layer]
      exact ⟨(hm.1 l).1, (hm.1 l).2.1, LayerState.fadeStep_sound _ (hm.1 l).2.2⟩, hm.2⟩
  | toggle m =>
    refine ⟨fun l => ?_, hm.2⟩
    rw [Me.toggleSelected_layer]; split
    · exact ⟨(hm.1 l).1, (hm.1 l).2.1, LayerState.toggled_sound _⟩
    · exact hm.1 l
  | turnOn m k => exact set m k _ hm (LayerState.turnedOn_sound _ _ (hm.1 k).2.2)
  | turnOff m k => exact set m k _ hm (LayerState.turnedOff_sound _ _ (hm.1 k).2.2)
  | stepFade m k => exact set m k _ hm (LayerState.fadeStep_sound _ (hm.1 k).2.2)
  | play => exact hm

theorem moves_completed (m : Me) (how : DoneBy) : Moves m (m.completed how) :=
  (Moves.toggle m).trans (.play m.toggleSelected .rest 0 _ _ m.toggleSelected.run m.toggleSelected.mark)

theorem moves_resolved (m : Me) : Moves m m.resolved :=
  .play m _ m.position m.sense true m.run m.mark

theorem moves_segmentBegun (m : Me) : Moves m m.segmentBegun :=
  .play m m.drive _ m.sense m.pickup _ m.mark

theorem moves_segmentAdvanced (m : Me) : Moves m m.segmentAdvanced :=
  .play m m.drive _ m.sense m.pickup _ m.mark

theorem moves_run (m : Me) (r : Run) : Moves m { m with run := r } :=
  .play m m.drive m.position m.sense m.pickup r m.mark

/-! ### Buses (R55) -/

theorem Buses.get_set_self (x : Buses) (k : Bus) (src : Source) : (x.set k src).get k = src := by
  cases k <;> simp [Buses.get, Buses.set]

theorem Buses.get_set_of_ne (x : Buses) {k j : Bus} (src : Source) (h : j ≠ k) : (x.set k src).get j = x.get j := by
  cases k <;> cases j <;> first | rfl | exact absurd rfl h | skip
  · rename_i l i
    have hn : l.val ≠ i.val := fun e => h (congrArg Bus.fill (Fin.ext e.symm))
    simp only [Buses.get, Buses.set, Fin.getElem_fin]
    exact Vector.getElem_set_ne _ _ hn
  · rename_i l i
    have hn : l.val ≠ i.val := fun e => h (congrArg Bus.cut (Fin.ext e.symm))
    simp only [Buses.get, Buses.set, Fin.getElem_fin]
    exact Vector.getElem_set_ne _ _ hn

/-- Every bus of the bank holds a source legal on the bank. -/
def Buses.legal (bank : BankId) (x : Buses) : Prop :=
  ∀ k : Bus, legalOn bank (x.get k) = true

theorem Buses.legal_set {bank : BankId} {x : Buses} (h : x.legal bank) (k : Bus) {src : Source}
    (hs : legalOn bank src = true) : (x.set k src).legal bank := by
  intro j
  by_cases e : j = k
  · subst e; rw [Buses.get_set_self]; exact hs
  · rw [Buses.get_set_of_ne _ _ e]; exact h j

theorem Buses.legal_exchange {bank : BankId} {x : Buses} (h : x.legal bank) :
    ({ x with a := x.b, b := x.a } : Buses).legal bank := by
  intro j
  cases j with
  | a => exact h .b
  | b => exact h .a
  | dip => exact h .dip
  | fill l => exact h (.fill l)
  | cut l => exact h (.cut l)

theorem readBusSource_legal {bank : BankId} {code : Byte} {src : Source} (h : readBusSource bank code = some src) :
    legalOn bank src = true := by
  simp only [readBusSource, Option.filter_eq_some_iff] at h
  exact h.2

theorem busesLegal_setBuses {s : State} {bank : BankId} {x : Buses} (h : s.busesLegal) (hx : x.legal bank) :
    (s.setBuses bank x).busesLegal := by
  intro k
  by_cases e : k = bank
  · subst e; rw [State.buses_setBuses]; exact hx
  · rw [State.buses_setBuses_of_ne _ _ e]; exact h k

theorem busesLegal_setBus {s : State} {bank : BankId} (k : Bus) {src : Source} (h : s.busesLegal)
    (hs : legalOn bank src = true) : (s.setBus bank k src).busesLegal :=
  busesLegal_setBuses h (Buses.legal_set (h bank) k hs)

/-! ### Work of the engine -/

/-- Both banks have made moves, and legal buses have stayed legal. -/
def EngineWork (s t : State) : Prop :=
  (∀ bank : BankId, Moves (s.me bank) (t.me bank)) ∧ (s.busesLegal → t.busesLegal)

theorem EngineWork.refl (s : State) : EngineWork s s := ⟨fun _ => .refl _, id⟩

theorem EngineWork.trans {s t u : State} (h : EngineWork s t) (k : EngineWork t u) : EngineWork s u :=
  ⟨fun bank => (h.1 bank).trans (k.1 bank), fun hs => k.2 (h.2 hs)⟩

theorem EngineWork.foldl {α : Type} {f : State → α → State} (h : ∀ s a, EngineWork s (f s a)) (l : List α) :
    ∀ s, EngineWork s (l.foldl f s) := by
  induction l with
  | nil => exact .refl
  | cons a l ih => exact fun s => (h s a).trans (ih _)

theorem engineWork_post (s : State) (kind : NoticeKind) (cls : NoticeClass) (subject : Subject) :
    EngineWork s (s.post kind cls subject) :=
  ⟨fun bank => by cases bank <;> exact .refl _, fun h bank => by cases bank <;> exact h _⟩

theorem engineWork_refuse (s : State) (code : Byte) (reason : Reason) (subject : Subject) :
    EngineWork s (s.refuse code reason subject) :=
  engineWork_post ..

theorem engineWork_modifyMe (s : State) (bank : BankId) (f : Me → Me) (h : Moves (s.me bank) (f (s.me bank))) :
    EngineWork s (s.modifyMe bank f) := by
  refine ⟨fun x => ?_, fun hs x => ?_⟩
  · by_cases e : x = bank
    · subst e; rw [State.me_modifyMe]; exact h
    · rw [State.me_modifyMe_of_ne _ _ e]; exact .refl _
  · cases bank <;> cases x <;> exact hs _

theorem engineWork_exchangeBuses (bank : BankId) (s : State) : EngineWork s (exchangeBuses bank s) :=
  ⟨fun x => by cases bank <;> cases x <;> exact .refl _,
    fun hs => busesLegal_setBuses hs (Buses.legal_exchange (hs bank))⟩

theorem engineWork_complete (bank : BankId) (how : DoneBy) (s : State) : EngineWork s (complete bank how s) := by
  have h : EngineWork s (if hasBkgd (s.me bank).selection then exchangeBuses bank s else s) := by
    split
    · exact engineWork_exchangeBuses ..
    · exact .refl _
  exact (h.trans (engineWork_modifyMe _ bank (fun m => m.completed how) (moves_completed ..))).trans (engineWork_post ..)

theorem engineWork_layerOn (bank : BankId) (l : LayerId) (s : State) : EngineWork s (layerOn bank l s) := by
  unfold layerOn; split
  · exact engineWork_refuse ..
  · exact engineWork_modifyMe _ _ _ (.turnOn _ l)

theorem engineWork_layerOff (bank : BankId) (l : LayerId) (s : State) : EngineWork s (layerOff bank l s) := by
  unfold layerOff; split
  · exact engineWork_refuse ..
  · exact engineWork_modifyMe _ _ _ (.turnOff _ l)

theorem engineWork_layerRequests (bank : BankId) (e : Keyframe) (s : State) : EngineWork s (layerRequests bank e s) :=
  (EngineWork.foldl (fun t l => by split <;> first | exact engineWork_layerOn .. | exact .refl _) _ _).trans
    (EngineWork.foldl (fun t l => by split <;> first | exact engineWork_layerOff .. | exact .refl _) _ _)

theorem engineWork_presetRequest (bank : BankId) (e : Keyframe) (s : State) : EngineWork s (presetRequest bank e s) := by
  unfold presetRequest; split
  · exact .refl _
  · unfold placePreset; split
    · exact engineWork_refuse ..
    · rename_i h
      exact ⟨fun x => by cases bank <;> cases x <;> exact .refl _, fun hs => busesLegal_setBus .b hs (readBusSource_legal h)⟩

theorem engineWork_postMark (bank : BankId) (s : State) : EngineWork s (postMark bank s) := by
  unfold postMark; split
  · exact engineWork_post ..
  · exact engineWork_modifyMe _ _ _ (.play (s.me bank.other) _ _ _ _ _ true)

theorem engineWork_arriveEntry (bank : BankId) (s : State) : EngineWork s (arriveEntry bank s) := by
  simp only [arriveEntry]
  split
  all_goals
    refine ((engineWork_layerRequests bank ((s.me bank).entry (s.me bank).run.index) s).trans
      (engineWork_presetRequest bank ((s.me bank).entry (s.me bank).run.index) _)).trans ?_
  · exact (engineWork_postMark ..).trans (engineWork_modifyMe _ _ _ (moves_run ..))
  · exact engineWork_modifyMe _ _ _ (moves_segmentBegun _)

theorem engineWork_endRun (bank : BankId) (s : State) : EngineWork s (endRun bank s).1 := by
  simp only [endRun]; split
  · exact (engineWork_modifyMe _ _ _ (moves_run ..)).trans (engineWork_post ..)
  · exact ((engineWork_modifyMe _ _ _ (moves_run ..)).trans (engineWork_post ..)).trans
      (engineWork_modifyMe _ _ _ (moves_resolved _))

theorem engineWork_arrive (bank : BankId) (s : State) : EngineWork s (arrive bank s).1 := by
  simp only [arrive]; split
  · exact engineWork_arriveEntry ..
  · split
    · exact (engineWork_modifyMe _ _ _ (moves_run ..)).trans (engineWork_arriveEntry ..)
    · exact engineWork_endRun ..

theorem EngineWork.pair {s t : State} (h : EngineWork s t) (due : Option DoneBy) : EngineWork s (t, due).1 := h

theorem engineWork_pauseAfterSegment (bank : BankId) (s : State) : EngineWork s (pauseAfterSegment bank s).1 := by
  simp only [pauseAfterSegment]; split
  · exact ((engineWork_modifyMe _ _ _ (moves_run ..)).trans (engineWork_modifyMe _ _ _ (moves_run ..))).pair _
  · split
    · exact ((engineWork_modifyMe _ _ _ (moves_run ..)).trans (engineWork_modifyMe _ _ _ (moves_run ..))).pair _
    · exact (engineWork_modifyMe _ _ _ (moves_run ..)).trans (engineWork_endRun ..)

theorem engineWork_stepPlaying (holding : Bool) (bank : BankId) (s : State) :
    EngineWork s (stepPlaying holding bank s).1 := by
  simp only [stepPlaying]; split
  · exact engineWork_arrive ..
  · split
    · exact engineWork_modifyMe _ _ _ (moves_segmentAdvanced _)
    · split
      · exact engineWork_pauseAfterSegment ..
      · exact (engineWork_modifyMe _ _ _ (moves_run ..)).trans (engineWork_arrive ..)

theorem engineWork_runStep (bank : BankId) (s : State) : EngineWork s (runStep bank s).1 := by
  unfold runStep; split
  · exact .refl _
  · exact engineWork_stepPlaying ..
  · exact .refl _
  · exact engineWork_stepPlaying ..
  · exact .refl _

theorem engineWork_syncRelease (bank : BankId) (s : State) : EngineWork s (syncRelease bank s) := by
  simp only [syncRelease]; split
  · exact .refl _
  · exact .refl _
  · split
    · exact engineWork_modifyMe _ _ _ (.play _ _ _ _ _ _ false)
    · exact .refl _
  · exact .refl _
  · exact .refl _

theorem engineWork_driveStep (bank : BankId) (s : State) : EngineWork s (driveStep bank s).1 := by
  unfold driveStep; split
  · exact .refl _
  · exact .refl _
  · split
    · exact (engineWork_modifyMe _ _ _ (.play (s.me bank) _ _ _ _ _ _)).pair _
    · exact .refl _
  · exact engineWork_runStep ..

theorem engineWork_takeDue (bank : BankId) {s : State} (p : State × Option DoneBy) (h : EngineWork s p.1) :
    EngineWork s (takeDue bank p) := by
  unfold takeDue; split
  · exact h
  · exact h.trans (engineWork_complete ..)

theorem engineWork_bankOwn (bank : BankId) (s : State) : EngineWork s (bankOwn bank s) :=
  engineWork_takeDue bank _ ((engineWork_modifyMe _ _ _ (.fade _)).trans (engineWork_driveStep ..))

/-- The banks' own work at a switch line. -/
theorem engineWork_banksWork (s : State) : EngineWork s (banksWork s) :=
  (((engineWork_bankOwn .a s).trans (engineWork_bankOwn .b _)).trans (engineWork_syncRelease .a _)).trans
    (engineWork_syncRelease .b _)

/-! ### Commands that play -/

theorem engineWork_cutBank (bank : BankId) (s : State) : EngineWork s (cutBank bank s) := by
  simp only [cutBank]; split
  · split
    · exact engineWork_refuse ..
    · split
      · exact engineWork_refuse ..
      · exact engineWork_complete ..
  · exact engineWork_complete ..
  · exact engineWork_complete ..
  · exact engineWork_refuse ..

theorem engineWork_doCut (me : Byte) (s : State) : EngineWork s (doCut me s) := by
  unfold doCut; split
  · exact engineWork_refuse ..
  · exact engineWork_cutBank ..

theorem engineWork_startAuto (bank : BankId) (start span : Nat) (s : State) : EngineWork s (startAuto bank start span s) := by
  simp only [startAuto]; split
  · exact engineWork_refuse ..
  · split
    · exact engineWork_refuse ..
    · split
      · exact engineWork_complete ..
      · exact engineWork_modifyMe _ _ _ (.play (s.me bank) _ _ _ _ _ _)

theorem engineWork_doAuto (me : Byte) (s : State) : EngineWork s (doAuto me s) := by
  unfold doAuto; split
  · exact engineWork_refuse ..
  · simp only [autoBank]; split <;> first | exact engineWork_startAuto .. | exact engineWork_refuse ..

theorem engineWork_followLever (bank : BankId) (e : Nat) (s : State) : EngineWork s (followLever bank e s) := by
  unfold followLever; split
  · exact (engineWork_modifyMe _ _ _ (.play (s.me bank) _ _ _ _ _ _)).trans (engineWork_complete ..)
  · split <;> exact engineWork_modifyMe _ _ _ (.play (s.me bank) _ _ _ _ _ _)

theorem engineWork_leverBank (bank : BankId) (v : Nat) (s : State) : EngineWork s (leverBank bank v s) := by
  have follow : ∀ (e : Nat) (f : Me → Me), Moves (s.me bank) (f (s.me bank)) →
      EngineWork s (followLever bank e (s.modifyMe bank f)) :=
    fun e f h => (engineWork_modifyMe _ _ _ h).trans (engineWork_followLever ..)
  simp only [leverBank]; split
  · split
    · unfold pickUpAtRest; split
      · exact follow _ _ (.play (s.me bank) _ _ _ _ _ _)
      · split
        · exact follow _ _ (.play (s.me bank) _ _ _ _ _ _)
        · exact .refl _
    · exact engineWork_followLever ..
  · split
    · split
      · exact follow _ _ (.play (s.me bank) _ _ _ _ _ _)
      · exact .refl _
    · exact engineWork_followLever ..
  · exact .refl _
  · exact .refl _

theorem engineWork_doLever (me : Byte) (value : Word16) (s : State) : EngineWork s (doLever me value s) := by
  unfold doLever; split
  · exact engineWork_refuse ..
  · exact engineWork_leverBank ..

theorem engineWork_doLayerOn (me layer : Byte) (s : State) : EngineWork s (doLayerOn me layer s) := by
  unfold doLayerOn; split
  · exact engineWork_layerOn ..
  · exact engineWork_refuse ..

theorem engineWork_doLayerOff (me layer : Byte) (s : State) : EngineWork s (doLayerOff me layer s) := by
  unfold doLayerOff; split
  · exact engineWork_layerOff ..
  · exact engineWork_refuse ..

theorem engineWork_fadeEnd (bank : BankId) (l : LayerId) (s : State) : EngineWork s (fadeEnd bank l s) := by
  unfold fadeEnd; split
  · exact engineWork_modifyMe _ _ _ (.stepFade _ l)
  · exact .refl _

theorem engineWork_startRun (code : Byte) (first : RunState) (bank : BankId) (s : State) :
    EngineWork s (startRun code first bank s) := by
  unfold startRun; split
  · exact engineWork_refuse ..
  · exact engineWork_modifyMe _ _ _ (.play (s.me bank) _ _ _ _ _ _)

theorem engineWork_doRun (me : Byte) (s : State) : EngineWork s (doRun me s) := by
  unfold doRun; split
  · exact engineWork_refuse ..
  · unfold runBank; split <;>
      first | exact .refl _ | exact engineWork_startRun .. | exact engineWork_modifyMe _ _ _ (moves_run ..)

theorem engineWork_doStep (me : Byte) (s : State) : EngineWork s (doStep me s) := by
  unfold doStep; split
  · exact engineWork_refuse ..
  · unfold stepBank; split <;>
      first
        | exact .refl _
        | exact engineWork_startRun ..
        | exact engineWork_modifyMe _ _ _ (moves_run ..)

theorem engineWork_doHold (me : Byte) (s : State) : EngineWork s (doHold me s) := by
  unfold doHold; split
  · exact engineWork_refuse ..
  · unfold holdBank; split <;> first | exact .refl _ | exact engineWork_modifyMe _ _ _ (moves_run ..)

theorem engineWork_doAbort (me : Byte) (s : State) : EngineWork s (doAbort me s) := by
  unfold doAbort; split
  · exact engineWork_refuse ..
  · unfold abortBank; split
    · exact .refl _
    · exact engineWork_modifyMe _ _ _ ((moves_run ..).trans (moves_resolved _))

theorem engineWork_autoCompletionDue (bank : BankId) (s : State) : EngineWork s (autoCompletionDue bank s) := by
  unfold autoCompletionDue; split
  · exact .refl _
  · exact .refl _
  · split
    · exact .refl _
    · exact engineWork_complete ..
  · exact .refl _

theorem engineWork_segmentEnd (bank : BankId) (s : State) : EngineWork s (segmentEnd bank s) := by
  unfold segmentEnd; split
  · exact (engineWork_takeDue bank _ (engineWork_runStep bank s)).trans (engineWork_syncRelease ..)
  · exact .refl _

/-! ### Work that leaves the engine alone -/

theorem engineWork_of_eq {s t : State} (ha : t.meA = s.meA) (hb : t.meB = s.meB) (hm : t.matrix = s.matrix) :
    EngineWork s t := by
  refine ⟨fun bank => ?_, fun h bank k => ?_⟩
  · cases bank
    · simp only [State.me, ha]; exact .refl _
    · simp only [State.me, hb]; exact .refl _
  · have hbuses : t.buses bank = s.buses bank := by cases bank <;> simp only [State.buses, hm]
    rw [hbuses]; exact h bank k

theorem OnlyLanes.engineWork {s t : State} (h : OnlyLanes s t) : EngineWork s t :=
  engineWork_of_eq h.meA_eq h.meB_eq h.matrix_eq

theorem OnlyStore.engineWork {s t : State} (h : OnlyStore s t) : EngineWork s t :=
  engineWork_of_eq h.meA_eq h.meB_eq h.matrix_eq

theorem OnlyControl.engineWork {s t : State} (h : OnlyControl s t) : EngineWork s t :=
  engineWork_of_eq h.meA_eq h.meB_eq h.matrix_eq

theorem OnlyRef.engineWork {s t : State} (h : OnlyRef s t) : EngineWork s t :=
  engineWork_of_eq h.meA_eq h.meB_eq h.matrix_eq

theorem OnlyPosts.engineWork {s t : State} (h : OnlyPosts s t) : EngineWork s t :=
  engineWork_of_eq h.meA_eq h.meB_eq h.matrix_eq

/-! ### Commands that set up a bank -/

theorem raisedOrder_perm {order base : List LayerId} (h : order.Perm base) (hb : base.Nodup) (l : LayerId) (hl : l ∈ base) :
    (raisedOrder order l).Perm base := by
  have hn : order.Nodup := h.nodup_iff.mpr hb
  refine List.Perm.trans ?_ h
  rw [raisedOrder]
  refine List.perm_append_comm.trans ?_
  show (l :: order.filter (· ≠ l)).Perm order
  have he : order.filter (· ≠ l) = order.erase l := by
    rw [hn.erase_eq_filter]
    congr 1
    funext x
    simp [bne, BEq.beq]
  rw [he]
  exact (List.perm_cons_erase (h.mem_iff.mpr hl)).symm

theorem loweredOrder_perm {order base : List LayerId} (h : order.Perm base) (hb : base.Nodup) (l : LayerId) (hl : l ∈ base) :
    (loweredOrder order l).Perm base :=
  (List.perm_append_comm (l₁ := [l])).trans (raisedOrder_perm h hb l hl)

theorem mem_layers (l : LayerId) : l ∈ ([0, 1, 2, 3] : List LayerId) := by
  revert l; decide

/-- Four different layers are all the layers. -/
theorem mem_of_nodup_four : ∀ p q r t : LayerId, [p, q, r, t].Nodup → ∀ x : LayerId, x ∈ [p, q, r, t] := by
  decide

/-- A stacking order that ORDER accepts holds each layer exactly once (R125). -/
theorem readOrder_perm {first second third fourth : Byte} {order : List LayerId}
    (h : readOrder first second third fourth = some order) : order.Perm [0, 1, 2, 3] := by
  unfold readOrder at h
  split at h
  · rename_i p q r t _ _ _ _
    split at h
    · rename_i hd
      cases h
      exact (List.perm_ext_iff_of_nodup hd (by decide)).mpr (fun x => by
        exact ⟨fun _ => mem_layers x, fun _ => mem_of_nodup_four p q r t hd x⟩)
    · cases h
  · cases h

/-- The commands of a bank's settings keep its layers and its stacking order sound. -/
theorem layersSound_modifyMe {s : State} {bank : BankId} {f : Me → Me} (h : ∀ x : BankId, (s.me x).layersSound)
    (hf : (f (s.me bank)).layersSound) : ∀ x : BankId, ((s.modifyMe bank f).me x).layersSound := by
  intro x
  by_cases e : x = bank
  · subst e; rw [State.me_modifyMe]; exact hf
  · rw [State.me_modifyMe_of_ne _ _ e]; exact h x

theorem layersSound_setLayer {m : Me} {l : LayerId} {x : Layer} (h : m.layersSound) (hx : x.sound) :
    (m.setLayer l x).layersSound := by
  refine ⟨fun k => ?_, h.2⟩
  by_cases e : k = l
  · subst e; rw [Me.layer_setLayer]; exact hx
  · rw [Me.layer_setLayer_of_ne _ _ e]; exact h.1 k

end Sys2Proof.Machine
end

