-- ==== Sys2Proof/Laws/Exec.lean ====
section
/-! SUPPORT. What `exec` answers for each command while the RESET pin is released, in terms of the operation that carries the
command out; and the one step. -/

namespace Sys2Proof.Machine

theorem exec_powerOnReset (straps : BitVec 2) (s : State) : exec (.powerOnReset straps) s = .next (restarted straps s.resetPin s) := rfl

theorem exec_resetPinAssert (s : State) : exec .resetPinAssert s = .next (restarted s.unit true s) := rfl

theorem exec_resetPinRelease (straps : BitVec 2) (s : State) : exec (.resetPinRelease straps) s = .next (restarted straps false s) := rfl

theorem exec_referencePictureStart (start : ReferenceStart) {s : State} (h : s.resetPin = false) :
    exec (.referencePictureStart start) s = .next (referenceStart start s) :=
  congrArg Host.Outcome.next (State.live_of_released h _)

theorem exec_missingStart {s : State} (h : s.resetPin = false) :
    exec .missingStart s = .next (referenceMissing s) :=
  congrArg Host.Outcome.next (State.live_of_released h _)

theorem exec_switchLine (parity : FieldParity) {s : State} (h : s.resetPin = false) :
    exec (.switchLine parity) s = .next (switchLine parity s) :=
  congrArg Host.Outcome.next (State.live_of_released h _)

theorem exec_reportLine {s : State} (h : s.resetPin = false) :
    exec .reportLine s = .next (reportLine s) :=
  congrArg Host.Outcome.next (State.live_of_released h _)

theorem exec_controlPacket (whole : Bool) (carrier : List Byte) {s : State} (h : s.resetPin = false) :
    exec (.controlPacket whole carrier) s = .next (packetArrives whole carrier s) :=
  congrArg Host.Outcome.next (State.live_of_released h _)

theorem exec_scheduledEntryDue {s : State} (h : s.resetPin = false) :
    exec .scheduledEntryDue s = .next (dueEntry s) :=
  congrArg Host.Outcome.next (State.live_of_released h _)

theorem exec_formatChange (parity : FieldParity) {s : State} (h : s.resetPin = false) :
    exec (.formatChange parity) s = .next (formatChangeLine parity s) :=
  congrArg Host.Outcome.next (State.live_of_released h _)

theorem exec_laneSignalChange (lane : LaneId) (signal : Bool) (s : State) : exec (.laneSignalChange lane signal) s = .next (laneSignal lane signal s) := rfl

theorem exec_lanePictureStart (lane : LaneId) (start : LaneStart) {s : State} (h : s.resetPin = false) :
    exec (.lanePictureStart lane start) s = .next (laneStart lane start s) :=
  congrArg Host.Outcome.next (State.live_of_released h _)

theorem exec_laneLock (lane : LaneId) {s : State} (h : s.resetPin = false) :
    exec (.laneLock lane) s = .next (Machine.laneLock lane s) :=
  congrArg Host.Outcome.next (State.live_of_released h _)

theorem exec_fadeEnd (bank : BankId) (layer : LayerId) {s : State} (h : s.resetPin = false) :
    exec (.fadeEnd bank layer) s = .next (Machine.fadeEnd bank layer s) :=
  congrArg Host.Outcome.next (State.live_of_released h _)

theorem exec_autoCompletionDue (bank : BankId) {s : State} (h : s.resetPin = false) :
    exec (.autoCompletionDue bank) s = .next (Machine.autoCompletionDue bank s) :=
  congrArg Host.Outcome.next (State.live_of_released h _)

theorem exec_segmentEnd (bank : BankId) {s : State} (h : s.resetPin = false) :
    exec (.segmentEnd bank) s = .next (Machine.segmentEnd bank s) :=
  congrArg Host.Outcome.next (State.live_of_released h _)

theorem exec_syncRelease (bank : BankId) {s : State} (h : s.resetPin = false) :
    exec (.syncRelease bank) s = .next (Machine.syncRelease bank s) :=
  congrArg Host.Outcome.next (State.live_of_released h _)

theorem exec_grabCompletion (slot : SlotId) {s : State} (h : s.resetPin = false) :
    exec (.grabCompletion slot) s = .next (Machine.grabCompletion slot s) :=
  congrArg Host.Outcome.next (State.live_of_released h _)

theorem exec_grabBegin (slot : SlotId) {s : State} (h : s.resetPin = false) :
    exec (.grabBegin slot) s = .next (Machine.grabBegin slot s) :=
  congrArg Host.Outcome.next (State.live_of_released h _)

theorem exec_grabWaitTimeout (slot : SlotId) {s : State} (h : s.resetPin = false) :
    exec (.grabWaitTimeout slot) s = .next (Machine.grabWaitTimeout slot s) :=
  congrArg Host.Outcome.next (State.live_of_released h _)

theorem exec_atPicture (target : PictureNumber) (innerCode innerCount : Byte) (inner : List Byte) {s : State} (h : s.resetPin = false) :
    exec (.atPicture target innerCode innerCount inner) s = .next (collectAt target innerCode innerCount inner s) :=
  congrArg Host.Outcome.next (State.live_of_released h _)

theorem exec_cancel (target : PictureNumber) {s : State} (h : s.resetPin = false) :
    exec (.cancel target) s = .next (doCancel target s) :=
  congrArg Host.Outcome.next (State.live_of_released h _)

theorem exec_cancelAll {s : State} (h : s.resetPin = false) :
    exec .cancelAll s = .next (doCancelAll s) :=
  congrArg Host.Outcome.next (State.live_of_released h _)

theorem exec_resetEngine {s : State} (h : s.resetPin = false) :
    exec .resetEngine s = .next (Machine.resetEngine s) :=
  congrArg Host.Outcome.next (State.live_of_released h _)

theorem exec_resetFull {s : State} (h : s.resetPin = false) :
    exec .resetFull s = .next (Machine.resetFull s) :=
  congrArg Host.Outcome.next (State.live_of_released h _)

theorem exec_laneSet (lane settle fallback : Byte) {s : State} (h : s.resetPin = false) :
    exec (.laneSet lane settle fallback) s = .next (doLaneSet lane settle fallback s) :=
  congrArg Host.Outcome.next (State.live_of_released h _)

theorem exec_resync (lane : Byte) {s : State} (h : s.resetPin = false) :
    exec (.resync lane) s = .next (doResync lane s) :=
  congrArg Host.Outcome.next (State.live_of_released h _)

theorem exec_select (me bus source : Byte) {s : State} (h : s.resetPin = false) :
    exec (.select me bus source) s = .next (doSelect me bus source s) :=
  congrArg Host.Outcome.next (State.live_of_released h _)

theorem exec_auxSelect (source : Byte) {s : State} (h : s.resetPin = false) :
    exec (.auxSelect source) s = .next (doAuxSelect source s) :=
  congrArg Host.Outcome.next (State.live_of_released h _)

theorem exec_matte (y cb cr : Word16) {s : State} (h : s.resetPin = false) :
    exec (.matte y cb cr) s = .next (doMatte y cb cr s) :=
  congrArg Host.Outcome.next (State.live_of_released h _)

theorem exec_loadCurve (curve : Byte) (points : Vector Word16 65) {s : State} (h : s.resetPin = false) :
    exec (.loadCurve curve points) s = .next (doLoadCurve curve points s) :=
  congrArg Host.Outcome.next (State.live_of_released h _)

theorem exec_wipeSet (me shape reverse : Byte) (softness : Word16) {s : State} (h : s.resetPin = false) :
    exec (.wipeSet me shape reverse softness) s = .next (doWipeSet me shape reverse softness s) :=
  congrArg Host.Outcome.next (State.live_of_released h _)

theorem exec_keySet (me layer kind : Byte) (clip : Word16) (gain invert : Byte) {s : State} (h : s.resetPin = false) :
    exec (.keySet me layer kind clip gain invert) s = .next (doKeySet me layer kind clip gain invert s) :=
  congrArg Host.Outcome.next (State.live_of_released h _)

theorem exec_maskSet (me layer : Byte) (box : Option BoxWords) {s : State} (h : s.resetPin = false) :
    exec (.maskSet me layer box) s = .next (doMaskSet me layer box s) :=
  congrArg Host.Outcome.next (State.live_of_released h _)

theorem exec_transSet (me kind : Byte) (rate : Word16) (curve : Byte) {s : State} (h : s.resetPin = false) :
    exec (.transSet me kind rate curve) s = .next (doTransSet me kind rate curve s) :=
  congrArg Host.Outcome.next (State.live_of_released h _)

theorem exec_nextSet (me selection : Byte) {s : State} (h : s.resetPin = false) :
    exec (.nextSet me selection) s = .next (doNextSet me selection s) :=
  congrArg Host.Outcome.next (State.live_of_released h _)

theorem exec_cut (me : Byte) {s : State} (h : s.resetPin = false) :
    exec (.cut me) s = .next (doCut me s) :=
  congrArg Host.Outcome.next (State.live_of_released h _)

theorem exec_auto (me : Byte) {s : State} (h : s.resetPin = false) :
    exec (.auto me) s = .next (doAuto me s) :=
  congrArg Host.Outcome.next (State.live_of_released h _)

theorem exec_lever (me : Byte) (value : Word16) {s : State} (h : s.resetPin = false) :
    exec (.lever me value) s = .next (doLever me value s) :=
  congrArg Host.Outcome.next (State.live_of_released h _)

theorem exec_layerOn (me layer : Byte) {s : State} (h : s.resetPin = false) :
    exec (.layerOn me layer) s = .next (doLayerOn me layer s) :=
  congrArg Host.Outcome.next (State.live_of_released h _)

theorem exec_layerOff (me layer : Byte) {s : State} (h : s.resetPin = false) :
    exec (.layerOff me layer) s = .next (doLayerOff me layer s) :=
  congrArg Host.Outcome.next (State.live_of_released h _)

theorem exec_layerRate (me layer : Byte) (rate : Word16) {s : State} (h : s.resetPin = false) :
    exec (.layerRate me layer rate) s = .next (doLayerRate me layer rate s) :=
  congrArg Host.Outcome.next (State.live_of_released h _)

theorem exec_order (me first second third fourth : Byte) {s : State} (h : s.resetPin = false) :
    exec (.order me first second third fourth) s = .next (doOrder me first second third fourth s) :=
  congrArg Host.Outcome.next (State.live_of_released h _)

theorem exec_raise (me layer : Byte) {s : State} (h : s.resetPin = false) :
    exec (.raise me layer) s = .next (doRaise me layer s) :=
  congrArg Host.Outcome.next (State.live_of_released h _)

theorem exec_lower (me layer : Byte) {s : State} (h : s.resetPin = false) :
    exec (.lower me layer) s = .next (doLower me layer s) :=
  congrArg Host.Outcome.next (State.live_of_released h _)

theorem exec_loadKeyframes (me first : Byte) (records : List KeyframeBytes) {s : State} (h : s.resetPin = false) :
    exec (.loadKeyframes me first records) s = .next (doLoadKeyframes me first records s) :=
  congrArg Host.Outcome.next (State.live_of_released h _)

theorem exec_runSet (me count endMode loops : Byte) {s : State} (h : s.resetPin = false) :
    exec (.runSet me count endMode loops) s = .next (doRunSet me count endMode loops s) :=
  congrArg Host.Outcome.next (State.live_of_released h _)

theorem exec_run (me : Byte) {s : State} (h : s.resetPin = false) :
    exec (.run me) s = .next (doRun me s) :=
  congrArg Host.Outcome.next (State.live_of_released h _)

theorem exec_step (me : Byte) {s : State} (h : s.resetPin = false) :
    exec (.step me) s = .next (doStep me s) :=
  congrArg Host.Outcome.next (State.live_of_released h _)

theorem exec_hold (me : Byte) {s : State} (h : s.resetPin = false) :
    exec (.hold me) s = .next (doHold me s) :=
  congrArg Host.Outcome.next (State.live_of_released h _)

theorem exec_abort (me : Byte) {s : State} (h : s.resetPin = false) :
    exec (.abort me) s = .next (doAbort me s) :=
  congrArg Host.Outcome.next (State.live_of_released h _)

theorem exec_grab (slot source : Byte) {s : State} (h : s.resetPin = false) :
    exec (.grab slot source) s = .next (doGrab slot source s) :=
  congrArg Host.Outcome.next (State.live_of_released h _)

theorem exec_clear (slot : Byte) {s : State} (h : s.resetPin = false) :
    exec (.clear slot) s = .next (doClear slot s) :=
  congrArg Host.Outcome.next (State.live_of_released h _)

theorem exec_noticeMask (info advisory degraded : Byte) {s : State} (h : s.resetPin = false) :
    exec (.noticeMask info advisory degraded) s = .next (doNoticeMask info advisory degraded s) :=
  congrArg Host.Outcome.next (State.live_of_released h _)

theorem exec_clearSummary {s : State} (h : s.resetPin = false) :
    exec .clearSummary s = .next (doClearSummary s) :=
  congrArg Host.Outcome.next (State.live_of_released h _)

/-! ### Every command completes -/

/-- The state after a command: `exec` always answers a next state. -/
theorem exec_next (c : Instr) (s : State) : ∃ t : State, exec c s = .next t := by
  cases c <;> exact ⟨_, rfl⟩

/-- While the pin is asserted a command that passes through `live` leaves the state as it is (R15). -/
theorem next_live_of_asserted {s : State} (h : s.resetPin = true) (f : State → State) :
    (Host.Outcome.next (s.live f) : Result) = .next s :=
  congrArg Host.Outcome.next (State.live_of_asserted h f)

/-! ### What every command keeps -/

/-- The operations of the commands keep a property: what has to be shown for it, once for each operation. -/
structure Kept (P : State → Prop) : Prop where
  restarted (unit : BitVec 2) (pin : Bool) (s : State) : P s → P (restarted unit pin s)
  signal (n : LaneId) (signal : Bool) (s : State) : P s → P (laneSignal n signal s)
  start (x : ReferenceStart) (s : State) : P s → P (referenceStart x s)
  missing (s : State) : P s → P (referenceMissing s)
  line (p : FieldParity) (s : State) : P s → P (switchLine p s)
  report (s : State) : P s → P (reportLine s)
  packet (whole : Bool) (carrier : List Byte) (s : State) : P s → P (packetArrives whole carrier s)
  due (s : State) : P s → P (dueEntry s)
  change (p : FieldParity) (s : State) : P s → P (formatChangeLine p s)
  laneStart (n : LaneId) (x : LaneStart) (s : State) : P s → P (laneStart n x s)
  lock (n : LaneId) (s : State) : P s → P (laneLock n s)
  fadeEnd (bank : BankId) (l : LayerId) (s : State) : P s → P (fadeEnd bank l s)
  autoDue (bank : BankId) (s : State) : P s → P (autoCompletionDue bank s)
  segmentEnd (bank : BankId) (s : State) : P s → P (segmentEnd bank s)
  release (bank : BankId) (s : State) : P s → P (syncRelease bank s)
  completion (m : SlotId) (s : State) : P s → P (grabCompletion m s)
  begins (m : SlotId) (s : State) : P s → P (grabBegin m s)
  timeout (m : SlotId) (s : State) : P s → P (grabWaitTimeout m s)
  collect (target : PictureNumber) (code count : Byte) (inner : List Byte) (s : State) :
    P s → P (collectAt target code count inner s)
  command (c : Command) (s : State) : P s → P (runCommand c s)

/-- What an operation keeps, the command that passes it through `live` keeps. -/
theorem live_keeps {P : State → Prop} {f : State → State} (hf : ∀ s : State, P s → P (f s)) {s t : State} (hs : P s)
    (h : (Host.Outcome.next (s.live f) : Result) = .next t) : P t := by
  cases h
  unfold State.live
  split
  · exact hs
  · exact hf s hs

/-- A property that the operations keep is kept by every command. -/
theorem Kept.exec {P : State → Prop} (k : Kept P) (c : Instr) (s t : State) (hs : P s) (h : exec c s = .next t) : P t := by
  cases c with
  | powerOnReset _ => cases h; exact k.restarted _ _ _ hs
  | resetPinAssert => cases h; exact k.restarted _ _ _ hs
  | resetPinRelease _ => cases h; exact k.restarted _ _ _ hs
  | referencePictureStart start => exact live_keeps (fun s hs => k.start _ _ hs) hs h
  | missingStart => exact live_keeps (fun s hs => k.missing _ hs) hs h
  | switchLine parity => exact live_keeps (fun s hs => k.line _ _ hs) hs h
  | reportLine => exact live_keeps (fun s hs => k.report _ hs) hs h
  | controlPacket whole carrier => exact live_keeps (fun s hs => k.packet _ _ _ hs) hs h
  | scheduledEntryDue => exact live_keeps (fun s hs => k.due _ hs) hs h
  | formatChange parity => exact live_keeps (fun s hs => k.change _ _ hs) hs h
  | laneSignalChange _ _ => cases h; exact k.signal _ _ _ hs
  | lanePictureStart lane start => exact live_keeps (fun s hs => k.laneStart _ _ _ hs) hs h
  | laneLock lane => exact live_keeps (fun s hs => k.lock _ _ hs) hs h
  | fadeEnd bank layer => exact live_keeps (fun s hs => k.fadeEnd _ _ _ hs) hs h
  | autoCompletionDue bank => exact live_keeps (fun s hs => k.autoDue _ _ hs) hs h
  | segmentEnd bank => exact live_keeps (fun s hs => k.segmentEnd _ _ hs) hs h
  | syncRelease bank => exact live_keeps (fun s hs => k.release _ _ hs) hs h
  | grabCompletion slot => exact live_keeps (fun s hs => k.completion _ _ hs) hs h
  | grabBegin slot => exact live_keeps (fun s hs => k.begins _ _ hs) hs h
  | grabWaitTimeout slot => exact live_keeps (fun s hs => k.timeout _ _ hs) hs h
  | atPicture target innerCode innerCount inner => exact live_keeps (fun s hs => k.collect _ _ _ _ _ hs) hs h
  | cancel target => exact live_keeps (fun s hs => k.command (.cancel target) s hs) hs h
  | cancelAll => exact live_keeps (fun s hs => k.command (.cancelAll) s hs) hs h
  | resetEngine => exact live_keeps (fun s hs => k.command (.reset 0) s hs) hs h
  | resetFull => exact live_keeps (fun s hs => k.command (.reset 1) s hs) hs h
  | laneSet lane settle fallback => exact live_keeps (fun s hs => k.command (.laneSet lane settle fallback) s hs) hs h
  | resync lane => exact live_keeps (fun s hs => k.command (.resync lane) s hs) hs h
  | select me bus source => exact live_keeps (fun s hs => k.command (.select me bus source) s hs) hs h
  | auxSelect source => exact live_keeps (fun s hs => k.command (.auxSelect source) s hs) hs h
  | matte y cb cr => exact live_keeps (fun s hs => k.command (.matte y cb cr) s hs) hs h
  | loadCurve curve points => exact live_keeps (fun s hs => k.command (.loadCurve curve points) s hs) hs h
  | wipeSet me shape reverse softness => exact live_keeps (fun s hs => k.command (.wipeSet me shape reverse softness) s hs) hs h
  | keySet me layer kind clip gain invert => exact live_keeps (fun s hs => k.command (.keySet me layer kind clip gain invert) s hs) hs h
  | maskSet me layer box => exact live_keeps (fun s hs => k.command (.maskSet me layer box) s hs) hs h
  | transSet me kind rate curve => exact live_keeps (fun s hs => k.command (.transSet me kind rate curve) s hs) hs h
  | nextSet me selection => exact live_keeps (fun s hs => k.command (.nextSet me selection) s hs) hs h
  | cut me => exact live_keeps (fun s hs => k.command (.cut me) s hs) hs h
  | auto me => exact live_keeps (fun s hs => k.command (.auto me) s hs) hs h
  | lever me value => exact live_keeps (fun s hs => k.command (.lever me value) s hs) hs h
  | layerOn me layer => exact live_keeps (fun s hs => k.command (.layerOn me layer) s hs) hs h
  | layerOff me layer => exact live_keeps (fun s hs => k.command (.layerOff me layer) s hs) hs h
  | layerRate me layer rate => exact live_keeps (fun s hs => k.command (.layerRate me layer rate) s hs) hs h
  | order me first second third fourth => exact live_keeps (fun s hs => k.command (.order me first second third fourth) s hs) hs h
  | raise me layer => exact live_keeps (fun s hs => k.command (.raise me layer) s hs) hs h
  | lower me layer => exact live_keeps (fun s hs => k.command (.lower me layer) s hs) hs h
  | loadKeyframes me first records => exact live_keeps (fun s hs => k.command (.loadKeyframes me first records) s hs) hs h
  | runSet me count endMode loops => exact live_keeps (fun s hs => k.command (.runSet me count endMode loops) s hs) hs h
  | run me => exact live_keeps (fun s hs => k.command (.run me) s hs) hs h
  | step me => exact live_keeps (fun s hs => k.command (.step me) s hs) hs h
  | hold me => exact live_keeps (fun s hs => k.command (.hold me) s hs) hs h
  | abort me => exact live_keeps (fun s hs => k.command (.abort me) s hs) hs h
  | grab slot source => exact live_keeps (fun s hs => k.command (.grab slot source) s hs) hs h
  | clear slot => exact live_keeps (fun s hs => k.command (.clear slot) s hs) hs h
  | noticeMask info advisory degraded => exact live_keeps (fun s hs => k.command (.noticeMask info advisory degraded) s hs) hs h
  | clearSummary => exact live_keeps (fun s hs => k.command (.clearSummary) s hs) hs h

/-! ### The step -/

theorem step_cons (c : Instr) (s : State) (rest : List Instr) (h : s.pending = c :: rest) :
    step s = exec c { s with pending := rest } := by
  simp only [step, h]

theorem step_nil (s : State) (h : s.pending = []) : step s = .next s := by
  simp only [step, h]

/-- What every command keeps, every step keeps, for a property that does not read the waiting commands. -/
theorem step_keeps {P : State → Prop} (hpending : ∀ (s : State) (rest : List Instr), P s → P { s with pending := rest })
    (hexec : ∀ (c : Instr) (s t : State), P s → exec c s = .next t → P t) {s t : State} (hs : P s) (h : step s = .next t) :
    P t := by
  unfold step at h
  split at h
  · cases h; exact hs
  · exact hexec _ _ _ (hpending _ _ hs) h

/-- A property that the operations keep, and that does not read the waiting commands, is kept by every step. -/
theorem Kept.step {P : State → Prop} (k : Kept P)
    (hpending : ∀ (s : State) (rest : List Instr), P s → P { s with pending := rest }) {s t : State} (hs : P s)
    (h : step s = .next t) : P t :=
  step_keeps hpending k.exec hs h

/-! ### Commands of a take -/

/-- A row of the table does what the take does with its command (R43). -/
theorem exec_of_rowOf {k : Command} {c : Instr} {s : State} (h : rowOf k = some c) (hr : s.resetPin = false) :
    exec c s = .next (runCommand k s) := by
  cases k <;> simp only [rowOf, Option.some.injEq] at h <;> (try subst h)
  all_goals try (show Host.Outcome.next (s.live _) = _; simp [State.live, hr, runCommand]; done)
  rename_i scope
  split at h
  · cases h; rename_i e; subst e; show Host.Outcome.next (s.live _) = _; simp [State.live, hr, runCommand, doReset]
  · split at h
    · cases h; rename_i e; subst e; show Host.Outcome.next (s.live _) = _; simp [State.live, hr, runCommand, doReset]
    · cases h

end Sys2Proof.Machine
end

