-- ==== Sys2Proof/Laws/Lines.lean ====
section
/-! SUPPORT. The forming of the take and the two lines of a picture period: what each leaves unchanged, field by field. -/

namespace Sys2Proof.Machine

/-! ### The take -/

/-- Bringing due entries into the take touches the schedule list and the take alone. -/
theorem dueEntry_frame (s : State) :
    dueEntry s =
      { s with
        control :=
          { s.control with schedule := (dueEntry s).control.schedule, take := (dueEntry s).control.take } } := by
  unfold dueEntry; split
  · rfl
  · split <;> rfl

theorem dueEntries_frame (n : Nat) : ∀ s : State,
    dueEntries n s =
      { s with
        control :=
          { s.control with schedule := (dueEntries n s).control.schedule, take := (dueEntries n s).control.take } } := by
  induction n with
  | zero => intro s; rfl
  | succ n ih => intro s; rw [dueEntries, ih (dueEntry s), dueEntry_frame s]

/-- Forming the take touches the take unit alone; the packet count and the flag stay. -/
theorem formTake_frame (s : State) :
    formTake s =
      { s with
        control :=
          { s.control with
            schedule := (formTake s).control.schedule
            take := (formTake s).control.take
            takeList := []
            fill := s.control.takeList.length } } := by
  unfold formTake
  rw [dueEntries_frame]

/-- With no entry due the take is what it was followed by the take list. -/
theorem dueEntries_none (n : Nat) (s : State) (h : ∀ e ∈ s.control.schedule, e.target ≠ s.ref.picture) :
    dueEntries n s = s := by
  induction n with
  | zero => rfl
  | succ n ih =>
    have hs : dueEntry s = s := by
      unfold dueEntry; split
      · rfl
      · rename_i e rest he
        rw [if_neg]
        exact h e (he ▸ List.mem_cons_self ..)
    rw [dueEntries, hs, ih]

/-! ### The switch line -/

/-- A plain switch line with nothing to take is the blocks' own work alone. -/
theorem formTake_nothing (s : State) (htake : s.control.take = []) (hlist : s.control.takeList = [])
    (h : ∀ e ∈ s.control.schedule, e.target ≠ s.ref.picture) :
    formTake s = { s with control := { s.control with fill := 0 } } := by
  unfold formTake
  rw [dueEntries_none _ s h]
  simp only [htake, hlist, List.append_nil, List.length_nil]

/-! ### Field by field -/

theorem formTake_resetPin (s : State) : (formTake s).resetPin = s.resetPin := by rw [formTake_frame]
theorem formTake_unit (s : State) : (formTake s).unit = s.unit := by rw [formTake_frame]
theorem formTake_ref (s : State) : (formTake s).ref = s.ref := by rw [formTake_frame]
theorem formTake_awaitingReport (s : State) : (formTake s).awaitingReport = s.awaitingReport := by rw [formTake_frame]
theorem formTake_held (s : State) : (formTake s).held = s.held := by rw [formTake_frame]
theorem formTake_parity (s : State) : (formTake s).parity = s.parity := by rw [formTake_frame]
theorem formTake_lanes (s : State) : (formTake s).lanes = s.lanes := by rw [formTake_frame]
theorem formTake_matrix (s : State) : (formTake s).matrix = s.matrix := by rw [formTake_frame]
theorem formTake_curves (s : State) : (formTake s).curves = s.curves := by rw [formTake_frame]
theorem formTake_meA (s : State) : (formTake s).meA = s.meA := by rw [formTake_frame]
theorem formTake_meB (s : State) : (formTake s).meB = s.meB := by rw [formTake_frame]
theorem formTake_store (s : State) : (formTake s).store = s.store := by rw [formTake_frame]
theorem formTake_tally (s : State) : (formTake s).tally = s.tally := by rw [formTake_frame]
theorem formTake_notices (s : State) : (formTake s).notices = s.notices := by rw [formTake_frame]
theorem formTake_report (s : State) : (formTake s).report = s.report := by rw [formTake_frame]
theorem formTake_pending (s : State) : (formTake s).pending = s.pending := by rw [formTake_frame]
theorem formTake_takeList (s : State) : (formTake s).control.takeList = [] := by
  rw [formTake_frame]
theorem formTake_packets (s : State) : (formTake s).control.packets = s.control.packets := by
  rw [formTake_frame]
theorem formTake_excess (s : State) : (formTake s).control.excess = s.control.excess := by
  rw [formTake_frame]
theorem formTake_fill (s : State) : (formTake s).control.fill = s.control.takeList.length := by
  rw [formTake_frame]

theorem plainSwitchLine_resetPin (p : FieldParity) (s : State) :
    (plainSwitchLine p s).resetPin = (beginPeriod p s).resetPin := by
  unfold plainSwitchLine handOutTake ownWork
  rw [(onlyBlocks_handOut _ _).resetPin_eq, (onlyStore_storeWork _ _ _).resetPin_eq, (onlyEngine_banksWork _).resetPin_eq, formTake_resetPin,
    (onlyLanes_lanesWork _ _).resetPin_eq]

theorem plainSwitchLine_unit (p : FieldParity) (s : State) :
    (plainSwitchLine p s).unit = (beginPeriod p s).unit := by
  unfold plainSwitchLine handOutTake ownWork
  rw [(onlyBlocks_handOut _ _).unit_eq, (onlyStore_storeWork _ _ _).unit_eq, (onlyEngine_banksWork _).unit_eq, formTake_unit,
    (onlyLanes_lanesWork _ _).unit_eq]

theorem plainSwitchLine_ref (p : FieldParity) (s : State) :
    (plainSwitchLine p s).ref = (beginPeriod p s).ref := by
  unfold plainSwitchLine handOutTake ownWork
  rw [(onlyBlocks_handOut _ _).ref_eq, (onlyStore_storeWork _ _ _).ref_eq, (onlyEngine_banksWork _).ref_eq, formTake_ref,
    (onlyLanes_lanesWork _ _).ref_eq]

theorem plainSwitchLine_awaitingReport (p : FieldParity) (s : State) :
    (plainSwitchLine p s).awaitingReport = (beginPeriod p s).awaitingReport := by
  unfold plainSwitchLine handOutTake ownWork
  rw [(onlyBlocks_handOut _ _).awaitingReport_eq, (onlyStore_storeWork _ _ _).awaitingReport_eq, (onlyEngine_banksWork _).awaitingReport_eq, formTake_awaitingReport,
    (onlyLanes_lanesWork _ _).awaitingReport_eq]

theorem plainSwitchLine_held (p : FieldParity) (s : State) :
    (plainSwitchLine p s).held = (beginPeriod p s).held := by
  unfold plainSwitchLine handOutTake ownWork
  rw [(onlyBlocks_handOut _ _).held_eq, (onlyStore_storeWork _ _ _).held_eq, (onlyEngine_banksWork _).held_eq, formTake_held,
    (onlyLanes_lanesWork _ _).held_eq]

theorem plainSwitchLine_parity (p : FieldParity) (s : State) :
    (plainSwitchLine p s).parity = (beginPeriod p s).parity := by
  unfold plainSwitchLine handOutTake ownWork
  rw [(onlyBlocks_handOut _ _).parity_eq, (onlyStore_storeWork _ _ _).parity_eq, (onlyEngine_banksWork _).parity_eq, formTake_parity,
    (onlyLanes_lanesWork _ _).parity_eq]

theorem plainSwitchLine_tally (p : FieldParity) (s : State) :
    (plainSwitchLine p s).tally = (beginPeriod p s).tally := by
  unfold plainSwitchLine handOutTake ownWork
  rw [(onlyBlocks_handOut _ _).tally_eq, (onlyStore_storeWork _ _ _).tally_eq, (onlyEngine_banksWork _).tally_eq, formTake_tally,
    (onlyLanes_lanesWork _ _).tally_eq]

theorem plainSwitchLine_report (p : FieldParity) (s : State) :
    (plainSwitchLine p s).report = (beginPeriod p s).report := by
  unfold plainSwitchLine handOutTake ownWork
  rw [(onlyBlocks_handOut _ _).report_eq, (onlyStore_storeWork _ _ _).report_eq, (onlyEngine_banksWork _).report_eq, formTake_report,
    (onlyLanes_lanesWork _ _).report_eq]

theorem plainSwitchLine_pending (p : FieldParity) (s : State) :
    (plainSwitchLine p s).pending = (beginPeriod p s).pending := by
  unfold plainSwitchLine handOutTake ownWork
  rw [(onlyBlocks_handOut _ _).pending_eq, (onlyStore_storeWork _ _ _).pending_eq, (onlyEngine_banksWork _).pending_eq, formTake_pending,
    (onlyLanes_lanesWork _ _).pending_eq]

theorem plainSwitchLine_takeList (p : FieldParity) (s : State) : (plainSwitchLine p s).control.takeList = [] := by
  unfold plainSwitchLine handOutTake ownWork
  rw [(onlyBlocks_handOut _ _).takeList_eq, (onlyStore_storeWork _ _ _).control_eq, (onlyEngine_banksWork _).control_eq, formTake_takeList]

theorem plainSwitchLine_packets (p : FieldParity) (s : State) : (plainSwitchLine p s).control.packets = 0 := by
  unfold plainSwitchLine handOutTake ownWork
  rw [(onlyBlocks_handOut _ _).packets_eq, (onlyStore_storeWork _ _ _).control_eq, (onlyEngine_banksWork _).control_eq, formTake_packets, (onlyLanes_lanesWork _ _).control_eq]
  rfl

theorem plainSwitchLine_excess (p : FieldParity) (s : State) : (plainSwitchLine p s).control.excess = false := by
  unfold plainSwitchLine handOutTake ownWork
  rw [(onlyBlocks_handOut _ _).excess_eq, (onlyStore_storeWork _ _ _).control_eq, (onlyEngine_banksWork _).control_eq, formTake_excess, (onlyLanes_lanesWork _ _).control_eq]
  rfl

theorem plainSwitchLine_fill (p : FieldParity) (s : State) : (plainSwitchLine p s).control.fill = s.control.takeList.length := by
  unfold plainSwitchLine handOutTake ownWork
  rw [(onlyBlocks_handOut _ _).fill_eq, (onlyStore_storeWork _ _ _).control_eq, (onlyEngine_banksWork _).control_eq, formTake_fill, (onlyLanes_lanesWork _ _).control_eq]
  rfl

theorem plainSwitchLine_take (p : FieldParity) (s : State) : (plainSwitchLine p s).control.take = [] := by
  unfold plainSwitchLine handOutTake ownWork
  exact handOut_take _ _ (Nat.le_refl _)

/-! ### The switch line of a format change -/

@[simp] theorem carryOutChange_resetPin (s : State) : (carryOutChange s).resetPin = s.resetPin := rfl
@[simp] theorem carryOutChange_unit (s : State) : (carryOutChange s).unit = s.unit := rfl
@[simp] theorem carryOutChange_awaitingReport (s : State) : (carryOutChange s).awaitingReport = s.awaitingReport := rfl
@[simp] theorem carryOutChange_held (s : State) : (carryOutChange s).held = s.held := rfl
@[simp] theorem carryOutChange_parity (s : State) : (carryOutChange s).parity = s.parity := rfl
@[simp] theorem carryOutChange_lanes (s : State) : (carryOutChange s).lanes = s.lanes := rfl
@[simp] theorem carryOutChange_matrix (s : State) : (carryOutChange s).matrix = s.matrix := rfl
@[simp] theorem carryOutChange_curves (s : State) : (carryOutChange s).curves = s.curves := rfl
@[simp] theorem carryOutChange_tally (s : State) : (carryOutChange s).tally = s.tally := rfl
@[simp] theorem carryOutChange_report (s : State) : (carryOutChange s).report = s.report := rfl
@[simp] theorem carryOutChange_pending (s : State) : (carryOutChange s).pending = s.pending := rfl
@[simp] theorem carryOutChange_ref (s : State) : (carryOutChange s).ref = { s.ref with change := none } := rfl
@[simp] theorem carryOutChange_control (s : State) :
    (carryOutChange s).control = { s.control with take := [], schedule := [] } := rfl
@[simp] theorem carryOutChange_meA (s : State) : (carryOutChange s).meA = s.meA.engineReset := rfl
@[simp] theorem carryOutChange_meB (s : State) : (carryOutChange s).meB = s.meB.engineReset := rfl
@[simp] theorem carryOutChange_store (s : State) : (carryOutChange s).store = s.store.stopped.emptied := rfl
@[simp] theorem carryOutChange_notices (s : State) : (carryOutChange s).notices = s.notices.emptied := rfl

theorem ownWorkAtChange_resetPin (before formed : State) : (ownWorkAtChange before formed).resetPin = formed.resetPin := by
  unfold ownWorkAtChange
  rw [(onlyStore_storeWork _ _ _).resetPin_eq, (onlyEngine_banksWork _).resetPin_eq]

theorem ownWorkAtChange_unit (before formed : State) : (ownWorkAtChange before formed).unit = formed.unit := by
  unfold ownWorkAtChange
  rw [(onlyStore_storeWork _ _ _).unit_eq, (onlyEngine_banksWork _).unit_eq]

theorem ownWorkAtChange_ref (before formed : State) : (ownWorkAtChange before formed).ref = formed.ref := by
  unfold ownWorkAtChange
  rw [(onlyStore_storeWork _ _ _).ref_eq, (onlyEngine_banksWork _).ref_eq]

theorem ownWorkAtChange_awaitingReport (before formed : State) : (ownWorkAtChange before formed).awaitingReport = formed.awaitingReport := by
  unfold ownWorkAtChange
  rw [(onlyStore_storeWork _ _ _).awaitingReport_eq, (onlyEngine_banksWork _).awaitingReport_eq]

theorem ownWorkAtChange_held (before formed : State) : (ownWorkAtChange before formed).held = formed.held := by
  unfold ownWorkAtChange
  rw [(onlyStore_storeWork _ _ _).held_eq, (onlyEngine_banksWork _).held_eq]

theorem ownWorkAtChange_parity (before formed : State) : (ownWorkAtChange before formed).parity = formed.parity := by
  unfold ownWorkAtChange
  rw [(onlyStore_storeWork _ _ _).parity_eq, (onlyEngine_banksWork _).parity_eq]

theorem ownWorkAtChange_curves (before formed : State) : (ownWorkAtChange before formed).curves = formed.curves := by
  unfold ownWorkAtChange
  rw [(onlyStore_storeWork _ _ _).curves_eq, (onlyEngine_banksWork _).curves_eq]

theorem ownWorkAtChange_tally (before formed : State) : (ownWorkAtChange before formed).tally = formed.tally := by
  unfold ownWorkAtChange
  rw [(onlyStore_storeWork _ _ _).tally_eq, (onlyEngine_banksWork _).tally_eq]

theorem ownWorkAtChange_report (before formed : State) : (ownWorkAtChange before formed).report = formed.report := by
  unfold ownWorkAtChange
  rw [(onlyStore_storeWork _ _ _).report_eq, (onlyEngine_banksWork _).report_eq]

theorem ownWorkAtChange_pending (before formed : State) : (ownWorkAtChange before formed).pending = formed.pending := by
  unfold ownWorkAtChange
  rw [(onlyStore_storeWork _ _ _).pending_eq, (onlyEngine_banksWork _).pending_eq]

theorem ownWorkAtChange_control (before formed : State) : (ownWorkAtChange before formed).control = formed.control := by
  unfold ownWorkAtChange
  rw [(onlyStore_storeWork _ _ _).control_eq, (onlyEngine_banksWork _).control_eq]

theorem formatSwitchLine_resetPin (p : FieldParity) (s : State) : (formatSwitchLine p s).resetPin = (beginPeriod p s).resetPin := by
  unfold formatSwitchLine postFormat postReference
  rw [(onlyLanes_lanesFormatNotices _ _).resetPin_eq, State.post_resetPin, State.post_resetPin, carryOutChange_resetPin, ownWorkAtChange_resetPin,
    formTake_resetPin, (onlyLanes_lanesFormatChange _ _).resetPin_eq]

theorem formatSwitchLine_unit (p : FieldParity) (s : State) : (formatSwitchLine p s).unit = (beginPeriod p s).unit := by
  unfold formatSwitchLine postFormat postReference
  rw [(onlyLanes_lanesFormatNotices _ _).unit_eq, State.post_unit, State.post_unit, carryOutChange_unit, ownWorkAtChange_unit,
    formTake_unit, (onlyLanes_lanesFormatChange _ _).unit_eq]

theorem formatSwitchLine_awaitingReport (p : FieldParity) (s : State) : (formatSwitchLine p s).awaitingReport = (beginPeriod p s).awaitingReport := by
  unfold formatSwitchLine postFormat postReference
  rw [(onlyLanes_lanesFormatNotices _ _).awaitingReport_eq, State.post_awaitingReport, State.post_awaitingReport, carryOutChange_awaitingReport, ownWorkAtChange_awaitingReport,
    formTake_awaitingReport, (onlyLanes_lanesFormatChange _ _).awaitingReport_eq]

theorem formatSwitchLine_held (p : FieldParity) (s : State) : (formatSwitchLine p s).held = (beginPeriod p s).held := by
  unfold formatSwitchLine postFormat postReference
  rw [(onlyLanes_lanesFormatNotices _ _).held_eq, State.post_held, State.post_held, carryOutChange_held, ownWorkAtChange_held,
    formTake_held, (onlyLanes_lanesFormatChange _ _).held_eq]

theorem formatSwitchLine_parity (p : FieldParity) (s : State) : (formatSwitchLine p s).parity = (beginPeriod p s).parity := by
  unfold formatSwitchLine postFormat postReference
  rw [(onlyLanes_lanesFormatNotices _ _).parity_eq, State.post_parity, State.post_parity, carryOutChange_parity, ownWorkAtChange_parity,
    formTake_parity, (onlyLanes_lanesFormatChange _ _).parity_eq]

theorem formatSwitchLine_curves (p : FieldParity) (s : State) : (formatSwitchLine p s).curves = (beginPeriod p s).curves := by
  unfold formatSwitchLine postFormat postReference
  rw [(onlyLanes_lanesFormatNotices _ _).curves_eq, State.post_curves, State.post_curves, carryOutChange_curves, ownWorkAtChange_curves,
    formTake_curves, (onlyLanes_lanesFormatChange _ _).curves_eq]

theorem formatSwitchLine_tally (p : FieldParity) (s : State) : (formatSwitchLine p s).tally = (beginPeriod p s).tally := by
  unfold formatSwitchLine postFormat postReference
  rw [(onlyLanes_lanesFormatNotices _ _).tally_eq, State.post_tally, State.post_tally, carryOutChange_tally, ownWorkAtChange_tally,
    formTake_tally, (onlyLanes_lanesFormatChange _ _).tally_eq]

theorem formatSwitchLine_report (p : FieldParity) (s : State) : (formatSwitchLine p s).report = (beginPeriod p s).report := by
  unfold formatSwitchLine postFormat postReference
  rw [(onlyLanes_lanesFormatNotices _ _).report_eq, State.post_report, State.post_report, carryOutChange_report, ownWorkAtChange_report,
    formTake_report, (onlyLanes_lanesFormatChange _ _).report_eq]

theorem formatSwitchLine_pending (p : FieldParity) (s : State) : (formatSwitchLine p s).pending = (beginPeriod p s).pending := by
  unfold formatSwitchLine postFormat postReference
  rw [(onlyLanes_lanesFormatNotices _ _).pending_eq, State.post_pending, State.post_pending, carryOutChange_pending, ownWorkAtChange_pending,
    formTake_pending, (onlyLanes_lanesFormatChange _ _).pending_eq]

theorem formatSwitchLine_ref (p : FieldParity) (s : State) :
    (formatSwitchLine p s).ref = { (beginPeriod p s).ref with change := none } := by
  unfold formatSwitchLine postFormat postReference
  rw [(onlyLanes_lanesFormatNotices _ _).ref_eq, State.post_ref, State.post_ref, carryOutChange_ref, ownWorkAtChange_ref,
    formTake_ref, (onlyLanes_lanesFormatChange _ _).ref_eq]

theorem formatSwitchLine_control (p : FieldParity) (s : State) :
    (formatSwitchLine p s).control =
      { takeList := [], schedule := [], packets := 0, excess := false, take := [], fill := s.control.takeList.length } := by
  unfold formatSwitchLine postFormat postReference
  rw [(onlyLanes_lanesFormatNotices _ _).control_eq, State.post_control, State.post_control, carryOutChange_control,
    ownWorkAtChange_control, formTake_frame, (onlyLanes_lanesFormatChange _ _).control_eq]
  rfl

theorem formatSwitchLine_meA (p : FieldParity) (s : State) :
    (formatSwitchLine p s).meA = (ownWorkAtChange s (formTake (lanesFormatChange s (beginPeriod p s)))).meA.engineReset := by
  unfold formatSwitchLine postFormat postReference
  rw [(onlyLanes_lanesFormatNotices _ _).meA_eq, State.post_meA, State.post_meA, carryOutChange_meA]

theorem formatSwitchLine_meB (p : FieldParity) (s : State) :
    (formatSwitchLine p s).meB = (ownWorkAtChange s (formTake (lanesFormatChange s (beginPeriod p s)))).meB.engineReset := by
  unfold formatSwitchLine postFormat postReference
  rw [(onlyLanes_lanesFormatNotices _ _).meB_eq, State.post_meB, State.post_meB, carryOutChange_meB]

theorem formatSwitchLine_store (p : FieldParity) (s : State) :
    (formatSwitchLine p s).store = (ownWorkAtChange s (formTake (lanesFormatChange s (beginPeriod p s)))).store.stopped.emptied := by
  unfold formatSwitchLine postFormat postReference
  rw [(onlyLanes_lanesFormatNotices _ _).store_eq, State.post_store, State.post_store, carryOutChange_store]

theorem formatSwitchLine_matrix (p : FieldParity) (s : State) :
    (formatSwitchLine p s).matrix = (ownWorkAtChange s (formTake (lanesFormatChange s (beginPeriod p s)))).matrix := by
  unfold formatSwitchLine postFormat postReference
  rw [(onlyLanes_lanesFormatNotices _ _).matrix_eq, State.post_matrix, State.post_matrix, carryOutChange_matrix]

/-! ### The held events -/

theorem actHeld_pending (e : HeldEvent) (s : State) : (actHeld e s).pending = s.pending := by
  unfold actHeld; split
  · exact (onlyRef_actStart ..).pending_eq
  · exact (onlyRef_actMissing ..).pending_eq
  · split
    · exact (onlyControl_collectCarrier ..).pending_eq
    · rfl

theorem foldl_actHeld_pending (l : List HeldEvent) : ∀ s : State,
    (l.foldl (fun t e => actHeld e t) s).pending = s.pending := by
  induction l with
  | nil => intro s; rfl
  | cons e l ih => intro s; rw [List.foldl_cons, ih, actHeld_pending]

end Sys2Proof.Machine
end

