-- ==== Sys2Proof/Laws/Schedule.lean ====
section
/-! SUPPORT. Picture numbers and the take unit's lists: where an entry is inserted, and that collection, the switch line and the
commands keep the lists within their limits and the schedule list in order. -/

namespace Sys2Proof.Machine

/-! ### Distances (R4) -/

theorem distance_eq (x y : PictureNumber) : distance x y = (y.toNat + 16777216 - x.toNat) % 16777216 := by
  simp only [distance, BitVec.toNat_sub]
  have hx := x.isLt
  have hy := y.isLt
  omega

theorem distance_lt (x y : PictureNumber) : distance x y < 16777216 :=
  (y - x).isLt

theorem distance_self (x : PictureNumber) : distance x x = 0 := by
  simp [distance]

theorem distance_eq_zero {x y : PictureNumber} (h : distance x y = 0) : y = x := by
  rw [distance_eq] at h
  have hx := x.isLt
  have hy := y.isLt
  apply BitVec.eq_of_toNat_eq
  omega

/-- The next picture number is nearer by one to every picture number but itself. -/
theorem distance_succ {x y : PictureNumber} (h : distance x y ≠ 0) : distance (x + 1) y = distance x y - 1 := by
  rw [distance_eq] at h
  rw [distance_eq, distance_eq, BitVec.toNat_add]
  have hx := x.isLt
  have hy := y.isLt
  have h1 : (1 : PictureNumber).toNat = 1 := rfl
  rw [h1]
  omega

theorem relation_future {x y : PictureNumber} (h : relation x y = .future) : 1 ≤ distance x y ∧ distance x y ≤ 8388607 := by
  unfold relation at h
  split at h
  · cases h
  · split at h
    · omega
    · cases h

/-! ### Insertion (R40) -/

/-- The list is ordered by distance, with no target past. -/
def orderedFrom (current : PictureNumber) (l : List ScheduleEntry) : Prop :=
  (∀ e ∈ l, distance current e.target ≤ 8388607) ∧
    l.Pairwise (fun e f => distance current e.target ≤ distance current f.target)

/-- An entry goes after every entry as near or nearer, at the first place before a farther one. -/
theorem insertEntry_split (current : PictureNumber) (e : ScheduleEntry) : ∀ l : List ScheduleEntry,
    ∃ before after : List ScheduleEntry, l = before ++ after ∧ insertEntry current e l = before ++ e :: after ∧
      (∀ f ∈ before, distance current f.target ≤ distance current e.target) ∧
      ∀ f ∈ after.head?, distance current e.target < distance current f.target := by
  intro l
  induction l with
  | nil => exact ⟨[], [], rfl, rfl, fun f hf => absurd hf (List.not_mem_nil), fun f hf => by cases hf⟩
  | cons g l ih =>
    unfold insertEntry
    split
    · rename_i hg
      obtain ⟨before, after, h1, h2, h3, h4⟩ := ih
      refine ⟨g :: before, after, by rw [h1]; rfl, by rw [h2]; rfl, fun f hf => ?_, h4⟩
      rcases List.mem_cons.mp hf with rfl | hf
      · exact hg
      · exact h3 f hf
    · rename_i hg
      refine ⟨[], g :: l, rfl, rfl, fun f hf => absurd hf (List.not_mem_nil), fun f hf => ?_⟩
      cases hf
      omega

theorem insertEntry_length (current : PictureNumber) (e : ScheduleEntry) (l : List ScheduleEntry) :
    (insertEntry current e l).length = l.length + 1 := by
  obtain ⟨before, after, h1, h2, _, _⟩ := insertEntry_split current e l
  rw [h2, h1]
  simp only [List.length_append, List.length_cons]
  omega

theorem insertEntry_ordered {current : PictureNumber} {e : ScheduleEntry} {l : List ScheduleEntry} (h : orderedFrom current l)
    (he : distance current e.target ≤ 8388607) : orderedFrom current (insertEntry current e l) := by
  obtain ⟨before, after, h1, h2, h3, h4⟩ := insertEntry_split current e l
  rw [h2]
  rw [h1] at h
  obtain ⟨ha, hb⟩ := h
  rw [List.pairwise_append] at hb
  have hafter : ∀ f ∈ after, distance current e.target ≤ distance current f.target := by
    intro f hf
    cases after with
    | nil => exact absurd hf (List.not_mem_nil)
    | cons g rest =>
      have hg : distance current e.target < distance current g.target := h4 g (by simp)
      rcases List.mem_cons.mp hf with rfl | hf
      · omega
      · have := (List.pairwise_cons.mp hb.2.1).1 f hf
        omega
  constructor
  · intro f hf
    rcases List.mem_append.mp hf with hf | hf
    · exact ha f (List.mem_append_left _ hf)
    · rcases List.mem_cons.mp hf with rfl | hf
      · exact he
      · exact ha f (List.mem_append_right _ hf)
  · rw [List.pairwise_append]
    refine ⟨hb.1, List.pairwise_cons.mpr ⟨hafter, hb.2.1⟩, fun x hx y hy => ?_⟩
    rcases List.mem_cons.mp hy with rfl | hy
    · exact h3 x hx
    · exact hb.2.2 x hx y hy

theorem orderedFrom_sublist {current : PictureNumber} {l l' : List ScheduleEntry} (h : orderedFrom current l)
    (hs : l'.Sublist l) : orderedFrom current l' :=
  ⟨fun e he => h.1 e (hs.subset he), h.2.sublist hs⟩

/-! ### Due entries (R42) -/

/-- Due entries leave from the front: what is left is what was ordered, without the entries of the present picture. -/
theorem dueEntries_schedule : ∀ (n : Nat) (s : State), s.control.schedule.length ≤ n → orderedFrom s.ref.picture s.control.schedule →
    (dueEntries n s).control.schedule.Sublist s.control.schedule ∧
      ∀ e ∈ (dueEntries n s).control.schedule, distance s.ref.picture e.target ≠ 0 := by
  intro n
  induction n with
  | zero =>
    intro s hn _
    have h0 : s.control.schedule = [] := List.eq_nil_of_length_eq_zero (Nat.le_zero.mp hn)
    exact ⟨List.Sublist.refl _, fun e he => by rw [dueEntries, h0] at he; exact absurd he (List.not_mem_nil)⟩
  | succ n ih =>
    intro s hn ho
    rw [dueEntries]
    cases hsch : s.control.schedule with
    | nil =>
      have hd : dueEntry s = s := by unfold dueEntry; rw [hsch]
      rw [hd]
      have := ih s (by rw [hsch]; exact Nat.zero_le _) ho
      rw [hsch] at this
      exact this
    | cons e rest =>
      rw [hsch] at hn ho
      by_cases he : e.target = s.ref.picture
      · have hd : dueEntry s =
            { s with
              control :=
                { s.control with schedule := rest, take := s.control.take ++ [{ command := e.command, late := false }] } } := by
          unfold dueEntry; rw [hsch]; simp [he]
        have := ih (dueEntry s) (by rw [hd]; exact Nat.le_of_succ_le_succ hn)
          (by rw [hd]; exact orderedFrom_sublist ho (List.sublist_cons_self ..))
        rw [hd] at this ⊢
        exact ⟨this.1.trans (List.sublist_cons_self ..), this.2⟩
      · have hd : dueEntry s = s := by unfold dueEntry; rw [hsch]; simp [he]
        have hall : ∀ f ∈ s.control.schedule, f.target ≠ s.ref.picture := by
          intro f hf
          rw [hsch] at hf
          rcases List.mem_cons.mp hf with rfl | hf
          · exact he
          · have hle := (List.pairwise_cons.mp ho.2).1 f hf
            intro hft
            rw [hft, distance_self] at hle
            exact he (distance_eq_zero (Nat.le_zero.mp hle))
        rw [hd, dueEntries_none n s hall, hsch]
        refine ⟨List.Sublist.refl _, fun f hf hz => ?_⟩
        exact hall f (hsch ▸ hf) (distance_eq_zero hz)

/-! ### The lists in order -/

/-- R36, R40: what the take unit's lists keep. -/
def State.listsSound (s : State) : Prop :=
  s.listsBounded ∧ s.scheduleOrdered

theorem listsSound_of_eq {s t : State} (hc : t.control = s.control) (hr : t.ref.picture = s.ref.picture) (h : s.listsSound) :
    t.listsSound := by
  unfold State.listsSound State.listsBounded State.scheduleOrdered nextPicture at *
  rw [hc, hr]
  exact h

/-- A schedule list that has lost entries is still in order. -/
theorem listsSound_of_sublist {s t : State} (h : s.listsSound) (hs : t.control.schedule.Sublist s.control.schedule)
    (hl : t.control.takeList = s.control.takeList) (hp : t.control.packets = s.control.packets)
    (hr : t.ref.picture = s.ref.picture) : t.listsSound := by
  obtain ⟨⟨h1, h2, h3⟩, h4, h5⟩ := h
  refine ⟨⟨by rw [hl]; exact h1, Nat.le_trans hs.length_le h2, by rw [hp]; exact h3⟩, ?_, ?_⟩
  · intro e he
    unfold nextPicture; rw [hr]
    exact h4 e (hs.subset he)
  · unfold nextPicture; rw [hr]
    exact h5.sublist hs

theorem doCancel_schedule (target : PictureNumber) (s : State) :
    (doCancel target s).control.schedule.Sublist s.control.schedule :=
  List.filter_sublist

theorem dueEntry_schedule (s : State) : (dueEntry s).control.schedule.Sublist s.control.schedule := by
  unfold dueEntry; split
  · exact List.Sublist.refl _
  · rename_i e rest he
    split
    · rw [he]; exact List.sublist_cons_self ..
    · exact List.Sublist.refl _

/-! ### Collection -/

theorem listsSound_appendTake (c : Command) (late : Bool) {s : State} (h : s.listsSound) : (appendTake c late s).listsSound := by
  unfold appendTake; split
  · rename_i hl
    obtain ⟨⟨_, h2, h3⟩, h4⟩ := h
    exact ⟨⟨by simp only [List.length_append, List.length_singleton]; omega, h2, h3⟩, h4⟩
  · exact listsSound_of_eq rfl rfl h

theorem listsSound_scheduleCommand {target : PictureNumber} (c : Command) {s : State} (h : s.listsSound)
    (ht : distance (nextPicture s) target ≤ 8388607) : (scheduleCommand target c s).listsSound := by
  unfold scheduleCommand; split
  · rename_i hl
    obtain ⟨⟨h1, _, h3⟩, h4⟩ := h
    exact ⟨⟨h1, by simp only [insertEntry_length]; omega, h3⟩,
      insertEntry_ordered (e := { target := target, command := c }) h4 ht⟩
  · exact listsSound_of_eq rfl rfl h

theorem listsSound_placeTimed (target : PictureNumber) (c : Command) {s : State} (h : s.listsSound) :
    (placeTimed target c s).listsSound := by
  unfold placeTimed; split
  · exact listsSound_appendTake _ _ h
  · rename_i hr; exact listsSound_scheduleCommand c h (relation_future hr).2
  · exact listsSound_appendTake _ _ h

theorem listsSound_collectAt (target : PictureNumber) (code count : Byte) (inner : List Byte) {s : State} (h : s.listsSound) :
    (collectAt target code count inner s).listsSound := by
  unfold collectAt; split
  · exact listsSound_of_eq rfl rfl h
  · split
    · exact listsSound_of_eq rfl rfl h
    · split
      · exact listsSound_of_eq rfl rfl h
      · exact listsSound_of_eq rfl rfl h
      · exact listsSound_placeTimed _ _ h

theorem listsSound_collectCommand (code : Byte) (params : List Byte) {s : State} (h : s.listsSound) :
    (collectCommand code params s).listsSound := by
  unfold collectCommand; split
  · unfold collectAtBytes; split
    · exact listsSound_collectAt _ _ _ _ h
    · exact listsSound_of_eq rfl rfl h
  · split
    · exact listsSound_of_eq rfl rfl h
    · exact listsSound_of_eq rfl rfl h
    · exact listsSound_appendTake _ _ h

theorem listsSound_cutPayload : ∀ (n : Nat) (bytes : List Byte) (s : State), s.listsSound → (cutPayload n bytes s).listsSound := by
  intro n
  induction n with
  | zero => intro bytes s h; exact h
  | succ n ih =>
    intro bytes s h
    unfold cutPayload
    split
    · exact h
    · exact h
    · exact listsSound_of_eq rfl rfl h
    · rename_i heq
      cases heq
      split
      · exact listsSound_of_eq rfl rfl h
      · exact ih _ _ (listsSound_collectCommand _ _ h)

theorem listsSound_collectCarrier (carrier : List Byte) {s : State} (h : s.listsSound) :
    (collectCarrier carrier s).listsSound := by
  unfold collectCarrier; split
  · exact h
  · split
    · unfold collectPacket; split
      · exact listsSound_of_eq rfl rfl h
      · split
        · rename_i hp
          refine listsSound_cutPayload _ _ _ ?_
          exact ⟨⟨h.1.1, h.1.2.1, hp⟩, h.2⟩
        · split
          · exact h
          · exact ⟨⟨h.1.1, h.1.2.1, h.1.2.2⟩, h.2⟩
    · exact h

/-! ### The commands of a take -/

theorem schedule_of_control_eq {s t : State} (h : t.control = s.control) : t.control.schedule.Sublist s.control.schedule :=
  h ▸ List.Sublist.refl _

theorem doReset_schedule (scope : Byte) (s : State) : (doReset scope s).control.schedule.Sublist s.control.schedule := by
  unfold doReset; split
  · exact List.nil_sublist _
  · unfold resetFull fullScope
    rw [(onlyLanes_lanesFullReset _).control_eq]
    exact List.nil_sublist _
  · exact List.Sublist.refl _

/-- No command adds to the schedule list. -/
theorem runCommand_schedule (c : Command) (s : State) :
    (runCommand c s).control.schedule.Sublist s.control.schedule := by
  cases c with
  | cancel _ => exact doCancel_schedule ..
  | cancelAll => exact List.nil_sublist _
  | reset scope => exact doReset_schedule scope s
  | laneSet _ _ _ => exact schedule_of_control_eq (onlyLanes_doLaneSet ..).control_eq
  | resync _ => exact schedule_of_control_eq (onlyLanes_doResync ..).control_eq
  | select _ _ _ => exact schedule_of_control_eq (onlyEngine_doSelect ..).control_eq
  | auxSelect _ => simp only [runCommand, doAuxSelect]; split <;> exact List.Sublist.refl _
  | matte _ _ _ => exact List.Sublist.refl _
  | loadCurve _ _ =>
    simp only [runCommand, doLoadCurve]; split
    · exact List.Sublist.refl _
    · simp only [loadCurve]; split <;> exact List.Sublist.refl _
  | wipeSet _ _ _ _ => exact schedule_of_control_eq (onlyEngine_doWipeSet ..).control_eq
  | keySet _ _ _ _ _ _ => exact schedule_of_control_eq (onlyEngine_doKeySet ..).control_eq
  | maskSet _ _ _ => exact schedule_of_control_eq (onlyEngine_doMaskSet ..).control_eq
  | transSet _ _ _ _ => exact schedule_of_control_eq (onlyEngine_doTransSet ..).control_eq
  | nextSet _ _ => exact schedule_of_control_eq (onlyEngine_doNextSet ..).control_eq
  | cut _ => exact schedule_of_control_eq (onlyEngine_doCut ..).control_eq
  | auto _ => exact schedule_of_control_eq (onlyEngine_doAuto ..).control_eq
  | lever _ _ => exact schedule_of_control_eq (onlyEngine_doLever ..).control_eq
  | layerOn _ _ => exact schedule_of_control_eq (onlyEngine_doLayerOn ..).control_eq
  | layerOff _ _ => exact schedule_of_control_eq (onlyEngine_doLayerOff ..).control_eq
  | layerRate _ _ _ => exact schedule_of_control_eq (onlyEngine_doLayerRate ..).control_eq
  | order _ _ _ _ _ => exact schedule_of_control_eq (onlyEngine_doOrder ..).control_eq
  | raise _ _ => exact schedule_of_control_eq (onlyEngine_doRaise ..).control_eq
  | lower _ _ => exact schedule_of_control_eq (onlyEngine_doLower ..).control_eq
  | loadKeyframes _ _ _ => exact schedule_of_control_eq (onlyEngine_doLoadKeyframes ..).control_eq
  | runSet _ _ _ _ => exact schedule_of_control_eq (onlyEngine_doRunSet ..).control_eq
  | run _ => exact schedule_of_control_eq (onlyEngine_doRun ..).control_eq
  | step _ => exact schedule_of_control_eq (onlyEngine_doStep ..).control_eq
  | hold _ => exact schedule_of_control_eq (onlyEngine_doHold ..).control_eq
  | abort _ => exact schedule_of_control_eq (onlyEngine_doAbort ..).control_eq
  | grab _ _ => exact schedule_of_control_eq (onlyStore_doGrab ..).control_eq
  | clear _ => exact schedule_of_control_eq (onlyStore_doClear ..).control_eq
  | noticeMask _ _ _ => simp only [runCommand, doNoticeMask]; split <;> exact List.Sublist.refl _
  | clearSummary => exact List.Sublist.refl _

theorem listsSound_runCommand (c : Command) {s : State} (h : s.listsSound) : (runCommand c s).listsSound :=
  have hb := onlyBlocks_runCommand c s
  listsSound_of_sublist h (runCommand_schedule c s) hb.takeList_eq hb.packets_eq (by rw [hb.ref_eq])

theorem listsSound_handOut (n : Nat) : ∀ {s : State}, s.listsSound → (handOut n s).listsSound := by
  induction n with
  | zero => intro s h; exact h
  | succ n ih =>
    intro s h
    unfold handOut; split
    · exact h
    · apply ih
      unfold runEntry
      apply listsSound_runCommand
      split <;> exact listsSound_of_sublist h (List.Sublist.refl _) rfl rfl rfl

/-- When a period begins and its due entries have left, the schedule list is in order from the next picture on. -/
theorem listsSound_formTake {s t : State} (h : s.listsSound) (hc : t.control.schedule = s.control.schedule)
    (hp : t.control.packets = 0) (hr : t.ref.picture = s.ref.picture + 1) : (formTake t).listsSound := by
  have ho : orderedFrom t.ref.picture t.control.schedule := by rw [hr, hc]; exact h.2
  have hd := dueEntries_schedule t.control.schedule.length t (Nat.le_refl _) ho
  have hs : (formTake t).control.schedule = (dueEntries t.control.schedule.length t).control.schedule := rfl
  have hf : orderedFrom t.ref.picture (formTake t).control.schedule := by rw [hs]; exact orderedFrom_sublist ho hd.1
  have hz : ∀ e ∈ (formTake t).control.schedule, distance t.ref.picture e.target ≠ 0 := by rw [hs]; exact hd.2
  have hlen : (formTake t).control.schedule.length ≤ 64 := by
    rw [hs]
    refine Nat.le_trans hd.1.length_le ?_
    rw [hc]; exact h.1.2.1
  refine ⟨⟨by rw [formTake_takeList]; exact Nat.zero_le _, hlen, by rw [formTake_packets, hp]; exact Nat.zero_le _⟩, ?_, ?_⟩
  · intro e he
    unfold nextPicture
    rw [formTake_ref, distance_succ (hz e he)]
    have := hf.1 e he
    omega
  · unfold nextPicture
    rw [formTake_ref]
    refine List.Pairwise.imp_of_mem ?_ hf.2
    intro e f he hf' hle
    rw [distance_succ (hz e he), distance_succ (hz f hf')]
    omega

end Sys2Proof.Machine
end

