-- ==== Sys2Proof/Laws/Banks.lean ====
section
/-! SUPPORT. A switch line with nothing to take: what the other blocks find after the lanes' work, and what the work of one bank
means for the other; the requests of a keyframe entry as rows carried out in turn. -/

namespace Sys2Proof.Machine

/-! ### A switch line with nothing to take -/

/-- A switch line with nothing to take is the blocks' own work, on the state that the lanes' work leaves. -/
theorem plainSwitchLine_nothing (p : FieldParity) (s : State) (hl : s.control.takeList = []) (ht : s.control.take = [])
    (hs : ∀ e ∈ s.control.schedule, e.target ≠ s.ref.picture + 1) :
    plainSwitchLine p s =
      ownWork s
        { lanesWork s (beginPeriod p s) with
          control := { (lanesWork s (beginPeriod p s)).control with fill := 0 } } := by
  have h1 := onlyLanes_lanesWork s (beginPeriod p s)
  unfold plainSwitchLine
  generalize lanesWork s (beginPeriod p s) = w at h1 ⊢
  have hn : formTake w = { w with control := { w.control with fill := 0 } } := by
    apply formTake_nothing
    · rw [h1.control_eq]; exact ht
    · rw [h1.control_eq]; exact hl
    · rw [h1.control_eq, h1.ref_eq]; exact hs
  rw [hn]
  unfold handOutTake ownWork
  have hft : w.control.take = [] := by rw [h1.control_eq]; exact ht
  rw [(onlyStore_storeWork _ _ _).control_eq, (onlyEngine_banksWork _).control_eq]
  show handOut w.control.take.length _ = _
  rw [hft]
  rfl

/-- Every lane after a switch line with nothing to take. -/
theorem plainSwitchLine_lane (p : FieldParity) (s : State) (hl : s.control.takeList = []) (ht : s.control.take = [])
    (hs : ∀ e ∈ s.control.schedule, e.target ≠ s.ref.picture + 1) (n : LaneId) :
    (plainSwitchLine p s).lane n = (lanesWork s (beginPeriod p s)).lane n := by
  rw [plainSwitchLine_nothing p s hl ht hs]
  unfold ownWork State.lane
  rw [(onlyStore_storeWork _ _ _).lanes_eq, (onlyEngine_banksWork _).lanes_eq]

/-- The banks and their buses after a switch line with nothing to take are those that the banks' own work leaves, from the banks
and buses before it. -/
theorem plainSwitchLine_banks (p : FieldParity) (s : State) (hl : s.control.takeList = []) (ht : s.control.take = [])
    (hs : ∀ e ∈ s.control.schedule, e.target ≠ s.ref.picture + 1) :
    ∃ formed : State,
      (∀ x : BankId, formed.me x = s.me x ∧ formed.buses x = s.buses x) ∧ formed.ref.picture = s.ref.picture + 1 ∧
        ∀ x : BankId,
          (plainSwitchLine p s).me x = (banksWork formed).me x ∧ (plainSwitchLine p s).buses x = (banksWork formed).buses x := by
  have h1 := onlyLanes_lanesWork s (beginPeriod p s)
  rw [plainSwitchLine_nothing p s hl ht hs]
  refine
    ⟨{ lanesWork s (beginPeriod p s) with control := { (lanesWork s (beginPeriod p s)).control with fill := 0 } },
      fun x => ⟨?_, ?_⟩, ?_, fun x => ⟨?_, ?_⟩⟩
  · cases x <;> simp only [State.me]
    · rw [h1.meA_eq]; rfl
    · rw [h1.meB_eq]; rfl
  · cases x <;> simp only [State.buses] <;> rw [h1.matrix_eq] <;> rfl
  · show (lanesWork s (beginPeriod p s)).ref.picture = _
    rw [h1.ref_eq]; rfl
  · unfold ownWork; cases x <;> simp only [State.me]
    · rw [(onlyStore_storeWork _ _ _).meA_eq]
    · rw [(onlyStore_storeWork _ _ _).meB_eq]
  · unfold ownWork; cases x <;> simp only [State.buses] <;> rw [(onlyStore_storeWork _ _ _).matrix_eq]

/-! ### What the work of one bank means for the other -/

/-- Bank `x` and its buses are left alone, but that its partner mark may have been set. -/
def Apart (x : BankId) (s t : State) : Prop :=
  t.me x = { s.me x with mark := (t.me x).mark } ∧ t.buses x = s.buses x ∧ ((s.me x).mark = true → (t.me x).mark = true)

theorem Apart.refl (x : BankId) (s : State) : Apart x s s := ⟨rfl, rfl, id⟩

theorem Apart.trans {x : BankId} {s t u : State} (h : Apart x s t) (k : Apart x t u) : Apart x s u :=
  ⟨by rw [k.1, h.1], by rw [k.2.1, h.2.1], fun hm => k.2.2 (h.2.2 hm)⟩

theorem Apart.foldl {x : BankId} {α : Type} {f : State → α → State} (h : ∀ s a, Apart x s (f s a)) (l : List α) :
    ∀ s, Apart x s (l.foldl f s) := by
  induction l with
  | nil => exact .refl _
  | cons a l ih => exact fun s => (h s a).trans (ih _)

theorem apart_post (x : BankId) (s : State) (kind : NoticeKind) (cls : NoticeClass) (subject : Subject) :
    Apart x s (s.post kind cls subject) := by
  cases x <;> exact ⟨rfl, rfl, id⟩

theorem apart_modifyMe (x : BankId) (s : State) (f : Me → Me) : Apart x s (s.modifyMe x.other f) := by
  cases x <;> exact ⟨rfl, rfl, id⟩

theorem apart_layerOn (x : BankId) (l : LayerId) (s : State) : Apart x s (layerOn x.other l s) := by
  unfold layerOn; split
  · exact apart_post ..
  · exact apart_modifyMe ..

theorem apart_layerOff (x : BankId) (l : LayerId) (s : State) : Apart x s (layerOff x.other l s) := by
  unfold layerOff; split
  · exact apart_post ..
  · exact apart_modifyMe ..

theorem apart_layerRequests (x : BankId) (e : Keyframe) (s : State) : Apart x s (layerRequests x.other e s) :=
  (Apart.foldl (fun t l => by split <;> first | exact apart_layerOn .. | exact .refl ..) _ _).trans
    (Apart.foldl (fun t l => by split <;> first | exact apart_layerOff .. | exact .refl ..) _ _)

theorem apart_presetRequest (x : BankId) (e : Keyframe) (s : State) : Apart x s (presetRequest x.other e s) := by
  unfold presetRequest; split
  · exact .refl ..
  · unfold placePreset; split
    · exact apart_post ..
    · cases x <;> exact ⟨rfl, rfl, id⟩

theorem apart_postMark (x : BankId) (s : State) : Apart x s (postMark x.other s) := by
  unfold postMark; split
  · exact apart_post ..
  · cases x <;> exact ⟨rfl, rfl, fun _ => rfl⟩

theorem apart_arriveEntry (x : BankId) (s : State) : Apart x s (arriveEntry x.other s) := by
  simp only [arriveEntry]; split
  · exact (((apart_layerRequests ..).trans (apart_presetRequest ..)).trans (apart_postMark ..)).trans (apart_modifyMe ..)
  · exact ((apart_layerRequests ..).trans (apart_presetRequest ..)).trans (apart_modifyMe ..)

theorem apart_endRun (x : BankId) (s : State) : Apart x s (endRun x.other s).1 := by
  simp only [endRun]; split
  · exact (apart_modifyMe ..).trans (apart_post ..)
  · exact ((apart_modifyMe ..).trans (apart_post ..)).trans (apart_modifyMe ..)

theorem apart_arrive (x : BankId) (s : State) : Apart x s (arrive x.other s).1 := by
  simp only [arrive]; split
  · exact apart_arriveEntry ..
  · split
    · exact (apart_modifyMe ..).trans (apart_arriveEntry ..)
    · exact apart_endRun ..

theorem apart_pauseAfterSegment (x : BankId) (s : State) : Apart x s (pauseAfterSegment x.other s).1 := by
  simp only [pauseAfterSegment]; split
  · exact (apart_modifyMe ..).trans (apart_modifyMe ..)
  · split
    · exact (apart_modifyMe ..).trans (apart_modifyMe ..)
    · exact (apart_modifyMe ..).trans (apart_endRun ..)

theorem apart_runStep (x : BankId) (s : State) : Apart x s (runStep x.other s).1 := by
  have play : ∀ holding : Bool, Apart x s (stepPlaying holding x.other s).1 := by
    intro holding
    simp only [stepPlaying]; split
    · exact apart_arrive ..
    · split
      · exact apart_modifyMe ..
      · split
        · exact apart_pauseAfterSegment ..
        · exact (apart_modifyMe ..).trans (apart_arrive ..)
  unfold runStep
  split
  · exact .refl ..
  · exact play _
  · exact .refl ..
  · exact play _
  · exact .refl ..

theorem apart_complete (x : BankId) (how : DoneBy) (s : State) : Apart x s (complete x.other how s) := by
  unfold complete; dsimp only
  refine Apart.trans ?_ ((apart_modifyMe ..).trans (apart_post ..))
  split
  · cases x <;> exact ⟨rfl, rfl, id⟩
  · exact .refl ..

theorem apart_driveStep (x : BankId) (s : State) : Apart x s (driveStep x.other s).1 := by
  unfold driveStep; split
  · exact .refl ..
  · exact .refl ..
  · split
    · exact apart_modifyMe ..
    · exact .refl ..
  · exact apart_runStep ..

theorem apart_bankOwn (x : BankId) (s : State) : Apart x s (bankOwn x.other s) := by
  unfold bankOwn takeDue; split
  · exact (apart_modifyMe ..).trans (apart_driveStep ..)
  · exact ((apart_modifyMe ..).trans (apart_driveStep ..)).trans (apart_complete ..)

theorem apart_syncRelease (x : BankId) (s : State) : Apart x s (syncRelease x.other s) := by
  unfold syncRelease; dsimp only
  split <;> try exact .refl ..
  split
  · exact apart_modifyMe ..
  · exact .refl ..

/-- The banks' own work as bank `x` sees it: its own step and the check of its mark, with the other bank's work around them. -/
theorem banksWork_seen (x : BankId) (s : State) :
    ∃ u v : State, Apart x s u ∧ Apart x (bankOwn x u) v ∧ Apart x (syncRelease x v) (banksWork s) := by
  cases x with
  | a => exact ⟨s, _, .refl .., apart_bankOwn .a _, apart_syncRelease .a _⟩
  | b => exact ⟨_, _, apart_bankOwn .b s, apart_syncRelease .b _, .refl ..⟩

/-- A run that is not WAITING has no mark to check. -/
theorem syncRelease_of_not_waiting (x : BankId) (s : State) (h : ∀ r, (s.me x).run.state ≠ .waiting r) : syncRelease x s = s := by
  unfold syncRelease; dsimp only
  split <;> first | rfl | skip
  rename_i r hr
  exact absurd hr (h r)

/-- The banks' own work for a bank that does not stand WAITING after its own step. -/
theorem banksWork_of_not_waiting (x : BankId) (s : State)
    (h : ∀ u : State, u.me x = { s.me x with mark := (u.me x).mark } → ∀ r, ((bankOwn x u).me x).run.state ≠ .waiting r) :
    ∃ u : State, Apart x s u ∧ Apart x (bankOwn x u) (banksWork s) := by
  obtain ⟨u, v, h1, h2, h3⟩ := banksWork_seen x s
  refine ⟨u, h1, ?_⟩
  rw [syncRelease_of_not_waiting x v (fun r e => h u h1.1 r (by rw [h2.1] at e; exact e))] at h3
  exact h2.trans h3

/-! ### The requests of an entry as rows -/

/-- Two lists of rows carried out in turn. -/
theorem carryOut_append (l : List Instr) : ∀ (k : List Instr) (s : State), carryOut (l ++ k) s = carryOut k (carryOut l s) := by
  induction l with
  | nil => intro k s; rfl
  | cons c l ih =>
    intro k s
    obtain ⟨u, hu⟩ := exec_next c s
    simp only [List.cons_append, carryOut, hu]
    exact ih k u

/-- Rows that each carry out one operation, in turn. -/
theorem carryOut_map {α : Type} (f : α → Instr) (g : α → State → State)
    (hf : ∀ a (s : State), s.resetPin = false → exec (f a) s = .next (g a s))
    (hp : ∀ a (s : State), (g a s).resetPin = s.resetPin) (l : List α) :
    ∀ s : State, s.resetPin = false → carryOut (l.map f) s = l.foldl (fun t a => g a t) s := by
  induction l with
  | nil => intro s _; rfl
  | cons a l ih =>
    intro s hs
    simp only [List.map_cons, carryOut, hf a s hs, List.foldl_cons]
    exact ih _ (by rw [hp, hs])

/-- R123, R60: the requests of an entry are the rows of the same names. -/
theorem carryOut_requests (bank : BankId) (e : Keyframe) (s : State) (hs : s.resetPin = false) :
    carryOut
        ((allLayers.filter (inLayerSet e.layerOn)).map (fun l => .layerOn (bankByte bank) (layerByte l)) ++
            (allLayers.filter (inLayerSet e.layerOff)).map (fun l => .layerOff (bankByte bank) (layerByte l)) ++
          e.preset.toList.map (fun code => .select (bankByte bank) 1 code))
        s =
      presetRequest bank e (layerRequests bank e s) := by
  have hl : ∀ l : LayerId, readLayer (layerByte l) = some l := by decide
  have hb : readBank (bankByte bank) = some bank := by cases bank <;> decide
  have h1 : readBus 1#8 = some .b := by decide
  rw [carryOut_append, carryOut_append,
    carryOut_map (fun l => .layerOn (bankByte bank) (layerByte l)) (layerOn bank)
      (fun l t ht => by rw [exec_layerOn _ _ ht]; simp [doLayerOn, hb, hl]) (fun l t => (onlyEngine_layerOn bank l t).resetPin_eq)
      _ _ hs,
    List.foldl_filter,
    carryOut_map (fun l => .layerOff (bankByte bank) (layerByte l)) (layerOff bank)
      (fun l t ht => by rw [exec_layerOff _ _ ht]; simp [doLayerOff, hb, hl])
      (fun l t => (onlyEngine_layerOff bank l t).resetPin_eq) _ _
      (by
        rw [(OnlyEngine.foldl (fun t l => ?_) _ _).resetPin_eq]
        · exact hs
        · split
          · exact onlyEngine_layerOn ..
          · exact .refl _),
    List.foldl_filter,
    carryOut_map (fun code => .select (bankByte bank) 1 code) (placePreset bank)
      (fun code t ht => by rw [exec_select _ _ _ ht]; simp [doSelect, hb, h1, placePreset])
      (fun code t => (onlyEngine_placePreset bank code t).resetPin_eq) _ _
      (by
        show (layerRequests bank e s).resetPin = false
        rw [(onlyEngine_layerRequests bank e s).resetPin_eq]; exact hs)]
  unfold presetRequest
  cases e.preset <;> rfl

/-- Every bank keeps its record but for layer states. -/
def OnlyLayers (s t : State) : Prop :=
  ∀ x : BankId, t.me x = { s.me x with layers := (t.me x).layers }

theorem OnlyLayers.refl (s : State) : OnlyLayers s s := fun _ => rfl

theorem OnlyLayers.trans {s t u : State} (h : OnlyLayers s t) (k : OnlyLayers t u) : OnlyLayers s u := fun x => by rw [k x, h x]

theorem OnlyLayers.foldl {α : Type} {f : State → α → State} (h : ∀ s a, OnlyLayers s (f s a)) (l : List α) :
    ∀ s, OnlyLayers s (l.foldl f s) := by
  induction l with
  | nil => exact .refl
  | cons a l ih => exact fun s => (h s a).trans (ih _)

theorem onlyLayers_layerOn (bank : BankId) (l : LayerId) (s : State) : OnlyLayers s (layerOn bank l s) := by
  intro x; unfold layerOn; split
  · cases x <;> rfl
  · cases x <;> cases bank <;> rfl

theorem onlyLayers_layerOff (bank : BankId) (l : LayerId) (s : State) : OnlyLayers s (layerOff bank l s) := by
  intro x; unfold layerOff; split
  · cases x <;> rfl
  · cases x <;> cases bank <;> rfl

theorem onlyLayers_layerRequests (bank : BankId) (e : Keyframe) (s : State) : OnlyLayers s (layerRequests bank e s) :=
  (OnlyLayers.foldl (fun t l => by split <;> first | exact onlyLayers_layerOn _ _ _ | exact .refl _) _ _).trans
    (OnlyLayers.foldl (fun t l => by split <;> first | exact onlyLayers_layerOff _ _ _ | exact .refl _) _ _)

theorem onlyLayers_presetRequest (bank : BankId) (e : Keyframe) (s : State) : OnlyLayers s (presetRequest bank e s) := by
  intro x; unfold presetRequest; split
  · rfl
  · unfold placePreset; split
    · cases x <;> rfl
    · cases x <;> cases bank <;> rfl

/-- R60, R123: the requests of an entry change layer states and bus B alone. -/
theorem onlyLayers_requests (bank : BankId) (e : Keyframe) (s : State) :
    OnlyLayers s (presetRequest bank e (layerRequests bank e s)) :=
  (onlyLayers_layerRequests bank e s).trans (onlyLayers_presetRequest bank e _)

end Sys2Proof.Machine
end

