-- ==== Sys2Proof/Laws/Bytes.lean ====
section
/-! SUPPORT. How the numbers, words and keyframe records of a command are read from bytes, against the bytes they are sent in. -/

namespace Sys2Proof.Machine

/-! ### Numbers (R182) -/

theorem toNat_append_bytes {m : Nat} (a : BitVec m) (b : Byte) : (a ++ b).toNat = a.toNat * 256 + b.toNat := by
  rw [BitVec.toNat_append, ← Nat.shiftLeft_add_eq_or_of_lt b.isLt, Nat.shiftLeft_eq]

theorem word16_toNat (hi lo : Byte) : (word16 hi lo).toNat = hi.toNat * 256 + lo.toNat :=
  toNat_append_bytes hi lo

theorem picture24_toNat (hi mid lo : Byte) :
    (picture24 hi mid lo).toNat = (hi.toNat * 256 + mid.toNat) * 256 + lo.toNat :=
  (toNat_append_bytes (hi ++ mid) lo).trans (by rw [toNat_append_bytes])

theorem byteOf_toNat (n : Nat) : (byteOf n).toNat = n % 256 :=
  BitVec.toNat_ofNat ..

theorem byteOf_eq_iff (n : Nat) (b : Byte) : byteOf n = b ↔ n % 256 = b.toNat := by
  rw [← BitVec.toNat_inj, byteOf_toNat]

/-- A 2-byte number is read from exactly the bytes it is sent in. -/
theorem word16_eq_iff (hi lo : Byte) (w : Word16) : word16 hi lo = w ↔ wordBytes w = [hi, lo] := by
  rw [← BitVec.toNat_inj, word16_toNat]
  simp only [wordBytes, List.cons.injEq, and_true, byteOf_eq_iff]
  have := hi.isLt; have := lo.isLt; have := w.isLt
  omega

/-- A picture number is read from exactly the bytes it is sent in. -/
theorem picture24_eq_iff (hi mid lo : Byte) (p : PictureNumber) :
    picture24 hi mid lo = p ↔
      [byteOf (p.toNat / 65536), byteOf (p.toNat / 256 % 256), byteOf (p.toNat % 256)] = [hi, mid, lo] := by
  rw [← BitVec.toNat_inj, picture24_toNat]
  simp only [List.cons.injEq, and_true, byteOf_eq_iff]
  have := hi.isLt; have := mid.isLt; have := lo.isLt; have := p.isLt
  omega

theorem wordBytes_word16 (hi lo : Byte) : wordBytes (word16 hi lo) = [hi, lo] :=
  (word16_eq_iff hi lo _).mp rfl

/-- The two bytes of a number. -/
theorem wordBytes_split (w : Word16) : ∃ hi lo : Byte, wordBytes w = [hi, lo] ∧ word16 hi lo = w :=
  ⟨_, _, rfl, (word16_eq_iff _ _ w).mpr rfl⟩

/-! ### Numbers laid end to end -/

theorem readWords_eq_some_iff : ∀ (bytes : List Byte) (words : List Word16),
    readWords bytes = some words ↔ bytes = words.flatMap wordBytes := by
  intro bytes
  induction bytes using readWords.induct with
  | case1 =>
    intro words
    cases words with
    | nil => simp [readWords]
    | cons w words => simp [readWords, wordBytes]
  | case2 b =>
    intro words
    cases words with
    | nil => simp [readWords]
    | cons w words => simp [readWords, wordBytes]
  | case3 hi lo rest ih =>
    intro words
    cases words with
    | nil => simp [readWords]
    | cons w words =>
      obtain ⟨h, l, hb, hw⟩ := wordBytes_split w
      simp only [readWords, Option.map_eq_some_iff, List.cons.injEq, List.flatMap_cons, hb, List.cons_append, List.nil_append]
      constructor
      · rintro ⟨ws, h1, h2, rfl⟩
        have h3 := (word16_eq_iff hi lo w).mp h2
        rw [hb] at h3
        simp only [List.cons.injEq, and_true] at h3
        exact ⟨h3.1.symm, h3.2.symm, (ih _).mp h1⟩
      · rintro ⟨rfl, rfl, h1⟩
        exact ⟨words, (ih _).mpr h1, hw, rfl⟩

/-! ### Keyframe records (R186) -/

theorem fieldsByte_toNat (first second third : Bool) :
    (fieldsByte first second third).toNat = (if first then 1 else 0) + (if second then 2 else 0) + (if third then 4 else 0) := by
  cases first <;> cases second <;> cases third <;> rfl

/-- A fields byte up to 7 is that of its bits. -/
theorem fieldsByte_of_le : ∀ b : Byte, b.toNat ≤ 7 → fieldsByte (b.getLsbD 0) (b.getLsbD 1) (b.getLsbD 2) = b := by
  decide +kernel

theorem fieldsByte_bits (first second third : Bool) :
    (fieldsByte first second third).toNat ≤ 7 ∧ (fieldsByte first second third).getLsbD 0 = first ∧
      (fieldsByte first second third).getLsbD 1 = second ∧ (fieldsByte first second third).getLsbD 2 = third := by
  cases first <;> cases second <;> cases third <;> decide

theorem readOptional_eq_some_iff (present : Bool) (bytes : List Byte) (x : Option Byte) (rest : List Byte) :
    readOptional present bytes = some (x, rest) ↔ present = x.isSome ∧ bytes = x.toList ++ rest := by
  cases present <;> cases x <;> cases bytes <;> simp [readOptional, eq_comm]

/-- A record is read from exactly the bytes it is sent in, with the bytes that follow. -/
theorem readRecord_eq_some_iff (bytes : List Byte) (r : KeyframeBytes) (rest : List Byte) :
    readRecord bytes = some (r, rest) ↔ bytes = recordBytes r ++ rest := by
  constructor
  · intro h
    unfold readRecord at h
    split at h
    · rename_i t1 t0 d1 d0 sync fields tail
      split at h
      · cases h
      · rename_i hf
        split at h
        · cases h
        · rename_i on rest1 h1
          split at h
          · cases h
          · rename_i off rest2 h2
            split at h
            · cases h
            · rename_i preset rest3 h3
              cases h
              obtain ⟨e1, b1⟩ := (readOptional_eq_some_iff ..).mp h1
              obtain ⟨e2, b2⟩ := (readOptional_eq_some_iff ..).mp h2
              obtain ⟨e3, b3⟩ := (readOptional_eq_some_iff ..).mp h3
              have hb := fieldsByte_of_le fields (by omega)
              rw [e1, e2, e3] at hb
              simp only [recordBytes, wordBytes_word16, hb]
              simp [b1, b2, b3]
    · cases h
  · rintro rfl
    obtain ⟨t1, t0, ht, hT⟩ := wordBytes_split r.target
    obtain ⟨d1, d0, hd, hD⟩ := wordBytes_split r.duration
    obtain ⟨h7, b0, b1, b2⟩ := fieldsByte_bits r.layerOn.isSome r.layerOff.isSome r.preset.isSome
    simp only [recordBytes, ht, hd, List.cons_append, List.nil_append, List.append_assoc, readRecord]
    rw [if_neg (by omega), b0, b1, b2, (readOptional_eq_some_iff _ _ r.layerOn _).mpr ⟨rfl, rfl⟩]
    simp only
    rw [(readOptional_eq_some_iff _ _ r.layerOff _).mpr ⟨rfl, rfl⟩]
    simp only
    rw [(readOptional_eq_some_iff _ _ r.preset _).mpr ⟨rfl, rfl⟩]
    simp only [hT, hD]

theorem recordBytes_length (r : KeyframeBytes) : 6 ≤ (recordBytes r).length := by
  simp only [recordBytes, wordBytes, List.length_append, List.length_cons, List.length_nil]; omega

/-- Records are read from exactly the bytes they are sent in, and there is at least one. -/
theorem readRecords_eq_some_iff : ∀ (n : Nat) (bytes : List Byte) (records : List KeyframeBytes), bytes.length ≤ n →
    (readRecords n bytes = some records ↔ records ≠ [] ∧ bytes = records.flatMap recordBytes) := by
  intro n
  induction n with
  | zero =>
    intro bytes records hn
    have hb : bytes = [] := List.length_eq_zero_iff.mp (by omega)
    subst hb
    cases records with
    | nil => simp [readRecords]
    | cons r records =>
      have := recordBytes_length r
      constructor
      · intro h; cases h
      · rintro ⟨-, h⟩
        have h := congrArg List.length h
        simp only [List.flatMap_cons, List.length_append, List.length_nil] at h
        omega
  | succ n ih =>
    intro bytes records hn
    unfold readRecords
    cases hr : readRecord bytes with
    | none =>
      simp only
      constructor
      · intro h; cases h
      · rintro ⟨hne, hb⟩
        cases records with
        | nil => exact absurd rfl hne
        | cons r records =>
          rw [(readRecord_eq_some_iff _ r (records.flatMap recordBytes)).mpr (by simpa using hb)] at hr
          cases hr
    | some pair =>
      obtain ⟨r, tail⟩ := pair
      have hb := (readRecord_eq_some_iff ..).mp hr
      cases tail with
      | nil =>
        simp only [Option.some.injEq]
        constructor
        · rintro rfl; exact ⟨by simp, by simpa using hb⟩
        · rintro ⟨hne, h⟩
          cases records with
          | nil => exact absurd rfl hne
          | cons q records =>
            rw [(readRecord_eq_some_iff _ q (records.flatMap recordBytes)).mpr (by simpa using h)] at hr
            simp only [Option.some.injEq, Prod.mk.injEq] at hr
            obtain ⟨rfl, h0⟩ := hr
            cases records with
            | nil => rfl
            | cons q' records =>
              have := recordBytes_length q'
              have h0 := congrArg List.length h0
              simp only [List.flatMap_cons, List.length_append, List.length_nil] at h0
              omega
      | cons next rest =>
        simp only [Option.map_eq_some_iff]
        have hl : (next :: rest).length ≤ n := by
          have := recordBytes_length r
          have h := congrArg List.length hb
          simp only [List.length_append] at h
          simp only [List.length_cons] at *
          omega
        constructor
        · rintro ⟨rs, h1, rfl⟩
          obtain ⟨-, h2⟩ := (ih _ rs hl).mp h1
          exact ⟨by simp, by rw [hb, h2]; simp⟩
        · rintro ⟨hne, h⟩
          cases records with
          | nil => exact absurd rfl hne
          | cons q records =>
            rw [(readRecord_eq_some_iff _ q (records.flatMap recordBytes)).mpr (by simpa using h)] at hr
            simp only [Option.some.injEq, Prod.mk.injEq] at hr
            obtain ⟨rfl, h0⟩ := hr
            refine ⟨records, (ih _ records hl).mpr ⟨?_, h0.symm⟩, rfl⟩
            rintro rfl; simp at h0

end Sys2Proof.Machine
end

