-- ==== Sys2Proof/Laws/Drive.lean ====
section
/-! SUPPORT. P and the run record: the bounds of the two position formulas, and that the banks' own work and the commands of a bank
keep the drive state, P and the run record in agreement. -/

namespace Sys2Proof.Machine

/-! ### Position formulas -/

theorem autoPosition_le {start span counter : Nat} (hs : start ≤ 4096) (hk : counter ≤ span) :
    autoPosition start span counter ≤ 4096 := by
  unfold autoPosition
  have h : (4096 - start) * counter / span ≤ 4096 - start := by
    rcases Nat.eq_zero_or_pos span with h0 | h0
    · subst h0; simp
    · exact Nat.div_le_of_le_mul (by rw [Nat.mul_comm span]; exact Nat.mul_le_mul_left _ hk)
  omega

/-- R139: the position of a segment lies between its start and its target. -/
theorem segmentPosition_bounds (start target counter duration : Nat) (hd : 1 ≤ duration) (hk : counter ≤ duration) :
    (segmentPosition start target counter duration : Int) =
        start + Int.tdiv (((target : Int) - start) * counter) duration ∧
      min start target ≤ segmentPosition start target counter duration ∧
      segmentPosition start target counter duration ≤ max start target := by
  have hd' : (0 : Int) < duration := by omega
  rcases Nat.le_total start target with h | h
  · have hn : Int.tdiv (((target : Int) - start) * counter) duration = (((target - start) * counter / duration : Nat) : Int) := by
      rw [show ((target : Int) - start) = ((target - start : Nat) : Int) by omega, ← Int.natCast_mul, ← Int.ofNat_tdiv]
    have hb : (target - start) * counter / duration ≤ target - start :=
      Nat.div_le_of_le_mul (by rw [Nat.mul_comm duration]; exact Nat.mul_le_mul_left _ hk)
    unfold segmentPosition
    rw [hn, Nat.min_eq_left h, Nat.max_eq_right h]
    generalize (target - start) * counter / duration = q at hb
    omega
  · have hn : Int.tdiv (((target : Int) - start) * counter) duration = -(((start - target) * counter / duration : Nat) : Int) := by
      rw [show ((target : Int) - start) = -((start - target : Nat) : Int) by omega, Int.neg_mul, ← Int.natCast_mul,
        Int.neg_tdiv, ← Int.ofNat_tdiv]
    have hb : (start - target) * counter / duration ≤ start - target :=
      Nat.div_le_of_le_mul (by rw [Nat.mul_comm duration]; exact Nat.mul_le_mul_left _ hk)
    unfold segmentPosition
    rw [hn, Nat.min_eq_right h, Nat.max_eq_left h]
    generalize (start - target) * counter / duration = q at hb
    omega

theorem segmentPosition_le {start target counter duration : Nat} (hs : start ≤ 4096) (ht : target ≤ 4096) (hd : 1 ≤ duration)
    (hk : counter ≤ duration) : segmentPosition start target counter duration ≤ 4096 := by
  have := (segmentPosition_bounds start target counter duration hd hk).2.2
  omega

/-- R139: a segment ends at its target. -/
theorem segmentPosition_end (start target duration : Nat) (hd : 1 ≤ duration) :
    segmentPosition start target duration duration = target := by
  unfold segmentPosition
  rw [Int.mul_tdiv_cancel _ (by omega : (duration : Int) ≠ 0)]
  omega

/-! ### Entries -/

theorem Me.entry_sound (m : Me) (h : ∀ i : Fin 32, (m.table[i]).sound) (i : Nat) : (m.entry i).sound := by
  unfold Me.entry
  rcases Nat.lt_or_ge i 32 with hi | hi
  · rw [show m.table.getD i Keyframe.powerOn = m.table[(⟨i, hi⟩ : Fin 32)] by simp [Vector.getD, hi]]
    exact h _
  · rw [show m.table.getD i Keyframe.powerOn = Keyframe.powerOn by
      simp [Vector.getD, Nat.not_lt.mpr hi]]
    exact ⟨by decide, by decide, by decide⟩

/-! ### The record of a bank -/

/-- What the drive, P and the run rest on: rate, count, loops, passes and the table. -/
def Me.driveBase (m : Me) : Prop :=
  1 ≤ m.rate ∧ m.rate ≤ 999 ∧ m.count ≤ 32 ∧ m.loops ≤ 63 ∧ m.run.passes ≤ 63 ∧ ∀ i : Fin 32, (m.table[i]).sound

theorem Me.driveSound.base {m : Me} (h : m.driveSound) : m.driveBase :=
  ⟨h.1, h.2.1, h.2.2.2.2.1, h.2.2.2.2.2.1, h.2.2.2.2.2.2.2.1, h.2.2.2.2.2.2.2.2⟩

theorem Me.driveSound.idle {m : Me} (h : m.driveSound) (hd : m.drive ≠ .keyed) : m.run = Run.idle := by
  have hs : m.run.state = .idle := Decidable.byContradiction (fun hn => hd (h.2.2.2.1.mpr hn))
  have := h.2.2.2.2.2.2.1
  unfold Me.runSound at this
  rw [hs] at this
  exact this

theorem Me.driveSound.keyed {m : Me} (h : m.driveSound) (hd : m.run.state ≠ .idle) : m.drive = .keyed :=
  h.2.2.2.1.mpr hd

theorem Me.driveSound.position_le {m : Me} (h : m.driveSound) : m.position ≤ 4096 := by
  have := h.2.2.1
  unfold Me.positionSound at this
  split at this
  · omega
  · exact this.2
  · rw [this.2.2.2.2]; exact autoPosition_le this.1 this.2.2.1
  · exact this

/-- Two records that agree on what the drive reads are sound together. -/
theorem Me.driveSound_congr {m m' : Me} (h : m.driveSound) (h1 : m'.rate = m.rate) (h2 : m'.drive = m.drive)
    (h3 : m'.position = m.position) (h4 : m'.count = m.count) (h5 : m'.loops = m.loops) (h6 : m'.run = m.run)
    (h7 : m'.table = m.table) : m'.driveSound := by
  have he : ∀ i, m'.entry i = m.entry i := fun i => by unfold Me.entry; rw [h7]
  unfold Me.driveSound Me.positionSound Me.runSound at *
  simp only [h1, h2, h3, h4, h5, h6, h7, he]
  exact h

/-- A bank at rest, with a run that is over. -/
theorem Me.driveSound_rest {m : Me} (h : m.driveBase) (hr : m.run = Run.idle) (hd : m.drive = .rest) (hp : m.position = 0) :
    m.driveSound := by
  refine ⟨h.1, h.2.1, ?_, ?_, h.2.2.1, h.2.2.2.1, ?_, h.2.2.2.2.1, h.2.2.2.2.2⟩
  · unfold Me.positionSound; rw [hd]; exact hp
  · rw [hd, hr]; exact ⟨fun e => (by cases e), fun e => absurd rfl e⟩
  · unfold Me.runSound; rw [hr]; rfl

/-- A bank in MANUAL, with a run that is over. -/
theorem Me.driveSound_manual {m : Me} (h : m.driveBase) (hr : m.run = Run.idle) (hd : m.drive = .manual)
    (hp : 1 ≤ m.position) (hp' : m.position ≤ 4096) : m.driveSound := by
  refine ⟨h.1, h.2.1, ?_, ?_, h.2.2.1, h.2.2.2.1, ?_, h.2.2.2.2.1, h.2.2.2.2.2⟩
  · unfold Me.positionSound; rw [hd]; exact ⟨hp, hp'⟩
  · rw [hd, hr]; exact ⟨fun e => (by cases e), fun e => absurd rfl e⟩
  · unfold Me.runSound; rw [hr]; rfl

/-- A bank in AUTO, with a run that is over. -/
theorem Me.driveSound_auto {m : Me} (h : m.driveBase) (hr : m.run = Run.idle) {start span k : Nat}
    (hd : m.drive = .auto start span k) (hs : start ≤ 4096) (hk : 1 ≤ k) (hk' : k ≤ span) (hspan : span ≤ 999)
    (hp : m.position = autoPosition start span k) : m.driveSound := by
  refine ⟨h.1, h.2.1, ?_, ?_, h.2.2.1, h.2.2.2.1, ?_, h.2.2.2.2.1, h.2.2.2.2.2⟩
  · unfold Me.positionSound; rw [hd]; exact ⟨hs, hk, hk', hspan, hp⟩
  · rw [hd, hr]; exact ⟨fun e => (by cases e), fun e => absurd rfl e⟩
  · unfold Me.runSound; rw [hr]; rfl

/-- A bank in KEYED. -/
theorem Me.driveSound_keyed {m : Me} (h : m.driveBase) (hd : m.drive = .keyed) (hp : m.position ≤ 4096)
    (hi : m.run.state ≠ .idle) (hr : m.runSound) : m.driveSound := by
  refine ⟨h.1, h.2.1, ?_, ?_, h.2.2.1, h.2.2.2.1, hr, h.2.2.2.2.1, h.2.2.2.2.2⟩
  · unfold Me.positionSound; rw [hd]; exact hp
  · rw [hd]; exact ⟨fun _ => hi, fun _ => rfl⟩

theorem driveSound_completed {m : Me} (h : m.driveBase) (hr : m.run = Run.idle) (how : DoneBy) : (m.completed how).driveSound :=
  Me.driveSound_rest h hr rfl rfl

theorem driveSound_resolved {m : Me} (h : m.driveBase) (hr : m.run = Run.idle) (hp : m.position ≤ 4096) :
    m.resolved.driveSound := by
  by_cases h0 : m.position = 0
  · exact Me.driveSound_rest h hr (by simp [Me.resolved, h0]) h0
  · exact Me.driveSound_manual h hr (by simp [Me.resolved, h0]) (Nat.one_le_iff_ne_zero.mpr h0) hp

/-- The states in which a run plays. -/
def RunState.plays (r : RunState) : Prop :=
  r = .running ∨ r = .holding

theorem runSound_of_plays {m : Me} (h : m.run.state.plays) (h1 : m.run.index ≤ 32) (h2 : m.run.start ≤ 4096)
    (h3 : m.run.counter ≤ (m.entry m.run.index).duration) (h4 : m.run.counter ≠ 0 → m.run.index < m.count) : m.runSound := by
  unfold Me.runSound
  rcases h with h | h <;> rw [h] <;> exact ⟨h1, h2, h3, h4⟩

theorem Me.driveSound.playing {m : Me} (h : m.driveSound) (hp : m.run.state.plays) :
    m.run.index ≤ 32 ∧ m.run.start ≤ 4096 ∧ m.run.counter ≤ (m.entry m.run.index).duration ∧
      (m.run.counter ≠ 0 → m.run.index < m.count) := by
  have := h.2.2.2.2.2.2.1
  unfold Me.runSound at this
  rcases hp with hp | hp <;> rw [hp] at this <;> exact this

theorem plays_ne_idle {r : RunState} (h : r.plays) : r ≠ .idle := by
  rcases h with h | h <;> rw [h] <;> exact fun e => by cases e

/-- R139: an entry's segment begins. -/
theorem driveSound_segmentBegun {m : Me} (h : m.driveBase) (hd : m.drive = .keyed) (hp : m.position ≤ 4096)
    (hplay : m.run.state.plays) (hi : m.run.index < m.count) : m.segmentBegun.driveSound := by
  have he := Me.entry_sound m h.2.2.2.2.2 m.run.index
  have hc := h.2.2.1
  refine Me.driveSound_keyed (m := m.segmentBegun) h hd ?_ (plays_ne_idle hplay) ?_
  · exact segmentPosition_le hp he.1 he.2.1 he.2.1
  · exact runSound_of_plays (m := m.segmentBegun) hplay (Nat.le_trans (Nat.le_of_lt hi) hc) hp he.2.1 (fun _ => hi)

theorem driveSound_segmentAdvanced {m : Me} (h : m.driveSound) (hplay : m.run.state.plays) (hc : m.run.counter ≠ 0)
    (hk : m.run.counter < (m.entry m.run.index).duration) : m.segmentAdvanced.driveSound := by
  have he := Me.entry_sound m h.base.2.2.2.2.2 m.run.index
  have hr := h.playing hplay
  refine Me.driveSound_keyed (m := m.segmentAdvanced) h.base (h.keyed (plays_ne_idle hplay)) ?_ (plays_ne_idle hplay) ?_
  · exact segmentPosition_le hr.2.1 he.1 he.2.1 hk
  · exact runSound_of_plays (m := m.segmentAdvanced) hplay hr.1 hr.2.1 hk (fun _ => hr.2.2.2 hc)

/-- A run record with counter 0 in a playing state. -/
theorem driveSound_between {m : Me} (h : m.driveBase) (hd : m.drive = .keyed) (hp : m.position ≤ 4096)
    (hplay : m.run.state.plays) (hi : m.run.index ≤ 32) (hs : m.run.start ≤ 4096) (hc : m.run.counter = 0) : m.driveSound :=
  Me.driveSound_keyed h hd hp (plays_ne_idle hplay)
    (runSound_of_plays hplay hi hs (by rw [hc]; exact Nat.zero_le _) (fun h0 => absurd hc h0))

theorem driveSound_paused {m : Me} (h : m.driveBase) (hd : m.drive = .keyed) (hp : m.position ≤ 4096)
    (hr : m.run.state = .paused) (hi : m.run.index ≤ 32) (hs : m.run.start ≤ 4096) (hc : m.run.counter = 0) : m.driveSound :=
  Me.driveSound_keyed h hd hp (by rw [hr]; exact fun e => by cases e) (by unfold Me.runSound; rw [hr]; exact ⟨hc, hi, hs⟩)

theorem driveSound_waiting {m : Me} (h : m.driveBase) (hd : m.drive = .keyed) (hp : m.position ≤ 4096) {r : ResumeState}
    (hr : m.run.state = .waiting r) (hi : m.run.index < m.count) (hs : m.run.start ≤ 4096) (hc : m.run.counter = 0) :
    m.driveSound :=
  Me.driveSound_keyed h hd hp (by rw [hr]; exact fun e => by cases e) (by unfold Me.runSound; rw [hr]; exact ⟨hc, hi, hs⟩)

/-! ### Both banks -/

/-- Both banks' drive states, P and run records are sound. -/
def State.drivesSound (s : State) : Prop :=
  ∀ bank : BankId, (s.me bank).driveSound

theorem drivesSound_of_eq {s t : State} (ha : t.meA = s.meA) (hb : t.meB = s.meB) (h : s.drivesSound) : t.drivesSound := by
  intro bank
  cases bank
  · simp only [State.me, ha]; exact h .a
  · simp only [State.me, hb]; exact h .b

theorem drivesSound_modifyMe {s : State} {bank : BankId} {f : Me → Me} (h : s.drivesSound) (hf : (f (s.me bank)).driveSound) :
    (s.modifyMe bank f).drivesSound := by
  intro x
  by_cases e : x = bank
  · subst e; rw [State.me_modifyMe]; exact hf
  · rw [State.me_modifyMe_of_ne _ _ e]; exact h x

theorem drivesSound_post {s : State} (kind : NoticeKind) (cls : NoticeClass) (subject : Subject) (h : s.drivesSound) :
    (s.post kind cls subject).drivesSound :=
  fun bank => by rw [State.me_post]; exact h bank

theorem State.me_exchangeBuses (s : State) (bank x : BankId) : (exchangeBuses bank s).me x = s.me x := by
  cases bank <;> cases x <;> rfl

/-- A completion in the record of each bank. -/
theorem me_complete (bank : BankId) (how : DoneBy) (s : State) (x : BankId) :
    (complete bank how s).me x = if x = bank then (s.me bank).completed how else s.me x := by
  unfold complete
  simp only
  rw [State.me_post]
  have hx : ∀ y, (if hasBkgd (s.me bank).selection then exchangeBuses bank s else s).me y = s.me y := by
    intro y; split
    · exact State.me_exchangeBuses ..
    · rfl
  by_cases e : x = bank
  · subst e; rw [State.me_modifyMe, hx, if_pos rfl]
  · rw [State.me_modifyMe_of_ne _ _ e, hx, if_neg e]

theorem drivesSound_complete {s : State} (bank : BankId) (how : DoneBy) (h : ∀ x, x ≠ bank → (s.me x).driveSound)
    (hb : (s.me bank).driveBase) (hr : (s.me bank).run = Run.idle) : (complete bank how s).drivesSound := by
  intro x
  rw [me_complete]
  split
  · exact driveSound_completed hb hr how
  · rename_i e; exact h x e

/-- Two states whose banks agree on what the drive reads. -/
def SameDrives (s t : State) : Prop :=
  ∀ bank : BankId,
    (t.me bank).rate = (s.me bank).rate ∧ (t.me bank).drive = (s.me bank).drive ∧
      (t.me bank).position = (s.me bank).position ∧ (t.me bank).count = (s.me bank).count ∧
      (t.me bank).loops = (s.me bank).loops ∧ (t.me bank).run = (s.me bank).run ∧ (t.me bank).table = (s.me bank).table ∧
      (t.me bank).endMode = (s.me bank).endMode

theorem SameDrives.refl (s : State) : SameDrives s s := fun _ => ⟨rfl, rfl, rfl, rfl, rfl, rfl, rfl, rfl⟩

theorem SameDrives.trans {s t u : State} (h : SameDrives s t) (k : SameDrives t u) : SameDrives s u := by
  intro bank
  have h := h bank
  have k := k bank
  exact ⟨k.1.trans h.1, k.2.1.trans h.2.1, k.2.2.1.trans h.2.2.1, k.2.2.2.1.trans h.2.2.2.1,
    k.2.2.2.2.1.trans h.2.2.2.2.1, k.2.2.2.2.2.1.trans h.2.2.2.2.2.1, k.2.2.2.2.2.2.1.trans h.2.2.2.2.2.2.1,
    k.2.2.2.2.2.2.2.trans h.2.2.2.2.2.2.2⟩

theorem SameDrives.sound {s t : State} (h : SameDrives s t) (hs : s.drivesSound) : t.drivesSound := by
  intro bank
  have h := h bank
  exact Me.driveSound_congr (hs bank) h.1 h.2.1 h.2.2.1 h.2.2.2.1 h.2.2.2.2.1 h.2.2.2.2.2.1 h.2.2.2.2.2.2.1

theorem SameDrives.foldl {α : Type} {f : State → α → State} (h : ∀ s a, SameDrives s (f s a)) (l : List α) :
    ∀ s, SameDrives s (l.foldl f s) := by
  induction l with
  | nil => exact .refl
  | cons a l ih => exact fun s => (h s a).trans (ih _)

theorem sameDrives_modifyMe (s : State) (bank : BankId) (f : Me → Me)
    (h : (f (s.me bank)).rate = (s.me bank).rate ∧ (f (s.me bank)).drive = (s.me bank).drive ∧
      (f (s.me bank)).position = (s.me bank).position ∧ (f (s.me bank)).count = (s.me bank).count ∧
      (f (s.me bank)).loops = (s.me bank).loops ∧ (f (s.me bank)).run = (s.me bank).run ∧
      (f (s.me bank)).table = (s.me bank).table ∧ (f (s.me bank)).endMode = (s.me bank).endMode) :
    SameDrives s (s.modifyMe bank f) := by
  intro x
  by_cases e : x = bank
  · subst e; rw [State.me_modifyMe]; exact h
  · rw [State.me_modifyMe_of_ne _ _ e]; exact ⟨rfl, rfl, rfl, rfl, rfl, rfl, rfl, rfl⟩

theorem sameDrives_post (s : State) (kind : NoticeKind) (cls : NoticeClass) (subject : Subject) :
    SameDrives s (s.post kind cls subject) :=
  fun bank => by rw [State.me_post]; exact ⟨rfl, rfl, rfl, rfl, rfl, rfl, rfl, rfl⟩

theorem sameDrives_refuse (s : State) (code : Byte) (reason : Reason) (subject : Subject) :
    SameDrives s (s.refuse code reason subject) :=
  sameDrives_post _ _ _ _

theorem sameDrives_layerOn (bank : BankId) (l : LayerId) (s : State) : SameDrives s (layerOn bank l s) := by
  unfold layerOn; split
  · exact sameDrives_refuse _ _ _ _
  · exact sameDrives_modifyMe _ _ _ ⟨rfl, rfl, rfl, rfl, rfl, rfl, rfl, rfl⟩

theorem sameDrives_layerOff (bank : BankId) (l : LayerId) (s : State) : SameDrives s (layerOff bank l s) := by
  unfold layerOff; split
  · exact sameDrives_refuse _ _ _ _
  · exact sameDrives_modifyMe _ _ _ ⟨rfl, rfl, rfl, rfl, rfl, rfl, rfl, rfl⟩

theorem sameDrives_layerRequests (bank : BankId) (e : Keyframe) (s : State) : SameDrives s (layerRequests bank e s) :=
  (SameDrives.foldl (fun t l => by split <;> first | exact sameDrives_layerOn _ _ _ | exact .refl _) _ _).trans
    (SameDrives.foldl (fun t l => by split <;> first | exact sameDrives_layerOff _ _ _ | exact .refl _) _ _)

theorem sameDrives_presetRequest (bank : BankId) (e : Keyframe) (s : State) : SameDrives s (presetRequest bank e s) := by
  unfold presetRequest; split
  · exact .refl _
  · unfold placePreset; split
    · exact sameDrives_refuse _ _ _ _
    · exact fun x => by rw [State.me_setBus]; exact ⟨rfl, rfl, rfl, rfl, rfl, rfl, rfl, rfl⟩

theorem sameDrives_postMark (bank : BankId) (s : State) : SameDrives s (postMark bank s) := by
  unfold postMark; split
  · exact sameDrives_post _ _ _ _
  · exact sameDrives_modifyMe _ _ _ ⟨rfl, rfl, rfl, rfl, rfl, rfl, rfl, rfl⟩

/-- The requests of an entry leave the drives as they are. -/
theorem sameDrives_requests (bank : BankId) (e : Keyframe) (s : State) :
    SameDrives s (presetRequest bank e (layerRequests bank e s)) :=
  (sameDrives_layerRequests _ _ _).trans (sameDrives_presetRequest _ _ _)

/-! ### The step of a run -/

/-- What stands between the step of a run and its completion: either all is sound, or the run is over and a completion is due. -/
def DueSound (bank : BankId) (p : State × Option DoneBy) : Prop :=
  match p.2 with
  | none => p.1.drivesSound
  | some _ => (∀ x, x ≠ bank → (p.1.me x).driveSound) ∧ (p.1.me bank).driveBase ∧ (p.1.me bank).run = Run.idle

theorem drivesSound_takeDue {bank : BankId} {p : State × Option DoneBy} (h : DueSound bank p) : (takeDue bank p).drivesSound := by
  unfold DueSound at h
  unfold takeDue
  split
  · rename_i e; rw [e] at h; exact h
  · rename_i e; rw [e] at h; exact drivesSound_complete bank _ h.1 h.2.1 h.2.2

/-- An arrival at an entry below the count, in a run that plays. -/
theorem drivesSound_arriveEntry {bank : BankId} {s : State} (h : s.drivesSound) (hp : (s.me bank).run.state.plays)
    (hi : (s.me bank).run.index < (s.me bank).count) : (arriveEntry bank s).drivesSound := by
  simp only [arriveEntry]
  have hreq := sameDrives_requests bank ((s.me bank).entry (s.me bank).run.index) s
  have hm := (h bank).playing hp
  have hk := (h bank).keyed (plays_ne_idle hp)
  have hpos := (h bank).position_le
  split
  · have hall := hreq.trans (sameDrives_postMark bank _)
    have hb := hall bank
    have hs := hall.sound h
    refine drivesSound_modifyMe hs (driveSound_waiting (hs bank).base ?_ ?_ rfl ?_ ?_ rfl)
    · exact hb.2.1.trans hk
    · exact hb.2.2.1 ▸ hpos
    · show (_ : Run).index < _
      rw [hb.2.2.2.2.2.1, hb.2.2.2.1]; exact hi
    · show (_ : Run).start ≤ _
      rw [hb.2.2.2.2.2.1]; exact hm.2.1
  · have hb := hreq bank
    have hs := hreq.sound h
    refine drivesSound_modifyMe hs (driveSound_segmentBegun (hs bank).base ?_ ?_ ?_ ?_)
    · exact hb.2.1.trans hk
    · exact hb.2.2.1 ▸ hpos
    · rw [hb.2.2.2.2.2.1]; exact hp
    · rw [hb.2.2.2.2.2.1, hb.2.2.2.1]; exact hi

theorem dueSound_endRun {bank : BankId} {s : State} (h : s.drivesSound) : DueSound bank (endRun bank s) := by
  have hbase : ({ s.me bank with run := Run.idle } : Me).driveBase :=
    ⟨(h bank).base.1, (h bank).base.2.1, (h bank).base.2.2.1, (h bank).base.2.2.2.1, Nat.zero_le _, (h bank).base.2.2.2.2.2⟩
  have hme : ((s.modifyMe bank (fun m => { m with run := Run.idle })).post .runDone .info (.me (bankByte bank))).me bank =
      { s.me bank with run := Run.idle } := by
    rw [State.me_post, State.me_modifyMe]
  have hother : ∀ x, x ≠ bank →
      (((s.modifyMe bank (fun m => { m with run := Run.idle })).post .runDone .info (.me (bankByte bank))).me x).driveSound := by
    intro x e
    rw [State.me_post, State.me_modifyMe_of_ne _ _ e]; exact h x
  simp only [endRun]
  split
  · refine ⟨hother, ?_, ?_⟩
    · show (_ : Me).driveBase
      rw [hme]; exact hbase
    · show (_ : Me).run = Run.idle
      rw [hme]
  · show State.drivesSound _
    intro x
    by_cases e : x = bank
    · subst e
      rw [State.me_modifyMe, hme]
      exact driveSound_resolved hbase rfl (h x).position_le
    · rw [State.me_modifyMe_of_ne _ _ e]; exact hother x e

theorem nextPass_passes (r : Run) (h : r.passes ≤ 63) : r.nextPass.passes ≤ 63 :=
  Nat.le_trans (Nat.sub_le ..) h

theorem dueSound_arrive {bank : BankId} {s : State} (h : s.drivesSound) (hp : (s.me bank).run.state.plays) :
    DueSound bank (arrive bank s) := by
  simp only [arrive]
  split
  · rename_i hi
    show State.drivesSound _
    exact drivesSound_arriveEntry h hp hi
  · split
    · rename_i hl
      show State.drivesSound _
      have hb := (h bank).base
      have hm := (h bank).playing hp
      have hc : 1 ≤ (s.me bank).count := by
        simp only [Me.loopsOn, Bool.and_eq_true, decide_eq_true_eq] at hl
        exact hl.1.2
      refine drivesSound_arriveEntry (drivesSound_modifyMe h ?_) ?_ ?_
      · exact driveSound_between ⟨hb.1, hb.2.1, hb.2.2.1, hb.2.2.2.1, nextPass_passes _ hb.2.2.2.2.1, hb.2.2.2.2.2⟩
          ((h bank).keyed (plays_ne_idle hp)) (h bank).position_le hp (Nat.zero_le _) hm.2.1 rfl
      · rw [State.me_modifyMe]; exact hp
      · rw [State.me_modifyMe]; exact hc
    · exact dueSound_endRun h

/-- The run record past a finished segment. -/
theorem driveSound_pastSegment {m : Me} (h : m.driveSound) (hp : m.run.state.plays) (hc : m.run.counter ≠ 0) :
    ({ m with run := m.run.pastSegment } : Me).driveSound := by
  have hm := h.playing hp
  have hi := hm.2.2.2 hc
  have hb := h.base
  exact driveSound_between hb (h.keyed (plays_ne_idle hp)) h.position_le hp (Nat.le_trans hi hb.2.2.1) hm.2.1 rfl

theorem dueSound_pauseAfterSegment {bank : BankId} {s : State} (h : s.drivesSound) (hp : (s.me bank).run.state.plays)
    (hc : (s.me bank).run.counter ≠ 0) : DueSound bank (pauseAfterSegment bank s) := by
  have hpast := driveSound_pastSegment (h bank) hp hc
  have hs : (s.modifyMe bank (fun m => { m with run := m.run.pastSegment })).drivesSound := drivesSound_modifyMe h hpast
  have hm := hpast.playing hp
  have hk := hpast.keyed (plays_ne_idle hp)
  simp only [pauseAfterSegment]
  split
  · show State.drivesSound _
    refine drivesSound_modifyMe hs ?_
    rw [State.me_modifyMe]
    exact driveSound_paused hpast.base hk hpast.position_le rfl hm.1 hm.2.1 rfl
  · split
    · show State.drivesSound _
      refine drivesSound_modifyMe hs ?_
      rw [State.me_modifyMe]
      have hb := hpast.base
      exact driveSound_paused ⟨hb.1, hb.2.1, hb.2.2.1, hb.2.2.2.1, nextPass_passes _ hb.2.2.2.2.1, hb.2.2.2.2.2⟩ hk
        hpast.position_le rfl (Nat.zero_le _) hm.2.1 rfl
    · exact dueSound_endRun hs

theorem dueSound_stepPlaying {bank : BankId} {s : State} (holding : Bool) (h : s.drivesSound)
    (hp : (s.me bank).run.state.plays) : DueSound bank (stepPlaying holding bank s) := by
  simp only [stepPlaying]
  split
  · exact dueSound_arrive h hp
  · rename_i hc
    split
    · rename_i hk
      exact drivesSound_modifyMe h (driveSound_segmentAdvanced (h bank) hp hc hk)
    · split
      · exact dueSound_pauseAfterSegment h hp hc
      · refine dueSound_arrive (drivesSound_modifyMe h (driveSound_pastSegment (h bank) hp hc)) ?_
        rw [State.me_modifyMe]; exact hp

theorem dueSound_runStep {bank : BankId} {s : State} (h : s.drivesSound) : DueSound bank (runStep bank s) := by
  unfold runStep
  split
  · exact h
  · rename_i e; exact dueSound_stepPlaying false h (.inl e)
  · exact h
  · rename_i e; exact dueSound_stepPlaying true h (.inr e)
  · exact h

theorem resume_plays (r : ResumeState) : r.state.plays := by
  cases r
  · exact .inl rfl
  · exact .inr rfl

theorem drivesSound_syncRelease {bank : BankId} {s : State} (h : s.drivesSound) : (syncRelease bank s).drivesSound := by
  simp only [syncRelease]
  split
  · exact h
  · exact h
  · rename_i r e
    split
    · have hb := (h bank).base
      have hk := (h bank).keyed (by rw [e]; exact fun i => by cases i)
      have hr := (h bank).2.2.2.2.2.2.1
      unfold Me.runSound at hr
      rw [e] at hr
      exact drivesSound_modifyMe h
        (driveSound_segmentBegun (m := { s.me bank with mark := false, run := { (s.me bank).run with state := r.state } }) hb hk
          (h bank).position_le (resume_plays r) hr.2.1)
    · exact h
  · exact h
  · exact h

theorem dueSound_driveStep {bank : BankId} {s : State} (h : s.drivesSound) : DueSound bank (driveStep bank s) := by
  unfold driveStep
  split
  · exact h
  · exact h
  · rename_i start span k e
    have hi := (h bank).idle (by rw [e]; exact fun i => by cases i)
    have hp := (h bank).2.2.1
    unfold Me.positionSound at hp
    rw [e] at hp
    split
    · rename_i hk
      exact drivesSound_modifyMe h
        (Me.driveSound_auto (h bank).base hi rfl hp.1 (Nat.le_add_left ..) hk hp.2.2.2.1 rfl)
    · exact ⟨fun x _ => h x, (h bank).base, hi⟩
  · exact dueSound_runStep h

theorem drivesSound_bankOwn (bank : BankId) {s : State} (h : s.drivesSound) : (bankOwn bank s).drivesSound :=
  drivesSound_takeDue (dueSound_driveStep
    ((sameDrives_modifyMe s bank Me.fadeStep ⟨rfl, rfl, rfl, rfl, rfl, rfl, rfl, rfl⟩).sound h))

/-- The banks' own work at a switch line. -/
theorem drivesSound_banksWork {s : State} (h : s.drivesSound) : (banksWork s).drivesSound :=
  drivesSound_syncRelease (drivesSound_syncRelease (drivesSound_bankOwn .b (drivesSound_bankOwn .a h)))

theorem drivesSound_segmentEnd (bank : BankId) {s : State} (h : s.drivesSound) : (segmentEnd bank s).drivesSound := by
  unfold segmentEnd; split
  · exact drivesSound_syncRelease (drivesSound_takeDue (dueSound_runStep h))
  · exact h

theorem drivesSound_autoCompletionDue (bank : BankId) {s : State} (h : s.drivesSound) :
    (autoCompletionDue bank s).drivesSound := by
  unfold autoCompletionDue; split
  · exact h
  · exact h
  · rename_i e
    split
    · exact h
    · exact drivesSound_complete bank _ (fun x _ => h x) (h bank).base ((h bank).idle (by rw [e]; exact fun i => by cases i))
  · exact h

/-! ### Commands of a bank -/

theorem drivesSound_cutBank (bank : BankId) {s : State} (h : s.drivesSound) : (cutBank bank s).drivesSound := by
  have done : (s.me bank).drive ≠ .keyed → (complete bank .cut s).drivesSound :=
    fun e => drivesSound_complete bank _ (fun x _ => h x) (h bank).base ((h bank).idle e)
  simp only [cutBank]
  split
  · rename_i e
    split
    · exact drivesSound_post _ _ _ h
    · split
      · exact drivesSound_post _ _ _ h
      · exact done (by rw [e]; exact fun i => by cases i)
  · rename_i e; exact done (by rw [e]; exact fun i => by cases i)
  · rename_i e; exact done (by rw [e]; exact fun i => by cases i)
  · exact drivesSound_post _ _ _ h

theorem spanFrom_bounds (rate start : Nat) (h : rate ≤ 999) : 1 ≤ spanFrom rate start ∧ spanFrom rate start ≤ 999 := by
  unfold spanFrom
  have h1 : rate * (4096 - start) ≤ 999 * 4096 := Nat.mul_le_mul h (Nat.sub_le ..)
  omega

theorem drivesSound_startAuto (bank : BankId) {s : State} (h : s.drivesSound) (hd : (s.me bank).drive ≠ .keyed) {start span : Nat}
    (hs : start ≤ 4096) (h1 : 1 ≤ span) (h2 : span ≤ 999) : (startAuto bank start span s).drivesSound := by
  have hi := (h bank).idle hd
  simp only [startAuto]
  split
  · exact drivesSound_post _ _ _ h
  · split
    · exact drivesSound_post _ _ _ h
    · split
      · exact drivesSound_complete bank _ (fun x _ => h x) (h bank).base hi
      · exact drivesSound_modifyMe h (Me.driveSound_auto (h bank).base hi rfl hs (Nat.le_refl _) h1 h2 rfl)

theorem drivesSound_autoBank (bank : BankId) {s : State} (h : s.drivesSound) : (autoBank bank s).drivesSound := by
  have hb := (h bank).base
  simp only [autoBank]
  split
  · rename_i e
    exact drivesSound_startAuto bank h (by rw [e]; exact fun i => by cases i) (Nat.zero_le _) hb.1 hb.2.1
  · rename_i e
    have hr := spanFrom_bounds (s.me bank).rate (s.me bank).position hb.2.1
    exact drivesSound_startAuto bank h (by rw [e]; exact fun i => by cases i) (h bank).position_le hr.1 hr.2
  · exact drivesSound_post _ _ _ h
  · exact drivesSound_post _ _ _ h

theorem drivesSound_followLever (bank : BankId) {e : Nat} {s : State} (h : ∀ x, x ≠ bank → (s.me x).driveSound)
    (hb : (s.me bank).driveBase) (hi : (s.me bank).run = Run.idle) (he : e ≤ 4096) : (followLever bank e s).drivesSound := by
  have put : ∀ f : Me → Me, (f (s.me bank)).driveSound → (s.modifyMe bank f).drivesSound := by
    intro f hf x
    by_cases i : x = bank
    · subst i; rw [State.me_modifyMe]; exact hf
    · rw [State.me_modifyMe_of_ne _ _ i]; exact h x i
  unfold followLever
  split
  · refine drivesSound_complete bank _ (fun x i => ?_) ?_ ?_
    · rw [State.me_modifyMe_of_ne _ _ i]; exact h x i
    · rw [State.me_modifyMe]; exact hb
    · rw [State.me_modifyMe]; exact hi
  · split
    · exact put _ (Me.driveSound_rest hb hi rfl rfl)
    · rename_i h0
      exact put _ (Me.driveSound_manual hb hi rfl (Nat.one_le_iff_ne_zero.mpr h0) he)

theorem effective_le (sense : Sense) {v : Nat} (h : v ≤ 4096) : effective sense v ≤ 4096 := by
  cases sense <;> simp only [effective] <;> omega

theorem drivesSound_leverBank (bank : BankId) {v : Nat} {s : State} (h : s.drivesSound) (hv : v ≤ 4096) :
    (leverBank bank v s).drivesSound := by
  have follow : ∀ (e : Nat) (f : Me → Me), (f (s.me bank)).driveBase → (f (s.me bank)).run = Run.idle → e ≤ 4096 →
      (followLever bank e (s.modifyMe bank f)).drivesSound := by
    intro e f hb hi he
    refine drivesSound_followLever bank (fun x i => ?_) ?_ ?_ he
    · rw [State.me_modifyMe_of_ne _ _ i]; exact h x
    · rw [State.me_modifyMe]; exact hb
    · rw [State.me_modifyMe]; exact hi
  have hb := (h bank).base
  simp only [leverBank]
  split
  · rename_i e
    have hi := (h bank).idle (by rw [e]; exact fun i => by cases i)
    split
    · unfold pickUpAtRest; split
      · exact follow _ _ hb hi (effective_le _ hv)
      · split
        · exact follow _ _ hb hi (effective_le _ hv)
        · exact h
    · exact drivesSound_followLever bank (fun x _ => h x) hb hi (effective_le _ hv)
  · rename_i e
    have hi := (h bank).idle (by rw [e]; exact fun i => by cases i)
    split
    · split
      · exact follow _ _ hb hi (effective_le _ hv)
      · exact h
    · exact drivesSound_followLever bank (fun x _ => h x) hb hi (effective_le _ hv)
  · exact h
  · exact h

theorem drivesSound_startRun (code : Byte) {first : RunState} (bank : BankId) {s : State} (h : s.drivesSound)
    (hf : first.plays) : (startRun code first bank s).drivesSound := by
  have hb := (h bank).base
  unfold startRun
  split
  · exact drivesSound_post _ _ _ h
  · exact drivesSound_modifyMe h
      (driveSound_between
        (m := { s.me bank with
          drive := .keyed, run := { state := first, index := 0, start := 0, counter := 0, passes := (s.me bank).loops } })
        ⟨hb.1, hb.2.1, hb.2.2.1, hb.2.2.2.1, hb.2.2.2.1, hb.2.2.2.2.2⟩ rfl (h bank).position_le hf (Nat.zero_le _)
        (Nat.zero_le _) rfl)

theorem drivesSound_runBank (bank : BankId) {s : State} (h : s.drivesSound) : (runBank bank s).drivesSound := by
  unfold runBank
  split
  · exact drivesSound_startRun _ bank h (.inl rfl)
  · exact h
  · exact h
  · rename_i e
    have hm := (h bank).playing (.inr e)
    exact drivesSound_modifyMe h
      (Me.driveSound_keyed (m := { s.me bank with run := { (s.me bank).run with state := .running } }) (h bank).base
        ((h bank).keyed (by rw [e]; exact fun i => by cases i)) (h bank).position_le (fun i => by cases i)
        (runSound_of_plays (.inl rfl) hm.1 hm.2.1 hm.2.2.1 hm.2.2.2))
  · rename_i e
    have hr := (h bank).2.2.2.2.2.2.1
    unfold Me.runSound at hr
    rw [e] at hr
    exact drivesSound_modifyMe h
      (driveSound_between (m := { s.me bank with run := { (s.me bank).run with state := .running } }) (h bank).base
        ((h bank).keyed (by rw [e]; exact fun i => by cases i)) (h bank).position_le (.inl rfl) hr.2.1 hr.2.2 hr.1)

theorem drivesSound_stepBank (bank : BankId) {s : State} (h : s.drivesSound) : (stepBank bank s).drivesSound := by
  unfold stepBank
  split
  · exact drivesSound_startRun _ bank h (.inr rfl)
  · exact drivesSound_post _ _ _ h
  · exact drivesSound_post _ _ _ h
  · exact h
  · rename_i e
    have hr := (h bank).2.2.2.2.2.2.1
    unfold Me.runSound at hr
    rw [e] at hr
    exact drivesSound_modifyMe h
      (driveSound_between (m := { s.me bank with run := { (s.me bank).run with state := .holding } }) (h bank).base
        ((h bank).keyed (by rw [e]; exact fun i => by cases i)) (h bank).position_le (.inr rfl) hr.2.1 hr.2.2 hr.1)

theorem drivesSound_holdBank (bank : BankId) {s : State} (h : s.drivesSound) : (holdBank bank s).drivesSound := by
  unfold holdBank
  split
  · exact h
  · rename_i e
    have hm := (h bank).playing (.inl e)
    exact drivesSound_modifyMe h
      (Me.driveSound_keyed (m := { s.me bank with run := { (s.me bank).run with state := .holding } }) (h bank).base
        ((h bank).keyed (by rw [e]; exact fun i => by cases i)) (h bank).position_le (fun i => by cases i)
        (runSound_of_plays (.inr rfl) hm.1 hm.2.1 hm.2.2.1 hm.2.2.2))
  · rename_i e
    have hr := (h bank).2.2.2.2.2.2.1
    unfold Me.runSound at hr
    rw [e] at hr
    have hc := (h bank).base.2.2.1
    exact drivesSound_modifyMe h
      (driveSound_paused (m := { s.me bank with run := { (s.me bank).run with state := .paused } }) (h bank).base
        ((h bank).keyed (by rw [e]; exact fun i => by cases i)) (h bank).position_le rfl
        (Nat.le_trans (Nat.le_of_lt hr.2.1) hc) hr.2.2 hr.1)
  · exact h
  · exact h

theorem drivesSound_abortBank (bank : BankId) {s : State} (h : s.drivesSound) : (abortBank bank s).drivesSound := by
  unfold abortBank
  split
  · exact h
  · have hb := (h bank).base
    exact drivesSound_modifyMe h
      (driveSound_resolved (m := { s.me bank with run := Run.idle })
        ⟨hb.1, hb.2.1, hb.2.2.1, hb.2.2.2.1, Nat.zero_le _, hb.2.2.2.2.2⟩ rfl (h bank).position_le)

/-! ### Settings of a run -/

theorem readKeyframe_sound {r : KeyframeBytes} {k : Keyframe} (h : readKeyframe r = some k) : k.sound := by
  unfold readKeyframe at h
  split at h
  · cases h
    refine ⟨?_, ?_, ?_⟩ <;> simp only [clampTo] <;> omega
  · cases h

theorem readKeyframes_sound : ∀ {rs : List KeyframeBytes} {ks : List Keyframe}, readKeyframes rs = some ks → ∀ k ∈ ks, k.sound := by
  intro rs
  induction rs with
  | nil => intro ks h k hk; cases h; exact absurd hk (List.not_mem_nil)
  | cons r rs ih =>
    intro ks h k hk
    unfold readKeyframes at h
    split at h
    · rename_i x xs hx hxs
      cases h
      rcases List.mem_cons.mp hk with rfl | hk
      · exact readKeyframe_sound hx
      · exact ih hxs k hk
    · cases h

theorem writeKeyframes_sound : ∀ (ks : List Keyframe) (table : Vector Keyframe 32) (first : Nat),
    (∀ k ∈ ks, k.sound) → (∀ i : Fin 32, (table[i]).sound) → ∀ i : Fin 32, ((writeKeyframes table first ks)[i]).sound := by
  intro ks
  induction ks with
  | nil => exact fun table first _ h => h
  | cons k ks ih =>
    intro table first hk h
    refine ih _ _ (fun x hx => hk x (List.mem_cons_of_mem _ hx)) (fun i => ?_)
    simp only [Fin.getElem_fin, Vector.getElem_setIfInBounds]
    split
    · exact hk k (List.mem_cons_self ..)
    · exact h i

/-- The table of an IDLE or PAUSED run may be written. -/
theorem driveSound_table {m : Me} (h : m.driveSound) (hr : m.run.state.playing = false) {table : Vector Keyframe 32}
    (ht : ∀ i : Fin 32, (table[i]).sound) : ({ m with table := table } : Me).driveSound := by
  have hb := h.base
  refine ⟨h.1, h.2.1, h.2.2.1, h.2.2.2.1, h.2.2.2.2.1, h.2.2.2.2.2.1, ?_, h.2.2.2.2.2.2.2.1, ht⟩
  have := h.2.2.2.2.2.2.1
  unfold Me.runSound at *
  cases e : m.run.state with
  | idle => rw [e] at this; exact this
  | running => rw [e] at hr; cases hr
  | waiting r => rw [e] at hr; cases hr
  | holding => rw [e] at hr; cases hr
  | paused => rw [e] at this; exact this

/-- The settings of an IDLE or PAUSED run may be written. -/
theorem driveSound_runSettings {m : Me} (h : m.driveSound) (hr : m.run.state.playing = false) {count loops : Nat} (hc : count ≤ 32)
    (hl : loops ≤ 63) (endMode : EndMode) :
    ({ m with count := count, endMode := endMode, loops := loops } : Me).driveSound := by
  refine ⟨h.1, h.2.1, h.2.2.1, h.2.2.2.1, hc, hl, ?_, h.2.2.2.2.2.2.2.1, h.2.2.2.2.2.2.2.2⟩
  have := h.2.2.2.2.2.2.1
  unfold Me.runSound at *
  cases e : m.run.state with
  | idle => rw [e] at this; exact this
  | running => rw [e] at hr; cases hr
  | waiting r => rw [e] at hr; cases hr
  | holding => rw [e] at hr; cases hr
  | paused => rw [e] at this; exact this

theorem driveSound_rate {m : Me} (h : m.driveSound) {rate : Nat} (h1 : 1 ≤ rate) (h2 : rate ≤ 999) (kind : TransitionType)
    (curve : Option CurveId) : ({ m with kind := kind, rate := rate, curve := curve } : Me).driveSound :=
  ⟨h1, h2, h.2.2.1, h.2.2.2.1, h.2.2.2.2.1, h.2.2.2.2.2.1, h.2.2.2.2.2.2.1, h.2.2.2.2.2.2.2.1, h.2.2.2.2.2.2.2.2⟩

theorem clampTo_bounds (lo hi x : Nat) (h : lo ≤ hi) : lo ≤ clampTo lo hi x ∧ clampTo lo hi x ≤ hi := by
  unfold clampTo; omega

theorem powerOn_driveSound : Me.powerOn.driveSound := by
  refine Me.driveSound_rest ⟨by decide, by decide, by decide, by decide, by decide, fun i => ?_⟩ rfl rfl rfl
  simp [Me.powerOn, Keyframe.powerOn, Keyframe.sound]

theorem engineReset_driveSound {m : Me} (h : m.driveSound) : m.engineReset.driveSound := by
  have hb := h.base
  exact Me.driveSound_rest ⟨hb.1, hb.2.1, hb.2.2.1, hb.2.2.2.1, Nat.zero_le _, hb.2.2.2.2.2⟩ rfl rfl rfl

end Sys2Proof.Machine
end

