-- ==== Sys2Proof/Laws/Lanes.lean ====
section
/-! SUPPORT. What the work on one lane does to that lane and to the others, and what a round over the lanes does to each. -/

namespace Sys2Proof.Machine

/-! ### A round over the lanes -/

/-- Work on lane `n` alone: other lanes stay, and apart from lanes and notices so does everything. -/
def LaneWork (n : LaneId) (f : State → State) : Prop :=
  (∀ s, OnlyLanes s (f s)) ∧ ∀ (s : State) (k : LaneId), k ≠ n → (f s).lane k = s.lane k

theorem foldl_laneWork_of_not_mem {f : LaneId → State → State} (h : ∀ n, LaneWork n (f n)) (n : LaneId) :
    ∀ (l : List LaneId) (s : State), n ∉ l → (l.foldl (fun t k => f k t) s).lane n = s.lane n := by
  intro l
  induction l with
  | nil => intro s _; rfl
  | cons k l ih =>
    intro s hn
    rw [List.foldl_cons, ih _ (fun hm => hn (List.mem_cons_of_mem _ hm)),
      (h k).2 _ _ (fun e => hn (e ▸ List.mem_cons_self ..))]

/-- In a round each lane is worked on once, in a state that differs from the first in the other lanes and in notices alone. -/
theorem foldl_laneWork {f : LaneId → State → State} (h : ∀ n, LaneWork n (f n)) (n : LaneId) :
    ∀ (l : List LaneId) (s : State), l.Nodup → n ∈ l →
      ∃ t : State, OnlyLanes s t ∧ t.lane n = s.lane n ∧ (l.foldl (fun t k => f k t) s).lane n = (f n t).lane n := by
  intro l
  induction l with
  | nil => intro s _ hm; exact absurd hm (List.not_mem_nil)
  | cons k l ih =>
    intro s hd hm
    rw [List.nodup_cons] at hd
    rcases List.mem_cons.mp hm with e | hm
    · subst e
      exact ⟨s, .refl s, rfl, foldl_laneWork_of_not_mem h n l _ hd.1⟩
    · have hk : n ≠ k := fun e => hd.1 (e ▸ hm)
      obtain ⟨t, h1, h2, h3⟩ := ih (f k s) hd.2 hm
      exact ⟨t, ((h k).1 s).trans h1, h2.trans ((h k).2 _ _ hk), h3⟩

/-- A round over all lanes. -/
theorem foldl_allLanes {f : LaneId → State → State} (h : ∀ n, LaneWork n (f n)) (n : LaneId) (s : State) :
    ∃ t : State, OnlyLanes s t ∧ t.lane n = s.lane n ∧ (allLanes.foldl (fun t k => f k t) s).lane n = (f n t).lane n :=
  foldl_laneWork h n allLanes s (List.nodup_finRange 24) (List.mem_finRange n)

/-! ### Work on one lane -/

@[simp] theorem State.post_lane (s : State) (kind : NoticeKind) (cls : NoticeClass) (subject : Subject) (n : LaneId) :
    (s.post kind cls subject).lane n = s.lane n := rfl

@[simp] theorem postLane_lane (n : LaneId) (before : LaneState) (s : State) (k : LaneId) :
    (postLane n before s).lane k = s.lane k := rfl

@[simp] theorem moveLane_lane_self (n : LaneId) (target : LaneState) (s : State) :
    (moveLane n target s).lane n = (s.lane n).moved target := by
  simp [moveLane]

theorem moveLane_lane_of_ne {n k : LaneId} (target : LaneState) (s : State) (h : k ≠ n) :
    (moveLane n target s).lane k = s.lane k := by
  simp [moveLane, State.lane_setLane_of_ne _ _ h]

theorem laneWork_setLane (n : LaneId) (g : State → Lane) : LaneWork n (fun s => s.setLane n (g s)) :=
  ⟨fun _ => onlyLanes_setLane .., fun s _ h => State.lane_setLane_of_ne s _ h⟩

theorem laneWork_presenceUpdate (n : LaneId) : LaneWork n (presenceUpdate n) := by
  refine ⟨onlyLanes_presenceUpdate n, fun s k h => ?_⟩
  simp only [presenceUpdate]
  split
  · split
    · rfl
    · exact moveLane_lane_of_ne _ _ h
  · split
    · exact moveLane_lane_of_ne _ _ h
    · rfl

theorem laneWork_judgeLane (n : LaneId) (aligned : Bool) : LaneWork n (judgeLane n aligned) := by
  refine ⟨onlyLanes_judgeLane n aligned, fun s k h => ?_⟩
  unfold judgeLane
  simp only
  split
  · rfl
  · split
    · split
      · exact moveLane_lane_of_ne _ _ h
      · exact State.lane_setLane_of_ne _ _ h
    · exact State.lane_setLane_of_ne _ _ h
  · split
    · rfl
    · exact moveLane_lane_of_ne _ _ h

theorem laneWork_shiftWindow (before : State) (n : LaneId) : LaneWork n (shiftWindow before n) :=
  ⟨fun _ => onlyLanes_setLane .., fun s _ h => State.lane_setLane_of_ne s _ h⟩

theorem laneWork_judgeIfPresent (before : State) (n : LaneId) : LaneWork n (judgeIfPresent before n) := by
  refine ⟨onlyLanes_judgeIfPresent before n, fun s k h => ?_⟩
  unfold judgeIfPresent; split
  · exact (laneWork_judgeLane n _).2 s k h
  · rfl

theorem laneWork_laneFormatChange (n : LaneId) : LaneWork n (laneFormatChange n) := by
  refine ⟨onlyLanes_laneFormatChange n, fun s k h => ?_⟩
  simp only [laneFormatChange]; split <;> exact State.lane_setLane_of_ne _ _ h

theorem laneWork_laneFullReset (n : LaneId) : LaneWork n (laneFullReset n) := by
  refine ⟨onlyLanes_laneFullReset n, fun s k h => ?_⟩
  simp only [laneFullReset]; split
  · rw [moveLane_lane_of_ne _ _ h, State.lane_setLane_of_ne _ _ h]
  · exact State.lane_setLane_of_ne _ _ h

/-! ### Each round -/

@[simp] theorem Lane.shifted_state (before : State) (l : Lane) : (l.shifted before).state = l.state := rfl
@[simp] theorem Lane.shifted_good (before : State) (l : Lane) : (l.shifted before).good = l.good := rfl
@[simp] theorem Lane.shifted_settle (before : State) (l : Lane) : (l.shifted before).settle = l.settle := rfl
@[simp] theorem Lane.shifted_fallback (before : State) (l : Lane) : (l.shifted before).fallback = l.fallback := rfl
@[simp] theorem Lane.shifted_resync (before : State) (l : Lane) : (l.shifted before).resync = l.resync := rfl
@[simp] theorem Lane.shifted_detector (before : State) (l : Lane) : (l.shifted before).detector = l.detector := rfl
@[simp] theorem Lane.shifted_tracking (before : State) (l : Lane) : (l.shifted before).tracking = l.tracking := rfl
@[simp] theorem Lane.shifted_noted (before : State) (l : Lane) : (l.shifted before).noted = [] := rfl

/-- A lane after the windows have moved on. -/
theorem foldl_shiftWindow_lane (before s : State) (n : LaneId) :
    (allLanes.foldl (fun t k => shiftWindow before k t) s).lane n =
      (s.lane n).shifted before := by
  obtain ⟨t, _, h2, h3⟩ := foldl_allLanes (laneWork_shiftWindow before) n s
  rw [h3]
  simp [shiftWindow, h2]

/-- A lane after presence has followed the detector, on the lane's own record (R17). -/
def Lane.presenceFollowed (l : Lane) : Lane :=
  if l.present then (if l.detector then l else l.moved .absent)
  else if l.detector then l.moved .acquiring
  else l

/-- A lane after its judgement, on the lane's own record (R21). -/
def Lane.judged (l : Lane) (aligned : Bool) : Lane :=
  match l.state with
  | .absent => l
  | .acquiring =>
    if aligned then (if l.good + 1 ≥ l.settle then l.moved .locked else { l with good := l.good + 1 })
    else { l with good := 0 }
  | .locked => if aligned then l else l.moved .acquiring

theorem presenceUpdate_lane (n : LaneId) (s : State) : (presenceUpdate n s).lane n = (s.lane n).presenceFollowed := by
  simp only [presenceUpdate, Lane.presenceFollowed]
  split
  · split
    · rfl
    · exact moveLane_lane_self ..
  · split
    · exact moveLane_lane_self ..
    · rfl

theorem judgeLane_lane (n : LaneId) (aligned : Bool) (s : State) :
    (judgeLane n aligned s).lane n = (s.lane n).judged aligned := by
  simp only [judgeLane, Lane.judged]
  cases h : (s.lane n).state with
  | absent => rfl
  | acquiring =>
    simp only
    split
    · split
      · exact moveLane_lane_self ..
      · simp
    · simp
  | locked =>
    simp only
    split
    · rfl
    · exact moveLane_lane_self ..

/-- Every lane after steps 1 and 2 of R20. -/
theorem lanesWork_lane (before s : State) (n : LaneId) :
    (lanesWork before s).lane n =
      let l := ((s.lane n).shifted before).presenceFollowed
      if (before.lane n).present && l.present then l.judged (before.aligned n) else l := by
  obtain ⟨t, _, h2, h3⟩ := foldl_allLanes (laneWork_judgeIfPresent before) n
    (allLanes.foldl (fun t k => presenceUpdate k t) (allLanes.foldl (fun t k => shiftWindow before k t) s))
  obtain ⟨u, _, k2, k3⟩ := foldl_allLanes laneWork_presenceUpdate n (allLanes.foldl (fun t k => shiftWindow before k t) s)
  have ht : t.lane n = ((s.lane n).shifted before).presenceFollowed := by
    rw [h2, k3, presenceUpdate_lane, k2, foldl_shiftWindow_lane]
  simp only [lanesWork]
  rw [h3, judgeIfPresent, ht]
  split
  · rw [judgeLane_lane, ht]
  · exact ht

/-- Every lane after its work at the switch line of a format change (R30). -/
theorem lanesFormatChange_lane (before s : State) (n : LaneId) :
    (lanesFormatChange before s).lane n =
      { (s.lane n).shifted before with
        state := if (s.lane n).detector then .acquiring else .absent
        good := 0 } := by
  obtain ⟨t, _, h2, h3⟩ := foldl_allLanes laneWork_laneFormatChange n (allLanes.foldl (fun t k => shiftWindow before k t) s)
  simp only [lanesFormatChange]
  rw [h3]
  simp only [laneFormatChange, h2, foldl_shiftWindow_lane, Lane.shifted_detector]
  split <;> rename_i h <;> simp [h]

/-- A lane on its own record under the FULL scope (R29). -/
theorem lanesFullReset_lane (s : State) (n : LaneId) :
    (lanesFullReset s).lane n =
      { s.lane n with
        state := if (s.lane n).state = .locked then .acquiring else (s.lane n).state
        good := 0
        settle := 4
        fallback := none
        resync := false } := by
  obtain ⟨t, _, h2, h3⟩ := foldl_allLanes laneWork_laneFullReset n s
  simp only [lanesFullReset]
  rw [h3]
  simp only [laneFullReset, h2]
  split <;> rename_i h <;> simp [h, Lane.moved]

/-- The LANE notices of a format change leave every lane as it is. -/
theorem lanesFormatNotices_lane (before s : State) (n : LaneId) : (lanesFormatNotices before s).lane n = s.lane n := by
  unfold lanesFormatNotices
  generalize allLanes = l
  induction l generalizing s with
  | nil => rfl
  | cons k l ih =>
    rw [List.foldl_cons, ih]
    split <;> rfl

end Sys2Proof.Machine
end

