-- ==== Sys2Proof/Laws/Notices.lean ====
section
/-! SUPPORT. How the report builder takes a notice: what the queue, the flags and the lost flag become, and what any number of
notices keeps. -/

namespace Sys2Proof.Machine

/-! ### LANE notices -/

theorem Notice.sameLane_of_not_isLane {q : Notice} (n : Notice) (h : q.isLane = false) : q.sameLane n = false := by
  simp [Notice.sameLane, h]

theorem Notice.sameLane_of_not_isLane_right (q : Notice) {n : Notice} (h : n.isLane = false) : q.sameLane n = false := by
  simp [Notice.sameLane, h]

/-- An updated LANE notice is still a LANE notice for its lane. -/
theorem Notice.sameLane_updatedBy {q n : Notice} (h : q.sameLane n = true) (m : Notice) :
    (q.updatedBy n).sameLane m = q.sameLane m := by
  have hq : q.isLane = true := by simp_all [Notice.sameLane]
  have hn : n.isLane = true := by simp_all [Notice.sameLane]
  have hu : (q.updatedBy n).isLane = true := hn
  have hs : (q.updatedBy n).subject = q.subject := rfl
  simp [Notice.sameLane, hq, hu, hs]

theorem Notice.sameLane_right {q n p : Notice} (h : q.sameLane n = true) : p.sameLane (q.updatedBy n) = p.sameLane q := by
  have hq : q.isLane = true := by simp_all [Notice.sameLane]
  have hn : n.isLane = true := by simp_all [Notice.sameLane]
  have hu : (q.updatedBy n).isLane = true := hn
  have hs : (q.updatedBy n).subject = q.subject := rfl
  simp [Notice.sameLane, hq, hu, hs]

/-! ### What taking a notice does -/

@[simp] theorem ReportBuilder.enqueue_enabled (r : ReportBuilder) (n : Notice) : (r.enqueue n).enabled = r.enabled := by
  unfold ReportBuilder.enqueue; split
  · rfl
  · split <;> rfl

@[simp] theorem ReportBuilder.enqueue_summary (r : ReportBuilder) (n : Notice) : (r.enqueue n).summary = r.summary := by
  unfold ReportBuilder.enqueue; split
  · rfl
  · split <;> rfl

@[simp] theorem ReportBuilder.enqueue_recent (r : ReportBuilder) (n : Notice) : (r.enqueue n).recent = r.recent := by
  unfold ReportBuilder.enqueue; split
  · rfl
  · split <;> rfl

@[simp] theorem ReportBuilder.take_enabled (r : ReportBuilder) (n : Notice) : (r.take n).enabled = r.enabled := by
  simp only [ReportBuilder.take]; split
  · exact ReportBuilder.enqueue_enabled ..
  · rfl

@[simp] theorem ReportBuilder.take_summary (r : ReportBuilder) (n : Notice) : (r.take n).summary = r.summary.raise n.cls := by
  simp only [ReportBuilder.take]; split
  · exact ReportBuilder.enqueue_summary ..
  · rfl

@[simp] theorem ReportBuilder.take_recent (r : ReportBuilder) (n : Notice) : (r.take n).recent = r.recent.raise n.cls := by
  simp only [ReportBuilder.take]; split
  · exact ReportBuilder.enqueue_recent ..
  · rfl

/-- The queue grows by at most one, and while it is below 32 nothing is lost. -/
theorem ReportBuilder.take_length (r : ReportBuilder) (n : Notice) : (r.take n).queue.length ≤ r.queue.length + 1 := by
  simp only [ReportBuilder.take]; split
  · simp only [ReportBuilder.enqueue]; split
    · simp
    · split <;> simp
  · simp

theorem ReportBuilder.take_lost (r : ReportBuilder) (n : Notice) (h : r.queue.length < 32) : (r.take n).lost = r.lost := by
  simp only [ReportBuilder.take]; split
  · simp only [ReportBuilder.enqueue]; split
    · rfl
    · rfl
  · rfl

/-- Notices at the front that are not LANE notices stay where they are. -/
theorem ReportBuilder.take_front (r : ReportBuilder) (n : Notice) (front rest : List Notice)
    (h : r.queue = front ++ rest) (hf : ∀ q ∈ front, q.isLane = false) :
    ∃ rest' : List Notice, (r.take n).queue = front ++ rest' := by
  have hmap : front.map (fun q => if q.sameLane n then q.updatedBy n else q) = front := by
    rw [List.map_congr_left (g := id), List.map_id]
    intro q hq
    simp [Notice.sameLane_of_not_isLane n (hf q hq)]
  simp only [ReportBuilder.take]; split
  · simp only [ReportBuilder.enqueue]; split
    · exact ⟨rest.map (fun q => if q.sameLane n then q.updatedBy n else q), by simp [h, hmap]⟩
    · split
      · exact ⟨rest ++ [n], by simp [h]⟩
      · exact ⟨rest, h⟩
  · exact ⟨rest, h⟩

/-! ### Soundness (R174) -/

theorem pairwise_map_of_keeps {α : Type} {R : α → α → Prop} {f : α → α} (h : ∀ a b, R a b → R (f a) (f b)) :
    ∀ l : List α, l.Pairwise R → (l.map f).Pairwise R := by
  intro l
  induction l with
  | nil => intro _; exact .nil
  | cons a l ih =>
    intro hp
    rw [List.pairwise_cons] at hp
    rw [List.map_cons, List.pairwise_cons]
    refine ⟨fun y hy => ?_, ih hp.2⟩
    obtain ⟨x, hx, rfl⟩ := List.mem_map.mp hy
    exact h a x (hp.1 x hx)

/-- The queue keeps its limit and never holds two LANE notices for one lane. -/
theorem ReportBuilder.take_sound (r : ReportBuilder) (n : Notice) (h : r.sound) : (r.take n).sound := by
  simp only [ReportBuilder.take]; split
  · simp only [ReportBuilder.enqueue]; split
    · refine ⟨by simpa using h.1, ?_⟩
      refine pairwise_map_of_keeps (f := fun q => if q.sameLane n then q.updatedBy n else q) (fun a b hab => ?_) _ h.2
      split <;> split
      · rename_i ha hb; rw [Notice.sameLane_updatedBy ha, Notice.sameLane_right hb]; exact hab
      · rename_i ha _; rw [Notice.sameLane_updatedBy ha]; exact hab
      · rename_i _ hb; rw [Notice.sameLane_right hb]; exact hab
      · exact hab
    · rename_i hany
      split
      · rename_i hl
        refine ⟨by simp; omega, ?_⟩
        rw [List.pairwise_append]
        refine ⟨h.2, List.pairwise_singleton .., fun q hq p hp => ?_⟩
        rw [List.mem_singleton] at hp
        subst hp
        have hn : ¬ (r.queue.any (·.sameLane p) = true) := hany
        rw [List.any_eq_true] at hn
        rcases hs : q.sameLane p with _ | _
        · rfl
        · exact absurd ⟨q, hq, hs⟩ hn
      · exact h
  · exact h

theorem Posted.sound {r r' : ReportBuilder} (h : Posted r r') (hr : r.sound) : r'.sound :=
  h.keeps (P := ReportBuilder.sound) ReportBuilder.take_sound hr

theorem Posted.enabled_eq {r r' : ReportBuilder} (h : Posted r r') : r'.enabled = r.enabled :=
  h.keeps (P := fun x => x.enabled = r.enabled) (fun x n hx => (ReportBuilder.take_enabled x n).trans hx) rfl

theorem Posted.front {r r' : ReportBuilder} (h : Posted r r') {front rest : List Notice} (hr : r.queue = front ++ rest)
    (hf : ∀ q ∈ front, q.isLane = false) : ∃ rest' : List Notice, r'.queue = front ++ rest' :=
  h.keeps (P := fun x => ∃ rest' : List Notice, x.queue = front ++ rest')
    (fun x n ⟨rest', hx⟩ => ReportBuilder.take_front x n front rest' hx hf) ⟨rest, hr⟩

/-- A queue that has been emptied is sound. -/
theorem ReportBuilder.emptied_sound (r : ReportBuilder) : r.emptied.sound :=
  ⟨Nat.zero_le _, .nil⟩

theorem ReportBuilder.powerOn_sound : ReportBuilder.powerOn.sound :=
  ⟨Nat.zero_le _, .nil⟩

/-- What is left when the notices of a packet have gone is sound. -/
theorem ReportBuilder.dropped_sound (r : ReportBuilder) (k : Nat) (h : r.sound) (lost : Bool) (recent : ClassFlags) :
    ({ r with queue := r.queue.drop k, lost := lost, recent := recent } : ReportBuilder).sound :=
  ⟨by have := h.1; simp; omega, h.2.sublist (List.drop_sublist k _)⟩

end Sys2Proof.Machine
end

