-- ==== Sys2Proof/Laws/Operands.lean ====
section
/-! SUPPORT. How a naming parameter reads: from its byte's number to what it names, and when it names nothing. -/

namespace Sys2Proof.Machine

theorem readLane_of {v : Byte} {n : LaneId} (h : v.toNat = n.val + 1) : readLane v = some n := by
  unfold readLane
  rw [dif_pos (by omega)]
  simp only [Option.some.injEq, Fin.ext_iff]
  omega

theorem readLane_none {v : Byte} (h : v.toNat = 0 ∨ 24 < v.toNat) : readLane v = none := by
  unfold readLane
  rw [dif_neg (by omega)]

theorem readLayer_of {v : Byte} {l : LayerId} (h : v.toNat = l.val + 1) : readLayer v = some l := by
  unfold readLayer
  rw [dif_pos (by omega)]
  simp only [Option.some.injEq, Fin.ext_iff]
  omega

theorem readLayer_none {v : Byte} (h : v.toNat = 0 ∨ 4 < v.toNat) : readLayer v = none := by
  unfold readLayer
  rw [dif_neg (by omega)]

theorem readSlot_of {v : Byte} {m : SlotId} (h : v.toNat = m.val + 1) : readSlot v = some m := by
  unfold readSlot
  rw [dif_pos (by omega)]
  simp only [Option.some.injEq, Fin.ext_iff]
  omega

theorem readSlot_none {v : Byte} (h : v.toNat = 0 ∨ 8 < v.toNat) : readSlot v = none := by
  unfold readSlot
  rw [dif_neg (by omega)]

theorem readLoadableCurve_of {v : Byte} {k : CurveId} (h : v.toNat = k.val + 1) : readLoadableCurve v = some k := by
  unfold readLoadableCurve
  rw [dif_pos (by omega)]
  simp only [Option.some.injEq, Fin.ext_iff]
  omega

theorem readLoadableCurve_none {v : Byte} (h : v.toNat = 0 ∨ 4 < v.toNat) : readLoadableCurve v = none := by
  unfold readLoadableCurve
  rw [dif_neg (by omega)]

/-- What a bank's byte read as determines the byte. -/
theorem bankByte_of {v : Byte} {bank : BankId} (h : readBank v = some bank) : bankByte bank = v := by
  unfold readBank at h
  split at h
  · rename_i e; cases h; exact (BitVec.eq_of_toNat_eq e).symm
  · rename_i e; cases h; exact (BitVec.eq_of_toNat_eq e).symm
  · cases h

theorem laneByte_of {v : Byte} {n : LaneId} (h : v.toNat = n.val + 1) : laneByte n = v := by
  apply BitVec.eq_of_toNat_eq
  simp only [laneByte, byteOf, BitVec.toNat_ofNat]
  omega

theorem layerByte_of {v : Byte} {l : LayerId} (h : readLayer v = some l) : layerByte l = v := by
  unfold readLayer at h
  split at h
  · cases h
    apply BitVec.eq_of_toNat_eq
    simp only [layerByte, byteOf, BitVec.toNat_ofNat]
    omega
  · cases h

/-- A source code names its picture (R53). -/
theorem readSource_of {v : Byte} {src : Source} (h : v.toNat = src.code) : readSource v = some src := by
  unfold readSource
  cases src with
  | black => simp [h, Source.code]
  | lane n =>
    have hn := n.isLt
    simp only [Source.code, laneCode] at h
    simp only
    rw [if_neg (by omega), dif_pos (by omega)]
    simp only [Option.some.injEq, Source.lane.injEq, Fin.ext_iff]
    omega
  | meAProgramme => simp [h, Source.code]
  | slot m =>
    have hm := m.isLt
    simp only [Source.code, slotCode] at h
    simp only
    rw [if_neg (by omega), dif_neg (by omega), if_neg (by omega), dif_pos (by omega)]
    simp only [Option.some.injEq, Source.slot.injEq, Fin.ext_iff]
    omega
  | matte => simp [h, Source.code]
  | meAPreview => simp [h, Source.code]
  | meBProgramme => simp [h, Source.code]
  | meBPreview => simp [h, Source.code]

theorem readSource_none {v : Byte} (h : 37 < v.toNat) : readSource v = none := by
  unfold readSource
  simp only
  rw [if_neg (by omega), dif_neg (by omega), if_neg (by omega), dif_neg (by omega), if_neg (by omega), if_neg (by omega),
    if_neg (by omega), if_neg (by omega)]

/-- What a source's byte reads as has that code. -/
theorem readSource_code {v : Byte} {src : Source} (h : readSource v = some src) : v.toNat = src.code := by
  unfold readSource at h
  simp only at h
  repeat' split at h
  all_goals cases h
  all_goals simp only [Source.code, laneCode, slotCode]
  all_goals omega

end Sys2Proof.Machine
end

