-- ==== Sys2Proof/Laws/Outputs.lean ====
section
/-! SUPPORT. Which positions the period in progress has, which lines the outputs send, and what a torn period delivers. -/

namespace Sys2Proof.Machine

theorem carries_of_not_started {s : State} (h : s.ref.started = false) (x y : Nat) : s.carries x y = false := by
  simp [State.carries, h]

theorem sends_of_even_period {s : State} (h : s.ref.placed = none) (y : Nat) : s.sends y = true := by
  simp [State.sends, h]

theorem sends_of_uneven_period {s : State} {lines : Nat} (h : s.ref.placed = some lines) (y : Nat) :
    s.sends y = true ↔ s.lineInPeriod y < lines := by
  simp [State.sends, h]

@[simp] theorem output_of_sends {s : State} {y : Nat} (h : s.sends y = true) (p : Option Pixel) : s.output y p = p := by
  simp [State.output, h]

@[simp] theorem output_of_not_sends {s : State} {y : Nat} (h : s.sends y = false) (p : Option Pixel) : s.output y p = none := by
  simp [State.output, h]

theorem mem_startsHaving {starts : List LaneStart} {y : Nat} {start : LaneStart} :
    start ∈ startsHaving starts y ↔ start ∈ starts ∧ y ∉ start.missing := by
  simp [startsHaving]

/-- A line that no start has in time is black (R22). -/
theorem tornSample_of_none {lane : LaneId} {number : PictureNumber} {starts : List LaneStart} {y : Nat}
    (h : ∀ start ∈ starts, y ∈ start.missing) (x : Nat) : tornSample lane number starts x y = Pixel.black := by
  have e : startsHaving starts y = [] :=
    List.eq_nil_iff_forall_not_mem.mpr fun start hs => (mem_startsHaving.mp hs).2 (h start (mem_startsHaving.mp hs).1)
  simp [tornSample, e]

/-- A line that some start has in time is delivered as one of the starts that have it received it (R22). -/
theorem tornSample_of_some (lane : LaneId) (number : PictureNumber) {starts : List LaneStart} {y : Nat}
    (h : ∃ start ∈ starts, y ∉ start.missing) :
    ∃ start ∈ starts, y ∉ start.missing ∧ ∀ x : Nat, tornSample lane number starts x y = Raster.sample start.raster x y := by
  obtain ⟨start, hm, hy⟩ := h
  have hlt := Nat.mod_lt (Config.startShown lane number y) (List.length_pos_of_mem (mem_startsHaving.mpr ⟨hm, hy⟩))
  have hget := mem_startsHaving.mp (List.getElem_mem hlt)
  refine ⟨_, hget.1, hget.2, fun x => ?_⟩
  unfold tornSample
  simp only [List.getElem?_eq_getElem hlt, LaneStart.sample]
  rw [if_neg (by simpa using hget.2)]

end Sys2Proof.Machine
end

