-- ==== Sys2Proof/Laws/Records.lean ====
section
/-! SUPPORT. The lane records, the reference state, the curve tables, the matte and the tally sets: what keeps each within its
limits. -/

namespace Sys2Proof.Machine

/-! ### Lanes (R16, R26) -/

theorem Lane.powerOn_sound : Lane.powerOn.sound :=
  ⟨by decide, by decide, by decide, fun _ => rfl, fun h => by cases h⟩

theorem Lane.restarted_sound (l : Lane) : l.restarted.sound :=
  ⟨Nat.le_of_ble_eq_true rfl, Nat.le_of_ble_eq_true rfl, Nat.zero_le _, fun _ => rfl, fun h => by cases h⟩

theorem Lane.moved_sound {l : Lane} (h : l.sound) (target : LaneState) : (l.moved target).sound := by
  refine ⟨h.1, h.2.1, Nat.zero_le _, fun _ => rfl, fun ht => ?_⟩
  have ht : target = .locked := ht
  simp only [Lane.moved, ht, if_true]

theorem Lane.presenceFollowed_sound {l : Lane} (h : l.sound) : l.presenceFollowed.sound := by
  unfold Lane.presenceFollowed; split
  · split
    · exact h
    · exact Lane.moved_sound h _
  · split
    · exact Lane.moved_sound h _
    · exact h

theorem Lane.judged_sound {l : Lane} (h : l.sound) (aligned : Bool) : (l.judged aligned).sound := by
  unfold Lane.judged; split
  · exact h
  · rename_i e
    split
    · split
      · exact Lane.moved_sound h _
      · rename_i hlt
        have hs := h.2.1
        refine ⟨h.1, h.2.1, ?_, fun hn => absurd e hn, fun hl => ?_⟩
        · show l.good + 1 ≤ 14
          omega
        · have hl : l.state = .locked := hl
          rw [e] at hl; cases hl
    · exact ⟨h.1, h.2.1, Nat.zero_le _, fun _ => rfl, h.2.2.2.2⟩
  · split
    · exact h
    · exact Lane.moved_sound h _

/-- Windows may change freely. -/
theorem Lane.sound_windows {l : Lane} (h : l.sound) (detector tracking : Bool) (reaching carried noted : List StartNote) :
    ({ l with
        detector := detector, tracking := tracking, reaching := reaching, carried := carried, noted := noted } : Lane).sound := h

theorem lanesSound_of_eq {s t : State} (h : t.lanes = s.lanes) (hs : s.lanesSound) : t.lanesSound := by
  intro n
  unfold State.lane
  rw [h]
  exact hs n

theorem lanesSound_setLane {s : State} {n : LaneId} {x : Lane} (hs : s.lanesSound) (hx : x.sound) : (s.setLane n x).lanesSound := by
  intro k
  by_cases e : k = n
  · subst e; rw [State.lane_setLane]; exact hx
  · rw [State.lane_setLane_of_ne _ _ e]; exact hs k

theorem lanesSound_moveLane {s : State} (n : LaneId) (target : LaneState) (hs : s.lanesSound) : (moveLane n target s).lanesSound :=
  lanesSound_of_eq rfl (lanesSound_setLane hs (Lane.moved_sound (hs n) target))

theorem lanesSound_lanesWork {before s : State} (hs : s.lanesSound) : (lanesWork before s).lanesSound := by
  intro n
  rw [lanesWork_lane]
  have h := Lane.presenceFollowed_sound (l := (s.lane n).shifted before) (hs n)
  simp only
  split
  · exact Lane.judged_sound h _
  · exact h

theorem lanesSound_lanesFormatChange {before s : State} (hs : s.lanesSound) : (lanesFormatChange before s).lanesSound := by
  intro n
  rw [lanesFormatChange_lane]
  refine ⟨(hs n).1, (hs n).2.1, Nat.zero_le _, fun _ => rfl, fun h => ?_⟩
  have h : (if (s.lane n).detector then LaneState.acquiring else LaneState.absent) = .locked := h
  split at h <;> cases h

theorem lanesSound_lanesFullReset (s : State) : (lanesFullReset s).lanesSound := by
  intro n
  rw [lanesFullReset_lane]
  refine ⟨Nat.le_of_ble_eq_true rfl, Nat.le_of_ble_eq_true rfl, Nat.zero_le _, fun _ => rfl, fun _ => rfl⟩

theorem lanesSound_lanesFormatNotices {before s : State} (hs : s.lanesSound) : (lanesFormatNotices before s).lanesSound := by
  intro n
  rw [lanesFormatNotices_lane]
  exact hs n

theorem lanesSound_doLaneSet (lane settle fallback : Byte) {s : State} (hs : s.lanesSound) :
    (doLaneSet lane settle fallback s).lanesSound := by
  unfold doLaneSet; split
  · exact hs
  · rename_i n _
    split
    · exact hs
    · refine lanesSound_setLane hs ⟨?_, ?_, (hs n).2.2.1, (hs n).2.2.2.1, (hs n).2.2.2.2⟩ <;> simp only [clampTo] <;> omega

theorem lanesSound_doResync (lane : Byte) {s : State} (hs : s.lanesSound) : (doResync lane s).lanesSound := by
  unfold doResync; split
  · exact hs
  · rename_i n _
    unfold resyncLane; split
    · exact hs
    · rename_i e
      refine lanesSound_setLane hs ⟨(hs n).1, (hs n).2.1, Nat.zero_le _, fun _ => rfl, fun h => ?_⟩
      have h : (s.lane n).state = .locked := h
      rw [e] at h; cases h
    · intro k
      by_cases e : k = n
      · subst e
        rw [moveLane_lane_self, State.lane_setLane]
        refine ⟨(hs k).1, (hs k).2.1, Nat.zero_le _, fun _ => rfl, fun h => by cases h⟩
      · rw [moveLane_lane_of_ne _ _ e, State.lane_setLane_of_ne _ _ e]; exact hs k

theorem lanesSound_laneSignal (n : LaneId) (signal : Bool) {s : State} (hs : s.lanesSound) : (laneSignal n signal s).lanesSound :=
  lanesSound_setLane hs (Lane.sound_windows (hs n) _ _ _ _ _)

theorem lanesSound_laneStart (n : LaneId) (start : LaneStart) {s : State} (hs : s.lanesSound) :
    (laneStart n start s).lanesSound := by
  simp only [laneStart]; split
  · exact lanesSound_setLane hs (Lane.sound_windows (hs n) _ _ _ _ _)
  · exact hs

theorem lanesSound_laneLock (n : LaneId) {s : State} (hs : s.lanesSound) : (laneLock n s).lanesSound := by
  simp only [laneLock]; split
  · intro k
    by_cases e : k = n
    · subst e; rw [judgeLane_lane]; exact Lane.judged_sound (hs k) _
    · rw [(laneWork_judgeLane n true).2 s k e]; exact hs k
  · exact hs

/-! ### The reference state (R6) -/

theorem changeStatus_status (r : RefStatus) (s : State) : (changeStatus r s).ref.status = r := by
  simp only [changeStatus]; split <;> rfl

theorem ReturnState.status_sound (r : ReturnState) : r.status.sound := by
  cases r <;> trivial

theorem judgePicture_status {picture : Option HouseFormat} {lines : Nat} {s : State} (h : s.ref.status.sound) :
    (judgePicture picture lines s).ref.status.sound := by
  unfold judgePicture
  split
  · rw [changeStatus_status]; exact ⟨Nat.le_refl _, by decide⟩
  · exact h
  · rw [changeStatus_status]; exact ⟨Nat.le_refl _, by decide⟩
  · exact h
  · rename_i e
    rw [e] at h
    split
    · split
      · unfold enterLocked
        rw [changeStatus_status]; exact Nat.zero_le _
      · rename_i hg
        refine ⟨Nat.le_add_left .., ?_⟩
        omega
    · exact ⟨Nat.le_refl _, by decide⟩
  · rw [changeStatus_status]; exact ReturnState.status_sound _
  · split
    · exact Nat.zero_le _
    · rw [changeStatus_status]; trivial
  · rw [changeStatus_status]; trivial

theorem rebase_sound {r : RefStatus} (h : r.sound) : (rebase r).sound := by
  cases r <;> exact h

theorem actStart_status (x : ReferenceStart) {s : State} (h : s.ref.status.sound) : (actStart x s).ref.status.sound := by
  unfold actStart; split
  · exact rebase_sound h
  · exact judgePicture_status h

theorem actMissing_status {s : State} (h : s.ref.status.sound) : (actMissing s).ref.status.sound := by
  unfold actMissing; split
  · exact h
  · rw [changeStatus_status]; exact ReturnState.status_sound _
  · split
    · exact Nat.le_refl _
    · rw [changeStatus_status]; trivial
  · exact h

/-! ### Curves (R72, R74) -/

theorem raisePoints_length : ∀ (l : List Nat) (before : Nat), (raisePoints before l).length = l.length := by
  intro l
  induction l with
  | nil => intro _; rfl
  | cons c l ih => intro before; rw [raisePoints, List.length_cons, ih, List.length_cons]

/-- Each raised point is the larger of its own value and the raised point before it (R74, step 3). -/
theorem raisePoints_get : ∀ (l : List Nat) (before i : Nat), i < l.length →
    (raisePoints before l).getD i 0 = max (if i = 0 then before else (raisePoints before l).getD (i - 1) 0) (l.getD i 0) := by
  intro l
  induction l with
  | nil => intro _ i h; exact absurd h (Nat.not_lt_zero _)
  | cons c l ih =>
    intro before i h
    cases i with
    | zero => simp [raisePoints]
    | succ i =>
      have h' : i < l.length := by simpa using h
      have := ih (max before c) i h'
      rw [raisePoints]
      simp only [List.getD_cons_succ, Nat.add_sub_cancel, Nat.succ_ne_zero, if_false]
      rw [this]
      cases i with
      | zero => simp
      | succ i => simp

theorem raisePoints_le {bound : Nat} : ∀ (l : List Nat) (before : Nat), before ≤ bound → (∀ c ∈ l, c ≤ bound) →
    ∀ c ∈ raisePoints before l, c ≤ bound := by
  intro l
  induction l with
  | nil => intro _ _ _ c hc; exact absurd hc (List.not_mem_nil)
  | cons c l ih =>
    intro before hb hl x hx
    rw [raisePoints] at hx
    have hm : max before c ≤ bound := Nat.max_le.mpr ⟨hb, hl c (List.mem_cons_self ..)⟩
    rcases List.mem_cons.mp hx with rfl | hx
    · exact hm
    · exact ih _ hm (fun y hy => hl y (List.mem_cons_of_mem _ hy)) x hx

/-- The list of points 1 to 63 before they are raised. -/
def innerPoints (table : Curve) : List Nat :=
  (table.toList.drop 1).take 63

theorem innerPoints_length (table : Curve) : (innerPoints table).length = 63 := by
  simp [innerPoints]

theorem innerPoints_get (table : Curve) (i : Nat) (h : i < 63) : (innerPoints table).getD i 0 = table[i + 1] := by
  simp [innerPoints, List.getD, h]

theorem correctedPoints_zero (table : Curve) : (correctedPoints table)[0] = 0 := by
  simp [correctedPoints]

theorem correctedPoints_last (table : Curve) : (correctedPoints table)[64] = 1024 := by
  simp [correctedPoints]

theorem correctedPoints_mid (table : Curve) (i : Nat) (h : i < 63) :
    (correctedPoints table)[i + 1] = (raisePoints 0 (innerPoints table)).getD i 0 := by
  simp only [correctedPoints, Vector.getElem_ofFn, innerPoints]
  rw [if_neg (by omega), if_neg (by omega)]
  rfl

/-- Steps 1 to 3 of R74, point by point. -/
theorem correctedPoints_get (table : Curve) (i : Nat) (h : i < 63) :
    (correctedPoints table)[i + 1] = max (if i = 0 then 0 else (correctedPoints table)[i]) table[i + 1] := by
  rw [correctedPoints_mid table i h, raisePoints_get _ _ _ (by rw [innerPoints_length]; exact h), innerPoints_get table i h]
  cases i with
  | zero => simp
  | succ i =>
    simp only [Nat.succ_ne_zero, if_false, Nat.add_sub_cancel]
    rw [correctedPoints_mid table i (by omega)]

theorem correctedPoints_le (table : Curve) (hc : ∀ i : Fin 65, table[i] ≤ 1024) (i : Nat) (h : i < 63) :
    (correctedPoints table)[i + 1] ≤ 1024 := by
  rw [correctedPoints_mid table i h]
  have hlen : i < (raisePoints 0 (innerPoints table)).length := by rw [raisePoints_length, innerPoints_length]; exact h
  have hm : (raisePoints 0 (innerPoints table)).getD i 0 ∈ raisePoints 0 (innerPoints table) := by
    rw [List.getD, List.getElem?_eq_getElem hlen]
    exact List.getElem_mem hlen
  refine raisePoints_le (innerPoints table) 0 (Nat.zero_le _) (fun x hx => ?_) _ hm
  have hx : x ∈ table.toList := List.mem_of_mem_drop (List.mem_of_mem_take hx)
  obtain ⟨j, hj, rfl⟩ := List.getElem_of_mem hx
  have hj' : j < 65 := by simpa using hj
  simpa using hc ⟨j, hj'⟩

/-- R72: a corrected curve is one that the curve store may hold. -/
theorem correctedPoints_sound (table : Curve) (hc : ∀ i : Fin 65, table[i] ≤ 1024) : (correctedPoints table).sound := by
  refine ⟨correctedPoints_zero table, correctedPoints_last table, fun i => ?_⟩
  rcases Nat.lt_or_ge i.val 63 with h | h
  · rw [correctedPoints_get table i.val h]
    by_cases h0 : i.val = 0
    · simp [h0, correctedPoints_zero]
    · rw [if_neg h0]; exact Nat.le_max_left ..
  · have h63 : i = ⟨63, by decide⟩ := Fin.ext (by show i.val = 63; omega)
    subst h63
    have h62 := correctedPoints_le table hc 62 (by decide)
    have h64 := correctedPoints_last table
    generalize correctedPoints table = x at h62 h64 ⊢
    show x[63] ≤ x[64]
    rw [h64]
    exact h62

theorem clampedPoints_le (points : Vector Word16 65) (i : Fin 65) : (clampedPoints points)[i] ≤ 1024 := by
  simp only [clampedPoints, Fin.getElem_fin, Vector.getElem_map, clampTo]
  omega

theorem Curve.powerOn_sound : Curve.powerOn.sound := by
  refine ⟨by simp [Curve.powerOn], by simp [Curve.powerOn], fun i => ?_⟩
  simp only [Curve.powerOn, Vector.getElem_ofFn]
  omega

theorem curvesSound_of_eq {s t : State} (h : t.curves = s.curves) (hs : s.curvesSound) : t.curvesSound := by
  intro k
  unfold State.curve
  rw [h]
  exact hs k

theorem curvesSound_powerOn {s : State} (h : s.curves = Vector.replicate 4 Curve.powerOn) : s.curvesSound := by
  intro k
  have : s.curve k = Curve.powerOn := by simp [State.curve, h]
  rw [this]
  exact Curve.powerOn_sound

theorem curvesSound_doLoadCurve (curve : Byte) (points : Vector Word16 65) {s : State} (hs : s.curvesSound) :
    (doLoadCurve curve points s).curvesSound := by
  unfold doLoadCurve; split
  · exact hs
  · rename_i k _
    have h : ∀ j : CurveId, ((s.curves.set k (correctedPoints (clampedPoints points)))[j]).sound := by
      intro j
      by_cases e : j = k
      · subst e
        simp only [Fin.getElem_fin, Vector.getElem_set_self]
        exact correctedPoints_sound _ (clampedPoints_le points)
      · simp only [Fin.getElem_fin]
        rw [Vector.getElem_set_ne _ _ (fun i => e (Fin.ext i.symm))]
        exact hs j
    simp only [loadCurve]; split <;> exact h

/-! ### The matte (R54, R62) -/

theorem matteComponent_toNat (w : Word16) : (matteComponent w).toNat = max 4 (min 1019 w.toNat) := by
  simp only [matteComponent, clampTo, BitVec.toNat_ofNat]
  omega

theorem matteSound_of_eq {s t : State} (h : t.matrix.matte = s.matrix.matte) (hs : s.matteSound) : t.matteSound := by
  unfold State.matteSound at *
  rw [h]
  exact hs

theorem matteSound_doMatte (y cb cr : Word16) (s : State) : (doMatte y cb cr s).matteSound := by
  refine ⟨⟨?_, ?_⟩, ⟨?_, ?_⟩, ?_, ?_⟩ <;> simp only [doMatte, matteComponent_toNat] <;> omega

/-! ### The tally sets (R171) -/

theorem and_and_not (x y : TallySet) : x &&& (y &&& ~~~x) = 0 := by
  apply BitVec.eq_of_getLsbD_eq
  intro i hi
  simp only [BitVec.getLsbD_and, BitVec.getLsbD_not, hi, decide_true, Bool.true_and]
  cases x.getLsbD i <;> simp

theorem tallyDisjoint_formTally (s : State) : (formTally s).tallyDisjoint :=
  and_and_not ..

end Sys2Proof.Machine
end

