-- ==== Sys2Proof/Laws/Reference.lean ====
section
/-! SUPPORT. What the classification of a reference picture answers, the record fields that entering LOCKED and beginning a period
write, and which field a switch line begins. -/

namespace Sys2Proof

/-! ### Classification (R5) -/

theorem PictureMeasure.isOf_iff (m : PictureMeasure) (f : HouseFormat) :
    m.isOf f = true ↔
      m = { total := f.total, samples := f.width, active := f.height, interlaced := f.interlaced, length := f.period } := by
  cases m
  simp [PictureMeasure.isOf, and_assoc]

/-- No measured picture is of two formats. -/
theorem PictureMeasure.isOf_unique {m : PictureMeasure} {f g : HouseFormat} (hf : m.isOf f = true) (hg : m.isOf g = true) :
    f = g := by
  rw [PictureMeasure.isOf_iff] at hf hg
  rw [hf] at hg
  revert hg
  cases f <;> cases g <;> decide

theorem PictureMeasure.format_eq_some_iff (m : PictureMeasure) (f : HouseFormat) : m.format = some f ↔ m.isOf f = true := by
  constructor
  · exact fun h => List.find?_some h
  · intro h
    cases e : m.format with
    | none => exact absurd h (by simpa using List.find?_eq_none.mp e f (by cases f <;> decide))
    | some g => exact congrArg some (PictureMeasure.isOf_unique (List.find?_some e) h)

theorem PictureMeasure.format_eq_none_iff (m : PictureMeasure) : m.format = none ↔ ∀ f, m.isOf f = false := by
  constructor
  · intro h f
    exact Bool.eq_false_iff.mpr fun e => by simp [(m.format_eq_some_iff f).mpr e] at h
  · intro h
    cases e : m.format with
    | none => rfl
    | some f => exact absurd ((m.format_eq_some_iff f).mp e) (by simp [h f])

namespace Machine

/-! ### The measured picture (R5) -/

theorem expectedLead_arrived {r : ReferenceUnit} (h : r.status = rebase r.status) : expectedLead r = 0 := by
  unfold expectedLead
  split <;> simp_all [rebase]

theorem measuredPicture_of_lead {r : ReferenceUnit} (h : expectedLead r = 0) (x : ReferenceStart) :
    measuredPicture r x = x.picture := by
  simp [measuredPicture, h]

/-! ### Entering LOCKED and beginning a period (R9, R3) -/

@[simp] theorem placeSwitchLine_placed (lines : Nat) (s : State) : (placeSwitchLine lines s).ref.placed = some lines := rfl

@[simp] theorem placeSwitchLine_change (lines : Nat) (s : State) : (placeSwitchLine lines s).ref.change = s.ref.change := rfl

@[simp] theorem beginPeriod_ref (p : FieldParity) (s : State) :
    (beginPeriod p s).ref = { s.ref with picture := s.ref.picture + 1, placed := none, started := true } := rfl

@[simp] theorem beginPeriod_parity (p : FieldParity) (s : State) : (beginPeriod p s).parity = s.nextParity p := rfl

/-! ### The field that a switch line begins (R1, R10, R15) -/

theorem nextParity_of_progressive {s : State} (h : s.ref.house.interlaced = false) (p : FieldParity) : s.nextParity p = .first := by
  simp [State.nextParity, h]

theorem nextParity_of_not_started {s : State} (h : s.ref.started = false) (p : FieldParity) : s.nextParity p = .first := by
  simp [State.nextParity, h]

theorem nextParity_of_follows {s : State} (hi : s.ref.house.interlaced = true) (hs : s.ref.started = true)
    (h : s.followsReference = true) (p : FieldParity) : s.nextParity p = p := by
  simp [State.nextParity, hi, hs, h]

theorem nextParity_of_internal {s : State} (hi : s.ref.house.interlaced = true) (hs : s.ref.started = true)
    (h : s.followsReference = false) (p : FieldParity) : s.nextParity p = otherField s.parity := by
  simp [State.nextParity, hi, hs, h]

end Machine

end Sys2Proof
end

