-- ==== Sys2Proof/Laws/Store.lean ====
section
/-! SUPPORT. What each operation of the still store does to the slots, the wait queue and the ports, and that each keeps them in
agreement. -/

namespace Sys2Proof.Machine

/-! ### Slots -/

/-- Writes the record of a slot in the store. -/
def Store.setSlot (x : Store) (m : SlotId) (slot : Slot) : Store :=
  { x with slots := x.slots.set m slot }

theorem Store.slots_set_self (x : Store) (m : SlotId) (slot : Slot) : (x.slots.set m slot)[m] = slot := by
  simp

theorem Store.slots_set_of_ne (x : Store) {m k : SlotId} (slot : Slot) (h : k ≠ m) :
    (x.slots.set m slot)[k] = x.slots[k] := by
  simp only [Fin.getElem_fin]
  exact Vector.getElem_set_ne _ _ (fun e => h (Fin.ext e.symm))

/-! ### The six clauses of `Store.sound`, one at a time -/

theorem Store.sound.not_grabbing_of_mem {x : Store} (h : x.sound) {m : SlotId} (hm : m ∈ x.queue.map (·.slot)) :
    x.slots[m].state = .waiting := (h.2.2.2.1 m).mpr hm

theorem Store.sound.no_port_of_mem {x : Store} (h : x.sound) {m : SlotId} (hm : m ∈ x.queue.map (·.slot)) :
    x.ports[0] ≠ some m ∧ x.ports[1] ≠ some m := by
  have hw := h.not_grabbing_of_mem hm
  have hg := h.2.2.2.2.1 m
  rw [hw] at hg
  simp only [SlotState.isGrabbing] at hg
  exact ⟨fun e => Bool.noConfusion (hg.mpr (.inl e)), fun e => Bool.noConfusion (hg.mpr (.inr e))⟩

/-- Content may change freely. -/
theorem Store.sound_setContent {x : Store} (h : x.sound) (m : SlotId) (c : Option Picture) :
    (x.setSlot m { x.slots[m] with content := c }).sound := by
  have hs : ∀ k : SlotId, (x.setSlot m { x.slots[m] with content := c }).slots[k].state = x.slots[k].state := by
    intro k
    by_cases e : k = m
    · subst e; simp [Store.setSlot]
    · simp only [Store.setSlot]; rw [Store.slots_set_of_ne _ _ e]
  exact ⟨h.1, h.2.1, h.2.2.1, fun k => by rw [hs]; exact h.2.2.2.1 k, fun k => by rw [hs]; exact h.2.2.2.2.1 k, h.2.2.2.2.2⟩

/-- The wait queue without the entry of a slot. -/
def Store.without (x : Store) (m : SlotId) : List GrabEntry :=
  x.queue.filter (fun e => e.slot ≠ m)

theorem Store.mem_without {x : Store} {m k : SlotId} :
    k ∈ (x.without m).map (·.slot) ↔ k ∈ x.queue.map (·.slot) ∧ k ≠ m := by
  simp only [Store.without, List.mem_map, List.mem_filter, decide_eq_true_eq]
  constructor
  · rintro ⟨e, ⟨he, hne⟩, rfl⟩
    exact ⟨⟨e, he, rfl⟩, hne⟩
  · rintro ⟨⟨e, he, rfl⟩, hne⟩
    exact ⟨e, ⟨he, hne⟩, rfl⟩

theorem Store.nodup_without {x : Store} (h : (x.queue.map (·.slot)).Nodup) (m : SlotId) :
    ((x.without m).map (·.slot)).Nodup :=
  h.sublist ((List.filter_sublist (l := x.queue)).map _)

theorem Store.length_without (x : Store) (m : SlotId) : (x.without m).length ≤ x.queue.length :=
  List.length_filter_le ..

/-- A WAITING slot becomes IDLE with any content, and its entry goes. -/
theorem Store.sound_drop {x : Store} (h : x.sound) (m : SlotId) (hm : m ∈ x.queue.map (·.slot)) (c : Option Picture) :
    ({ x with slots := x.slots.set m { state := .idle, content := c }, queue := x.without m } : Store).sound := by
  have hp := h.no_port_of_mem hm
  refine ⟨Nat.le_trans (x.length_without m) h.1, Store.nodup_without h.2.1 m,
    fun e he => h.2.2.1 e (List.mem_filter.mp he).1, fun k => ?_, fun k => ?_, h.2.2.2.2.2⟩
  · by_cases e : k = m
    · subst e
      simp only [Store.slots_set_self]
      exact ⟨fun e => (by cases e), fun e => absurd rfl (Store.mem_without.mp e).2⟩
    · simp only [Store.slots_set_of_ne _ _ e]
      rw [h.2.2.2.1 k]
      exact ⟨fun hk => Store.mem_without.mpr ⟨hk, e⟩, fun hk => (Store.mem_without.mp hk).1⟩
  · by_cases e : k = m
    · subst e
      simp only [Store.slots_set_self]
      exact ⟨fun e => (by cases e), fun e => (by rcases e with e | e <;> simp_all)⟩
    · simp only [Store.slots_set_of_ne _ _ e]
      exact h.2.2.2.2.1 k

/-- A GRABBING slot becomes IDLE with any content, and its port becomes free. -/
theorem Store.sound_release {x : Store} (h : x.sound) (m : SlotId) (hm : x.slots[m].state.isGrabbing = true)
    (c : Option Picture) :
    ({ x with
        slots := x.slots.set m { state := .idle, content := c }
        ports := x.ports.map (fun p => if p = some m then none else p) } : Store).sound := by
  have hq : m ∉ x.queue.map (·.slot) := by
    intro hq
    rw [h.not_grabbing_of_mem hq] at hm
    exact Bool.noConfusion hm
  refine ⟨h.1, h.2.1, h.2.2.1, fun k => ?_, fun k => ?_, ?_⟩
  · by_cases e : k = m
    · subst e
      simp only [Store.slots_set_self]
      exact ⟨fun e => (by cases e), fun e => absurd e hq⟩
    · simp only [Store.slots_set_of_ne _ _ e]
      exact h.2.2.2.1 k
  · simp only [Vector.getElem_map]
    by_cases e : k = m
    · subst e
      simp only [Store.slots_set_self]
      refine ⟨fun e => (by cases e), fun e => ?_⟩
      rcases e with e | e <;> split at e <;> first | exact absurd e (by simp) | contradiction
    · simp only [Store.slots_set_of_ne _ _ e]
      rw [h.2.2.2.2.1 k]
      constructor
      · rintro (e' | e')
        · exact .inl (by rw [e', if_neg (fun i => e (Option.some.inj i))])
        · exact .inr (by rw [e', if_neg (fun i => e (Option.some.inj i))])
      · rintro (e' | e')
        · split at e'
          · cases e'
          · exact .inl e'
        · split at e'
          · cases e'
          · exact .inr e'
  · simp only [Vector.getElem_map]
    rcases h.2.2.2.2.2 with e | e
    · left; rw [e]; simp
    · by_cases e0 : x.ports[0] = some m
      · left; rw [if_pos e0]
      · rw [if_neg e0]
        by_cases e1 : x.ports[1] = some m
        · rw [if_pos e1]
          by_cases e2 : x.ports[0] = none
          · exact .inl e2
          · exact .inr e2
        · rw [if_neg e1]; exact .inr e

/-- A WAITING slot becomes GRABBING through a free port, and its entry goes. -/
theorem Store.sound_begin {x : Store} (h : x.sound) (m : SlotId) (hm : m ∈ x.queue.map (·.slot)) (p : Fin 2)
    (hp : x.ports[p] = none) (src : Source) (number : PictureNumber) (c : Option Picture) :
    ({ slots := x.slots.set m { state := .grabbing src number, content := c }
       queue := x.without m
       ports := x.ports.set p (some m) } : Store).sound := by
  have hn := h.no_port_of_mem hm
  refine ⟨Nat.le_trans (x.length_without m) h.1, Store.nodup_without h.2.1 m,
    fun e he => h.2.2.1 e (List.mem_filter.mp he).1, fun k => ?_, fun k => ?_, ?_⟩
  · by_cases e : k = m
    · subst e
      simp only [Store.slots_set_self]
      exact ⟨fun e => (by cases e), fun e => absurd rfl (Store.mem_without.mp e).2⟩
    · simp only [Store.slots_set_of_ne _ _ e]
      rw [h.2.2.2.1 k]
      exact ⟨fun hk => Store.mem_without.mpr ⟨hk, e⟩, fun hk => (Store.mem_without.mp hk).1⟩
  · have hp2 : p = 0 ∨ p = 1 := by omega
    by_cases e : k = m
    · subst e
      simp only [Store.slots_set_self]
      refine ⟨fun _ => ?_, fun _ => rfl⟩
      rcases hp2 with rfl | rfl <;> simp
    · simp only [Store.slots_set_of_ne _ _ e]
      rw [h.2.2.2.2.1 k]
      have hmk : ¬ (some m : Option SlotId) = some k := fun i => e (Option.some.inj i).symm
      rcases hp2 with rfl | rfl
      · simp_all
      · simp_all
  · have hp2 : p = 0 ∨ p = 1 := by omega
    rcases hp2 with rfl | rfl
    · right; simpa using fun i => hn.2 i.symm
    · by_cases e2 : x.ports[0] = none
      · left; simpa using e2
      · right; simpa using hn.1

/-- An IDLE slot becomes WAITING with an entry at the back of the queue. -/
theorem Store.sound_queue {x : Store} (h : x.sound) (m : SlotId) (hm : x.slots[m].state = .idle) (hl : x.queue.length < 4)
    (src : Source) (h1 : 1 ≤ src.code) (h2 : src.code ≤ 25) :
    ({ x with
        slots := x.slots.set m { x.slots[m] with state := .waiting }
        queue := x.queue ++ [{ slot := m, source := src, wait := 0 }] } : Store).sound := by
  have hq : m ∉ x.queue.map (·.slot) := by
    intro hq
    rw [h.not_grabbing_of_mem hq] at hm
    cases hm
  have hg : x.ports[0] ≠ some m ∧ x.ports[1] ≠ some m := by
    have hg := h.2.2.2.2.1 m
    rw [hm] at hg
    exact ⟨fun e => Bool.noConfusion (hg.mpr (.inl e)), fun e => Bool.noConfusion (hg.mpr (.inr e))⟩
  refine ⟨by simp only [List.length_append, List.length_singleton]; omega, ?_, fun e he => ?_, fun k => ?_, fun k => ?_,
    h.2.2.2.2.2⟩
  · simp only [List.map_append, List.map_cons, List.map_nil]
    rw [List.nodup_append]
    refine ⟨h.2.1, by simp, fun a ha b hb => ?_⟩
    rw [List.mem_singleton] at hb
    subst hb
    exact fun e => hq (e ▸ ha)
  · rcases List.mem_append.mp he with he | he
    · exact h.2.2.1 e he
    · rw [List.mem_singleton] at he
      subst he
      exact ⟨Nat.zero_le _, h1, h2⟩
  · by_cases e : k = m
    · subst e
      simp only [Store.slots_set_self]
      simp
    · simp only [Store.slots_set_of_ne _ _ e]
      rw [h.2.2.2.1 k]
      simp [e]
  · by_cases e : k = m
    · subst e
      simp only [Store.slots_set_self]
      exact ⟨fun e => (by cases e), fun e => (by rcases e with e | e <;> simp_all)⟩
    · simp only [Store.slots_set_of_ne _ _ e]
      exact h.2.2.2.2.1 k

/-- A wait count changes. -/
theorem Store.sound_wait {x : Store} (h : x.sound) (m : SlotId) (n : Nat) (hn : n ≤ 7) :
    ({ x with queue := x.queue.map (fun e => if e.slot = m then { e with wait := n } else e) } : Store).sound := by
  have hs : (x.queue.map (fun e => if e.slot = m then { e with wait := n } else e)).map (·.slot) = x.queue.map (·.slot) := by
    rw [List.map_map]
    apply List.map_congr_left
    intro e _
    simp only [Function.comp]
    split <;> rfl
  refine ⟨by simpa using h.1, by rw [hs]; exact h.2.1, fun e he => ?_, fun k => by rw [hs]; exact h.2.2.2.1 k,
    h.2.2.2.2.1, h.2.2.2.2.2⟩
  obtain ⟨f, hf, rfl⟩ := List.mem_map.mp he
  have := h.2.2.1 f hf
  split
  · exact ⟨hn, this.2⟩
  · exact this

theorem Store.stopped_sound (x : Store) : x.stopped.sound := by
  refine ⟨Nat.zero_le _, .nil, fun e he => absurd he (List.not_mem_nil), fun m => ?_, fun m => ?_, ?_⟩ <;>
    simp [Store.stopped, SlotState.isGrabbing]

theorem Store.emptied_sound {x : Store} (h : x.sound) : x.emptied.sound := by
  have hs : ∀ k : SlotId, x.emptied.slots[k].state = x.slots[k].state := fun k => by simp [Store.emptied]
  exact ⟨h.1, h.2.1, h.2.2.1, fun k => by rw [hs]; exact h.2.2.2.1 k, fun k => by rw [hs]; exact h.2.2.2.2.1 k, h.2.2.2.2.2⟩

theorem Store.powerOn_sound : Store.powerOn.sound := by
  refine ⟨Nat.zero_le _, .nil, fun e he => absurd he (List.not_mem_nil), fun m => ?_, fun m => ?_, ?_⟩ <;>
    simp [Store.powerOn, Slot.powerOn, SlotState.isGrabbing]

/-! ### The operations -/

theorem freePort_some {s : State} {p : Fin 2} (h : freePort s = some p) : s.store.ports[p] = none := by
  unfold freePort at h
  split at h
  · rename_i e; cases h; exact e
  · split at h
    · rename_i e; cases h; exact e
    · cases h

theorem failGrab_store (m : SlotId) (why : GrabFault) (s : State) :
    (failGrab m why s).store =
      { s.store with slots := s.store.slots.set m { state := .idle, content := (s.slot m).content }, queue := s.store.without m } :=
  rfl

theorem beginGrab_store (p : Fin 2) (e : GrabEntry) (s : State) :
    (beginGrab p e s).store =
      { slots := s.store.slots.set e.slot { state := .grabbing e.source s.ref.picture, content := (s.slot e.slot).content }
        queue := s.store.without e.slot
        ports := s.store.ports.set p (some e.slot) } :=
  rfl

theorem finishGrab_store (m : SlotId) (src : Source) (picture : Picture) (s : State) :
    (finishGrab m src picture s).store =
      { s.store with
        slots := s.store.slots.set m { state := .idle, content := some picture }
        ports := s.store.ports.map (fun p => if p = some m then none else p) } :=
  rfl

theorem completeGrab_sound (period : State) (m : SlotId) (s : State) (h : s.store.sound) :
    (completeGrab period m s).store.sound := by
  unfold completeGrab
  split
  · exact h
  · exact h
  · rename_i e
    rw [finishGrab_store]
    refine Store.sound_release h m ?_ _
    show (s.slot m).state.isGrabbing = true
    rw [e]; rfl

theorem completions_sound (period s : State) (h : s.store.sound) : (completions period s).store.sound := by
  unfold completions
  generalize allSlots = l
  induction l generalizing s with
  | nil => exact h
  | cons m l ih => exact ih _ (completeGrab_sound period m s h)

/-- What the walk does with one entry keeps the store sound, when the entry is in the queue. -/
theorem walkEntry_sound (locked : LaneId → Bool) (e : GrabEntry) (s : State) (h : s.store.sound)
    (he : e.slot ∈ s.store.queue.map (·.slot)) (hw : e.wait ≤ 7) : (walkEntry locked e s).store.sound := by
  unfold walkEntry
  split
  · rw [failGrab_store]; exact Store.sound_drop h _ he _
  · split
    · split
      · rw [failGrab_store]; exact Store.sound_drop h _ he _
      · exact Store.sound_wait h _ _ (by omega)
    · split
      · rename_i p hp
        rw [beginGrab_store]; exact Store.sound_begin h _ he p (freePort_some hp) _ _ _
      · exact h

/-- An entry's part of the walk leaves the entries of other slots in the queue. -/
theorem walkEntry_mem (locked : LaneId → Bool) (e : GrabEntry) (s : State) {m : SlotId} (hm : m ≠ e.slot)
    (h : m ∈ s.store.queue.map (·.slot)) : m ∈ (walkEntry locked e s).store.queue.map (·.slot) := by
  have hw : m ∈ (s.store.without e.slot).map (·.slot) := Store.mem_without.mpr ⟨h, hm⟩
  unfold walkEntry
  split
  · exact hw
  · split
    · split
      · exact hw
      · have hs : (s.store.queue.map (fun f => if f.slot = e.slot then { f with wait := e.wait + 1 } else f)).map (·.slot) =
            s.store.queue.map (·.slot) := by
          rw [List.map_map]
          apply List.map_congr_left
          intro f _
          simp only [Function.comp]
          split <;> rfl
        show m ∈ (s.store.queue.map (fun f => if f.slot = e.slot then { f with wait := e.wait + 1 } else f)).map (·.slot)
        rw [hs]; exact h
    · split
      · exact hw
      · exact h

theorem walk_sound (locked : LaneId → Bool) (s : State) (h : s.store.sound) : (walk locked s).store.sound := by
  have key : ∀ (l : List GrabEntry) (t : State), t.store.sound → (l.map (·.slot)).Nodup →
      (∀ e ∈ l, e.slot ∈ t.store.queue.map (·.slot) ∧ e.wait ≤ 7) →
      (l.foldl (fun t e => walkEntry locked e t) t).store.sound := by
    intro l
    induction l with
    | nil => exact fun t ht _ _ => ht
    | cons e l ih =>
      intro t ht hd hm
      rw [List.map_cons, List.nodup_cons] at hd
      rw [List.foldl_cons]
      refine ih _ (walkEntry_sound locked e t ht (hm e (List.mem_cons_self ..)).1 (hm e (List.mem_cons_self ..)).2) hd.2 ?_
      intro f hf
      refine ⟨walkEntry_mem locked e t (fun i => hd.1 ?_) (hm f (List.mem_cons_of_mem _ hf)).1,
        (hm f (List.mem_cons_of_mem _ hf)).2⟩
      exact List.mem_map.mpr ⟨f, hf, i⟩
  exact key s.store.queue s h h.2.1 (fun e he => ⟨List.mem_map.mpr ⟨e, he, rfl⟩, (h.2.2.1 e he).1⟩)

/-- The store's own work at a switch line. -/
theorem storeWork_sound (period : State) (locked : LaneId → Bool) (s : State) (h : s.store.sound) :
    (storeWork period locked s).store.sound :=
  walk_sound _ _ (completions_sound _ _ h)

theorem readGrabSource_code {code : Byte} {src : Source} (h : readGrabSource code = some src) :
    1 ≤ src.code ∧ src.code ≤ 25 := by
  unfold readGrabSource at h
  split at h
  · rename_i n _; cases h
    have := n.isLt
    simp only [Source.code, laneCode]; omega
  · cases h; decide
  · cases h

theorem doGrab_sound (slot source : Byte) (s : State) (h : s.store.sound) : (doGrab slot source s).store.sound := by
  unfold doGrab
  split
  · exact h
  · split
    · exact h
    · rename_i m _ _ src hsrc
      split
      · exact h
      · split
        · exact h
        · split
          · exact h
          · rename_i hm _ hl
            have hc := readGrabSource_code hsrc
            refine Store.sound_queue h m ?_ (by omega) src hc.1 hc.2
            exact Decidable.not_not.mp hm

theorem withdrawGrab_sound (m : SlotId) (s : State) (h : s.store.sound) : (withdrawGrab m s).store.sound := by
  unfold withdrawGrab
  split
  · exact h
  · rename_i e
    exact Store.sound_drop h m ((h.2.2.2.1 m).mp e) _
  · rename_i e
    refine Store.sound_release h m ?_ _
    show (s.slot m).state.isGrabbing = true
    rw [e]; rfl

theorem doClear_sound (slot : Byte) (s : State) (h : s.store.sound) : (doClear slot s).store.sound := by
  unfold doClear
  split
  · exact h
  · split
    · exact h
    · exact Store.sound_setContent (withdrawGrab_sound _ s h) _ none

theorem queueEntry_mem {s : State} {m : SlotId} {e : GrabEntry} (h : queueEntry s m = some e) :
    e ∈ s.store.queue ∧ e.slot = m := by
  unfold queueEntry at h
  exact ⟨List.mem_of_find?_eq_some h, by simpa using List.find?_some h⟩

theorem grabBegin_sound (m : SlotId) (s : State) (h : s.store.sound) : (grabBegin m s).store.sound := by
  unfold grabBegin
  split
  · exact h
  · rename_i e he
    split
    · exact h
    · split
      · exact h
      · split
        · exact h
        · rename_i p hp
          rw [beginGrab_store]
          exact Store.sound_begin h _ (List.mem_map.mpr ⟨e, (queueEntry_mem he).1, rfl⟩) p (freePort_some hp) _ _ _

theorem grabWaitTimeout_sound (m : SlotId) (s : State) (h : s.store.sound) : (grabWaitTimeout m s).store.sound := by
  unfold grabWaitTimeout
  split
  · exact h
  · rename_i e he
    split
    · exact h
    · split
      · exact h
      · split
        · exact h
        · rw [failGrab_store]
          exact Store.sound_drop h _ (List.mem_map.mpr ⟨e, (queueEntry_mem he).1, (queueEntry_mem he).2⟩) _

end Sys2Proof.Machine
end

