-- ==== Sys2Proof/WellFormed.lean ====
section
/-! DEFINITION. Which commands the inputs of the part can carry: sizes that the framing of R32, R183, R185 and R186 bounds.
A naming parameter or an amount outside its range is well formed: the part refuses or clamps it itself (R51, R52). -/

namespace Sys2Proof

/-- The bytes one keyframe record takes: 6 to 9 (R186). -/
def KeyframeBytes.size (r : KeyframeBytes) : Nat :=
  6 + (if r.layerOn.isSome then 1 else 0) + (if r.layerOff.isSome then 1 else 0) + (if r.preset.isSome then 1 else 0)

/-- The cells and missing lines of a lane picture lie in the largest frame of R1, and the switch lines after a start come one
after the other (R1). -/
def LaneStart.wellFormed (s : LaneStart) : Bool :=
  s.before < s.beyond && s.raster.cells.all (fun c => c.x < 3840 && c.y < 2160) && s.missing.all (· < 2160)

/-- The commands that can be sent: a carrier has at most 255 bytes (R32); an AT carries at most 241 inner parameter bytes
(R185); LOAD_KEYFRAMES carries at least one record in at most 246 parameter bytes (R183, R186). -/
def Instr.wellFormed : Instr → Bool
  | .controlPacket _ carrier => carrier.length ≤ 255
  | .lanePictureStart _ start => start.wellFormed
  | .atPicture _ _ _ inner => inner.length ≤ 241
  | .loadKeyframes _ _ records => 1 ≤ records.length && (records.map KeyframeBytes.size).sum ≤ 244
  | .powerOnReset .. | .resetPinAssert .. | .resetPinRelease .. | .referencePictureStart .. | .missingStart ..
  | .switchLine .. | .reportLine .. | .scheduledEntryDue .. | .formatChange .. | .laneSignalChange ..
  | .laneLock .. | .fadeEnd .. | .autoCompletionDue .. | .segmentEnd .. | .syncRelease .. | .grabCompletion ..
  | .grabBegin .. | .grabWaitTimeout .. | .cancel .. | .cancelAll .. | .resetEngine .. | .resetFull ..
  | .laneSet .. | .resync .. | .select .. | .auxSelect .. | .matte .. | .loadCurve .. | .wipeSet .. | .keySet ..
  | .maskSet .. | .transSet .. | .nextSet .. | .cut .. | .auto .. | .lever .. | .layerOn .. | .layerOff ..
  | .layerRate .. | .order .. | .raise .. | .lower .. | .runSet .. | .run .. | .step .. | .hold .. | .abort ..
  | .grab .. | .clear .. | .noticeMask .. | .clearSummary .. => true

end Sys2Proof
end

