-- ==== Sys2Proof/Tests/Slice0.lean ====
section
/-! SUPPORT. Checks of the model's own work: ill-formed commands that the check refuses, worked examples of the spec's rules, and
for each statement with hypotheses a state and operands that meet them. -/

namespace Sys2Proof.Tests

open Sys2Proof.Machine

/-! ### Small states -/

/-- The state after a command. -/
def after (c : Instr) (s : State) : State :=
  match exec c s with
  | .next t => t
  | .fault _ => s
  | .refused _ => s

/-- Reset, with another bank A. -/
def withMe (m : Me) : State :=
  { State.reset with meA := m }

/-- Reset, with another reference state; a picture of the reference input and a picture period are in progress. -/
def withRef (r : RefStatus) (change : Option HouseFormat) : State :=
  { State.reset with
    ref := { status := r, house := .hd1080i50, picture := 0, begun := true, change := change, placed := none, started := true } }

/-- Reset, with other lists in the take unit. -/
def withControl (u : TakeUnit) : State :=
  { State.reset with control := u }

/-- A bank in a drive state. -/
def meIn (drive : Drive) (position : Nat) : Me :=
  { Me.powerOn with drive := drive, position := position }

/-- A bank whose layer L1 is in a state. -/
def meLayer (x : LayerState) : Me :=
  Me.powerOn.setLayer 0 { Layer.powerOn with state := x }

/-- A bank in KEYED whose run is in a state, over a table of two entries of two steps to 4096 and 2048. -/
def meRun (r : Run) : Me :=
  { Me.powerOn with
    drive := .keyed
    position := 2048
    run := r
    count := 2
    table :=
      (Me.powerOn.table.set 0 { Keyframe.powerOn with target := 4096, duration := 2 }).set 1
        { Keyframe.powerOn with target := 2048, duration := 2 } }

/-- A still store with slot 1 WAITING for lane 1. -/
def waitingStore (wait : Nat) : Store :=
  { Store.powerOn with
    slots := Store.powerOn.slots.set 0 { state := .waiting, content := none }
    queue := [{ slot := 0, source := .lane 0, wait := wait }] }

/-- A still store with slot 1 GRABBING M/E A's programme. -/
def grabbingStore : Store :=
  { Store.powerOn with
    slots := Store.powerOn.slots.set 0 { state := .grabbing .meAProgramme 7, content := none }
    ports := #v[some 0, none] }

/-- A picture of a format as it is measured. -/
def measureOf (f : HouseFormat) : PictureMeasure :=
  { total := f.total, samples := f.width, active := f.height, interlaced := f.interlaced, length := f.period }

/-- A start of a whole 1080i50 field on the line where it belongs. -/
def goodStart : LaneStart :=
  { after := 556, before := 6, beyond := 568, parity := .first, ended := measureOf .hd1080i50, raster := { ground := Pixel.black, cells := [] },
    missing := [] }

/-- The end of a picture of a format, or of one cut short; 100 lines of the period come before the switch line that R9 would place. -/
def judged (f : Option HouseFormat) : ReferenceStart :=
  { picture :=
      match f with
      | some f => measureOf f
      | none => { measureOf .hd1080i50 with length := 3000 }
    lines := 100 }

/-- The end of a 1080i50 picture drawn out to a length. -/
def drawnOut (length : Nat) : ReferenceStart :=
  { picture := { measureOf .hd1080i50 with length := length }, lines := 100 }

/-- A keyframe record as sent. -/
def record (target duration : Word16) (sync : Byte) (layers : Option Byte) : KeyframeBytes :=
  { target := target, duration := duration, sync := sync, layerOn := layers, layerOff := none, preset := none }

/-! ### Ill-formed commands -/

theorem test_carrier_of_255_bytes : (Instr.controlPacket true (List.replicate 255 0)).wellFormed = true := by decide +kernel

theorem test_carrier_of_256_bytes_is_refused :
    (Instr.controlPacket true (List.replicate 256 0)).wellFormed = false := by decide +kernel

theorem test_at_inner_of_241_bytes : (Instr.atPicture 0 16 241 (List.replicate 241 0)).wellFormed = true := by decide +kernel

theorem test_at_inner_of_242_bytes_is_refused :
    (Instr.atPicture 0 16 242 (List.replicate 242 0)).wellFormed = false := by decide +kernel

theorem test_keyframes_without_a_record_are_refused : (Instr.loadKeyframes 0 0 []).wellFormed = false := by decide

theorem test_keyframes_of_40_records : (Instr.loadKeyframes 0 0 (List.replicate 40 (record 0 1 0 none))).wellFormed = true := by
  decide

theorem test_keyframes_of_41_records_are_refused :
    (Instr.loadKeyframes 0 0 (List.replicate 41 (record 0 1 0 none))).wellFormed = false := by decide

theorem test_cell_outside_every_frame_is_refused :
    (Instr.lanePictureStart 0 { goodStart with raster := { ground := Pixel.black, cells := [⟨3840, 0, Pixel.black⟩] } }).wellFormed =
        false ∧
      (Instr.lanePictureStart 0 { goodStart with raster := { ground := Pixel.black, cells := [⟨0, 2160, Pixel.black⟩] } }).wellFormed =
        false ∧
      (Instr.lanePictureStart 0 { goodStart with missing := [2160] }).wellFormed = false ∧
      (Instr.lanePictureStart 0
          { goodStart with
            raster := { ground := Pixel.black, cells := [⟨3839, 2159, Pixel.black⟩] }, missing := [2159] }).wellFormed =
        true := by decide

theorem test_start_beyond_the_wrong_switch_line_is_refused :
    (Instr.lanePictureStart 0 goodStart).wellFormed = true ∧
      (Instr.lanePictureStart 0 { goodStart with beyond := 6 }).wellFormed = false := by decide

/-! ### The queue -/

theorem test_step_runs_the_front :
    step { State.reset with pending := [.auxSelect 1, .cancelAll] } =
      exec (.auxSelect 1) { State.reset with pending := [.cancelAll] } := rfl

theorem test_empty_queue_idles : step State.reset = .next State.reset := rfl

theorem test_no_row_spells_a_word :
    decodeTableWord 8 2 = none ∧ State.reset.withFetchWord 8 2 = State.reset := ⟨rfl, rfl⟩

/-! ### Reading operands, at the ends of each range -/

theorem test_naming_parameters_at_their_ends :
    [0, 1, 2].map readBank = [some .a, some .b, none] ∧ [0, 1, 24, 25].map readLane = [none, some 0, some 23, none] ∧
      [0, 1, 4, 5].map readLayer = [none, some 0, some 3, none] ∧ [0, 1, 8, 9].map readSlot = [none, some 0, some 7, none] ∧
      [0, 1, 4, 5].map readLoadableCurve = [none, some 0, some 3, none] ∧
      [2, 3, 6, 7, 10, 11].map readBus = [some .dip, some (.fill 0), some (.fill 3), some (.cut 0), some (.cut 3), none] ∧
      [31, 32].map readSelection = [some 31, none] ∧ [15, 16].map readLayerSet = [some 15, none] ∧
      [1, 2].map readSwitch = [some true, none] := by decide

theorem test_source_codes_at_their_ends :
    [0, 1, 24, 25, 26, 33, 34, 35, 37, 38].map readSource =
        [some .black, some (.lane 0), some (.lane 23), some .meAProgramme, some (.slot 0), some (.slot 7), some .matte,
          some .meAPreview, some .meBPreview, none] ∧
      [25, 34, 35].map (readBusSource .a) = [none, some .matte, none] ∧
      [25, 34, 35].map (readBusSource .b) = [some .meAProgramme, some .matte, none] ∧
      [0, 1, 25, 26, 33, 34].map readFallback = [some none, none, none, some (some 0), some (some 7), none] ∧
      [0, 1, 25, 26].map readGrabSource = [none, some (.lane 0), some .meAProgramme, none] := by decide

theorem test_distances_at_their_ends :
    [0, 1, 8388607, 8388608, 16777215].map (relation 0) = [.same, .future, .future, .past, .past] ∧
      distance 16777215 0 = 1 := by decide +kernel

/-! ### Worked examples -/

/-- R70, R73, R78, R82: weights and alphas at chosen points. -/
theorem test_picture_arithmetic :
    mix 64 940 512 = 502 ∧ curveWeight none 2047 = 511 ∧ curveWeight (some Curve.powerOn) 2047 = 512 ∧
      wipeWeight 0 1 0 = 1024 ∧ wipeWeight 0 1 1 = 0 ∧ wipeWeight 1023 0 0 = 0 ∧ wipeWeight 1023 4096 4095 = 1024 ∧
      keyAlpha 64 16 502 = 512 ∧ keyAlpha 64 16 63 = 0 ∧ keyAlpha 64 255 1023 = 1024 := by decide

/-- R137, R139: a segment that falls truncates toward zero. -/
theorem test_falling_segment : segmentPosition 4096 0 1 3 = 2731 ∧ segmentPosition 0 4096 1 3 = 1365 := by decide

/-- R101, R93: an AUTO of rate 25 from REST begins at the take, and its next switch line makes the second step. -/
theorem test_auto_then_a_switch_line :
    ((after (.auto 0) State.reset).meA.drive, (after (.auto 0) State.reset).meA.position) = (.auto 0 25 1, 163) ∧
      (after (.switchLine .first) (after (.auto 0) State.reset)).meA.position = 327 := by decide +kernel

/-- R105: the lever at both ends of REST with pickup set. -/
theorem test_lever_at_its_ends :
    [0, 1, 64, 65, 4031, 4032, 4095, 4096, 5000].map (fun v => (after (.lever 0 v) State.reset).meA.position) =
        [0, 1, 64, 0, 0, 64, 1, 0, 0] ∧
      [0, 64, 65, 4031, 4032, 4096].map (fun v => (after (.lever 0 v) State.reset).meA.pickup) =
        [false, false, true, true, false, false] := by decide

/-- R107, R94: a lever that reaches the end completes, and its sense turns. -/
theorem test_lever_completes :
    let t := after (.lever 0 4096) (withMe { meIn .manual 4000 with pickup := false })
    (t.meA.drive, t.meA.position, t.meA.sense, t.meA.pickup, t.notices.queue.map (·.kind)) =
      (.rest, 0, .reverse, false, [.transitionDone .lever]) := by decide

/-- R117, R118, R115: a fade of rate 25 begins one step in. -/
theorem test_layer_fades :
    ((after (.layerOn 0 1) State.reset).meA.layer 0).state = .rising 1 25 ∧
      ((after (.layerOff 0 1) (withMe (meLayer .on))).meA.layer 0).state = .falling 24 25 := by decide

/-- R126, R127, R125. -/
theorem test_stacking_order :
    (after (.raise 0 2) State.reset).meA.order = [0, 2, 3, 1] ∧ (after (.lower 0 3) State.reset).meA.order = [2, 0, 1, 3] ∧
      (after (.order 1 4 3 2 1) State.reset).meB.order = [3, 2, 1, 0] := by decide

/-- R32 to R35: a packet for unit 0 that carries CUT(0) is accepted and puts it on the take list. -/
theorem test_control_packet_is_cut :
    (after (.controlPacket true [200, 3, 66, 1, 0, 186]) (withRef (.locked 0 .arrived) none)).control.takeList =
        [{ command := .cut 0, late := false }] ∧
      (after (.controlPacket true [200, 3, 66, 1, 0, 187]) (withRef (.locked 0 .arrived) none)).notices.queue.map (·.kind) =
        [.packet .check] := by decide

/-- R38, R39: AT for the next picture joins the take list, for a later one the schedule list. -/
theorem test_at_places_by_distance :
    (after (.atPicture 1 66 1 [0]) State.reset).control.takeList = [{ command := .cut 0, late := false }] ∧
      (after (.atPicture 0 66 1 [0]) State.reset).control.takeList = [{ command := .cut 0, late := true }] ∧
      (after (.atPicture 2 66 1 [0]) State.reset).control.schedule = [{ target := 2, command := .cut 0 }] := by decide

/-- R178, R187, R33: the packet of an empty report is 106 bytes long and sums to 0 past its kind. -/
theorem test_report_packet_sums_to_zero :
    (reportPacket State.reset).length = 106 ∧ byteSum ((reportPacket State.reset).drop 1) = 0 ∧
      (reportPacket State.reset).take 6 = [208, 103, 9, 96, 1, 0] := by decide +kernel

/-- R18: a start in the windows of two periods counts for the later one, also where the period between is shortened so far that
the later window reaches back before its switch line; in the 2160-line formats a start just before a switch line counts for the
period that this switch line begins. -/
theorem test_windows_of_uneven_periods :
    let early : StartNote := { start := { goodStart with before := 6, beyond := 12 }, whole := true }
    let s := State.reset.setLane 0 { Lane.powerOn with carried := [early] }
    s.window 0 = [] ∧ s.received 0 = [early] ∧ ((after (.switchLine .first) s).lane 0).reaching = [early] ∧
      (after (.switchLine .first) s).window 0 = [early] := by decide +kernel

theorem test_windows_in_2160_lines :
    let late : StartNote := { start := { goodStart with before := 13, beyond := 26 }, whole := true }
    let s :=
      { State.reset with ref := { State.reset.ref with house := .uhd2160p50 } }.setLane 0 { Lane.powerOn with noted := [late] }
    s.window 0 = [] ∧ (after (.switchLine .first) s).window 0 = [late] ∧
      ((after (.switchLine .first) (after (.switchLine .first) s)).lane 0).reaching = [] := by decide +kernel

/-- R68: a first field carries the even frame lines and a second field the odd ones, inside the active picture. -/
theorem test_lines_of_a_field :
    let s := withRef .noReference none
    [(0, 0), (0, 1), (1919, 1078), (1919, 1079), (1920, 0), (0, 1080)].map (fun q => s.carries q.1 q.2) =
        [true, false, true, false, false, false] ∧
      { s with parity := .second }.carries 0 1 = true ∧ programOutput s 0 1 = none ∧ (programOutput s 0 0).isSome = true := by
  decide +kernel

/-- Before the first switch line, and while the RESET pin is asserted, the outputs have no sample (log 29). -/
theorem test_no_period_before_the_first_switch_line :
    programOutput State.reset 0 0 = none ∧ auxOutput (after .resetPinAssert (withRef .freeRun none)) 0 0 = none ∧
      (programOutput (after (.switchLine .first) State.reset) 0 0).isSome = true := by decide +kernel

/-- R15, R1: after the power-on values the first switch line begins a first field, whatever the operand, and internal timing gives the
fields in turn; R10: in LOCKED the operand names the field. -/
theorem test_fields_of_the_switch_lines :
    let fields (s : State) (l : List FieldParity) : List FieldParity :=
      (l.foldl (fun q p => (after (.switchLine p) q.1, q.2 ++ [(after (.switchLine p) q.1).parity])) (s, [])).2
    fields State.reset [.second, .second, .second] = [.first, .second, .first] ∧
      fields (withRef (.locked 0 .arrived) none) [.first, .second, .second] = [.first, .second, .second] ∧
      (after (.switchLine .second) (withRef (.locked 0 .arrived) (some .hd1080p50))).parity = .second := by decide +kernel

/-- R1, R5: the pictures of the six formats in the numbers of the table, and pictures of none. -/
theorem test_pictures_are_classified :
    [(PictureMeasure.mk 1125 1920 1080 true 5994).format, (PictureMeasure.mk 1125 1920 1080 true 5000).format,
        (PictureMeasure.mk 1125 1920 1080 false 5994).format, (PictureMeasure.mk 1125 1920 1080 false 5000).format,
        (PictureMeasure.mk 2250 3840 2160 false 5994).format, (PictureMeasure.mk 2250 3840 2160 false 5000).format] =
        [some .hd1080i50, some .hd1080i5994, some .hd1080p50, some .hd1080p5994, some .uhd2160p50, some .uhd2160p5994] ∧
      [(PictureMeasure.mk 2250 3840 2160 true 5994).format, (PictureMeasure.mk 1125 1920 1080 true 5993).format,
          (PictureMeasure.mk 1125 1280 720 false 5000).format] =
        [none, none, none] := by decide

/-- R5, R10: after one missing start a picture is measured from the expected start; two periods since the last start that arrived are no
gap, and more than two begin a picture and judge nothing. -/
theorem test_measure_after_a_missing_start :
    (after (.referencePictureStart (drawnOut 11988)) (withRef (.locked 1 .missing) none)).ref.status = .locked 0 .arrived ∧
      (after (.referencePictureStart (drawnOut 11988)) (withRef (.locked 0 .arrived) none)).ref.status = .freeRun ∧
      (after (.referencePictureStart (drawnOut 11989)) (withRef (.locked 0 .arrived) none)).ref.status = .locked 0 .arrived ∧
      (after (.referencePictureStart (drawnOut 5994)) (withRef .noReference none)).ref.status =
        .locking .hd1080i50 1 .noReference .arrived := by decide

/-- R9: in the uneven period the outputs send the lines before the switch line that R9 places, the composers and a grab have the whole
picture, and that switch line ends it. -/
theorem test_uneven_period :
    let s := after (.referencePictureStart (judged (some .hd1080i50))) (withRef (.locking .hd1080i50 7 .freeRun .arrived) none)
    let t := after (.switchLine .second) s
    s.ref.status = .locked 0 .arrived ∧ s.ref.placed = some 100 ∧ (programOutput s 0 198).isSome = true ∧
      programOutput s 0 200 = none ∧ (programmePixel s .b 0 200).isSome = true ∧ t.ref.placed = none ∧ t.parity = .second ∧
      (programOutput t 0 201).isSome = true := by decide +kernel

/-- R22: in a torn period a line that one start has in time is delivered, whichever start the free value names. -/
theorem test_torn_line :
    let late := { goodStart with missing := [5] }
    let early := { goodStart with raster := { ground := { y := 940, cb := 512, cr := 512 }, cells := [] } }
    tornSample 0 1 [late, early, late] 0 5 = { y := 940, cb := 512, cr := 512 } ∧ tornSample 0 1 [late, late] 0 5 = Pixel.black := by
  refine ⟨?_, tornSample_of_none (by decide) 0⟩
  obtain ⟨start, hm, hy, hx⟩ :=
    tornSample_of_some 0 1 (starts := [{ goodStart with missing := [5] },
        { goodStart with raster := { ground := { y := 940, cb := 512, cr := 512 }, cells := [] } },
        { goodStart with missing := [5] }]) (y := 5) ⟨_, List.mem_cons_of_mem _ (List.mem_cons_self ..), by decide⟩
  rw [hx]
  clear hx
  revert start
  decide

/-- R182, R184, R186: commands in their bytes. -/
theorem test_commands_in_bytes :
    readCommand 68 (paramBytes (.lever 1 4096)) = some (some (.lever 1 4096)) ∧
      paramBytes (.lever 1 4096) = [1, 16, 0] ∧
      paramBytes (.loadKeyframes 0 3 [{ record 4096 25 1 (some 9) with preset := some 5 }, record 0 1 0 none]) =
        [0, 3, 16, 0, 0, 25, 1, 5, 9, 5, 0, 0, 0, 1, 0, 0] ∧
      readCommand 96 [0, 3, 16, 0, 0, 25, 1, 5, 9, 5, 0, 0, 0, 1, 0, 0] =
        some (some (.loadKeyframes 0 3 [{ record 4096 25 1 (some 9) with preset := some 5 }, record 0 1 0 none])) ∧
      readCommand 96 [0, 3, 16, 0, 0, 25, 1, 8] = some none ∧ readCommand 51 [0, 1] = some (some (.maskSet 0 1 none)) := by
  decide +kernel

/-! ### States and operands that meet the hypotheses of the statements -/

theorem test_witness_reset_pin_asserted : { State.reset with resetPin := true }.resetPin = true := rfl

/-- HeldEventsAndTheFirstStart: waiting for the report line in LOCKED, a start after a gap, and the first start. -/
theorem test_witness_held_events :
    let s := { withRef (.locked 0 .arrived) none with awaitingReport := true }
    (s.resetPin = false ∧ s.awaitingReport = true ∧ s.ref.status.name = .locked) ∧
      State.reset.awaitingReport = false ∧ State.reset.ref.begun = false ∧ State.reset.ref.status = .noReference ∧
      2 * s.ref.house.period < (drawnOut 11989).picture.length ∧
      (withRef (.locking .hd1080p50 1 .freeRun .missing) none).ref.status = .locking .hd1080p50 1 .freeRun .missing ∧
      (withRef (.locked 1 .missing) none).ref.status = .locked 1 .missing ∧ (withRef .freeRun none).ref.status = .freeRun := by
  decide

/-- UnlockedStatesActOnAPicture: a supported and an unsupported picture in both states. -/
theorem test_witness_unlocked_states :
    [(RefStatus.noReference, none), (.freeRun, none), (.freeRun, some .hd1080p50), (.noReference, some .hd1080p50)].all
        (fun q =>
          let s := withRef q.1 q.2
          !s.resetPin && !s.awaitingReport && s.ref.begun && s.ref.change = q.2 && s.ref.status = q.1) =
        true ∧
      (ReturnState.noReference.status, ReturnState.freeRun.status) = (.noReference, .freeRun) ∧
      (judged (some .hd1080i50)).picture.format = some .hd1080i50 ∧ (judged none).picture.format = none ∧
      (judged none).picture.length ≤ 2 * (withRef .freeRun none).ref.house.period := by decide

/-- LockingActsOnPicturesAndMisses: the seventh and the eighth picture, with and without a change of format, another format and
an unsupported picture, for both return states and both measures of the expected start. -/
theorem test_witness_locking :
    [(1, ReturnState.noReference, ExpectedFrom.arrived), (6, .freeRun, .missing), (7, .freeRun, .arrived)].all
        (fun q =>
          [none, some HouseFormat.hd1080p50].all
            (fun change =>
              let s := withRef (.locking .hd1080i50 q.1 q.2.1 q.2.2) change
              !s.resetPin && !s.awaitingReport && s.ref.begun && s.ref.change = change
                && s.ref.status = .locking .hd1080i50 q.1 q.2.1 q.2.2)) =
        true ∧
      (withRef (.locking .hd1080p50 7 .noReference .arrived) none).ref.house ≠ .hd1080p50 ∧
      [some HouseFormat.hd1080i50, some .uhd2160p50, none].all
          (fun f => (judged f).picture.format = f) =
        true ∧
      { (drawnOut 11988).picture with length := 11988 - HouseFormat.hd1080i50.period }.format = some .hd1080i50 := by decide

/-- LockedActsOnPicturesAndMisses: missing counts 0 and 1, with and without a recorded change. -/
theorem test_witness_locked :
    [(0, ExpectedFrom.arrived, none), (1, .missing, some HouseFormat.hd1080p50)].all
        (fun q =>
          let s := withRef (.locked q.1 q.2.1) q.2.2
          !s.resetPin && !s.awaitingReport && s.ref.begun && s.ref.status = .locked q.1 q.2.1 && s.ref.change = q.2.2) =
      true := by decide

/-- FormatChangeRestartsTheEngine: with a recorded change and without one; every class is enabled. -/
theorem test_witness_format_change :
    (withRef (.locked 0 .arrived) (some .hd1080p50)).ref.change ≠ none ∧ State.reset.ref.change = none ∧
      State.reset.notices.enabled = ClassFlags.all ∧ State.reset.resetPin = false := by decide

/-- LaneInputEventsAndLock and LanesAtASwitchLine: a lane with and without signal in each state, whose next picture locks it and
whose next picture does not; an aligned lane and one that is not. -/
theorem test_witness_lanes :
    [(LaneState.absent, false, 0), (.absent, true, 0), (.acquiring, true, 2), (.acquiring, true, 3), (.acquiring, false, 3),
        (.locked, true, 0), (.locked, false, 0)].all
        (fun q =>
          let s := State.reset.setLane 0 { Lane.powerOn with state := q.1, detector := q.2.1, good := q.2.2 }
          !s.resetPin && s.ref.change.isNone && s.control.takeList = [] && s.control.take = [] && s.control.schedule = []
            && (s.lane 0).state = q.1 && (s.lane 0).detector = q.2.1 && (s.lane 0).good = q.2.2 && (s.lane 0).settle = 4
            && !s.aligned 0) =
        true ∧
      (State.reset.setLane 0
            { Lane.powerOn with
              state := .locked, detector := true, carried := [{ start := goodStart, whole := true }] }).aligned 0 =
        true := by decide

/-- LanesAtASwitchLine: a lane on air that leaves LOCKED, with its class enabled and no notice lost. -/
theorem test_witness_lane_notice :
    let s :=
      { State.reset.setLane 0 { Lane.powerOn with state := .locked, detector := true } with
        tally := { onAir := sourceBit (.lane 0), preview := 0 } }
    let t := after (.switchLine .first) s
    (s.lane 0).state = .locked ∧ s.tally.onAir.getLsbD 1 = true ∧ s.notices.enabled.get .degraded = true ∧
      (t.lane 0).state ≠ (s.lane 0).state ∧ t.notices.lost = false ∧
      t.notices.queue = [{ kind := .lane .acquiring true, cls := .degraded, subject := .lane 1, number := 1 }] ∧
      (t.lane 1).state = (s.lane 1).state := by decide +kernel

/-- LaneSetAndResync: the operands of each clause. -/
theorem test_witness_lane_set :
    (25 : Byte).toNat > 24 ∧ (1 : Byte).toNat = (0 : LaneId).val + 1 ∧ (24 : Byte).toNat = (23 : LaneId).val + 1 ∧
      (26 : Byte).toNat = (0 : SlotId).val + 26 ∧ (33 : Byte).toNat = (7 : SlotId).val + 26 ∧ (25 : Byte).toNat < 26 ∧
      33 < (34 : Byte).toNat := by decide

/-- SelectSetsOneBus and AuxSelectAndMatteWriteTheMatrix: accepted codes at the ends of each bank's range, and refused ones. -/
theorem test_witness_select :
    readBank 0 = some .a ∧ readBus 10 = some (.cut 3) ∧ readBank 2 = none ∧ readBus 11 = none ∧
      (34 : Byte).toNat = Source.matte.code ∧ Source.matte.code ≤ 34 ∧ Source.matte.code ≠ 25 ∧
      (25 : Byte).toNat = Source.meAProgramme.code ∧ 34 < (35 : Byte).toNat ∧ (37 : Byte).toNat = Source.meBPreview.code ∧
      37 < (38 : Byte).toNat := by decide

/-- MixOfTwoSamples, CurveWeightFollowsTheTable, PatternValuesAndWipeWeights and KeyAlphaAndMaskOfALayer: values at the limits, and
a mask with a position inside and one outside it. -/
theorem test_witness_picture_arithmetic :
    State.reset.meA.order = [0, 1, 2, 3] ∧ (1919 < HouseFormat.hd1080i50.width ∧ 1079 < HouseFormat.hd1080i50.height) ∧
      (2 * (1919 : Int) + 1 - HouseFormat.hd1080i50.width).natAbs = 1919 ∧
      (((4096 * (4096 + 1023) / 4096 : Nat) : Int) - 1023 = 4096 ∧ ((0 * (4096 + 1023) / 4096 : Nat) : Int) - 1023 = -1023) ∧
      ((2048 * (4096 + 1023) / 4096 : Nat) : Int) - 1023 = 1536 ∧
      insideMask (some { left := 0, right := 9, top := 0, bottom := 9 }) 9 9 = true ∧
      insideMask (some { left := 0, right := 9, top := 0, bottom := 9 }) 10 9 = false ∧ hasBkgd Me.powerOn.selection = true ∧
      hasBkgd 2 = false := by decide

/-- LoadCurveCorrectsAndStores, WipeKeyAndMaskSettings: operands that are read and operands that are refused. -/
theorem test_witness_settings :
    (4 : Byte).toNat = (3 : CurveId).val + 1 ∧ 4 < (5 : Byte).toNat ∧ readBank 1 = some .b ∧ readWipeShape 3 = some .diamond ∧
      readWipeShape 4 = none ∧ readSwitch 1 = some true ∧ readSwitch 2 = none ∧ readLayer 4 = some 3 ∧ readLayer 0 = none ∧
      readKeyKind 1 = some .linear ∧ readKeyKind 2 = none := by decide

/-- TransitionSettings, CutCompletesAtOnce and AutoStartsTheAutomaticRate: every drive state, an empty selection, a selected layer
that fades, and type CUT. -/
theorem test_witness_transitions :
    [Drive.rest, .manual, .auto 0 25 1, .keyed].all (fun d => (withMe (meIn d 0)).meA.drive = d) = true ∧
      readTransitionType 3 = some .dip ∧ readTransitionType 4 = none ∧ readCurveNumber 4 = some (some 3) ∧
      readCurveNumber 5 = none ∧ (31 : Byte).toNat ≤ 31 ∧ 31 < (32 : Byte).toNat ∧
      { Me.powerOn with selection := 0 }.selection = 0 ∧ Me.powerOn.selection ≠ 0 ∧
      (∃ l : LayerId,
        hasLayer { meLayer (.rising 1 25) with selection := 2 }.selection l = true ∧
          ({ meLayer (.rising 1 25) with selection := 2 }.layer l).state.fading = true) ∧
      (∀ l : LayerId, hasLayer Me.powerOn.selection l = true → (Me.powerOn.layer l).state.fading = false) ∧
      { Me.powerOn with kind := .cut }.kind = .cut ∧ Me.powerOn.kind ≠ .cut := by decide

/-- CompletionEndsATransition: with and without BKGD, and a selected layer in each state. -/
theorem test_witness_completion :
    hasBkgd 31 = true ∧ hasBkgd 30 = false ∧ hasLayer 30 (0 : LayerId) = true ∧ hasLayer 1 (0 : LayerId) = false ∧
      [LayerState.off, .on, .rising 1 25, .falling 24 25].all (fun x => ((meLayer x).layer 0).state = x) = true := by decide

/-- BankAtASwitchLine: a sound bank at REST, in MANUAL, and in an AUTO at the first step and at its end. -/
theorem test_witness_bank_at_a_switch_line :
    State.reset.ref.change = none ∧ State.reset.control = TakeUnit.powerOn ∧ (meIn .rest 0).driveSound ∧
      (meIn .manual 4096).driveSound ∧ (meIn (.auto 0 25 1) 163).driveSound ∧ (meIn (.auto 0 25 25) 4096).driveSound :=
  ⟨rfl, rfl, powerOn_driveSound,
    Me.driveSound_manual powerOn_driveSound.base rfl rfl (by decide) (by decide),
    Me.driveSound_auto powerOn_driveSound.base rfl rfl (by decide) (by decide) (by decide) (by decide) (by decide),
    Me.driveSound_auto powerOn_driveSound.base rfl rfl (by decide) (by decide) (by decide) (by decide) (by decide)⟩

/-- BankAtASwitchLine: a sound KEYED bank inside a segment, and PAUSED. -/
theorem test_witness_keyed_bank_at_a_switch_line :
    (meRun (.mk .running 0 0 1 0)).driveSound ∧ (meRun (.mk .holding 0 0 1 0)).driveSound ∧
      (meRun (.mk .paused 1 0 0 0)).driveSound ∧ ((meRun (.mk .running 0 0 1 0)).entry 0).duration = 2 := by
  have table : ∀ i : Fin 32, ((meRun Run.idle).table[i]).sound := by
    intro i; unfold Keyframe.sound; revert i; decide +kernel
  refine ⟨?_, ?_, ?_, by decide⟩ <;>
    exact
      ⟨by decide, by decide, show 2048 ≤ 4096 by decide, by decide, by decide, by decide, by unfold Me.runSound; simp [meRun] <;> decide,
        by decide, table⟩

/-- LeverDrivesThePosition: the lever drives a bank in REVERSE whose pickup is clear; P is 4096 − v (log 28). -/
theorem test_witness_lever_reversed :
    let s := withMe { meIn .manual 1000 with sense := .reverse, pickup := false }
    s.meA.sense = .reverse ∧ s.meA.pickup = false ∧ (after (.lever 0 2000) s).meA.position = 2096 ∧
      (after (.lever 0 4096) s).meA.position = 0 := by decide

/-- LeverDrivesThePosition: in MANUAL within 64 of P, at the tolerance and past it. -/
theorem test_witness_lever :
    let s := withMe (meIn .manual 1000)
    s.meA.drive = .manual ∧ s.meA.pickup = true ∧ ¬(936 + 64 < s.meA.position) ∧ 935 + 64 < s.meA.position ∧
      s.meA.position + 64 < 1065 ∧ State.reset.meA.drive = .rest ∧ State.reset.meA.position = 0 := by decide

/-- LayerOnAndOffStartOrReverseAFade and LayerRateLevelAndFadeEnd: each layer state, rates 1 and 2, a busy layer, and fades at
their last step and before it. -/
theorem test_witness_layers :
    [LayerState.off, .rising 23 25, .rising 24 25, .on, .falling 1 25, .falling 2 25].all
        (fun x => ((withMe (meLayer x)).meA.layer 0).state = x) =
        true ∧
      ((Me.powerOn.setLayer 0 { Layer.powerOn with rate := 1 }).layer 0).rate = 1 ∧
      hasLayer { meIn .manual 1 with selection := 3 }.selection (0 : LayerId) = true ∧
      { meIn .manual 1 with selection := 3 }.drive ≠ .rest := by decide

/-- RaiseAndLowerMoveOneLayer and OrderReplacesTheStackingOrder: the ends of the order, and lists that are refused. -/
theorem test_witness_order :
    Me.powerOn.order = [0, 1, 2] ++ [3] ∧ (3 : LayerId) ∉ ([0, 1, 2] : List LayerId) ∧
      Me.powerOn.order = 0 :: [1, 2, 3] ∧ (0 : LayerId) ∉ ([1, 2, 3] : List LayerId) ∧ ([4, 3, 2, 1] : List Byte).Nodup ∧
      ¬([1, 1, 2, 3] : List Byte).Nodup ∧ 4 < (5 : Byte).toNat := by decide

/-- KeyframeTableAndRunSettings: records that fit and that do not, a refused record, and each run state. -/
theorem test_witness_keyframes :
    (31 : Byte).toNat + [record 0 1 0 none].length ≤ 32 ∧ 32 < (31 : Byte).toNat + [record 0 1 0 none, record 0 1 0 none].length ∧
      31 < (32 : Byte).toNat ∧ 1 < (record 0 1 2 none).sync.toNat ∧ (record 0 1 1 (some 16)).layerOn = some 16 ∧
      15 < (16 : Byte).toNat ∧ (record 0 1 1 (some 15)).sync.toNat ≤ 1 ∧
      [RunState.idle, .running, .waiting .running, .holding, .paused].all
          (fun x => (withMe (meRun { Run.idle with state := x })).meA.run.state = x) =
        true := by decide

/-- RunAndStepStartOrResumeARun and HoldAndAbortARun: a bank at REST with a count and nothing fading, and P at 0 and elsewhere. -/
theorem test_witness_runs :
    let m := { Me.powerOn with count := 2 }
    m.run.state = .idle ∧ m.drive = .rest ∧ m.count ≠ 0 ∧ m.selection ≠ 0 ∧ m.selectedFading = false ∧
      (meRun { Run.idle with state := .running }).position ≠ 0 ∧
      { meRun { Run.idle with state := .running } with position := 0 }.position = 0 := by decide

/-- SegmentsOfARun: at the end of the first segment, at the end of the last, and within one. -/
theorem test_witness_segments :
    [(0, 1), (0, 2), (1, 2)].all
        (fun q =>
          let m := meRun { Run.idle with state := .running, index := q.1, counter := q.2 }
          m.run.counter ≠ 0 && m.run.index < m.count && (m.entry m.run.index).duration = 2 && !(m.entry 1).sync
            && (m.entry 1).layerOn = 0 && (m.entry 1).preset.isNone && m.endMode = .stop) =
      true := by decide

/-- SegmentsOfARun: arrivals at a next entry that asks for a layer and a source and is a sync entry, at entry 0 of a new pass, and at
the first entry of a run that has just started, with and without a mark of its own. -/
theorem test_witness_arrivals :
    let entry : Keyframe := { Keyframe.powerOn with duration := 2, sync := true, layerOn := 1, preset := some 5 }
    let m := { meRun { Run.idle with state := .running, counter := 2 } with table := Vector.replicate 32 entry, endMode := .loop }
    let t := after (.segmentEnd .a) (withMe m)
    (m.entry m.run.index).duration ≤ m.run.counter ∧ m.run.index + 1 < m.count ∧ m.mark = false ∧ (m.entry 1).sync = true ∧
      (t.meA.run.state, t.meA.run.index, t.meB.mark, t.matrix.busesA.b, (t.meA.layer 0).state) =
        (.waiting .running, 1, true, .lane 4, .rising 1 25) ∧
      (after (.segmentEnd .a) (withMe { m with mark := true })).meA.run =
        { Run.idle with state := .running, index := 1, start := 2048, counter := 1 } ∧
      (after (.segmentEnd .a) (withMe { m with run := { m.run with index := 1, passes := 3 } })).meA.run =
        { Run.idle with state := .waiting .running, passes := 2 } ∧
      (after (.switchLine .first) (withMe { m with mark := true, run := { m.run with counter := 0 } })).meA.run =
        { Run.idle with state := .running, start := 2048, counter := 1 } ∧
      State.reset.meB.run.state = .idle := by decide +kernel

/-- RunsMeetAtSyncEntries: a waiting run with and without a mark, and two banks that arrive at sync entries together. -/
theorem test_witness_sync_entries :
    let m := { meRun { Run.idle with state := .running } with table := Vector.replicate 32 { Keyframe.powerOn with sync := true } }
    let s := { State.reset with meA := m, meB := m }
    (∀ bank : BankId,
      (s.me bank).drive = .keyed ∧ (s.me bank).run.state = .running ∧ (s.me bank).run.counter = 0 ∧
        (s.me bank).run.index < (s.me bank).count ∧ ((s.me bank).entry (s.me bank).run.index).sync = true ∧
        (s.me bank).mark = false) ∧
      [true, false].all
          (fun k =>
            { meRun { Run.idle with state := .waiting .holding } with mark := k }.mark = k
              && { meRun { Run.idle with state := .waiting .holding } with mark := k }.run.state = .waiting .holding) =
        true := by
  refine ⟨fun bank => ?_, by decide⟩
  cases bank <;> decide

/-- RunsMeetAtSyncEntries: at a switch line a WAITING run with a mark begins in its resume state, one without stays, and one begins
together with a run that arrives at a sync entry and finds its mark. -/
theorem test_witness_waiting_at_a_switch_line :
    let sync : Vector Keyframe 32 := Vector.replicate 32 { Keyframe.powerOn with sync := true }
    let m := { meRun { Run.idle with state := .waiting .holding, index := 1 } with table := sync }
    let s := withMe m
    let both := { s with meB := { meRun { Run.idle with state := .running } with table := sync, mark := true } }
    (∀ bank : BankId, (both.me bank).drive = .keyed ↔ (both.me bank).run.state ≠ .idle) ∧
      (after (.switchLine .first) (withMe { m with mark := true })).meA.run =
        { Run.idle with state := .holding, index := 1, start := 2048, counter := 1 } ∧
      (after (.switchLine .first) s).meA = m ∧ both.meB.arrivesAt 0 0 ∧ ¬s.meB.meets ∧
      ((after (.switchLine .first) both).meA.run.state, (after (.switchLine .first) both).meB.run.state) = (.holding, .running) := by
  refine ⟨fun bank => by cases bank <;> decide, by decide +kernel, by decide +kernel,
    ⟨0, ⟨rfl, .inl ⟨rfl, .inl rfl, rfl⟩⟩, .inl ⟨by decide, rfl, rfl⟩⟩, ?_, by decide +kernel⟩
  rintro ⟨_, _, ⟨_, ⟨h, _⟩, _⟩, _⟩
  exact absurd h (by decide)

/-- SegmentsOfARun: a run resumed at an index that a lowered count puts beyond the table's end ends at the switch line, by P. -/
theorem test_witness_run_ends_before_a_segment :
    let m := { meRun { Run.idle with state := .running, index := 1 } with count := 1 }
    m.endsRun ∧
      [0, 2048, 4096].map
          (fun p =>
            let t := after (.switchLine .first) (withMe { m with position := p })
            (t.meA.drive, t.meA.position, t.meA.run.state, t.notices.queue.map (·.kind))) =
        [(.rest, 0, .idle, [.runDone]), (.manual, 2048, .idle, [.runDone]),
          (.rest, 0, .idle, [.runDone, .transitionDone .run])] :=
  ⟨⟨rfl, .inl rfl, .inl ⟨rfl, by decide⟩, .inl rfl⟩, by decide +kernel⟩

/-- GrabAndClearASlot: a slot in each state, on air and not, and a wait queue of three and of four entries. -/
theorem test_witness_grab :
    let onAir := { State.reset with tally := { onAir := sourceBit (.slot 0), preview := 0 } }
    onAir.tally.onAir.getLsbD 26 = true ∧ State.reset.tally.onAir.getLsbD 26 = false ∧
      (State.reset.slot 0).state = .idle ∧ ({ State.reset with store := waitingStore 0 }.slot 0).state = .waiting ∧
      ({ State.reset with store := grabbingStore }.slot 0).state = .grabbing .meAProgramme 7 ∧
      (25 : Byte).toNat = Source.meAProgramme.code ∧ 25 < (26 : Byte).toNat ∧ (8 : Byte).toNat = (7 : SlotId).val + 1 ∧
      8 < (9 : Byte).toNat ∧ (List.replicate 4 (GrabEntry.mk 0 (.lane 0) 0)).length = 4 := by decide

/-- GrabsCompleteBeginAndTimeOut: an entry whose lane is LOCKED or not, with wait count 6 and 7, and a free port. -/
theorem test_witness_grab_steps :
    (waitingStore 7).queue = [] ++ { slot := 0, source := .lane 0, wait := 7 } :: [] ∧ (Source.lane 0).code = 1 ∧
      (waitingStore 6).ports[0] = none ∧ (State.reset.lane 0).state ≠ .locked ∧
      ((State.reset.setLane 0 { Lane.powerOn with state := .locked }).lane 0).state = .locked ∧
      Source.meAProgramme.code = 25 := by decide

/-- GrabsCompleteBeginAndTimeOut: a switch line whose take holds a RESYNC alone; the grab of M/E A's programme completes and the
entry of the lane resynchronised goes on waiting. -/
theorem test_witness_grabs_at_a_switch_line :
    let store :=
      { grabbingStore with
        slots := grabbingStore.slots.set 1 { state := .waiting, content := none }
        queue := [{ slot := 1, source := .lane 0, wait := 3 }] }
    let s :=
      { withControl { TakeUnit.powerOn with takeList := [{ command := .resync 1, late := false }] } with store := store }.setLane 0
        { Lane.powerOn with state := .locked, detector := true, carried := [{ start := goodStart, whole := true }] }
    let t := after (.switchLine .first) s
    s.store.queue = [] ++ { slot := 1, source := .lane 0, wait := 3 } :: [] ∧ (s.slot 0).state = .grabbing .meAProgramme 7 ∧
      s.aligned 0 = true ∧ (t.lane 0).state = .acquiring ∧ (t.slot 0).state = .idle ∧ (t.slot 0).content.isSome = true ∧
      t.store.queue = [{ slot := 1, source := .lane 0, wait := 4 }] ∧ t.notices.lost = false := by decide +kernel

/-- R162: the walk with three entries ready and two ports, one on air, and one whose wait runs out. -/
theorem test_walk_of_the_queue :
    let entry (m : SlotId) (src : Source) : GrabEntry := { slot := m, source := src, wait := 7 }
    let s :=
      { State.reset with
        store :=
          { Store.powerOn with
            slots := Vector.replicate 8 { state := .waiting, content := none }
            queue := [entry 0 .meAProgramme, entry 4 (.lane 0), entry 1 .meAProgramme, entry 2 .meAProgramme, entry 3 .meAProgramme] }
        tally := { onAir := sourceBit (.slot 3), preview := 0 } }
    let t := after (.switchLine .first) s
    allSlots.map (fun m => (t.slot m).state) =
        [.grabbing .meAProgramme 1, .grabbing .meAProgramme 1, .waiting, .idle, .idle, .waiting, .waiting, .waiting] ∧
      t.store.queue = [entry 2 .meAProgramme] ∧
      t.notices.queue.map (·.kind) = [.grabFailed .noSource, .grabFailed .onAir] := by decide +kernel

theorem test_witness_grabs_store_sound : (waitingStore 7).sound ∧ grabbingStore.sound := by
  unfold Store.sound
  decide

/-- ReportBuilderTakesANotice: a class disabled, a LANE notice for a queued lane, and a queue of 31 and of 32. -/
theorem test_witness_notices :
    let n : Notice := { kind := .lane .locked true, cls := .info, subject := .lane 1, number := 0 }
    n.sameLane n = true ∧ { n with subject := .lane 2 }.sameLane n = false ∧
      { ReportBuilder.powerOn with enabled := ClassFlags.clear }.enabled.get n.cls = false ∧
      ReportBuilder.powerOn.enabled.get n.cls = true ∧
      (List.replicate 31 { n with kind := .runDone }).length < 32 ∧ 32 ≤ (List.replicate 32 { n with kind := .runDone }).length ∧
      (List.replicate 32 { n with kind := .runDone }).all (fun q => !q.sameLane n) = true := by decide

/-- MaskAndSummaryFlags, and what the report line holds: operands 1 and 2, and each kind of held event. -/
theorem test_witness_report_line :
    (1 : Byte).toNat ≤ 1 ∧ 1 < (2 : Byte).toNat ∧ (after (.switchLine .first) State.reset).awaitingReport = true ∧
      (after (.switchLine .first) State.reset).held = [] ∧
      (after .missingStart { State.reset with awaitingReport := true }).held = [.missing] ∧
      (after (.referencePictureStart (judged none)) { State.reset with awaitingReport := true }).held =
        [.start (judged none)] ∧
      (after (.controlPacket true [200]) { withRef (.locked 0 .arrived) none with awaitingReport := true }).held =
        [.packet [200]] := by decide +kernel

/-- ReportLineReportsThePeriod: a missing start that ends LOCKED, and a packet held after it, which is discarded. -/
theorem test_witness_held_in_order :
    let s :=
      { withRef (.locked 1 .missing) none with
        awaitingReport := true, held := [.missing, .packet [200, 3, 66, 1, 0, 186]] }
    s.held = [.missing] ++ .packet [200, 3, 66, 1, 0, 186] :: [] ∧
      (carryOut ([HeldEvent.missing].map rowOfHeld) { s with awaitingReport := false, held := [] }).ref.status.name ≠ .locked ∧
      (after .reportLine s).control.takeList = [] := by decide +kernel

/-- TallySetsFollowReEntryAndFallback and ReportPacketLayout: the sound state after reset meets them, with source 25 on air once M/E B
shows it and a lane on air that is not LOCKED and falls back to a slot. -/
theorem test_witness_tally :
    let s := after (.laneSet 1 4 26) (after (.select 0 0 1) (after (.select 1 0 25) State.reset))
    (onAirSet s).getLsbD 25 = true ∧ (onAirSet s).getLsbD 1 = true ∧ (s.lane 0).state ≠ .locked ∧
      (s.lane 0).fallback = some 0 ∧ (onAirSet s).getLsbD 26 = true ∧ (∀ l : LayerId, (s.meA.layer l).state = .off) := by
  decide +kernel

/-- ScheduleListAndTheTake and AtPlacesItsInnerCommand: a due entry, one that is not, full lists, and inner commands of each kind. -/
theorem test_witness_lists :
    let e : ScheduleEntry := { target := 0, command := .cancelAll }
    let s := withControl { TakeUnit.powerOn with schedule := [e] }
    s.control.schedule = e :: [] ∧ e.target = s.ref.picture ∧ { e with target := 5 }.target ≠ s.ref.picture ∧
      readCommand 66 [0] = some (some (.cut 0)) ∧ readCommand 66 [] = some none ∧ readCommand 5 [] = none ∧
      distance (s.ref.picture + 1) 1 = 0 ∧ distance (s.ref.picture + 1) 0 = 16777215 ∧ distance (s.ref.picture + 1) 2 = 1 ∧
      distance (s.ref.picture + 1) 8388608 = 8388607 ∧
      64 ≤ (List.replicate 64 e).length ∧ 128 ≤ (List.replicate 128 (TakeEntry.mk .cancelAll false)).length := by
  decide +kernel

/-- ControlPacketsAreCheckedAndCut: a payload of one byte that sums to 0, one that does not, counts at their ends, a carrier that
is too short, and a window's sixteenth and seventeenth packet. -/
theorem test_witness_packets :
    byteSum [1, 129, 126] = 0 ∧ byteSum [1, 129, 127] ≠ 0 ∧ (248 : Byte).toNat ≤ 248 ∧ 248 < (249 : Byte).toNat ∧
      ([129] : List Byte).length < (1 : Byte).toNat + 1 ∧ (200 : Byte).toNat = 200 + State.reset.unit.toNat ∧
      (after (.controlPacket true [200, 1, 129, 126])
            { withRef (.locked 0 .arrived) none with
              control := { TakeUnit.powerOn with packets := 15 } }).control.packets =
        16 ∧
      (after (.controlPacket true [200, 1, 129, 126])
            { withRef (.locked 0 .arrived) none with
              control := { TakeUnit.powerOn with packets := 16 } }).control.excess =
        true := by decide +kernel

/-- ControlPacketsAreCheckedAndCut: an AT inside a payload, one cut below five bytes, and a command for a full take list. -/
theorem test_witness_payload_with_at :
    (cutPayload 8 [1, 6, 0, 0, 1, 66, 1, 0] State.reset).control.takeList = [{ command := .cut 0, late := false }] ∧
      (cutPayload 6 [1, 4, 0, 0, 1, 66] State.reset).notices.queue.map (·.kind) = [.refused 1 .length] ∧
      (cutPayload 3 [66, 1, 0]
            (withControl
              { TakeUnit.powerOn with
                takeList := List.replicate 128 { command := .cancelAll, late := false } })).notices.queue.map (·.kind) =
        [.refused 66 .full] := by decide +kernel

/-- ScheduleListAndTheTake: a due entry before one that is not, and a take with a late command in front. -/
theorem test_witness_take :
    let due : ScheduleEntry := { target := 0, command := .cut 0 }
    let later : ScheduleEntry := { target := 5, command := .cut 1 }
    let s := withControl { TakeUnit.powerOn with schedule := [due, later], takeList := [{ command := .auto 1, late := true }] }
    s.control.schedule = [due] ++ [later] ∧ due.target = s.ref.picture ∧ later.target ≠ s.ref.picture ∧
      (formTake s).control.take = [{ command := .cut 0, late := false }, { command := .auto 1, late := true }] ∧
      rowOf (.auto 1) = some (.auto 1) ∧ rowOf (.reset 2) = none ∧
      (handOutTake (formTake s)).notices.queue.map (·.kind) = [.transitionDone .cut, .late 67] := by decide +kernel

/-- ScheduleListAndTheTake: a switch line with a due entry, one that is not, and a take list with a RESET of another scope. -/
theorem test_witness_take_at_a_switch_line :
    let due : ScheduleEntry := { target := 1, command := .cut 0 }
    let later : ScheduleEntry := { target := 5, command := .cut 1 }
    let s :=
      withControl
        { TakeUnit.powerOn with schedule := [due, later], takeList := [{ command := .reset 2, late := false }] }
    let t := after (.switchLine .first) s
    s.control.schedule = [due] ++ [later] ∧ due.target = s.ref.picture + 1 ∧ later.target ≠ s.ref.picture + 1 ∧
      s.ref.change = none ∧ 1 < (2 : Byte).toNat ∧ t.control.schedule = [later] ∧
      t.notices.queue.map (·.kind) = [.transitionDone .cut, .refused 4 .target] := by decide +kernel

/-- ScheduleListAndTheTake: the lanes as a take of several commands leaves them; a RESET discards the RESYNC behind it. -/
theorem test_witness_lanes_after_a_take :
    let locked (take : List Command) : Bool :=
      lockedAfterTake
        ((withControl { TakeUnit.powerOn with take := take.map (fun c => { command := c, late := false }) }).setLane 0
          { Lane.powerOn with state := .locked })
        0
    [[Command.cut 0, .resync 1, .auto 0], [.cut 0, .resync 2], [.reset 0, .resync 1], [.reset 2, .resync 1], [.reset 1], []].map locked =
      [false, true, true, false, false, true] := by decide

/-! ### Sound states with a step, for the invariants of every step -/

/-- Reset, with a command waiting. -/
def waiting (c : Instr) : State :=
  { State.reset with pending := [c] }

theorem test_witness_notice_queue_sound :
    (waiting (.cut 2)).notices.sound ∧ step (waiting (.cut 2)) = .next (after (.cut 2) State.reset) :=
  ⟨ReportBuilder.powerOn_sound, rfl⟩

theorem test_witness_store_sound :
    (waiting (.grab 1 1)).store.sound ∧ step (waiting (.grab 1 1)) = .next (after (.grab 1 1) State.reset) :=
  ⟨Store.powerOn_sound, rfl⟩

/-- StepsKeepEveryBusLegal and TallySetsFollowReEntryAndFallback. -/
theorem test_witness_buses_legal :
    (waiting (.select 0 0 1)).busesLegal ∧ step (waiting (.select 0 0 1)) = .next (after (.select 0 0 1) State.reset) := by
  refine ⟨fun bank k => ?_, rfl⟩
  cases bank <;> cases k <;>
    simp [State.buses, waiting, State.reset, Matrix.powerOn, Buses.powerOn, Buses.get, legalOn]

/-- StepsKeepLayersAndOrderSound and ReportPacketLayout. -/
theorem test_witness_layers_sound :
    (∀ bank : BankId, ((waiting (.raise 0 1)).me bank).layersSound) ∧
      step (waiting (.raise 0 1)) = .next (after (.raise 0 1) State.reset) := by
  refine ⟨fun bank => ?_, rfl⟩
  cases bank <;>
    exact
      ⟨fun l => by
        simp [State.me, waiting, State.reset, Me.powerOn, Me.layer, Layer.powerOn, Layer.sound, LayerState.sound],
        List.Perm.refl _⟩

theorem test_witness_drive_sound :
    (∀ bank : BankId, ((waiting (.auto 0)).me bank).driveSound) ∧
      step (waiting (.auto 0)) = .next (after (.auto 0) State.reset) := by
  refine ⟨fun bank => ?_, rfl⟩
  cases bank <;> exact powerOn_driveSound

theorem test_witness_lists_sound :
    (waiting .cancelAll).listsBounded ∧ (waiting .cancelAll).scheduleOrdered ∧
      step (waiting .cancelAll) = .next (after .cancelAll State.reset) :=
  ⟨⟨by decide, by decide, by decide⟩, ⟨fun _ h => absurd h List.not_mem_nil, .nil⟩, rfl⟩

/-- StepsKeepTheRecordsInRange, and the curve tables of CurveWeightFollowsTheTable and BackgroundAtTheEndsAndSteadyPreview. -/
theorem test_witness_records_sound :
    (waiting .reportLine).lanesSound ∧ (waiting .reportLine).ref.status.sound ∧ (waiting .reportLine).heldSound ∧
      (waiting .reportLine).matteSound ∧ (waiting .reportLine).curvesSound ∧ (waiting .reportLine).tallyDisjoint ∧
      step (waiting .reportLine) = .next (after .reportLine State.reset) := by
  refine ⟨fun n => ?_, trivial, fun _ => rfl, by unfold State.matteSound; decide, curvesSound_powerOn rfl, ?_, rfl⟩
  · simp [State.lane, waiting, State.reset, Lane.powerOn_sound]
  · simp [State.tallyDisjoint, waiting, State.reset]

/-- BackgroundAtTheEndsAndSteadyPreview: a look at either end of P with each type, and the middle of a DIP. -/
theorem test_witness_background :
    ({ State.reset.look .a with position := 4096, atRest := false }.atRest = false ∧
        hasBkgd (State.reset.look .a).selection = true ∧ (State.reset.look .a).wipe.softness ≤ 1023 ∧
        (State.reset.look .a).curve = none ∧ (State.reset.look .a).atRest = true) ∧
      1919 < (State.reset.look .a).format.width ∧ 1079 < (State.reset.look .a).format.height ∧
      { State.reset.look .a with kind := .dip, position := 2048 }.position = 2048 := by decide

end Sys2Proof.Tests
end

section
/-! Every step keeps the records within their limits (R2, R6, R16, R26, R54, R72, R171): the six limits as one predicate, what a piece
of work has to leave alone or keep for it, and the operations one by one. -/

namespace Sys2Proof.Machine

/-- The lane records, the reference state, the held events, the matte, the curve tables and the tally sets are within their limits. -/
structure State.RecordsInRange (s : State) : Prop where
  lanes : s.lanesSound
  status : s.ref.status.sound
  held : s.heldSound
  matte : s.matteSound
  curves : s.curvesSound
  tally : s.tallyDisjoint

/-! ### Work that leaves some of the records alone -/

theorem heldSound_of_eq {s t : State} (ha : t.awaitingReport = s.awaitingReport) (hh : t.held = s.held) (h : s.heldSound) :
    t.heldSound := by
  unfold State.heldSound
  rw [ha, hh]
  exact h

theorem tallyDisjoint_of_eq {s t : State} (ht : t.tally = s.tally) (h : s.tallyDisjoint) : t.tallyDisjoint := by
  unfold State.tallyDisjoint
  rw [ht]
  exact h

theorem OnlyLanes.recordsInRange {s t : State} (w : OnlyLanes s t) (hl : t.lanesSound) (h : s.RecordsInRange) :
    t.RecordsInRange where
  lanes := hl
  status := w.ref_eq ▸ h.status
  held := heldSound_of_eq w.awaitingReport_eq w.held_eq h.held
  matte := matteSound_of_eq (congrArg Matrix.matte w.matrix_eq) h.matte
  curves := curvesSound_of_eq w.curves_eq h.curves
  tally := tallyDisjoint_of_eq w.tally_eq h.tally

theorem OnlyRef.recordsInRange {s t : State} (w : OnlyRef s t) (hr : t.ref.status.sound) (h : s.RecordsInRange) :
    t.RecordsInRange where
  lanes := lanesSound_of_eq w.lanes_eq h.lanes
  status := hr
  held := heldSound_of_eq w.awaitingReport_eq w.held_eq h.held
  matte := matteSound_of_eq (congrArg Matrix.matte w.matrix_eq) h.matte
  curves := curvesSound_of_eq w.curves_eq h.curves
  tally := tallyDisjoint_of_eq w.tally_eq h.tally

/-- Work within what the commands of a take may reach has only the lanes, the matte and the curves to keep. -/
theorem OnlyBlocks.recordsInRange {s t : State} (w : OnlyBlocks s t) (hl : t.lanesSound) (hm : t.matteSound)
    (hc : t.curvesSound) (h : s.RecordsInRange) : t.RecordsInRange where
  lanes := hl
  status := w.ref_eq ▸ h.status
  held := heldSound_of_eq w.awaitingReport_eq w.held_eq h.held
  matte := hm
  curves := hc
  tally := tallyDisjoint_of_eq w.tally_eq h.tally

theorem OnlyEngine.recordsInRange {s t : State} (w : OnlyEngine s t) (h : s.RecordsInRange) : t.RecordsInRange :=
  w.blocks.recordsInRange (lanesSound_of_eq w.lanes_eq h.lanes) (matteSound_of_eq w.matte_eq h.matte)
    (curvesSound_of_eq w.curves_eq h.curves) h

theorem OnlyStore.recordsInRange {s t : State} (w : OnlyStore s t) (h : s.RecordsInRange) : t.RecordsInRange :=
  w.blocks.recordsInRange (lanesSound_of_eq w.lanes_eq h.lanes)
    (matteSound_of_eq (congrArg Matrix.matte w.matrix_eq) h.matte) (curvesSound_of_eq w.curves_eq h.curves) h

theorem OnlyPosts.recordsInRange {s t : State} (w : OnlyPosts s t) (h : s.RecordsInRange) : t.RecordsInRange :=
  w.store.recordsInRange h

theorem OnlyControl.recordsInRange {s t : State} (w : OnlyControl s t) (h : s.RecordsInRange) : t.RecordsInRange where
  lanes := lanesSound_of_eq w.lanes_eq h.lanes
  status := w.ref_eq ▸ h.status
  held := heldSound_of_eq w.awaitingReport_eq w.held_eq h.held
  matte := matteSound_of_eq (congrArg Matrix.matte w.matrix_eq) h.matte
  curves := curvesSound_of_eq w.curves_eq h.curves
  tally := tallyDisjoint_of_eq w.tally_eq h.tally

/-- Writing the take unit's record alone. -/
theorem State.RecordsInRange.withControl {s : State} (h : s.RecordsInRange) (c : TakeUnit) :
    ({ s with control := c } : State).RecordsInRange :=
  OnlyControl.recordsInRange ⟨rfl, .refl _⟩ h

/-! ### Resets and the commands of a take -/

theorem matteSound_powerOn {s : State} (h : s.matrix = Matrix.powerOn) : s.matteSound := by
  unfold State.matteSound
  rw [h]
  decide

theorem recordsInRange_restarted (unit : BitVec 2) (pin : Bool) (s : State) : (restarted unit pin s).RecordsInRange where
  lanes := fun n => by simpa [State.lane, restarted] using Lane.restarted_sound (s.lane n)
  status := trivial
  held := fun _ => rfl
  matte := matteSound_powerOn rfl
  curves := curvesSound_powerOn rfl
  tally := BitVec.zero_and

theorem resetFull_matrix (s : State) : (resetFull s).matrix = Matrix.powerOn := by
  unfold resetFull fullScope
  rw [(onlyLanes_lanesFullReset _).matrix_eq]

theorem resetFull_curves (s : State) : (resetFull s).curves = Vector.replicate 4 Curve.powerOn := by
  unfold resetFull fullScope
  rw [(onlyLanes_lanesFullReset _).curves_eq]

theorem lanesSound_resetFull (s : State) : (resetFull s).lanesSound := by
  unfold resetFull fullScope
  exact lanesSound_lanesFullReset _

theorem recordsInRange_resetFull {s : State} (h : s.RecordsInRange) : (resetFull s).RecordsInRange :=
  (onlyBlocks_resetFull s).recordsInRange (lanesSound_resetFull s) (matteSound_powerOn (resetFull_matrix s))
    (curvesSound_powerOn (resetFull_curves s)) h

theorem recordsInRange_resetEngine {s : State} (h : s.RecordsInRange) : (resetEngine s).RecordsInRange :=
  (onlyBlocks_resetEngine s).recordsInRange h.lanes h.matte h.curves h

theorem recordsInRange_doReset (scope : Byte) {s : State} (h : s.RecordsInRange) : (doReset scope s).RecordsInRange := by
  unfold doReset; split
  · exact recordsInRange_resetEngine h
  · exact recordsInRange_resetFull h
  · exact (onlyPosts_refuse ..).recordsInRange h

theorem recordsInRange_doAuxSelect (source : Byte) {s : State} (h : s.RecordsInRange) :
    (doAuxSelect source s).RecordsInRange := by
  unfold doAuxSelect; split
  · exact (onlyPosts_refuse ..).recordsInRange h
  · exact ⟨h.lanes, h.status, h.held, h.matte, h.curves, h.tally⟩

theorem doLoadCurve_lanes_matrix (curve : Byte) (points : Vector Word16 65) (s : State) :
    (doLoadCurve curve points s).lanes = s.lanes ∧ (doLoadCurve curve points s).matrix = s.matrix := by
  unfold doLoadCurve; split
  · exact ⟨rfl, rfl⟩
  · simp only [loadCurve]; split <;> exact ⟨rfl, rfl⟩

theorem recordsInRange_doLoadCurve (curve : Byte) (points : Vector Word16 65) {s : State} (h : s.RecordsInRange) :
    (doLoadCurve curve points s).RecordsInRange := by
  obtain ⟨hl, hm⟩ := doLoadCurve_lanes_matrix curve points s
  exact (onlyBlocks_doLoadCurve curve points s).recordsInRange (lanesSound_of_eq hl h.lanes)
    (matteSound_of_eq (congrArg Matrix.matte hm) h.matte) (curvesSound_doLoadCurve curve points h.curves) h

theorem recordsInRange_doNoticeMask (info advisory degraded : Byte) {s : State} (h : s.RecordsInRange) :
    (doNoticeMask info advisory degraded s).RecordsInRange := by
  unfold doNoticeMask; split
  · exact ⟨h.lanes, h.status, h.held, h.matte, h.curves, h.tally⟩
  · exact (onlyPosts_refuse ..).recordsInRange h

theorem recordsInRange_runCommand (c : Command) (s : State) (h : s.RecordsInRange) : (runCommand c s).RecordsInRange := by
  cases c with
  | cancel _ => exact h.withControl _
  | cancelAll => exact h.withControl _
  | reset scope => exact recordsInRange_doReset scope h
  | laneSet lane settle fallback =>
    exact (onlyLanes_doLaneSet ..).recordsInRange (lanesSound_doLaneSet lane settle fallback h.lanes) h
  | resync lane => exact (onlyLanes_doResync ..).recordsInRange (lanesSound_doResync lane h.lanes) h
  | select _ _ _ => exact (onlyEngine_doSelect ..).recordsInRange h
  | auxSelect source => exact recordsInRange_doAuxSelect source h
  | matte y cb cr => exact (onlyBlocks_doMatte y cb cr s).recordsInRange h.lanes (matteSound_doMatte y cb cr s) h.curves h
  | loadCurve curve points => exact recordsInRange_doLoadCurve curve points h
  | wipeSet _ _ _ _ => exact (onlyEngine_doWipeSet ..).recordsInRange h
  | keySet _ _ _ _ _ _ => exact (onlyEngine_doKeySet ..).recordsInRange h
  | maskSet _ _ _ => exact (onlyEngine_doMaskSet ..).recordsInRange h
  | transSet _ _ _ _ => exact (onlyEngine_doTransSet ..).recordsInRange h
  | nextSet _ _ => exact (onlyEngine_doNextSet ..).recordsInRange h
  | cut _ => exact (onlyEngine_doCut ..).recordsInRange h
  | auto _ => exact (onlyEngine_doAuto ..).recordsInRange h
  | lever _ _ => exact (onlyEngine_doLever ..).recordsInRange h
  | layerOn _ _ => exact (onlyEngine_doLayerOn ..).recordsInRange h
  | layerOff _ _ => exact (onlyEngine_doLayerOff ..).recordsInRange h
  | layerRate _ _ _ => exact (onlyEngine_doLayerRate ..).recordsInRange h
  | order _ _ _ _ _ => exact (onlyEngine_doOrder ..).recordsInRange h
  | raise _ _ => exact (onlyEngine_doRaise ..).recordsInRange h
  | lower _ _ => exact (onlyEngine_doLower ..).recordsInRange h
  | loadKeyframes _ _ _ => exact (onlyEngine_doLoadKeyframes ..).recordsInRange h
  | runSet _ _ _ _ => exact (onlyEngine_doRunSet ..).recordsInRange h
  | run _ => exact (onlyEngine_doRun ..).recordsInRange h
  | step _ => exact (onlyEngine_doStep ..).recordsInRange h
  | hold _ => exact (onlyEngine_doHold ..).recordsInRange h
  | abort _ => exact (onlyEngine_doAbort ..).recordsInRange h
  | grab _ _ => exact (onlyStore_doGrab ..).recordsInRange h
  | clear _ => exact (onlyStore_doClear ..).recordsInRange h
  | noticeMask info advisory degraded => exact recordsInRange_doNoticeMask info advisory degraded h
  | clearSummary => exact ⟨h.lanes, h.status, h.held, h.matte, h.curves, h.tally⟩

theorem recordsInRange_handOut (n : Nat) : ∀ s : State, s.RecordsInRange → (handOut n s).RecordsInRange := by
  induction n with
  | zero => exact fun _ h => h
  | succ n ih =>
    intro s h
    unfold handOut; split
    · exact h
    · refine ih _ (recordsInRange_runCommand _ _ ?_)
      split
      · exact (onlyPosts_post ..).recordsInRange (h.withControl _)
      · exact h.withControl _

/-! ### The two lines of a picture period -/

/-- A period begins with the span in which events may be held. -/
theorem recordsInRange_beginPeriod (p : FieldParity) {s : State} (h : s.RecordsInRange) : (beginPeriod p s).RecordsInRange :=
  ⟨h.lanes, h.status, fun ha => Bool.noConfusion ha, h.matte, h.curves, h.tally⟩

theorem recordsInRange_formTake {s : State} (h : s.RecordsInRange) : (formTake s).RecordsInRange := by
  rw [formTake_frame]
  exact h.withControl _

theorem recordsInRange_carryOutChange {s : State} (h : s.RecordsInRange) : (carryOutChange s).RecordsInRange :=
  ⟨h.lanes, h.status, h.held, h.matte, h.curves, h.tally⟩

theorem recordsInRange_postReference {s : State} (h : s.RecordsInRange) : (postReference s).RecordsInRange :=
  (onlyPosts_post ..).recordsInRange h

theorem recordsInRange_postFormat {s : State} (h : s.RecordsInRange) : (postFormat s).RecordsInRange :=
  (onlyPosts_post ..).recordsInRange h

theorem recordsInRange_plainSwitchLine (p : FieldParity) {s : State} (h : s.RecordsInRange) :
    (plainSwitchLine p s).RecordsInRange := by
  have hb := recordsInRange_beginPeriod p h
  have hl := (onlyLanes_lanesWork s _).recordsInRange (lanesSound_lanesWork hb.lanes) hb
  have hw := (onlyEngine_banksWork _).recordsInRange (recordsInRange_formTake hl)
  exact recordsInRange_handOut _ _ ((onlyStore_storeWork ..).recordsInRange hw)

theorem recordsInRange_formatSwitchLine (p : FieldParity) {s : State} (h : s.RecordsInRange) :
    (formatSwitchLine p s).RecordsInRange := by
  have hb := recordsInRange_beginPeriod p h
  have hl := (onlyLanes_lanesFormatChange s _).recordsInRange (lanesSound_lanesFormatChange hb.lanes) hb
  have hw := (onlyEngine_banksWork _).recordsInRange (recordsInRange_formTake hl)
  have hc := recordsInRange_carryOutChange ((onlyStore_storeWork s (fun _ => false) _).recordsInRange hw)
  have hr := recordsInRange_postReference hc
  have hp := recordsInRange_postFormat hr
  exact (onlyLanes_lanesFormatNotices s _).recordsInRange (lanesSound_lanesFormatNotices hp.lanes) hp

theorem recordsInRange_switchLine (p : FieldParity) (s : State) (h : s.RecordsInRange) : (switchLine p s).RecordsInRange := by
  unfold switchLine; split
  · exact recordsInRange_formatSwitchLine p h
  · exact recordsInRange_plainSwitchLine p h

theorem recordsInRange_formatChangeLine (p : FieldParity) (s : State) (h : s.RecordsInRange) :
    (formatChangeLine p s).RecordsInRange := by
  unfold formatChangeLine; split
  · exact recordsInRange_formatSwitchLine p h
  · exact h

theorem recordsInRange_actStart (x : ReferenceStart) {s : State} (h : s.RecordsInRange) : (actStart x s).RecordsInRange :=
  (onlyRef_actStart x s).recordsInRange (actStart_status x h.status) h

theorem recordsInRange_actMissing {s : State} (h : s.RecordsInRange) : (actMissing s).RecordsInRange :=
  (onlyRef_actMissing s).recordsInRange (actMissing_status h.status) h

theorem recordsInRange_actHeld (e : HeldEvent) {s : State} (h : s.RecordsInRange) : (actHeld e s).RecordsInRange := by
  cases e with
  | start x => exact recordsInRange_actStart x h
  | missing => exact recordsInRange_actMissing h
  | packet carrier =>
    simp only [actHeld]; split
    · exact (onlyControl_collectCarrier carrier s).recordsInRange h
    · exact h

theorem recordsInRange_foldl_actHeld (l : List HeldEvent) :
    ∀ s : State, s.RecordsInRange → (l.foldl (fun t e => actHeld e t) s).RecordsInRange := by
  induction l with
  | nil => exact fun _ h => h
  | cons e l ih => exact fun s h => ih _ (recordsInRange_actHeld e h)

/-- The tally sets are formed afresh, and nothing is held any more when the held events are acted on. -/
theorem recordsInRange_reportLine (s : State) (h : s.RecordsInRange) : (reportLine s).RecordsInRange := by
  unfold reportLine; split
  · exact recordsInRange_foldl_actHeld _ _
      ⟨h.lanes, h.status, fun _ => rfl, h.matte, h.curves, tallyDisjoint_formTally s⟩
  · exact h

/-! ### Events of the inputs -/

/-- What is held during the span before the report line may grow. -/
theorem State.RecordsInRange.withHeld {s : State} (h : s.RecordsInRange) (ha : s.awaitingReport = true) (l : List HeldEvent) :
    ({ s with held := l } : State).RecordsInRange :=
  ⟨h.lanes, h.status, fun hn => absurd (ha.symm.trans hn) (by decide), h.matte, h.curves, h.tally⟩

theorem recordsInRange_referenceStart (x : ReferenceStart) (s : State) (h : s.RecordsInRange) :
    (referenceStart x s).RecordsInRange := by
  unfold referenceStart; split
  · rename_i ha; exact h.withHeld ha _
  · exact recordsInRange_actStart x h

theorem recordsInRange_referenceMissing (s : State) (h : s.RecordsInRange) : (referenceMissing s).RecordsInRange := by
  unfold referenceMissing; split
  · rename_i ha; exact h.withHeld ha _
  · exact recordsInRange_actMissing h

theorem recordsInRange_packetArrives (whole : Bool) (carrier : List Byte) (s : State) (h : s.RecordsInRange) :
    (packetArrives whole carrier s).RecordsInRange := by
  unfold packetArrives; split
  · split
    · rename_i ha; exact h.withHeld ha _
    · exact (onlyControl_collectCarrier carrier s).recordsInRange h
  · exact h

theorem recordsInRange_dueEntry (s : State) (h : s.RecordsInRange) : (dueEntry s).RecordsInRange := by
  rw [dueEntry_frame]
  exact h.withControl _

/-- Every operation of the commands keeps the records in range. -/
theorem kept_recordsInRange : Kept State.RecordsInRange where
  restarted := fun unit pin s _ => recordsInRange_restarted unit pin s
  signal := fun n signal s h => (onlyLanes_laneSignal n signal s).recordsInRange (lanesSound_laneSignal n signal h.lanes) h
  start := recordsInRange_referenceStart
  missing := recordsInRange_referenceMissing
  line := recordsInRange_switchLine
  report := recordsInRange_reportLine
  packet := recordsInRange_packetArrives
  due := recordsInRange_dueEntry
  change := recordsInRange_formatChangeLine
  laneStart := fun n x s h => (onlyLanes_laneStart n x s).recordsInRange (lanesSound_laneStart n x h.lanes) h
  lock := fun n s h => (onlyLanes_laneLock n s).recordsInRange (lanesSound_laneLock n h.lanes) h
  fadeEnd := fun bank l s h => (onlyEngine_fadeEnd bank l s).recordsInRange h
  autoDue := fun bank s h => (onlyEngine_autoCompletionDue bank s).recordsInRange h
  segmentEnd := fun bank s h => (onlyEngine_segmentEnd bank s).recordsInRange h
  release := fun bank s h => (onlyEngine_syncRelease bank s).recordsInRange h
  completion := fun m s h => (onlyStore_completeGrab s m s).recordsInRange h
  begins := fun m s h => (onlyStore_grabBegin m s).recordsInRange h
  timeout := fun m s h => (onlyStore_grabWaitTimeout m s).recordsInRange h
  collect := fun target code count inner s h => (onlyControl_collectAt target code count inner s).recordsInRange h
  command := recordsInRange_runCommand

/-- Settles O60: the six limits are kept together by every operation, so by every step. -/
theorem stepsKeepTheRecordsInRange : Obligations.StepsKeepTheRecordsInRange := by
  rintro s t ⟨hlanes, hstatus, hheld, hmatte, hcurves, htally⟩ hstep
  have ht : t.RecordsInRange :=
    kept_recordsInRange.step (fun s _ h => ⟨h.lanes, h.status, h.held, h.matte, h.curves, h.tally⟩)
      ⟨hlanes, hstatus, hheld, hmatte, hcurves, htally⟩ hstep
  exact ⟨ht.lanes, ht.status, ht.held, ht.matte, ht.curves, ht.tally⟩

end Sys2Proof.Machine
end

section
/-! The values after power-on reset and at the RESET pin (R15), the limits they meet, and the distance between picture numbers
(R4). -/

namespace Sys2Proof.Machine

/-! ### Picture numbers (R4) -/

theorem relation_same_iff (x y : PictureNumber) : relation x y = .same ↔ distance x y = 0 := by
  unfold relation
  split
  · simpa
  · split <;> simpa

theorem relation_future_iff (x y : PictureNumber) :
    relation x y = .future ↔ 1 ≤ distance x y ∧ distance x y ≤ 8388607 := by
  refine ⟨relation_future, fun ⟨h1, h2⟩ => ?_⟩
  unfold relation
  rw [if_neg (by omega), if_pos h2]

theorem relation_past_iff (x y : PictureNumber) : relation x y = .past ↔ 8388608 ≤ distance x y := by
  unfold relation
  split
  · simp; omega
  · split
    · simp; omega
    · simp; omega

/-- Settles O7: the subtraction of picture numbers is that of their values modulo 2^24, and the three relations are read off the
distance. -/
theorem distanceOrdersPictureNumbers : Obligations.DistanceOrdersPictureNumbers := fun x y =>
  ⟨distance_eq x y, relation_same_iff x y, relation_future_iff x y, relation_past_iff x y⟩

/-! ### The RESET pin (R15) -/

/-- Settles O3: the two edges of the pin and power-on reset restart every block; every other command but a lane's signal change
passes through `State.live`. -/
theorem resetPinGivesPowerOnValues : Obligations.ResetPinGivesPowerOnValues := by
  refine ⟨fun s straps =>
    ⟨exec_powerOnReset straps s, exec_resetPinAssert s, exec_resetPinRelease straps s⟩, fun c s h => ?_⟩
  cases c with
  | powerOnReset _ => trivial
  | resetPinAssert => trivial
  | resetPinRelease _ => trivial
  | laneSignalChange _ _ => trivial
  | _ => exact next_live_of_asserted h _

/-! ### The power-on values -/

theorem reset_me (bank : BankId) : State.reset.me bank = Me.powerOn := by
  cases bank <;> rfl

theorem reset_buses (bank : BankId) : State.reset.buses bank = Buses.powerOn := by
  cases bank <;> rfl

theorem reset_lane (n : LaneId) : State.reset.lane n = Lane.powerOn := by
  simp [State.lane, State.reset]

theorem reset_slot (m : SlotId) : State.reset.slot m = Slot.powerOn := by
  simp [State.slot, State.reset, Store.powerOn]

theorem reset_curve (c : CurveId) : State.reset.curve c = Curve.powerOn := by
  simp [State.curve, State.reset]

theorem Buses.powerOn_get (k : Bus) : Buses.powerOn.get k = .black := by
  cases k <;> simp [Buses.get, Buses.powerOn]

theorem Me.powerOn_layer (l : LayerId) : Me.powerOn.layer l = Layer.powerOn := by
  simp [Me.layer, Me.powerOn]

theorem Me.powerOn_table (i : Fin 32) : Me.powerOn.table[i] = Keyframe.powerOn := by
  simp [Me.powerOn]

theorem Curve.powerOn_point (i : Fin 65) : Curve.powerOn[i.val] = 16 * i.val := by
  simp [Curve.powerOn]

/-- Settles O4: each block of `State.reset` is the block's own power-on record, which holds the listed values. -/
theorem powerOnValuesOfEveryBlock : Obligations.PowerOnValuesOfEveryBlock := by
  refine ⟨⟨rfl, rfl, rfl⟩, fun n => ?_, ⟨rfl, rfl, rfl, rfl⟩, fun bank k => ?_, ⟨rfl, rfl⟩, fun c i => ?_, fun bank => ?_,
    fun bank l => ?_, fun bank i => ?_, reset_slot, ⟨rfl, rfl, rfl⟩, ⟨rfl, rfl⟩, ⟨rfl, rfl⟩, ⟨rfl, rfl, rfl⟩⟩
  · rw [reset_lane]; exact ⟨rfl, rfl, rfl, rfl, rfl⟩
  · rw [reset_buses]; exact Buses.powerOn_get k
  · rw [reset_curve]; exact Curve.powerOn_point i
  · rw [reset_me]; exact ⟨rfl, rfl, rfl, rfl, rfl, rfl, rfl, rfl, rfl, rfl, rfl, rfl, rfl, rfl, rfl⟩
  · rw [reset_me]; exact Me.powerOn_layer l
  · rw [reset_me]; exact Me.powerOn_table i

/-! ### The limits that the power-on values meet -/

theorem Layer.powerOn_sound : Layer.powerOn.sound :=
  ⟨by decide, by decide, trivial⟩

theorem Me.powerOn_layersSound : Me.powerOn.layersSound :=
  ⟨fun l => Me.powerOn_layer l ▸ Layer.powerOn_sound, List.Perm.refl _⟩

theorem Buses.powerOn_legal (bank : BankId) : Buses.powerOn.legal bank := fun k => by
  rw [Buses.powerOn_get]
  cases bank <;> rfl

theorem recordsInRange_reset : State.reset.RecordsInRange where
  lanes := fun n => reset_lane n ▸ Lane.powerOn_sound
  status := trivial
  held := fun _ => rfl
  matte := matteSound_powerOn rfl
  curves := curvesSound_powerOn rfl
  tally := BitVec.zero_and

theorem reset_listsBounded : State.reset.listsBounded :=
  ⟨by decide, by decide, by decide⟩

theorem reset_scheduleOrdered : State.reset.scheduleOrdered :=
  ⟨fun _ h => absurd h List.not_mem_nil, .nil⟩

/-- Settles O5: every block's power-on record meets the limits of its block. -/
theorem stateAfterResetIsSound : Obligations.StateAfterResetIsSound := by
  have h := recordsInRange_reset
  refine ⟨h.lanes, h.status, h.held, reset_listsBounded, reset_scheduleOrdered, fun bank => ?_, h.matte, h.curves, fun bank => ?_,
    fun bank => ?_, Store.powerOn_sound, h.tally, ReportBuilder.powerOn_sound⟩
  · rw [reset_buses]; exact Buses.powerOn_legal bank
  · rw [reset_me]; exact Me.powerOn_layersSound
  · rw [reset_me]; exact powerOn_driveSound

end Sys2Proof.Machine
end

section
/-! The reference timing unit (R2, R5, R7 to R14): what a start and a missing start do while nothing waits for a report line, state by
state, and the events that are held until it. -/

namespace Sys2Proof.Machine

/-! ### What is held until the report line (R2, R31) -/

theorem referenceStart_of_awaiting {s : State} (h : s.awaitingReport = true) (x : ReferenceStart) :
    referenceStart x s = hold (.start x) s :=
  if_pos h

theorem referenceStart_of_reported {s : State} (h : s.awaitingReport = false) (x : ReferenceStart) :
    referenceStart x s = actStart x s :=
  if_neg (by simp [h])

theorem referenceMissing_of_awaiting {s : State} (h : s.awaitingReport = true) : referenceMissing s = hold .missing s :=
  if_pos h

theorem referenceMissing_of_reported {s : State} (h : s.awaitingReport = false) : referenceMissing s = actMissing s :=
  if_neg (by simp [h])

theorem isLocked_iff (s : State) : s.isLocked = true ↔ s.ref.status.name = .locked := by
  simp [State.isLocked]

theorem packetArrives_of_awaiting {s : State} (hl : s.ref.status.name = .locked) (h : s.awaitingReport = true)
    (carrier : List Byte) : packetArrives true carrier s = hold (.packet carrier) s := by
  simp [packetArrives, hold, (isLocked_iff s).mpr hl, h]

/-! ### The measured picture and its class (R5) -/

/-- A start that begins a picture only: the first one, or one after a gap. -/
theorem actStart_of_beginsOnly {s : State} {x : ReferenceStart}
    (h : 2 * s.ref.house.period < x.picture.length ∨ s.ref.begun = false) :
    actStart x s = { s with ref := { s.ref with begun := true, status := rebase s.ref.status } } :=
  if_pos (by simp only [beginsOnly, Bool.or_eq_true, Bool.not_eq_true', decide_eq_true_eq]; exact h.symm)

/-- A start that ends a picture has it judged. -/
theorem actStart_of_judged {s : State} {x : ReferenceStart} (hl : x.picture.length ≤ 2 * s.ref.house.period)
    (hb : s.ref.begun = true) : actStart x s = judgePicture (measuredPicture s.ref x).format x.lines s :=
  if_neg (by simp [beginsOnly, hb, hl])

/-- The row of a start that ends a picture, while nothing waits for a report line. -/
theorem exec_start_of_judged {s : State} {x : ReferenceStart} (hr : s.resetPin = false) (ha : s.awaitingReport = false)
    (hl : x.picture.length ≤ 2 * s.ref.house.period) (hb : s.ref.begun = true) :
    exec (.referencePictureStart x) s = .next (judgePicture (measuredPicture s.ref x).format x.lines s) := by
  rw [exec_referencePictureStart x hr, referenceStart_of_reported ha, actStart_of_judged hl hb]

theorem exec_missing_of_reported {s : State} (hr : s.resetPin = false) (ha : s.awaitingReport = false) :
    exec .missingStart s = .next (actMissing s) := by
  rw [exec_missingStart hr, referenceMissing_of_reported ha]

theorem measuredPicture_of_unlocked {r : ReferenceUnit} {back : ReturnState} (h : r.status = back.status) (x : ReferenceStart) :
    measuredPicture r x = x.picture :=
  measuredPicture_of_lead (by cases back <;> simp [expectedLead, h, ReturnState.status]) x

theorem measuredPicture_of_locking {r : ReferenceUnit} {candidate : HouseFormat} {good : Nat} {back : ReturnState}
    {e : ExpectedFrom} (h : r.status = .locking candidate good back e) (x : ReferenceStart) :
    (measuredPicture r x).format =
      if e = .arrived then x.picture.format
      else PictureMeasure.format { x.picture with length := x.picture.length - candidate.period } := by
  cases e <;> simp [measuredPicture, expectedLead, h]

theorem measuredPicture_of_locked {r : ReferenceUnit} {missed : Nat} {e : ExpectedFrom} (h : r.status = .locked missed e)
    (x : ReferenceStart) :
    (measuredPicture r x).format =
      if e = .arrived then x.picture.format
      else PictureMeasure.format { x.picture with length := x.picture.length - r.house.period } := by
  cases e <;> simp [measuredPicture, expectedLead, h]

/-- The columns of R1, by the two sizes of picture. -/
theorem houseFormat_columns (f : HouseFormat) :
    f.total = (if f = .uhd2160p50 ∨ f = .uhd2160p5994 then 2250 else 1125) ∧
      f.width = (if f = .uhd2160p50 ∨ f = .uhd2160p5994 then 3840 else 1920) ∧
      f.height = (if f = .uhd2160p50 ∨ f = .uhd2160p5994 then 2160 else 1080) ∧
      (f.interlaced = true ↔ f = .hd1080i50 ∨ f = .hd1080i5994) := by
  cases f <;> decide

theorem houseFormat_period (f : HouseFormat) :
    (f = .hd1080i50 ∨ f = .hd1080p50 ∨ f = .uhd2160p50 → 50 * f.period = 299700) ∧
      (f = .hd1080i5994 ∨ f = .hd1080p5994 ∨ f = .uhd2160p5994 → 5994 * f.period = 299700 * 100) := by
  cases f <;> decide

theorem format_eq_some_iff_columns (m : PictureMeasure) (f : HouseFormat) :
    m.format = some f ↔
      m.total = (if f = .uhd2160p50 ∨ f = .uhd2160p5994 then 2250 else 1125) ∧
        m.samples = (if f = .uhd2160p50 ∨ f = .uhd2160p5994 then 3840 else 1920) ∧
        m.active = (if f = .uhd2160p50 ∨ f = .uhd2160p5994 then 2160 else 1080) ∧
        (m.interlaced = true ↔ f = .hd1080i50 ∨ f = .hd1080i5994) ∧ m.length = f.period := by
  obtain ⟨htotal, hwidth, hheight, hinterlaced⟩ := houseFormat_columns f
  rw [PictureMeasure.format_eq_some_iff, ← htotal, ← hwidth, ← hheight, ← hinterlaced, ← Bool.eq_iff_iff]
  simp [PictureMeasure.isOf, and_assoc]

/-- Settles O9: events before the report line are held; a start that begins a picture only rebases the expected start. -/
theorem heldEventsAndTheFirstStart : Obligations.HeldEventsAndTheFirstStart := by
  refine ⟨fun s hr ha => ⟨fun x => ?_, ?_, fun carrier hl => ?_⟩, format_eq_some_iff_columns, houseFormat_period,
    fun s x hr ha hbegin => ⟨rebase s.ref.status, ?_, ?_, ?_, ?_, ?_⟩⟩
  · rw [exec_referencePictureStart x hr, referenceStart_of_awaiting ha]; rfl
  · rw [exec_missingStart hr, referenceMissing_of_awaiting ha]; rfl
  · rw [exec_controlPacket true carrier hr, packetArrives_of_awaiting hl ha]; rfl
  · rw [exec_referencePictureStart x hr, referenceStart_of_reported ha, actStart_of_beginsOnly hbegin]
  · intro h; rw [h]; rfl
  · intro candidate good back e h; rw [h]; rfl
  · intro missed e h; rw [h]; rfl
  · intro h; rw [h]; rfl

/-! ### A change of the reference state (R9, R14) -/

/-- The state with another reference state and the notice of it. -/
def postedStatus (r : RefStatus) (s : State) : State :=
  State.post { s with ref := { s.ref with status := r } } (.reference r.name) (referenceClass r.name) .none

theorem changeStatus_of_no_change {s : State} (h : s.ref.change = none) (r : RefStatus) :
    changeStatus r s = postedStatus r s := by
  simp only [changeStatus, setStatus_change, h, Option.isSome_none, Bool.false_eq_true, if_false]
  rfl

theorem changeStatus_of_change {s : State} (h : s.ref.change ≠ none) (r : RefStatus) : changeStatus r s = setStatus r s := by
  simp only [changeStatus, setStatus_change, Option.isSome_iff_ne_none.mpr h, if_true]

theorem recordFormat_of_change {s : State} (h : s.ref.change ≠ none) (f : HouseFormat) :
    recordFormat f s = { s with ref := { s.ref with house := f } } := by
  simp [recordFormat, h]

theorem recordFormat_of_house (s : State) : recordFormat s.ref.house s = s := by
  simp [recordFormat]

theorem recordFormat_of_other {s : State} {f : HouseFormat} (h : s.ref.change = none) (hf : f ≠ s.ref.house) :
    recordFormat f s = { s with ref := { s.ref with house := f, change := some s.ref.house } } := by
  simp [recordFormat, h, hf]

/-! ### NO_REFERENCE and FREE_RUN (R7, R11) -/

theorem judgePicture_of_unlocked {s : State} {back : ReturnState} (h : s.ref.status = back.status) (f : HouseFormat)
    (lines : Nat) : judgePicture (some f) lines s = changeStatus (.locking f 1 back .arrived) s := by
  cases back <;> simp only [judgePicture, h, ReturnState.status]

theorem judgePicture_unsupported_of_unlocked {s : State} {back : ReturnState} (h : s.ref.status = back.status) (lines : Nat) :
    judgePicture none lines s = s := by
  cases back <;> simp only [judgePicture, h, ReturnState.status]

theorem actMissing_of_unlocked {s : State} {back : ReturnState} (h : s.ref.status = back.status) : actMissing s = s := by
  cases back <;> simp only [actMissing, h, ReturnState.status]

/-- The rows of a reference event in NO_REFERENCE and in FREE_RUN. -/
theorem exec_reference_of_unlocked {s : State} {x : ReferenceStart} {back : ReturnState} (hr : s.resetPin = false)
    (ha : s.awaitingReport = false) (hl : x.picture.length ≤ 2 * s.ref.house.period) (hb : s.ref.begun = true)
    (h : s.ref.status = back.status) :
    (∀ f : HouseFormat, x.picture.format = some f →
        exec (.referencePictureStart x) s = .next (changeStatus (.locking f 1 back .arrived) s)) ∧
      (x.picture.format = none → exec (.referencePictureStart x) s = .next s) ∧ exec .missingStart s = .next s := by
  rw [exec_start_of_judged hr ha hl hb, exec_missing_of_reported hr ha, actMissing_of_unlocked h,
    measuredPicture_of_unlocked h]
  refine ⟨fun f hf => ?_, fun hf => ?_, rfl⟩
  · rw [hf, judgePicture_of_unlocked h]
  · rw [hf, judgePicture_unsupported_of_unlocked h]

/-- Settles O10: NO_REFERENCE and FREE_RUN act alike, each with itself as the return state; a waiting change keeps the notice back. -/
theorem unlockedStatesActOnAPicture : Obligations.UnlockedStatesActOnAPicture := by
  refine ⟨fun s x hr ha hl hb hc h => ?_, fun s x hr ha hl hb hc h => ?_, fun s x back hr ha hl hb hc h => ?_⟩
  · obtain ⟨hsome, hrest⟩ := exec_reference_of_unlocked (back := .noReference) hr ha hl hb h
    exact ⟨fun f hf => by rw [hsome f hf, changeStatus_of_no_change hc]; rfl, hrest⟩
  · obtain ⟨hsome, hrest⟩ := exec_reference_of_unlocked (back := .freeRun) hr ha hl hb h
    exact ⟨fun f hf => by rw [hsome f hf, changeStatus_of_no_change hc]; rfl, hrest⟩
  · obtain ⟨hsome, hrest⟩ := exec_reference_of_unlocked hr ha hl hb h
    exact ⟨fun f hf => by rw [hsome f hf, changeStatus_of_change hc]; rfl, hrest⟩

/-! ### LOCKING (R8, R9) -/

section Locking

variable {s : State} {candidate : HouseFormat} {good : Nat} {back : ReturnState} {e : ExpectedFrom}

theorem judgePicture_of_locking_again (h : s.ref.status = .locking candidate good back e) (hg : good < 7) (lines : Nat) :
    judgePicture (some candidate) lines s = setStatus (.locking candidate (good + 1) back .arrived) s := by
  simp only [judgePicture, h, if_true]
  rw [if_neg (by omega)]

theorem judgePicture_of_locking_last (h : s.ref.status = .locking candidate 7 back e) (lines : Nat) :
    judgePicture (some candidate) lines s = enterLocked candidate lines s := by
  simp only [judgePicture, h, if_true]
  rfl

theorem judgePicture_of_locking_other (h : s.ref.status = .locking candidate good back e) {other : HouseFormat}
    (ho : other ≠ candidate) (lines : Nat) :
    judgePicture (some other) lines s = setStatus (.locking other 1 back .arrived) s := by
  simp only [judgePicture, h, if_neg ho]

theorem judgePicture_of_locking_unsupported (h : s.ref.status = .locking candidate good back e) (lines : Nat) :
    judgePicture none lines s = changeStatus back.status s := by
  simp only [judgePicture, h]

theorem actMissing_of_locking (h : s.ref.status = .locking candidate good back e) :
    actMissing s = changeStatus back.status s := by
  simp only [actMissing, h]

end Locking

/-- Entering LOCKED in the house format, with no change recorded. -/
theorem enterLocked_of_house {s : State} (hc : s.ref.change = none) (lines : Nat) :
    enterLocked s.ref.house lines s =
      State.post { s with ref := { s.ref with status := .locked 0 .arrived, placed := some lines } } (.reference .locked) .info
        .none := by
  unfold enterLocked
  rw [recordFormat_of_house, changeStatus_of_no_change (by exact hc)]
  rfl

/-- Entering LOCKED in another format records the change, whose notice waits. -/
theorem enterLocked_of_other {s : State} {f : HouseFormat} (hc : s.ref.change = none) (hf : f ≠ s.ref.house) (lines : Nat) :
    enterLocked f lines s =
      { s with
        ref := { s.ref with status := .locked 0 .arrived, house := f, change := some s.ref.house, placed := some lines } } := by
  unfold enterLocked
  rw [recordFormat_of_other hc hf, changeStatus_of_change (by simp)]
  rfl

/-- Entering LOCKED while a change waits keeps the record of the change. -/
theorem enterLocked_of_change {s : State} (hc : s.ref.change ≠ none) (f : HouseFormat) (lines : Nat) :
    enterLocked f lines s =
      { s with ref := { s.ref with status := .locked 0 .arrived, house := f, placed := some lines } } := by
  unfold enterLocked
  rw [recordFormat_of_change hc, changeStatus_of_change (by exact hc)]
  rfl

/-- Settles O11: the branches of R8 one by one, first with no change recorded, then while one waits. -/
theorem lockingActsOnPicturesAndMisses : Obligations.LockingActsOnPicturesAndMisses := by
  constructor
  · intro s x candidate good back e picture hr ha hl hb hc h hp
    rw [exec_start_of_judged hr ha hl hb, exec_missing_of_reported hr ha, measuredPicture_of_locking h, ← hp]
    refine ⟨fun hs hg => ?_, fun hs hg hf => ?_, fun hs hg hf => ?_, fun other hs ho => ?_, fun hback => ?_, fun hback => ?_⟩
    · rw [hs, judgePicture_of_locking_again h hg]; rfl
    · subst hg hf
      rw [hs, judgePicture_of_locking_last h, enterLocked_of_house hc]
    · subst hg
      rw [hs, judgePicture_of_locking_last h, enterLocked_of_other hc hf]
    · rw [hs, judgePicture_of_locking_other h ho]; rfl
    · subst hback
      refine ⟨fun hs => ?_, ?_⟩
      · rw [hs, judgePicture_of_locking_unsupported h, changeStatus_of_no_change hc]; rfl
      · rw [actMissing_of_locking h, changeStatus_of_no_change hc]; rfl
    · subst hback
      refine ⟨fun hs => ?_, ?_⟩
      · rw [hs, judgePicture_of_locking_unsupported h, changeStatus_of_no_change hc]; rfl
      · rw [actMissing_of_locking h, changeStatus_of_no_change hc]; rfl
  · intro s x candidate good back e picture hr ha hl hb hc h hp
    rw [exec_start_of_judged hr ha hl hb, exec_missing_of_reported hr ha, measuredPicture_of_locking h, ← hp]
    refine ⟨fun hs hg => ?_, fun hs hg => ?_, fun other hs ho => ?_, fun hs => ?_, ?_⟩
    · rw [hs, judgePicture_of_locking_again h hg]; rfl
    · subst hg
      rw [hs, judgePicture_of_locking_last h, enterLocked_of_change hc]
    · rw [hs, judgePicture_of_locking_other h ho]; rfl
    · rw [hs, judgePicture_of_locking_unsupported h, changeStatus_of_change hc]; rfl
    · rw [actMissing_of_locking h, changeStatus_of_change hc]; rfl

/-! ### LOCKED (R10) -/

section Locked

variable {s : State} {missed : Nat} {e : ExpectedFrom}

theorem judgePicture_of_locked_house (h : s.ref.status = .locked missed e) (lines : Nat) :
    judgePicture (some s.ref.house) lines s = setStatus (.locked 0 .arrived) s := by
  simp only [judgePicture, h, if_true]

theorem judgePicture_of_locked_other (h : s.ref.status = .locked missed e) {picture : Option HouseFormat}
    (hp : picture ≠ some s.ref.house) (lines : Nat) : judgePicture picture lines s = changeStatus .freeRun s := by
  cases picture with
  | none => simp only [judgePicture, h]
  | some f => simp only [judgePicture, h, if_neg (fun hf : f = s.ref.house => hp (congrArg some hf))]

theorem actMissing_of_locked (h : s.ref.status = .locked missed e) :
    actMissing s = if missed = 0 then setStatus (.locked 1 .missing) s else changeStatus .freeRun s := by
  simp only [actMissing, h]

end Locked

/-- Leaving LOCKED, with its notice unless a recorded change waits. -/
theorem changeStatus_freeRun (s : State) :
    changeStatus .freeRun s =
      if s.ref.change = none then
        State.post { s with ref := { s.ref with status := .freeRun } } (.reference .freeRun) .degraded .none
      else { s with ref := { s.ref with status := .freeRun } } := by
  split
  · rename_i hc; rw [changeStatus_of_no_change hc]; rfl
  · rename_i hc; rw [changeStatus_of_change hc]; rfl

/-- Settles O12: LOCKED stays with a picture of the house format and over one missing start, and else goes to FREE_RUN. -/
theorem lockedActsOnPicturesAndMisses : Obligations.LockedActsOnPicturesAndMisses := by
  intro s x missed e picture left hr ha hl hb h hp hleft
  rw [exec_start_of_judged hr ha hl hb, exec_missing_of_reported hr ha, measuredPicture_of_locked h, ← hp,
    actMissing_of_locked h, hleft, ← changeStatus_freeRun]
  refine ⟨fun hs => ?_, fun hs => ?_, fun hm => ?_, fun hm => ?_⟩
  · rw [hs, judgePicture_of_locked_house h]; rfl
  · rw [judgePicture_of_locked_other h hs]
  · rw [if_pos hm]; rfl
  · rw [if_neg (by omega)]

end Sys2Proof.Machine
end

section
/-! The two lines of a picture period (R1, R2, R3, R31, R42, R168, R178): what a switch line leaves in the records that belong to the
period, and the report line with the events held for it, each as its own row. -/

namespace Sys2Proof.Machine

/-! ### The switch line -/

/-- The field that the coming switch line begins, case by case (R1, R10, R15). -/
theorem nextParity_eq (s : State) (p : FieldParity) :
    s.nextParity p =
      if s.ref.house.interlaced = false ∨ s.ref.started = false then .first
      else if s.ref.status.name = .locked ∨ s.ref.placed ≠ none then p
      else if s.parity = .first then .second
      else .first := by
  have hfollows : s.followsReference = true ↔ s.ref.status.name = .locked ∨ s.ref.placed ≠ none := by
    simp [State.followsReference, isLocked_iff, Option.isSome_iff_ne_none]
  have hother : otherField s.parity = if s.parity = .first then .second else .first := by
    cases s.parity <;> rfl
  simp only [State.nextParity, hother, ← hfollows, Bool.or_eq_true, Bool.not_eq_true']

/-- What a switch line leaves of the state that belongs to the period and of the state that no block's own work reaches. -/
structure BeginsPeriod (p : FieldParity) (s t : State) : Prop where
  ref : t.ref = { s.ref with picture := s.ref.picture + 1, change := none, placed := none, started := true }
  awaitingReport : t.awaitingReport = true
  held : t.held = s.held
  parity : t.parity = s.nextParity p
  takeList : t.control.takeList = []
  take : t.control.take = []
  fill : t.control.fill = s.control.takeList.length
  packets : t.control.packets = 0
  excess : t.control.excess = false
  resetPin : t.resetPin = s.resetPin
  unit : t.unit = s.unit
  tally : t.tally = s.tally
  report : t.report = s.report
  pending : t.pending = s.pending

theorem plainSwitchLine_beginsPeriod (p : FieldParity) {s : State} (h : s.ref.change = none) :
    BeginsPeriod p s (plainSwitchLine p s) where
  ref := by simp only [plainSwitchLine_ref, beginPeriod_ref, h]
  awaitingReport := plainSwitchLine_awaitingReport p s
  held := plainSwitchLine_held p s
  parity := plainSwitchLine_parity p s
  takeList := plainSwitchLine_takeList p s
  take := plainSwitchLine_take p s
  fill := plainSwitchLine_fill p s
  packets := plainSwitchLine_packets p s
  excess := plainSwitchLine_excess p s
  resetPin := plainSwitchLine_resetPin p s
  unit := plainSwitchLine_unit p s
  tally := plainSwitchLine_tally p s
  report := plainSwitchLine_report p s
  pending := plainSwitchLine_pending p s

theorem formatSwitchLine_beginsPeriod (p : FieldParity) (s : State) : BeginsPeriod p s (formatSwitchLine p s) where
  ref := by rw [formatSwitchLine_ref, beginPeriod_ref]
  awaitingReport := formatSwitchLine_awaitingReport p s
  held := formatSwitchLine_held p s
  parity := formatSwitchLine_parity p s
  takeList := by rw [formatSwitchLine_control]
  take := by rw [formatSwitchLine_control]
  fill := by rw [formatSwitchLine_control]
  packets := by rw [formatSwitchLine_control]
  excess := by rw [formatSwitchLine_control]
  resetPin := formatSwitchLine_resetPin p s
  unit := formatSwitchLine_unit p s
  tally := formatSwitchLine_tally p s
  report := formatSwitchLine_report p s
  pending := formatSwitchLine_pending p s

theorem switchLine_of_change (p : FieldParity) {s : State} (h : s.ref.change ≠ none) :
    switchLine p s = formatSwitchLine p s :=
  if_pos (Option.isSome_iff_ne_none.mpr h)

theorem switchLine_of_no_change (p : FieldParity) {s : State} (h : s.ref.change = none) :
    switchLine p s = plainSwitchLine p s :=
  if_neg (by simp [h])

theorem switchLine_beginsPeriod (p : FieldParity) (s : State) : BeginsPeriod p s (switchLine p s) := by
  by_cases h : s.ref.change = none
  · rw [switchLine_of_no_change p h]; exact plainSwitchLine_beginsPeriod p h
  · rw [switchLine_of_change p h]; exact formatSwitchLine_beginsPeriod p s

/-- Settles O8: both kinds of switch line begin a period. -/
theorem switchLineBeginsAPeriod : Obligations.SwitchLineBeginsAPeriod := by
  intro s p hr
  have h := switchLine_beginsPeriod p s
  exact ⟨_, exec_switchLine p hr, h.ref, h.awaitingReport, h.held, h.parity.trans (nextParity_eq s p), h.takeList, h.take, h.fill,
    h.packets, h.excess, h.resetPin.trans hr, h.unit, h.tally, h.report, h.pending⟩

/-! ### The report line -/

/-- The report line before the held events are acted on: tally sets, packet and report builder (R168, R176 to R178). -/
def reported (s : State) : State :=
  { s with
    awaitingReport := false
    held := []
    tally := { onAir := onAirSet s, preview := previewSet s }
    report := some (reportPacket { s with tally := { onAir := onAirSet s, preview := previewSet s } })
    notices :=
      { s.notices with
        queue := s.notices.queue.drop 6
        lost := false
        recent := { info := false, advisory := false, degraded := false } } }

theorem reportLine_of_awaiting {s : State} (h : s.awaitingReport = true) :
    reportLine s = s.held.foldl (fun t e => actHeld e t) (reported s) :=
  if_pos h

theorem reportLine_of_reported {s : State} (h : s.awaitingReport = false) : reportLine s = s :=
  if_neg (by simp [h])

theorem packetArrives_of_reported {s : State} (h : s.awaitingReport = false) (carrier : List Byte) :
    packetArrives true carrier s = if s.isLocked then collectCarrier carrier s else s := by
  simp [packetArrives, h]

/-- When nothing waits for a report line, acting on a held event is carrying out its row. -/
theorem exec_rowOfHeld (e : HeldEvent) {s : State} (hr : s.resetPin = false) (ha : s.awaitingReport = false) :
    exec (rowOfHeld e) s = .next (actHeld e s) := by
  cases e with
  | start x => exact (exec_referencePictureStart x hr).trans (congrArg _ (referenceStart_of_reported ha x))
  | missing => exact exec_missing_of_reported hr ha
  | packet carrier => exact (exec_controlPacket true carrier hr).trans (congrArg _ (packetArrives_of_reported ha carrier))

theorem actHeld_resetPin (e : HeldEvent) (s : State) : (actHeld e s).resetPin = s.resetPin := by
  unfold actHeld; split
  · exact (onlyRef_actStart ..).resetPin_eq
  · exact (onlyRef_actMissing ..).resetPin_eq
  · split
    · exact (onlyControl_collectCarrier ..).resetPin_eq
    · rfl

theorem actHeld_awaitingReport (e : HeldEvent) (s : State) : (actHeld e s).awaitingReport = s.awaitingReport := by
  unfold actHeld; split
  · exact (onlyRef_actStart ..).awaitingReport_eq
  · exact (onlyRef_actMissing ..).awaitingReport_eq
  · split
    · exact (onlyControl_collectCarrier ..).awaitingReport_eq
    · rfl

/-- The held events acted on in order are their rows carried out in turn. -/
theorem carryOut_rowsOfHeld (l : List HeldEvent) : ∀ s : State, s.resetPin = false → s.awaitingReport = false →
    carryOut (l.map rowOfHeld) s = l.foldl (fun t e => actHeld e t) s := by
  induction l with
  | nil => intro s _ _; rfl
  | cons e l ih =>
    intro s hr ha
    simp only [List.map_cons, carryOut, exec_rowOfHeld e hr ha, List.foldl_cons]
    exact ih _ ((actHeld_resetPin e s).trans hr) ((actHeld_awaitingReport e s).trans ha)

/-- A packet held after an event that ended LOCKED is discarded. -/
theorem actHeld_packet_of_not_locked {s : State} (h : s.ref.status.name ≠ .locked) (carrier : List Byte) :
    actHeld (.packet carrier) s = s :=
  if_neg (mt (isLocked_iff s).mp h)

/-- The report line of a period with one event held is the event's row on the state reported. -/
theorem exec_reportLine_of_one {s : State} {e : HeldEvent} (hr : s.resetPin = false) (ha : s.awaitingReport = true)
    (h : s.held = [e]) : exec .reportLine s = exec (rowOfHeld e) (reported s) := by
  rw [exec_reportLine hr, reportLine_of_awaiting ha, h, exec_rowOfHeld e (s := reported s) hr rfl]
  rfl

/-- Settles O48: the report line reports, and then carries out the held events as rows in their order. -/
theorem reportLineReportsThePeriod : Obligations.ReportLineReportsThePeriod := by
  intro s hr
  refine ⟨fun ha => by rw [exec_reportLine hr, reportLine_of_reported ha], fun ha sent hsent => ?_⟩
  obtain rfl : sent = reported s := hsent
  have hrows : ∀ l : List HeldEvent,
      carryOut (l.map rowOfHeld) (reported s) = l.foldl (fun t e => actHeld e t) (reported s) :=
    fun l => carryOut_rowsOfHeld l _ hr rfl
  refine ⟨fun h => ?_, fun x h => exec_reportLine_of_one hr ha h, fun h => exec_reportLine_of_one hr ha h,
    fun carrier h => exec_reportLine_of_one hr ha h, ?_, fun before after carrier h hl => ?_⟩
  · rw [exec_reportLine hr, reportLine_of_awaiting ha, h]; rfl
  · rw [exec_reportLine hr, reportLine_of_awaiting ha, hrows]
  · rw [hrows] at hl
    rw [exec_reportLine hr, reportLine_of_awaiting ha, hrows, h, List.foldl_append, List.foldl_append, List.foldl_cons,
      actHeld_packet_of_not_locked hl]

end Sys2Proof.Machine
end

section
/-! Control packets (R12, R32 to R35, R37, R38): which candidates are passed over, dropped or accepted, and the cutting of an accepted
payload command by command. -/

namespace Sys2Proof.Machine

/-! ### The check of a candidate (R12, R32 to R34) -/

theorem packetArrives_of_not_locked {s : State} (h : s.ref.status.name ≠ .locked) (whole : Bool) (carrier : List Byte) :
    packetArrives whole carrier s = s := by
  simp [packetArrives, mt (isLocked_iff s).mp h]

theorem packetArrives_of_not_whole (carrier : List Byte) (s : State) : packetArrives false carrier s = s := by
  simp [packetArrives]

/-- The row of a candidate taken whole in LOCKED, while nothing waits for a report line. -/
theorem exec_controlPacket_of_locked {s : State} (hr : s.resetPin = false) (hl : s.ref.status.name = .locked)
    (ha : s.awaitingReport = false) (carrier : List Byte) :
    exec (.controlPacket true carrier) s = .next (collectCarrier carrier s) := by
  rw [exec_controlPacket true carrier hr, packetArrives_of_reported ha, if_pos ((isLocked_iff s).mpr hl)]

theorem collectCarrier_of_other_kind {s : State} {kind : Byte} (h : kind.toNat ≠ 200 + s.unit.toNat) (rest : List Byte) :
    collectCarrier (kind :: rest) s = s :=
  if_neg h

theorem collectCarrier_of_kind {s : State} {kind : Byte} (h : kind.toNat = 200 + s.unit.toNat) (rest : List Byte) :
    collectCarrier (kind :: rest) s = collectPacket rest s :=
  if_pos h

theorem checkedPayload_of_bad {count : Byte} {rest : List Byte}
    (h : count.toNat = 0 ∨ 248 < count.toNat ∨ rest.length < count.toNat + 1 ∨
      byteSum (count :: rest.take (count.toNat + 1)) ≠ 0) : checkedPayload (count :: rest) = none := by
  refine if_neg fun ⟨hmin, hmax, hlength, hsum⟩ => ?_
  rcases h with h | h | h | h
  · omega
  · omega
  · omega
  · exact h hsum

theorem checkedPayload_of_good {count : Byte} {rest : List Byte} (hmin : 1 ≤ count.toNat) (hmax : count.toNat ≤ 248)
    (hlength : count.toNat + 1 ≤ rest.length) (hsum : byteSum (count :: rest.take (count.toNat + 1)) = 0) :
    checkedPayload (count :: rest) = some (rest.take count.toNat) :=
  if_pos ⟨hmin, hmax, hlength, hsum⟩

theorem collectPacket_of_bad {afterKind : List Byte} (h : checkedPayload afterKind = none) (s : State) :
    collectPacket afterKind s = s.post (.packet .check) .advisory .none := by
  simp only [collectPacket, h]

/-- A packet that passes the check is counted and cut up to the sixteenth of a window; the first one after that posts EXCESS
(R34). -/
theorem collectPacket_of_good {afterKind payload : List Byte} (h : checkedPayload afterKind = some payload) (s : State) :
    collectPacket afterKind s =
      if s.control.packets < 16 then
        cutPayload payload.length payload { s with control := { s.control with packets := s.control.packets + 1 } }
      else if s.control.excess then s
      else State.post { s with control := { s.control with excess := true } } (.packet .excess) .advisory .none := by
  simp only [collectPacket, h]

/-! ### The cutting of a payload (R35, R37, R38) -/

theorem cutPayload_of_cut_short (n : Nat) (code : Byte) {count : Byte} {rest : List Byte} (h : rest.length < count.toNat)
    (s : State) : cutPayload (n + 1) (code :: count :: rest) s = s.post (.packet .length) .advisory .none :=
  if_pos h

theorem cutPayload_of_command (n : Nat) (code : Byte) {count : Byte} {rest : List Byte} (h : count.toNat ≤ rest.length)
    (s : State) :
    cutPayload (n + 1) (code :: count :: rest) s =
      cutPayload n (rest.drop count.toNat) (collectCommand code (rest.take count.toNat) s) :=
  if_neg (Nat.not_lt.mpr h)

section Command

variable {code : Byte} {params : List Byte}

theorem collectCommand_of_unknown (hc : code ≠ 1) (h : readCommand code params = none) (s : State) :
    collectCommand code params s = s.refuse code .unknown .none := by
  simp only [collectCommand, if_neg hc, h]

theorem collectCommand_of_length (hc : code ≠ 1) (h : readCommand code params = some none) (s : State) :
    collectCommand code params s = s.refuse code .length .none := by
  simp only [collectCommand, if_neg hc, h]

theorem collectCommand_of_read (hc : code ≠ 1) {c : Command} (h : readCommand code params = some (some c)) (s : State) :
    collectCommand code params s = appendTake c false s := by
  simp only [collectCommand, if_neg hc, h]

end Command

theorem appendTake_of_room {s : State} (h : s.control.takeList.length < 128) (c : Command) (late : Bool) :
    appendTake c late s =
      { s with control := { s.control with takeList := s.control.takeList ++ [{ command := c, late := late }] } } :=
  if_pos h

theorem appendTake_of_full {s : State} (h : 128 ≤ s.control.takeList.length) (c : Command) (late : Bool) :
    appendTake c late s = s.refuse c.code .full c.subject :=
  if_neg (Nat.not_lt.mpr h)

/-- An AT needs five bytes before its inner parameters (R185). -/
theorem collectAtBytes_of_short {params : List Byte} (h : params.length < 5) (s : State) :
    collectAtBytes params s = s.refuse atCode .length .none := by
  match params with
  | [] | [_] | [_, _] | [_, _, _] | [_, _, _, _] => rfl
  | _ :: _ :: _ :: _ :: _ :: _ => simp only [List.length_cons] at h; omega

/-- An AT inside a payload is dealt with as its row (R38). -/
theorem collectAtBytes_eq_row {s t : State} {high middle low innerCode innerCount : Byte} {inner : List Byte}
    (hr : s.resetPin = false)
    (h : exec (.atPicture (high ++ middle ++ low) innerCode innerCount inner) s = .next t) :
    collectAtBytes (high :: middle :: low :: innerCode :: innerCount :: inner) s = t := by
  rw [exec_atPicture _ _ _ _ hr] at h
  exact Host.Outcome.next.inj h

/-- Settles O53: the check branch by branch, then the cutting of a payload by the reading of its next command. -/
theorem controlPacketsAreCheckedAndCut : Obligations.ControlPacketsAreCheckedAndCut := by
  refine ⟨fun s carrier hr => ⟨fun hl => ?_, ?_⟩, fun s kind rest hr hl ha => ⟨fun hk => ?_, fun hk => ⟨?_, ?_⟩⟩,
    fun s n code count rest => ⟨rfl, rfl, fun h => cutPayload_of_cut_short n code h s, fun hn hc => ⟨fun h => ?_, fun h => ?_, ?_⟩,
      fun hn hc => ⟨fun hshort => ?_, ?_⟩⟩⟩
  · rw [exec_controlPacket true carrier hr, packetArrives_of_not_locked hl]
  · rw [exec_controlPacket false carrier hr, packetArrives_of_not_whole]
  · rw [exec_controlPacket_of_locked hr hl ha, collectCarrier_of_other_kind hk]
  · rintro rfl
    rw [exec_controlPacket_of_locked hr hl ha, collectCarrier_of_kind hk, collectPacket_of_bad rfl]
  · rintro count after rfl
    rw [exec_controlPacket_of_locked hr hl ha, collectCarrier_of_kind hk]
    refine ⟨fun hbad => by rw [collectPacket_of_bad (checkedPayload_of_bad hbad)], fun hmin hmax hlength hsum => ?_⟩
    rw [collectPacket_of_good (checkedPayload_of_good hmin hmax hlength hsum), List.length_take_of_le (by omega)]
    refine ⟨fun hp he => ?_, fun hp he => ?_, fun hp => by rw [if_pos hp]⟩
    · rw [if_neg (Nat.not_lt.mpr hp), if_pos he]
    · rw [if_neg (Nat.not_lt.mpr hp), if_neg (by simp [he])]
  · rw [cutPayload_of_command n code hn, collectCommand_of_unknown hc h]
  · rw [cutPayload_of_command n code hn, collectCommand_of_length hc h]
  · intro c h
    rw [cutPayload_of_command n code hn, collectCommand_of_read hc h]
    exact ⟨fun hroom => by rw [appendTake_of_room hroom], fun hfull => by rw [appendTake_of_full hfull]⟩
  · subst hc
    rw [cutPayload_of_command n _ hn]
    exact congrArg _ (collectAtBytes_of_short (by rw [List.length_take_of_le hn]; exact hshort) s)
  · subst hc
    intro high middle low innerCode innerCount inner t hr hparams ht
    rw [cutPayload_of_command n _ hn, hparams]
    exact congrArg _ (collectAtBytes_eq_row hr ht)

end Sys2Proof.Machine
end

section
/-! The switch line of a change of house format (R13, R14, R30, R47, R167): what the banks' own work keeps of each bank's record and
buses, what the ENGINE scope makes of it, and the notices at the front of the emptied queue. -/

namespace Sys2Proof.Machine

/-! ### What the banks' own work keeps of a bank's setting-up -/

/-- The sense of both banks and the buses that neither an exchange nor a preset reaches are as they were. -/
structure SetUpAlike (s t : State) : Prop where
  sense (x : BankId) : (t.me x).sense = (s.me x).sense
  dip (x : BankId) : (t.buses x).dip = (s.buses x).dip
  fill (x : BankId) : (t.buses x).fill = (s.buses x).fill
  cut (x : BankId) : (t.buses x).cut = (s.buses x).cut

/-- Where the buses are the same, only the sense is to be seen to. -/
theorem SetUpAlike.of_buses {s t : State} (hsense : ∀ x, (t.me x).sense = (s.me x).sense)
    (hbuses : ∀ x, t.buses x = s.buses x) : SetUpAlike s t :=
  ⟨hsense, fun x => by rw [hbuses], fun x => by rw [hbuses], fun x => by rw [hbuses]⟩

theorem SetUpAlike.refl (s : State) : SetUpAlike s s := .of_buses (fun _ => rfl) (fun _ => rfl)

theorem SetUpAlike.trans {s t u : State} (h : SetUpAlike s t) (k : SetUpAlike t u) : SetUpAlike s u :=
  ⟨fun x => (k.sense x).trans (h.sense x), fun x => (k.dip x).trans (h.dip x), fun x => (k.fill x).trans (h.fill x),
    fun x => (k.cut x).trans (h.cut x)⟩

theorem SetUpAlike.foldl {α : Type} {f : State → α → State} (h : ∀ s a, SetUpAlike s (f s a)) (l : List α) :
    ∀ s, SetUpAlike s (l.foldl f s) := by
  induction l with
  | nil => exact .refl
  | cons a l ih => exact fun s => (h s a).trans (ih _)

theorem setUpAlike_post (s : State) (kind : NoticeKind) (cls : NoticeClass) (subject : Subject) :
    SetUpAlike s (s.post kind cls subject) :=
  .of_buses (fun _ => by rw [State.me_post]) (fun _ => State.buses_post ..)

theorem setUpAlike_modifyMe (s : State) (bank : BankId) (f : Me → Me) (h : (f (s.me bank)).sense = (s.me bank).sense) :
    SetUpAlike s (s.modifyMe bank f) := by
  refine .of_buses (fun x => ?_) (fun _ => State.buses_modifyMe ..)
  by_cases e : x = bank
  · subst e; rw [State.me_modifyMe]; exact h
  · rw [State.me_modifyMe_of_ne _ _ e]

theorem setUpAlike_setBuses (s : State) (bank : BankId) (k : Buses) (hdip : k.dip = (s.buses bank).dip)
    (hfill : k.fill = (s.buses bank).fill) (hcut : k.cut = (s.buses bank).cut) : SetUpAlike s (s.setBuses bank k) := by
  have hbank : ∀ x : BankId, ((s.setBuses bank k).buses x).dip = (s.buses x).dip ∧
      ((s.setBuses bank k).buses x).fill = (s.buses x).fill ∧ ((s.setBuses bank k).buses x).cut = (s.buses x).cut := by
    intro x
    by_cases e : x = bank
    · subst e; rw [State.buses_setBuses]; exact ⟨hdip, hfill, hcut⟩
    · rw [State.buses_setBuses_of_ne _ _ e]; exact ⟨rfl, rfl, rfl⟩
  exact ⟨fun x => by rw [State.me_setBuses], fun x => (hbank x).1, fun x => (hbank x).2.1, fun x => (hbank x).2.2⟩

theorem setUpAlike_complete (bank : BankId) {how : DoneBy} (hhow : how ≠ .lever) (s : State) :
    SetUpAlike s (complete bank how s) := by
  have hexchange : SetUpAlike s (if hasBkgd (s.me bank).selection then exchangeBuses bank s else s) := by
    split
    · exact setUpAlike_setBuses s bank _ rfl rfl rfl
    · exact .refl _
  exact (hexchange.trans (setUpAlike_modifyMe _ bank (fun m => m.completed how) (if_neg hhow))).trans (setUpAlike_post ..)

theorem setUpAlike_layerOn (bank : BankId) (l : LayerId) (s : State) : SetUpAlike s (layerOn bank l s) := by
  unfold layerOn; split
  · exact setUpAlike_post ..
  · exact setUpAlike_modifyMe _ _ _ rfl

theorem setUpAlike_layerOff (bank : BankId) (l : LayerId) (s : State) : SetUpAlike s (layerOff bank l s) := by
  unfold layerOff; split
  · exact setUpAlike_post ..
  · exact setUpAlike_modifyMe _ _ _ rfl

theorem setUpAlike_layerRequests (bank : BankId) (e : Keyframe) (s : State) : SetUpAlike s (layerRequests bank e s) := by
  refine (SetUpAlike.foldl (fun t l => ?_) _ s).trans (SetUpAlike.foldl (fun t l => ?_) _ _)
  · split
    · exact setUpAlike_layerOn ..
    · exact .refl _
  · split
    · exact setUpAlike_layerOff ..
    · exact .refl _

/-- A preset writes bus B alone. -/
theorem setUpAlike_presetRequest (bank : BankId) (e : Keyframe) (s : State) : SetUpAlike s (presetRequest bank e s) := by
  unfold presetRequest; split
  · exact .refl _
  · unfold placePreset; split
    · exact setUpAlike_post ..
    · exact setUpAlike_setBuses s bank _ rfl rfl rfl

theorem setUpAlike_postMark (bank : BankId) (s : State) : SetUpAlike s (postMark bank s) := by
  unfold postMark; split
  · exact setUpAlike_post ..
  · exact setUpAlike_modifyMe _ _ _ rfl

theorem setUpAlike_arriveEntry (bank : BankId) (s : State) : SetUpAlike s (arriveEntry bank s) := by
  have hasked := (setUpAlike_layerRequests bank ((s.me bank).entry (s.me bank).run.index) s).trans
    (setUpAlike_presetRequest bank ((s.me bank).entry (s.me bank).run.index) _)
  simp only [arriveEntry]; split
  · exact (hasked.trans (setUpAlike_postMark ..)).trans (setUpAlike_modifyMe _ _ _ rfl)
  · exact hasked.trans (setUpAlike_modifyMe _ _ _ rfl)

/-- A bank's own step up to its completion: the banks are set up alike, and a completion that is due is not the lever's. -/
def OwnStep (s : State) (p : State × Option DoneBy) : Prop :=
  SetUpAlike s p.1 ∧ p.2 ≠ some .lever

theorem SetUpAlike.ownStep {s t : State} (h : SetUpAlike s t) : OwnStep s (t, none) :=
  ⟨h, nofun⟩

theorem SetUpAlike.trans_ownStep {s t : State} {p : State × Option DoneBy} (h : SetUpAlike s t) (k : OwnStep t p) :
    OwnStep s p :=
  ⟨h.trans k.1, k.2⟩

theorem ownStep_endRun (bank : BankId) (s : State) : OwnStep s (endRun bank s) := by
  have hidle := (setUpAlike_modifyMe s bank (fun m => { m with run := Run.idle }) rfl).trans
    (setUpAlike_post _ .runDone .info (.me (bankByte bank)))
  simp only [endRun]; split
  · exact ⟨hidle, nofun⟩
  · exact (hidle.trans (setUpAlike_modifyMe _ _ _ rfl)).ownStep

theorem ownStep_arrive (bank : BankId) (s : State) : OwnStep s (arrive bank s) := by
  simp only [arrive]; split
  · exact (setUpAlike_arriveEntry ..).ownStep
  · split
    · exact ((setUpAlike_modifyMe _ _ _ rfl).trans (setUpAlike_arriveEntry ..)).ownStep
    · exact ownStep_endRun ..

theorem ownStep_pauseAfterSegment (bank : BankId) (s : State) : OwnStep s (pauseAfterSegment bank s) := by
  have hmoved := setUpAlike_modifyMe s bank (fun m => { m with run := m.run.pastSegment }) rfl
  simp only [pauseAfterSegment]; split
  · exact (hmoved.trans (setUpAlike_modifyMe _ _ _ rfl)).ownStep
  · split
    · exact (hmoved.trans (setUpAlike_modifyMe _ _ _ rfl)).ownStep
    · exact hmoved.trans_ownStep (ownStep_endRun ..)

theorem ownStep_stepPlaying (holding : Bool) (bank : BankId) (s : State) : OwnStep s (stepPlaying holding bank s) := by
  simp only [stepPlaying]; split
  · exact ownStep_arrive ..
  · split
    · exact (setUpAlike_modifyMe _ _ _ rfl).ownStep
    · split
      · exact ownStep_pauseAfterSegment ..
      · exact (setUpAlike_modifyMe _ _ _ rfl).trans_ownStep (ownStep_arrive ..)

theorem ownStep_runStep (bank : BankId) (s : State) : OwnStep s (runStep bank s) := by
  unfold runStep; split
  · exact (SetUpAlike.refl _).ownStep
  · exact ownStep_stepPlaying ..
  · exact (SetUpAlike.refl _).ownStep
  · exact ownStep_stepPlaying ..
  · exact (SetUpAlike.refl _).ownStep

theorem ownStep_driveStep (bank : BankId) (s : State) : OwnStep s (driveStep bank s) := by
  unfold driveStep; split
  · exact (SetUpAlike.refl _).ownStep
  · exact (SetUpAlike.refl _).ownStep
  · split
    · exact (setUpAlike_modifyMe _ _ _ rfl).ownStep
    · exact ⟨.refl _, nofun⟩
  · exact ownStep_runStep ..

theorem OwnStep.takeDue {s : State} {p : State × Option DoneBy} (h : OwnStep s p) (bank : BankId) :
    SetUpAlike s (takeDue bank p) := by
  obtain ⟨hstep, hdue⟩ := h
  unfold Machine.takeDue; split
  · exact hstep
  · rename_i how e
    exact hstep.trans (setUpAlike_complete bank (fun hhow => hdue (hhow ▸ e)) _)

theorem setUpAlike_bankOwn (bank : BankId) (s : State) : SetUpAlike s (bankOwn bank s) :=
  (setUpAlike_modifyMe s bank Me.fadeStep rfl).trans ((ownStep_driveStep ..).takeDue bank)

theorem setUpAlike_syncRelease (bank : BankId) (s : State) : SetUpAlike s (syncRelease bank s) := by
  simp only [syncRelease]; split
  · exact .refl _
  · exact .refl _
  · split
    · exact setUpAlike_modifyMe _ _ _ rfl
    · exact .refl _
  · exact .refl _
  · exact .refl _

theorem setUpAlike_banksWork (s : State) : SetUpAlike s (banksWork s) :=
  (((setUpAlike_bankOwn .a s).trans (setUpAlike_bankOwn .b _)).trans (setUpAlike_syncRelease .a _)).trans
    (setUpAlike_syncRelease .b _)

/-! ### A bank at REST or in MANUAL -/

theorem syncRelease_buses (bank : BankId) (s : State) (x : BankId) : (syncRelease bank s).buses x = s.buses x := by
  simp only [syncRelease]; split
  · rfl
  · rfl
  · split
    · exact State.buses_modifyMe ..
    · rfl
  · rfl
  · rfl

/-- A bank at REST or in MANUAL has nothing to complete at a switch line: its layers fade, and that is all. -/
theorem bankOwn_of_still {x : BankId} {s : State} (h : (s.me x).drive = .rest ∨ (s.me x).drive = .manual) :
    bankOwn x s = s.modifyMe x Me.fadeStep := by
  have hdrive : ((s.modifyMe x Me.fadeStep).me x).drive = (s.me x).drive := by rw [State.me_modifyMe]; rfl
  unfold bankOwn driveStep
  rw [hdrive]
  rcases h with h | h <;> rw [h] <;> rfl

theorem banksWork_buses_of_still {x : BankId} {s : State} (h : (s.me x).drive = .rest ∨ (s.me x).drive = .manual) :
    (banksWork s).buses x = s.buses x := by
  obtain ⟨u, v, ⟨hme, hbuses, -⟩, ⟨-, hown, -⟩, ⟨-, hrelease, -⟩⟩ := banksWork_seen x s
  have hu : (u.me x).drive = .rest ∨ (u.me x).drive = .manual := by rw [hme]; exact h
  rw [hrelease, syncRelease_buses, hown, bankOwn_of_still hu, State.buses_modifyMe, hbuses]

/-! ### The ENGINE scope on a bank (R47) -/

theorem Me.engineReset_layer (m : Me) (l : LayerId) : m.engineReset.layer l = { m.layer l with state := .off } := by
  simp [Me.layer, Me.engineReset]

/-- After any moves that leave the sense as it was, the ENGINE scope gives a bank back with its settings. -/
theorem Moves.engineReset {m m' : Me} (h : Moves m m') (hsense : m'.sense = m.sense) :
    m'.engineReset =
      { m with
        drive := .rest, position := 0, pickup := true, layers := m'.engineReset.layers, run := Run.idle, mark := false } := by
  have hsettings := h.settings
  rw [hsense] at hsettings
  rw [hsettings]
  rfl

theorem Moves.engineReset_layer {m m' : Me} (h : Moves m m') (l : LayerId) :
    m'.engineReset.layer l = { m.layer l with state := .off } := by
  rw [Me.engineReset_layer, h.layerSettings l]

/-! ### The state that the own work of a format change starts from -/

/-- The state whose take is formed at the switch line of a format change, before the banks' and the store's own work. -/
def formedAtChange (p : FieldParity) (s : State) : State :=
  formTake (lanesFormatChange s (beginPeriod p s))

theorem formedAtChange_me (p : FieldParity) (s : State) (x : BankId) : (formedAtChange p s).me x = s.me x := by
  have hlanes := onlyLanes_lanesFormatChange s (beginPeriod p s)
  cases x
  · exact (formTake_meA _).trans hlanes.meA_eq
  · exact (formTake_meB _).trans hlanes.meB_eq

theorem formedAtChange_matrix (p : FieldParity) (s : State) : (formedAtChange p s).matrix = s.matrix :=
  (formTake_matrix _).trans (onlyLanes_lanesFormatChange s (beginPeriod p s)).matrix_eq

theorem buses_of_matrix_eq {s t : State} (h : t.matrix = s.matrix) (x : BankId) : t.buses x = s.buses x := by
  cases x
  · exact congrArg Matrix.busesA h
  · exact congrArg Matrix.busesB h

theorem formedAtChange_posted (p : FieldParity) (s : State) : Posted s.notices (formedAtChange p s).notices := by
  rw [formedAtChange, formTake_notices]
  exact (onlyLanes_lanesFormatChange s (beginPeriod p s)).2

theorem ownWorkAtChange_me (before formed : State) (x : BankId) :
    (ownWorkAtChange before formed).me x = (banksWork formed).me x := by
  cases x
  · exact (onlyStore_storeWork ..).meA_eq
  · exact (onlyStore_storeWork ..).meB_eq

theorem ownWorkAtChange_matrix (before formed : State) :
    (ownWorkAtChange before formed).matrix = (banksWork formed).matrix :=
  (onlyStore_storeWork ..).matrix_eq

theorem ownWorkAtChange_posted (before formed : State) : Posted formed.notices (ownWorkAtChange before formed).notices :=
  (onlyEngine_banksWork formed).2.trans (onlyStore_storeWork before _ (banksWork formed)).2

/-! ### The banks and the buses after the change -/

theorem formatSwitchLine_me (p : FieldParity) (s : State) (x : BankId) :
    (formatSwitchLine p s).me x = ((banksWork (formedAtChange p s)).me x).engineReset := by
  rw [← ownWorkAtChange_me s]
  cases x
  · exact formatSwitchLine_meA p s
  · exact formatSwitchLine_meB p s

theorem formatSwitchLine_matrix_eq (p : FieldParity) (s : State) :
    (formatSwitchLine p s).matrix = (banksWork (formedAtChange p s)).matrix :=
  (formatSwitchLine_matrix p s).trans (ownWorkAtChange_matrix s _)

theorem moves_atChange (p : FieldParity) (s : State) (x : BankId) :
    Moves (s.me x) ((banksWork (formedAtChange p s)).me x) := by
  have hmoves := (engineWork_banksWork (formedAtChange p s)).1 x
  rw [formedAtChange_me] at hmoves
  exact hmoves

/-- R47: each bank with the record it had, but at REST with P = 0, pickup set, no run and no mark. -/
theorem formatSwitchLine_bank (p : FieldParity) (s : State) (x : BankId) :
    (formatSwitchLine p s).me x =
        { s.me x with
          drive := .rest, position := 0, pickup := true, layers := ((formatSwitchLine p s).me x).layers, run := Run.idle,
          mark := false } ∧
      ∀ l : LayerId, ((formatSwitchLine p s).me x).layer l = { (s.me x).layer l with state := .off } := by
  have hsense := (setUpAlike_banksWork (formedAtChange p s)).sense x
  rw [formedAtChange_me] at hsense
  rw [formatSwitchLine_me]
  exact ⟨(moves_atChange p s x).engineReset hsense, (moves_atChange p s x).engineReset_layer⟩

/-- The buses that a format change keeps. -/
theorem formatSwitchLine_buses (p : FieldParity) (s : State) (x : BankId) :
    ((formatSwitchLine p s).buses x).dip = (s.buses x).dip ∧ ((formatSwitchLine p s).buses x).fill = (s.buses x).fill ∧
      ((formatSwitchLine p s).buses x).cut = (s.buses x).cut ∧
      ((s.me x).drive = .rest ∨ (s.me x).drive = .manual → (formatSwitchLine p s).buses x = s.buses x) := by
  have hformed := buses_of_matrix_eq (formedAtChange_matrix p s) x
  have hset := setUpAlike_banksWork (formedAtChange p s)
  rw [buses_of_matrix_eq (formatSwitchLine_matrix_eq p s), ← hformed]
  refine ⟨hset.dip x, hset.fill x, hset.cut x, fun hstill => banksWork_buses_of_still ?_⟩
  rw [formedAtChange_me]
  exact hstill

theorem formatSwitchLine_matte (p : FieldParity) (s : State) : (formatSwitchLine p s).matrix.matte = s.matrix.matte := by
  rw [formatSwitchLine_matrix_eq, (onlyEngine_banksWork _).matte_eq, formedAtChange_matrix]

theorem formatSwitchLine_aux (p : FieldParity) (s : State) : (formatSwitchLine p s).matrix.aux = s.matrix.aux := by
  rw [formatSwitchLine_matrix_eq, (onlyEngine_banksWork _).aux_eq, formedAtChange_matrix]

/-! ### The store and the lanes after the change -/

/-- The state that posts the notices of a format change. -/
def changedState (p : FieldParity) (s : State) : State :=
  carryOutChange (ownWorkAtChange s (formedAtChange p s))

theorem formatSwitchLine_eq_notices (p : FieldParity) (s : State) :
    formatSwitchLine p s = lanesFormatNotices s (postFormat (postReference (changedState p s))) := rfl

theorem carryOutChange_lane (s : State) (n : LaneId) : (carryOutChange s).lane n = s.lane n := rfl

theorem formatSwitchLine_slot (p : FieldParity) (s : State) (m : SlotId) :
    (formatSwitchLine p s).slot m = { state := .idle, content := none } := by
  unfold State.slot
  rw [formatSwitchLine_store]
  simp [Store.stopped, Store.emptied]

theorem formatSwitchLine_lane (p : FieldParity) (s : State) (n : LaneId) :
    (formatSwitchLine p s).lane n =
      { (s.lane n).shifted s with state := if (s.lane n).detector then .acquiring else .absent, good := 0 } := by
  have hwork : (ownWorkAtChange s (formedAtChange p s)).lanes = (lanesFormatChange s (beginPeriod p s)).lanes := by
    unfold ownWorkAtChange
    rw [(onlyStore_storeWork ..).lanes_eq, (onlyEngine_banksWork _).lanes_eq, formedAtChange, formTake_lanes]
  have hlane : (ownWorkAtChange s (formedAtChange p s)).lane n = (lanesFormatChange s (beginPeriod p s)).lane n := by
    unfold State.lane
    rw [hwork]
  rw [formatSwitchLine_eq_notices, lanesFormatNotices_lane, postFormat, State.lane_post, postReference, State.lane_post,
    changedState, carryOutChange_lane, hlane, lanesFormatChange_lane]
  rfl

/-! ### The notices of the change (R13, R49) -/

/-- A notice of an enabled class that is not a LANE notice joins a queue that has room. -/
theorem ReportBuilder.take_queue {r : ReportBuilder} {n : Notice} (henabled : r.enabled.get n.cls = true)
    (hlane : n.isLane = false) (hroom : r.queue.length < 32) : (r.take n).queue = r.queue ++ [n] := by
  have hnew : ∀ q : Notice, q.sameLane n = false := fun q => Notice.sameLane_of_not_isLane_right q hlane
  simp [ReportBuilder.take, ReportBuilder.enqueue, henabled, hnew, hroom]

theorem changedState_ref (p : FieldParity) (s : State) :
    (changedState p s).ref =
      { s.ref with picture := s.ref.picture + 1, change := none, placed := none, started := true } := by
  rw [changedState, carryOutChange_ref, ownWorkAtChange_ref, formedAtChange, formTake_ref,
    (onlyLanes_lanesFormatChange ..).ref_eq, beginPeriod_ref]

theorem carryOutChange_queue (s : State) : (carryOutChange s).notices.queue = [] := rfl

theorem carryOutChange_lost (s : State) : (carryOutChange s).notices.lost = false := rfl

theorem carryOutChange_enabled (s : State) : (carryOutChange s).notices.enabled = s.notices.enabled := rfl

theorem changedState_queue (p : FieldParity) (s : State) : (changedState p s).notices.queue = [] :=
  carryOutChange_queue _

theorem changedState_lost (p : FieldParity) (s : State) : (changedState p s).notices.lost = false :=
  carryOutChange_lost _

theorem changedState_enabled (p : FieldParity) (s : State) : (changedState p s).notices.enabled = s.notices.enabled := by
  rw [changedState, carryOutChange_enabled]
  exact ((formedAtChange_posted p s).trans (ownWorkAtChange_posted s _)).enabled_eq

theorem postLane_length (n : LaneId) (before : LaneState) (s : State) :
    (postLane n before s).notices.queue.length ≤ s.notices.queue.length + 1 := by
  rw [postLane, State.post_notices]
  exact ReportBuilder.take_length ..

theorem postLane_lost (n : LaneId) (before : LaneState) {s : State} (h : s.notices.queue.length < 32) :
    (postLane n before s).notices.lost = s.notices.lost := by
  rw [postLane, State.post_notices]
  exact ReportBuilder.take_lost _ _ h

/-- The LANE notices of a format change lose none while there is room for one of every lane. -/
theorem lanesFormatNotices_lost (before s : State) (h : s.notices.queue.length + 24 ≤ 32) :
    (lanesFormatNotices before s).notices.lost = s.notices.lost := by
  have hround : ∀ (l : List LaneId) (t : State), t.notices.queue.length + l.length ≤ 32 →
      (l.foldl (fun t n => if (t.lane n).state = (before.lane n).state then t else postLane n (before.lane n).state t)
        t).notices.lost = t.notices.lost := by
    intro l
    induction l with
    | nil => intro t _; rfl
    | cons n l ih =>
      intro t ht
      rw [List.length_cons] at ht
      rw [List.foldl_cons]
      split
      · exact ih t (by omega)
      · have hlength := postLane_length n (before.lane n).state t
        rw [ih _ (by omega), postLane_lost _ _ (by omega)]
  unfold lanesFormatNotices
  refine hround _ s ?_
  rw [List.length_finRange]
  exact h

section Notices

variable {c : State}

/-- A queue emptied for a format change has room for the REFERENCE, FORMAT and LANE notices. -/
theorem formatNotices_lost (before : State) (hqueue : c.notices.queue = []) :
    (lanesFormatNotices before (postFormat (postReference c))).notices.lost = c.notices.lost := by
  have hone : (postReference c).notices.queue.length ≤ 1 :=
    Nat.le_trans (ReportBuilder.take_length ..) (by rw [hqueue]; exact Nat.le_refl _)
  have htwo : (postFormat (postReference c)).notices.queue.length ≤ 2 :=
    Nat.le_trans (ReportBuilder.take_length ..) (Nat.add_le_add_right hone 1)
  calc (lanesFormatNotices before (postFormat (postReference c))).notices.lost
      = (postFormat (postReference c)).notices.lost := lanesFormatNotices_lost _ _ (by omega)
    _ = (postReference c).notices.lost := ReportBuilder.take_lost _ _ (by omega)
    _ = c.notices.lost := ReportBuilder.take_lost _ _ (by rw [hqueue]; decide)

theorem formatNotices_enabled (before c : State) :
    (lanesFormatNotices before (postFormat (postReference c))).notices.enabled = c.notices.enabled := by
  rw [(onlyLanes_lanesFormatNotices ..).2.enabled_eq]
  exact (ReportBuilder.take_enabled ..).trans (ReportBuilder.take_enabled ..)

theorem ClassFlags.all_get (cls : NoticeClass) : ClassFlags.all.get cls = true := by
  cases cls <;> rfl

/-- With every class enabled, REFERENCE and then FORMAT stand at the front of an emptied queue. -/
theorem formatNotices_queue (before : State) (hqueue : c.notices.queue = []) (hall : c.notices.enabled = ClassFlags.all) :
    (lanesFormatNotices before (postFormat (postReference c))).notices.queue.take 2 =
      [{ kind := .reference c.ref.status.name, cls := referenceClass c.ref.status.name, subject := .none,
         number := c.ref.picture },
       { kind := .format c.ref.house, cls := .info, subject := .none, number := c.ref.picture }] := by
  have hreference : (postReference c).notices.queue =
      [{ kind := .reference c.ref.status.name, cls := referenceClass c.ref.status.name, subject := .none,
         number := c.ref.picture }] := by
    rw [postReference, State.post_notices,
      ReportBuilder.take_queue (by rw [hall]; exact ClassFlags.all_get _) rfl (by rw [hqueue]; decide), hqueue,
      List.nil_append]
  have hstill : (postReference c).notices.enabled = ClassFlags.all := (ReportBuilder.take_enabled ..).trans hall
  have hformat : (postFormat (postReference c)).notices.queue =
      [{ kind := .reference c.ref.status.name, cls := referenceClass c.ref.status.name, subject := .none,
         number := c.ref.picture },
       { kind := .format c.ref.house, cls := .info, subject := .none, number := c.ref.picture }] := by
    rw [postFormat, State.post_notices,
      ReportBuilder.take_queue (by rw [hstill]; exact ClassFlags.all_get _) rfl (by rw [hreference]; exact Nat.lt_of_sub_eq_succ rfl),
      hreference]
    rfl
  obtain ⟨rest, hrest⟩ := (onlyLanes_lanesFormatNotices before (postFormat (postReference c))).2.front
    (hformat.trans (List.append_nil _).symm) (by simp [Notice.isLane])
  rw [hrest]
  rfl

end Notices

theorem formatSwitchLine_lost (p : FieldParity) (s : State) : (formatSwitchLine p s).notices.lost = false := by
  rw [formatSwitchLine_eq_notices, formatNotices_lost s (changedState_queue p s), changedState_lost]

theorem formatSwitchLine_enabled (p : FieldParity) (s : State) :
    (formatSwitchLine p s).notices.enabled = s.notices.enabled := by
  rw [formatSwitchLine_eq_notices, formatNotices_enabled, changedState_enabled]

theorem formatSwitchLine_queue (p : FieldParity) {s : State} (h : s.notices.enabled = ClassFlags.all) :
    (formatSwitchLine p s).notices.queue.take 2 =
      [{ kind := .reference s.ref.status.name, cls := if s.ref.status.name = .freeRun then .degraded else .info,
         subject := .none, number := s.ref.picture + 1 },
       { kind := .format s.ref.house, cls := .info, subject := .none, number := s.ref.picture + 1 }] := by
  rw [formatSwitchLine_eq_notices,
    formatNotices_queue s (changedState_queue p s) ((changedState_enabled p s).trans h), changedState_ref]
  rfl

/-! ### The two rows -/

theorem formatChangeLine_of_change (p : FieldParity) {s : State} (h : s.ref.change ≠ none) :
    formatChangeLine p s = formatSwitchLine p s :=
  if_pos (Option.isSome_iff_ne_none.mpr h)

theorem formatChangeLine_of_no_change (p : FieldParity) {s : State} (h : s.ref.change = none) : formatChangeLine p s = s :=
  if_neg (by simp [h])

/-- Settles O13: both rows are the switch line of the change, which gives each record back as the ENGINE scope leaves it. -/
theorem formatChangeRestartsTheEngine : Obligations.FormatChangeRestartsTheEngine := by
  refine fun s p hr => ⟨fun h => ?_, fun h => ⟨?_, formatSwitchLine p s, ?_, (formatSwitchLine_beginsPeriod p s).ref, ?_, ?_, ?_,
    formatSwitchLine_bank p s, formatSwitchLine_slot p s, ?_, ?_, fun n => ?_, formatSwitchLine_buses p s, ?_,
    formatSwitchLine_matte p s, formatSwitchLine_aux p s, (formatSwitchLine_beginsPeriod p s).tally, formatSwitchLine_lost p s,
    formatSwitchLine_enabled p s, formatSwitchLine_queue p⟩⟩
  · rw [exec_formatChange p hr, formatChangeLine_of_no_change p h]
  · rw [exec_switchLine p hr, exec_formatChange p hr, switchLine_of_change p h, formatChangeLine_of_change p h]
  · rw [exec_formatChange p hr, formatChangeLine_of_change p h]
  · rw [formatSwitchLine_control]
  · rw [formatSwitchLine_control]
  · rw [formatSwitchLine_control]
  · rw [formatSwitchLine_store]; rfl
  · rw [formatSwitchLine_store]; rfl
  · rw [formatSwitchLine_lane]; exact ⟨rfl, rfl, rfl, rfl, rfl⟩
  · rw [formatSwitchLine_curves]; rfl

end Sys2Proof.Machine
end

section
/-! What every source and output delivers (R9, R22, R23, R53, R61, R64, R68, R155): M/E A's programme as source 25, the positions of a
period and the lines that the outputs send, and the samples of the sources that no bank composes. -/

namespace Sys2Proof.Machine

/-! ### Positions and lines (R9, R68) -/

theorem carries_iff (s : State) (x y : Nat) :
    s.carries x y = true ↔
      s.ref.started = true ∧ x < s.periodFormat.width ∧ y < s.periodFormat.height ∧
        (s.periodFormat.interlaced = true → (y % 2 = 0 ↔ s.parity = .first)) := by
  simp only [State.carries, Bool.and_eq_true, Bool.or_eq_true, Bool.not_eq_true', decide_eq_true_eq, and_assoc]
  cases s.periodFormat.interlaced with
  | false => simp
  | true => cases s.parity <;> simp

theorem sampleAt_of_carries {s : State} {x y : Nat} (h : s.carries x y = true) (p : Pixel) : s.sampleAt x y p = some p :=
  if_pos h

theorem sampleAt_of_not_carries {s : State} {x y : Nat} (h : s.carries x y = false) (p : Pixel) : s.sampleAt x y p = none :=
  if_neg (by simp [h])

theorem sourcePixel_of_not_carries {s : State} {x y : Nat} (h : s.carries x y = false) (src : Source) :
    sourcePixel s src x y = none := by
  cases src <;> exact sampleAt_of_not_carries h _

theorem outputs_of_not_sends {s : State} {y : Nat} (h : s.sends y = false) (x : Nat) :
    programOutput s x y = none ∧ previewOutput s x y = none ∧ auxOutput s x y = none :=
  ⟨output_of_not_sends h _, output_of_not_sends h _, output_of_not_sends h _⟩

theorem output_none (s : State) (y : Nat) : s.output y none = none := by
  simp [State.output]

theorem outputs_of_not_carries {s : State} {x y : Nat} (h : s.carries x y = false) :
    programOutput s x y = none ∧ previewOutput s x y = none ∧ auxOutput s x y = none := by
  have hprogramme : programmePixel s .b x y = none := sampleAt_of_not_carries h _
  have hpreview : previewPixel s .b x y = none := sampleAt_of_not_carries h _
  simp [programOutput, previewOutput, auxOutput, hprogramme, hpreview, sourcePixel_of_not_carries h, output_none]

/-- PROGRAM, PREVIEW and AUX on a line that is sent (R61, R67). -/
theorem outputs_of_sends {s : State} {x y : Nat} (hc : s.carries x y = true) (hs : s.sends y = true) :
    programOutput s x y = some ((programmeOf s .b).pixel x y) ∧ previewOutput s x y = sourcePixel s .meBPreview x y ∧
      auxOutput s x y = (sourcePixel s s.matrix.aux x y).map clampPixel :=
  ⟨(output_of_sends hs _).trans (sampleAt_of_carries hc _), output_of_sends hs _, output_of_sends hs _⟩

/-! ### Re-entry (R64) -/

/-- What a source delivers that no bank composes rests on the lanes, the slots, the matte and the period alone. -/
theorem plainPicture_setMeB (s : State) (m : Me) (k : Buses) (src : Source) :
    plainPicture ((s.setMe .b m).setBuses .b k) src = plainPicture s src := by
  cases src <;> rfl

theorem programmeOf_a_setMeB (s : State) (m : Me) (k : Buses) :
    programmeOf ((s.setMe .b m).setBuses .b k) .a = programmeOf s .a := by
  have hbus : ∀ src : Source, busPicture ((s.setMe .b m).setBuses .b k) .a src = busPicture s .a src :=
    fun src => plainPicture_setMeB s m k src
  simp only [programmeOf, hbus]
  rfl

theorem busPicture_b_meAProgramme (s : State) : busPicture s .b .meAProgramme = programmeOf s .a := rfl

/-! ### The sources that no bank composes (R53, R155) -/

theorem busPicture_of_ne {s : State} {src : Source} (h : src ≠ .meAProgramme) (bank : BankId) :
    busPicture s bank src = plainPicture s src :=
  if_neg fun ⟨_, e⟩ => h e

theorem sourcePixel_of_plain {s : State} {x y : Nat} (hc : s.carries x y = true) {src : Source} (hcode : src.code ≤ 34)
    (hne : src ≠ .meAProgramme) : sourcePixel s src x y = some ((plainPicture s src).pixel x y) := by
  cases src with
  | black => exact sampleAt_of_carries hc _
  | lane n => exact sampleAt_of_carries hc _
  | meAProgramme => exact absurd rfl hne
  | slot m => exact sampleAt_of_carries hc _
  | matte => exact sampleAt_of_carries hc _
  | meAPreview => exact absurd hcode (by decide)
  | meBProgramme => exact absurd hcode (by decide)
  | meBPreview => exact absurd hcode (by decide)

theorem slotPicture_of_empty {s : State} {m : SlotId} (h : (s.slot m).content = none) :
    slotPicture s m = .flat Pixel.black := by
  simp [slotPicture, h]

theorem slotPicture_of_content {s : State} {m : SlotId} {p : Picture} (h : (s.slot m).content = some p) :
    slotPicture s m = p := by
  simp [slotPicture, h]

theorem plainPicture_of_locked {s : State} {n : LaneId} (h : (s.lane n).state = .locked) :
    plainPicture s (.lane n) = lanePicture s n :=
  if_pos h

theorem plainPicture_of_fallback {s : State} {n : LaneId} (h : (s.lane n).state ≠ .locked) :
    plainPicture s (.lane n) = fallbackPicture s n :=
  if_neg h

theorem fallbackPicture_of_none {s : State} {n : LaneId} (h : (s.lane n).fallback = none) :
    fallbackPicture s n = .flat Pixel.black := by
  simp [fallbackPicture, h]

theorem fallbackPicture_of_slot {s : State} {n : LaneId} {m : SlotId} (h : (s.lane n).fallback = some m) :
    fallbackPicture s n = slotPicture s m := by
  simp [fallbackPicture, h]

/-! ### A LOCKED lane (R22) -/

theorem LaneStart.sample_eq (start : LaneStart) (x y : Nat) :
    start.sample x y = if y ∈ start.missing then Pixel.black else Raster.sample start.raster x y := by
  simp [LaneStart.sample]

theorem lanePicture_of_one {s : State} {n : LaneId} {note : StartNote} (h : s.window n = [note]) :
    lanePicture s n = .live note.start := by
  simp [lanePicture, h]

theorem lanePicture_of_torn {s : State} {n : LaneId} (h : ∀ note : StartNote, s.window n ≠ [note]) :
    lanePicture s n = .torn n s.ref.picture ((s.received n).map (·.start)) := by
  unfold lanePicture
  split
  · rename_i note e; exact absurd e (h note)
  · rfl

/-- A torn line that no received start has in time is black. -/
theorem lanePicture_black {s : State} {n : LaneId} {y : Nat} (h : ∀ note : StartNote, s.window n ≠ [note])
    (hmissing : ∀ note ∈ s.received n, y ∈ note.start.missing) (x : Nat) : (lanePicture s n).sample x y = Pixel.black := by
  rw [lanePicture_of_torn h]
  refine tornSample_of_none (fun start hstart => ?_) x
  obtain ⟨note, hnote, rfl⟩ := List.mem_map.mp hstart
  exact hmissing note hnote

/-- A torn line that some received start has in time is as one of these received it (log 7). -/
theorem lanePicture_received {s : State} {n : LaneId} {y : Nat} (h : ∀ note : StartNote, s.window n ≠ [note])
    (hreceived : ∃ note ∈ s.received n, y ∉ note.start.missing) :
    ∃ note ∈ s.received n,
      y ∉ note.start.missing ∧ ∀ x : Nat, (lanePicture s n).sample x y = Raster.sample note.start.raster x y := by
  rw [lanePicture_of_torn h]
  obtain ⟨note, hnote, hline⟩ := hreceived
  obtain ⟨start, hmem, hline, hsample⟩ :=
    tornSample_of_some n s.ref.picture ⟨note.start, List.mem_map_of_mem hnote, hline⟩
  obtain ⟨note, hnote, rfl⟩ := List.mem_map.mp hmem
  exact ⟨note, hnote, hline, hsample⟩

/-! ### The statement's five parts -/

/-- Settles O19: re-entry, the positions and lines, the plain sources, a LOCKED lane, and a captured field. -/
theorem reEntryDeliversTheProgrammeOfMeA : Obligations.ReEntryDeliversTheProgrammeOfMeA := by
  refine ⟨fun s x y => ⟨busPicture_b_meAProgramme s, rfl, fun hc => sampleAt_of_carries hc _, programmeOf_a_setMeB s⟩,
    fun s x y => ⟨carries_iff s x y, fun h => sends_of_even_period h y, fun lines h => sends_of_uneven_period h y,
      fun h => outputs_of_not_sends h x, fun hc => ?_, fun hc => ⟨fun src hcode hne => ?_, outputs_of_sends hc⟩⟩,
    fun s x y => ⟨rfl, rfl, fun m => ⟨fun h => ?_, fun p h => slotPicture_of_content h⟩,
      fun n => ⟨fun hl => ⟨fun h => ?_, fun m h => ?_⟩, plainPicture_of_locked⟩⟩,
    fun s n y => ⟨fun note h x => ?_, fun h received hreceived => ?_⟩, fun content x y => ⟨rfl, rfl⟩⟩
  · obtain ⟨hprogram, hpreview, haux⟩ := outputs_of_not_carries hc
    exact ⟨hprogram, hpreview, haux, sourcePixel_of_not_carries hc⟩
  · exact ⟨sourcePixel_of_plain hc hcode hne, busPicture_of_ne hne⟩
  · rw [plainPicture, slotPicture_of_empty h]; rfl
  · rw [plainPicture_of_fallback hl, fallbackPicture_of_none h]; rfl
  · rw [plainPicture_of_fallback hl, fallbackPicture_of_slot h]; rfl
  · rw [lanePicture_of_one h]; exact LaneStart.sample_eq note.start x y
  · obtain rfl : received = s.received n := hreceived
    exact ⟨lanePicture_black h, lanePicture_received h⟩

end Sys2Proof.Machine
end

section
/-! Every step keeps the take unit's lists within their limits and the schedule list in order (R34, R36, R40): the reference timing
unit keeps the picture number between switch lines, a switch line takes the due entries as the number rises, and no other work adds to
the lists but collection. -/

namespace Sys2Proof.Machine

/-! ### The picture number between switch lines (R3) -/

theorem changeStatus_picture (r : RefStatus) (s : State) : (changeStatus r s).ref.picture = s.ref.picture := by
  simp only [changeStatus]; split <;> rfl

/-- Judging a picture, entering LOCKED included, leaves the picture number to the switch line. -/
theorem judgePicture_picture (picture : Option HouseFormat) (lines : Nat) (s : State) :
    (judgePicture picture lines s).ref.picture = s.ref.picture := by
  unfold judgePicture; split
  · exact changeStatus_picture ..
  · rfl
  · exact changeStatus_picture ..
  · rfl
  · split
    · split
      · exact changeStatus_picture ..
      · rfl
    · rfl
  · exact changeStatus_picture ..
  · split
    · rfl
    · exact changeStatus_picture ..
  · exact changeStatus_picture ..

theorem actStart_picture (x : ReferenceStart) (s : State) : (actStart x s).ref.picture = s.ref.picture := by
  unfold actStart; split
  · rfl
  · exact judgePicture_picture ..

theorem actMissing_picture (s : State) : (actMissing s).ref.picture = s.ref.picture := by
  unfold actMissing; split
  · rfl
  · exact changeStatus_picture ..
  · split
    · rfl
    · exact changeStatus_picture ..
  · rfl

/-! ### Work that leaves the lists alone -/

theorem OnlyLanes.listsSound {s t : State} (w : OnlyLanes s t) (h : s.listsSound) : t.listsSound :=
  listsSound_of_eq w.control_eq (by rw [w.ref_eq]) h

theorem OnlyEngine.listsSound {s t : State} (w : OnlyEngine s t) (h : s.listsSound) : t.listsSound :=
  listsSound_of_eq w.control_eq (by rw [w.ref_eq]) h

theorem OnlyStore.listsSound {s t : State} (w : OnlyStore s t) (h : s.listsSound) : t.listsSound :=
  listsSound_of_eq w.control_eq (by rw [w.ref_eq]) h

/-- Empty lists and an empty window are within every limit, whatever the picture number. -/
theorem listsSound_of_empty {s : State} (ht : s.control.takeList = []) (hs : s.control.schedule = [])
    (hp : s.control.packets = 0) : s.listsSound := by
  unfold State.listsSound State.listsBounded State.scheduleOrdered
  rw [ht, hs, hp]
  simp

/-! ### Events of the inputs -/

theorem listsSound_actStart (x : ReferenceStart) {s : State} (h : s.listsSound) : (actStart x s).listsSound :=
  listsSound_of_eq (onlyRef_actStart x s).control_eq (actStart_picture x s) h

theorem listsSound_actMissing {s : State} (h : s.listsSound) : (actMissing s).listsSound :=
  listsSound_of_eq (onlyRef_actMissing s).control_eq (actMissing_picture s) h

theorem listsSound_referenceStart (x : ReferenceStart) (s : State) (h : s.listsSound) : (referenceStart x s).listsSound := by
  unfold referenceStart; split
  · exact listsSound_of_eq rfl rfl h
  · exact listsSound_actStart x h

theorem listsSound_referenceMissing (s : State) (h : s.listsSound) : (referenceMissing s).listsSound := by
  unfold referenceMissing; split
  · exact listsSound_of_eq rfl rfl h
  · exact listsSound_actMissing h

theorem listsSound_packetArrives (whole : Bool) (carrier : List Byte) (s : State) (h : s.listsSound) :
    (packetArrives whole carrier s).listsSound := by
  unfold packetArrives; split
  · split
    · exact listsSound_of_eq rfl rfl h
    · exact listsSound_collectCarrier carrier h
  · exact h

theorem listsSound_dueEntry (s : State) (h : s.listsSound) : (dueEntry s).listsSound :=
  listsSound_of_sublist h (dueEntry_schedule s) (by rw [dueEntry_frame]) (by rw [dueEntry_frame]) (by rw [dueEntry_frame])

/-! ### The two lines of a picture period -/

/-- The number rises, the entries due at it leave, and the commands of the take add nothing to the lists. -/
theorem listsSound_plainSwitchLine (p : FieldParity) {s : State} (h : s.listsSound) : (plainSwitchLine p s).listsSound := by
  have hl := onlyLanes_lanesWork s (beginPeriod p s)
  have hf : (formTake (lanesWork s (beginPeriod p s))).listsSound :=
    listsSound_formTake h (by rw [hl.control_eq]; rfl) (by rw [hl.control_eq]; rfl) (by rw [hl.ref_eq]; rfl)
  exact listsSound_handOut _ ((onlyStore_storeWork ..).listsSound ((onlyEngine_banksWork _).listsSound hf))

theorem listsSound_formatSwitchLine (p : FieldParity) (s : State) : (formatSwitchLine p s).listsSound :=
  listsSound_of_empty (by rw [formatSwitchLine_control]) (by rw [formatSwitchLine_control]) (by rw [formatSwitchLine_control])

theorem listsSound_switchLine (p : FieldParity) (s : State) (h : s.listsSound) : (switchLine p s).listsSound := by
  unfold switchLine; split
  · exact listsSound_formatSwitchLine p s
  · exact listsSound_plainSwitchLine p h

theorem listsSound_formatChangeLine (p : FieldParity) (s : State) (h : s.listsSound) : (formatChangeLine p s).listsSound := by
  unfold formatChangeLine; split
  · exact listsSound_formatSwitchLine p s
  · exact h

theorem listsSound_actHeld (e : HeldEvent) {s : State} (h : s.listsSound) : (actHeld e s).listsSound := by
  cases e with
  | start x => exact listsSound_actStart x h
  | missing => exact listsSound_actMissing h
  | packet carrier =>
    simp only [actHeld]; split
    · exact listsSound_collectCarrier carrier h
    · exact h

theorem listsSound_foldl_actHeld (l : List HeldEvent) :
    ∀ s : State, s.listsSound → (l.foldl (fun t e => actHeld e t) s).listsSound := by
  induction l with
  | nil => exact fun _ h => h
  | cons e l ih => exact fun s h => ih _ (listsSound_actHeld e h)

/-- Of the report line's work only a packet among the held events reaches the lists. -/
theorem listsSound_reportLine (s : State) (h : s.listsSound) : (reportLine s).listsSound := by
  unfold reportLine; split
  · exact listsSound_foldl_actHeld _ _ (listsSound_of_eq rfl rfl h)
  · exact h

/-- Every operation of the commands keeps the lists within their limits and in order. -/
theorem kept_listsSound : Kept State.listsSound where
  restarted := fun _ _ _ _ => listsSound_of_empty rfl rfl rfl
  signal := fun n signal s h => (onlyLanes_laneSignal n signal s).listsSound h
  start := listsSound_referenceStart
  missing := listsSound_referenceMissing
  line := listsSound_switchLine
  report := listsSound_reportLine
  packet := listsSound_packetArrives
  due := listsSound_dueEntry
  change := listsSound_formatChangeLine
  laneStart := fun n x s h => (onlyLanes_laneStart n x s).listsSound h
  lock := fun n s h => (onlyLanes_laneLock n s).listsSound h
  fadeEnd := fun bank l s h => (onlyEngine_fadeEnd bank l s).listsSound h
  autoDue := fun bank s h => (onlyEngine_autoCompletionDue bank s).listsSound h
  segmentEnd := fun bank s h => (onlyEngine_segmentEnd bank s).listsSound h
  release := fun bank s h => (onlyEngine_syncRelease bank s).listsSound h
  completion := fun m s h => (onlyStore_completeGrab s m s).listsSound h
  begins := fun m s h => (onlyStore_grabBegin m s).listsSound h
  timeout := fun m s h => (onlyStore_grabWaitTimeout m s).listsSound h
  collect := fun target code count inner _ h => listsSound_collectAt target code count inner h
  command := fun c _ h => listsSound_runCommand c h

/-- Settles O59: the limits and the order of the lists are kept by every operation, so by every step. -/
theorem stepsKeepTheListsSound : Obligations.StepsKeepTheListsSound := fun _ _ hbounded hordered hstep =>
  kept_listsSound.step (fun _ _ h => h) ⟨hbounded, hordered⟩ hstep

end Sys2Proof.Machine
end

section
/-! AT at collection (R37 to R40): its refusals in order, and the placing of an inner command that reads by the distance from N to its
target. -/

namespace Sys2Proof.Machine

/-! ### The refusals of AT (R38) -/

section Inner

variable {code count : Byte} {inner : List Byte}

theorem collectAt_of_miscount (h : inner.length ≠ count.toNat) (target : PictureNumber) (code : Byte) (s : State) :
    collectAt target code count inner s = s.refuse 1 .length .none :=
  if_pos h

/-- With its inner count met an AT inside an AT is refused before its inner bytes are read. -/
theorem collectAt_of_inner_at (h : inner.length = count.toNat) (target : PictureNumber) (s : State) :
    collectAt target 1 count inner s = s.refuse 1 .target .none :=
  (if_neg (Decidable.not_not.mpr h)).trans (if_pos rfl)

theorem collectAt_of_unknown (h : inner.length = count.toNat) (hc : code ≠ 1) (hr : readCommand code inner = none)
    (target : PictureNumber) (s : State) : collectAt target code count inner s = s.refuse code .unknown .none := by
  simp only [collectAt, if_neg (Decidable.not_not.mpr h), if_neg hc, hr]

theorem collectAt_of_length (h : inner.length = count.toNat) (hc : code ≠ 1) (hr : readCommand code inner = some none)
    (target : PictureNumber) (s : State) : collectAt target code count inner s = s.refuse code .length .none := by
  simp only [collectAt, if_neg (Decidable.not_not.mpr h), if_neg hc, hr]

theorem collectAt_of_read (h : inner.length = count.toNat) (hc : code ≠ 1) {c : Command}
    (hr : readCommand code inner = some (some c)) (target : PictureNumber) (s : State) :
    collectAt target code count inner s = placeTimed target c s := by
  simp only [collectAt, if_neg (Decidable.not_not.mpr h), if_neg hc, hr]

end Inner

/-! ### The placing of the inner command (R39, R40) -/

theorem relation_of_zero {x y : PictureNumber} (h : distance x y = 0) : relation x y = .same :=
  if_pos h

theorem relation_of_near {x y : PictureNumber} (hmin : 1 ≤ distance x y) (hmax : distance x y ≤ 8388607) :
    relation x y = .future := by
  rw [relation, if_neg (by omega), if_pos hmax]

theorem relation_of_far {x y : PictureNumber} (h : 8388608 ≤ distance x y) : relation x y = .past := by
  rw [relation, if_neg (by omega), if_neg (by omega)]

section Placing

variable {s : State} {target : PictureNumber}

theorem placeTimed_of_same (h : distance (nextPicture s) target = 0) (c : Command) :
    placeTimed target c s = appendTake c false s := by
  simp only [placeTimed, relation_of_zero h]

theorem placeTimed_of_past (h : 8388608 ≤ distance (nextPicture s) target) (c : Command) :
    placeTimed target c s = appendTake c true s := by
  simp only [placeTimed, relation_of_far h]

theorem placeTimed_of_future (hmin : 1 ≤ distance (nextPicture s) target) (hmax : distance (nextPicture s) target ≤ 8388607)
    (c : Command) : placeTimed target c s = scheduleCommand target c s := by
  simp only [placeTimed, relation_of_near hmin hmax]

theorem scheduleCommand_of_full (h : 64 ≤ s.control.schedule.length) (target : PictureNumber) (c : Command) :
    scheduleCommand target c s = s.refuse 1 .full .none :=
  if_neg (Nat.not_lt.mpr h)

theorem scheduleCommand_of_room (h : s.control.schedule.length < 64) (target : PictureNumber) (c : Command) :
    scheduleCommand target c s =
      { s with
        control :=
          { s.control with
            schedule := insertEntry (nextPicture s) { target := target, command := c } s.control.schedule } } :=
  if_pos h

end Placing

/-- Settles O52: the refusals in order, then each place by the three relations of a target to N. -/
theorem atPlacesItsInnerCommand : Obligations.AtPlacesItsInnerCommand := by
  intro s target code count inner hr
  rw [exec_atPicture target code count inner hr]
  refine ⟨fun hn => by rw [collectAt_of_miscount hn], fun hn => ⟨?_, fun hc hu => by rw [collectAt_of_unknown hn hc hu],
    fun hc hl => by rw [collectAt_of_length hn hc hl], fun c hc hread => ?_⟩⟩
  · rintro rfl
    rw [collectAt_of_inner_at hn]
  · rw [collectAt_of_read hn hc hread]
    refine ⟨fun hsame => ?_, fun hpast => ?_, fun hmin hmax => ?_⟩
    · rw [placeTimed_of_same hsame]
      exact ⟨fun hroom => by rw [appendTake_of_room hroom], fun hfull => by rw [appendTake_of_full hfull]⟩
    · rw [placeTimed_of_past hpast]
      exact ⟨fun hroom => by rw [appendTake_of_room hroom], fun hfull => by rw [appendTake_of_full hfull]⟩
    · rw [placeTimed_of_future hmin hmax]
      refine ⟨fun hfull => by rw [scheduleCommand_of_full hfull], fun hroom => ?_⟩
      obtain ⟨before, after, hsplit, hinsert, hbefore, hafter⟩ :=
        insertEntry_split (nextPicture s) { target := target, command := c } s.control.schedule
      exact ⟨before, after, hsplit, hbefore, hafter, by rw [scheduleCommand_of_room hroom, hinsert]⟩

end Sys2Proof.Machine
end

section
/-! How operands and commands are read from their bytes (R50, R53, R55, R182, R184, R186, R188): each reading as the codes it takes,
and a command as exactly the code and parameter bytes it is sent in. -/

namespace Sys2Proof.Machine

/-! ### Bytes that choose from a list (R182) -/

theorem readBank_eq (b : Byte) : readBank b = if b = 0 then some .a else if b = 1 then some .b else none := by
  unfold readBank
  split <;> simp_all [← BitVec.toNat_inj]

theorem readSwitch_eq (b : Byte) : readSwitch b = if b = 0 then some false else if b = 1 then some true else none := by
  unfold readSwitch
  split <;> simp_all [← BitVec.toNat_inj]

theorem readTransitionType_eq (b : Byte) :
    readTransitionType b =
      if b = 0 then some .cut else if b = 1 then some .mix else if b = 2 then some .wipe else if b = 3 then some .dip
      else none := by
  unfold readTransitionType
  split <;> simp_all [← BitVec.toNat_inj]

theorem readWipeShape_eq (b : Byte) :
    readWipeShape b =
      if b = 0 then some .horizontal else if b = 1 then some .vertical else if b = 2 then some .box
      else if b = 3 then some .diamond else none := by
  unfold readWipeShape
  split <;> simp_all [← BitVec.toNat_inj]

theorem readKeyKind_eq (b : Byte) : readKeyKind b = if b = 0 then some .luma else if b = 1 then some .linear else none := by
  unfold readKeyKind
  split <;> simp_all [← BitVec.toNat_inj]

theorem readEndMode_eq (b : Byte) : readEndMode b = if b = 0 then some .stop else if b = 1 then some .loop else none := by
  unfold readEndMode
  split <;> simp_all [← BitVec.toNat_inj]

/-! ### Bytes that name one of several, counted from 1 (R51, R182) -/

/-- A reading that finds index n at n + 1 and nothing outside 1 to k finds n at n + 1 only. -/
theorem reads_iff_of_counted {k : Nat} {read : Byte → Option (Fin k)}
    (hof : ∀ {v : Byte} {n : Fin k}, v.toNat = n.val + 1 → read v = some n)
    (hnone : ∀ {v : Byte}, v.toNat = 0 ∨ k < v.toNat → read v = none) (b : Byte) (n : Fin k) :
    read b = some n ↔ b.toNat = n.val + 1 := by
  refine ⟨fun h => ?_, hof⟩
  by_cases hb : b.toNat = 0 ∨ k < b.toNat
  · rw [hnone hb] at h; cases h
  · have hv : b.toNat = (⟨b.toNat - 1, by omega⟩ : Fin k).val + 1 := by simp only; omega
    rw [hof hv, Option.some.injEq] at h
    rwa [h] at hv

theorem readLane_iff (b : Byte) (n : LaneId) : readLane b = some n ↔ b.toNat = n.val + 1 :=
  reads_iff_of_counted readLane_of readLane_none b n

theorem readLayer_iff (b : Byte) (l : LayerId) : readLayer b = some l ↔ b.toNat = l.val + 1 :=
  reads_iff_of_counted readLayer_of readLayer_none b l

theorem readSlot_iff (b : Byte) (m : SlotId) : readSlot b = some m ↔ b.toNat = m.val + 1 :=
  reads_iff_of_counted readSlot_of readSlot_none b m

theorem readLoadableCurve_iff (b : Byte) (c : CurveId) : readLoadableCurve b = some c ↔ b.toNat = c.val + 1 :=
  reads_iff_of_counted readLoadableCurve_of readLoadableCurve_none b c

/-! ### The curve number of a bank (R97) -/

theorem readCurveNumber_zero_iff (b : Byte) : readCurveNumber b = some none ↔ b = 0 := by
  simp [readCurveNumber, ← BitVec.toNat_inj]

theorem readCurveNumber_iff (b : Byte) (c : CurveId) : readCurveNumber b = some (some c) ↔ b.toNat = c.val + 1 := by
  unfold readCurveNumber
  split
  · simp; omega
  · simp [readLoadableCurve_iff]

theorem readCurveNumber_none_iff (b : Byte) : readCurveNumber b = none ↔ 4 < b.toNat := by
  refine ⟨fun h => Nat.lt_of_not_le fun hle => ?_, fun h => ?_⟩
  · by_cases hb : b.toNat = 0
    · rw [(readCurveNumber_zero_iff b).mpr (BitVec.eq_of_toNat_eq hb)] at h; cases h
    · rw [(readCurveNumber_iff b ⟨b.toNat - 1, by omega⟩).mpr (by simp only; omega)] at h; cases h
  · rw [readCurveNumber, if_neg (by omega), readLoadableCurve_none (.inr h)]; rfl

/-! ### Buses (R182) -/

/-- The number that names a bus (R182). -/
def busCode : Bus → Nat
  | .a => 0
  | .b => 1
  | .dip => 2
  | .fill l => l.val + 3
  | .cut l => l.val + 7

theorem readBus_code {b : Byte} {k : Bus} (h : readBus b = some k) : b.toNat = busCode k := by
  unfold readBus at h
  split at h <;> cases h <;> assumption

theorem readBus_of {b : Byte} {k : Bus} (h : b.toNat = busCode k) : readBus b = some k := by
  unfold readBus
  cases k with
  | a => rw [h]; rfl
  | b => rw [h]; rfl
  | dip => rw [h]; rfl
  | fill l =>
    rw [h]
    match l with
    | 0 | 1 | 2 | 3 => rfl
  | cut l =>
    rw [h]
    match l with
    | 0 | 1 | 2 | 3 => rfl

theorem readBus_iff (b : Byte) (k : Bus) : readBus b = some k ↔ b.toNat = busCode k :=
  ⟨readBus_code, readBus_of⟩

theorem readBus_none_iff (b : Byte) : readBus b = none ↔ 10 < b.toNat := by
  unfold readBus
  split
  case h_12 => simp only [imp_false] at *; simp only [true_iff]; omega
  all_goals simp [*]

/-! ### Selections and layer sets (R182) -/

theorem selection_weights : ∀ sel : Selection,
    sel.toNat =
      (if hasBkgd sel then 1 else 0) + (if hasLayer sel 0 then 2 else 0) + (if hasLayer sel 1 then 4 else 0) +
        (if hasLayer sel 2 then 8 else 0) + (if hasLayer sel 3 then 16 else 0) := by
  decide

theorem layerSet_weights : ∀ set : LayerSet,
    set.toNat =
      (if inLayerSet set 0 then 1 else 0) + (if inLayerSet set 1 then 2 else 0) + (if inLayerSet set 2 then 4 else 0) +
        (if inLayerSet set 3 then 8 else 0) := by
  decide

theorem readSelection_none_iff (b : Byte) : readSelection b = none ↔ 31 < b.toNat := by
  simp only [readSelection, ite_eq_right_iff, reduceCtorEq, imp_false, Nat.not_lt]
  rfl

theorem readLayerSet_none_iff (b : Byte) : readLayerSet b = none ↔ 15 < b.toNat := by
  simp only [readLayerSet, ite_eq_right_iff, reduceCtorEq, imp_false, Nat.not_lt]
  rfl

theorem readSelection_iff (b : Byte) (sel : Selection) : readSelection b = some sel ↔ b.toNat = sel.toNat := by
  have hsel := sel.isLt
  simp only [readSelection, Option.ite_none_right_eq_some, Option.some.injEq, ← BitVec.toNat_inj, BitVec.toNat_setWidth]
  omega

theorem readLayerSet_iff (b : Byte) (set : LayerSet) : readLayerSet b = some set ↔ b.toNat = set.toNat := by
  have hset := set.isLt
  simp only [readLayerSet, Option.ite_none_right_eq_some, Option.some.injEq, ← BitVec.toNat_inj, BitVec.toNat_setWidth]
  omega

/-! ### Source codes (R53, R55) -/

theorem readSource_iff (b : Byte) (src : Source) : readSource b = some src ↔ b.toNat = src.code :=
  ⟨readSource_code, readSource_of⟩

theorem readSource_isSome_iff (b : Byte) : (readSource b).isSome = true ↔ b.toNat ≤ 37 := by
  refine ⟨fun h => Nat.le_of_not_lt fun hb => ?_, fun h => ?_⟩
  · rw [readSource_none hb] at h; cases h
  · unfold readSource
    simp only
    repeat' split
    case isFalse => omega
    all_goals rfl

/-- The codes legal on the buses of a bank: up to 34, and on M/E A not its own programme. -/
theorem legalOn_iff (bank : BankId) (src : Source) :
    legalOn bank src = true ↔ src.code ≤ 34 ∧ (bank = .a → src.code ≠ 25) := by
  cases src with
  | lane n =>
    have hn := n.isLt
    exact ⟨fun _ => ⟨by simp only [Source.code, laneCode]; omega, fun _ => by simp only [Source.code, laneCode]; omega⟩,
      fun _ => rfl⟩
  | slot m =>
    have hm := m.isLt
    exact ⟨fun _ => ⟨by simp only [Source.code, slotCode]; omega, fun _ => by simp only [Source.code, slotCode]; omega⟩,
      fun _ => rfl⟩
  | _ => cases bank <;> decide

theorem readBusSource_isSome_iff (bank : BankId) (b : Byte) :
    (readBusSource bank b).isSome = true ↔ b.toNat ≤ 34 ∧ (bank = .a → b.toNat ≠ 25) := by
  simp only [readBusSource, Option.isSome_iff_exists, Option.filter_eq_some_iff, readSource_iff, legalOn_iff]
  constructor
  · rintro ⟨src, hcode, hlegal⟩
    rwa [hcode]
  · intro h
    obtain ⟨src, hsrc⟩ := Option.isSome_iff_exists.mp ((readSource_isSome_iff b).mpr (by omega))
    have hcode := readSource_code hsrc
    exact ⟨src, hcode, hcode ▸ h⟩

/-! ### Commands (R184, R186) -/

theorem picture24_bytes (high middle low : Byte) :
    [byteOf ((picture24 high middle low).toNat / 65536), byteOf ((picture24 high middle low).toNat / 256 % 256),
      byteOf ((picture24 high middle low).toNat % 256)] = [high, middle, low] :=
  (picture24_eq_iff high middle low _).mp rfl

theorem word16_bytes (w : Word16) : word16 (byteOf (w.toNat / 256)) (byteOf (w.toNat % 256)) = w :=
  (word16_eq_iff _ _ w).mpr rfl

theorem picture24_of_bytes (p : PictureNumber) :
    picture24 (byteOf (p.toNat / 65536)) (byteOf (p.toNat / 256 % 256)) (byteOf (p.toNat % 256)) = p :=
  (picture24_eq_iff _ _ _ p).mpr rfl

/-- A command that reads is the one whose code and parameter bytes were sent, and a list of keyframe records is not empty. CANCEL,
LOAD_CURVE, MASK_SET and LOAD_KEYFRAMES (rows 1, 9, 12 and 24 of the table) take a picture number, 65 numbers, a box or none, and
records; every other code takes one fixed list of bytes and 2-byte numbers. -/
theorem readCommand_spells {code : Byte} {params : List Byte} {c : Command} (h : readCommand code params = some (some c)) :
    code = c.code ∧ params = paramBytes c ∧ ∀ me first records, c = .loadKeyframes me first records → records ≠ [] := by
  unfold readCommand at h
  split at h
  case h_1 e =>
    split at h <;> cases h
    exact ⟨BitVec.eq_of_toNat_eq e, (picture24_bytes ..).symm, nofun⟩
  case h_9 e =>
    split at h
    · split at h
      · cases h
      · rename_i curve bytes words hwords
        split at h <;> cases h
        refine ⟨BitVec.eq_of_toNat_eq e, ?_, nofun⟩
        simp [paramBytes, (readWords_eq_some_iff _ _).mp hwords]
    · cases h
  case h_12 e =>
    split at h <;> cases h
    · exact ⟨BitVec.eq_of_toNat_eq e, rfl, nofun⟩
    · exact ⟨BitVec.eq_of_toNat_eq e, by simp [paramBytes, wordBytes_word16], nofun⟩
  case h_24 e =>
    split at h
    · simp only [Option.some.injEq, Option.map_eq_some_iff] at h
      obtain ⟨records, hrecords, rfl⟩ := h
      obtain ⟨hne, hbytes⟩ := (readRecords_eq_some_iff _ _ _ (Nat.le_refl _)).mp hrecords
      refine ⟨BitVec.eq_of_toNat_eq e, by simp [paramBytes, hbytes], ?_⟩
      rintro _ _ _ ⟨⟩
      exact hne
    · cases h
  case h_34 => cases h
  all_goals
    rename_i e
    split at h <;> cases h
    exact ⟨BitVec.eq_of_toNat_eq e, by simp [paramBytes, wordBytes_word16], nofun⟩

theorem readCommand_of_points {bytes : List Byte} {points : Vector Word16 65} (h : readWords bytes = some points.toList)
    (curve : Byte) : readCommand 48 (curve :: bytes) = some (some (.loadCurve curve points)) := by
  have hpoints : points.toList.toArray = points.toArray := points.toArray.toArray_toList
  simp [readCommand, h, hpoints]

theorem readCommand_of_records {bytes : List Byte} {records : List KeyframeBytes}
    (h : readRecords bytes.length bytes = some records) (me first : Byte) :
    readCommand 96 (me :: first :: bytes) = some (some (.loadKeyframes me first records)) := by
  simp [readCommand, h]

/-- A command's own code and parameter bytes read as the command, with a list of keyframe records that is not empty. -/
theorem readCommand_paramBytes {c : Command}
    (h : ∀ me first records, c = .loadKeyframes me first records → records ≠ []) :
    readCommand c.code (paramBytes c) = some (some c) := by
  cases c with
  | cancel target => simp [readCommand, Command.code, paramBytes, picture24_of_bytes]
  | loadCurve curve points => exact readCommand_of_points ((readWords_eq_some_iff ..).mpr rfl) curve
  | maskSet me layer box => cases box <;> simp [readCommand, Command.code, paramBytes, wordBytes, word16_bytes]
  | loadKeyframes me first records =>
    exact readCommand_of_records ((readRecords_eq_some_iff _ _ _ (Nat.le_refl _)).mpr ⟨h me first records rfl, rfl⟩) me first
  | _ => simp [readCommand, Command.code, paramBytes, wordBytes, word16_bytes]

theorem readCommand_iff (code : Byte) (params : List Byte) (c : Command) :
    readCommand code params = some (some c) ↔
      code = c.code ∧ params = paramBytes c ∧ ∀ me first records, c = .loadKeyframes me first records → records ≠ [] := by
  refine ⟨readCommand_spells, ?_⟩
  rintro ⟨rfl, rfl, h⟩
  exact readCommand_paramBytes h

/-- A code outside the table is no command, and every code of the table answers whatever bytes follow. -/
theorem readCommand_none_iff (code : Byte) (params : List Byte) :
    readCommand code params = none ↔
      code.toNat ∉
        [2, 3, 4, 16, 17, 32, 33, 34, 48, 49, 50, 51, 64, 65, 66, 67, 68, 80, 81, 82, 83, 84, 85, 96, 97, 98, 99, 100, 101,
          112, 113, 128, 129] := by
  unfold readCommand
  split
  case h_34 => simp only [imp_false] at *; simp [*]
  all_goals simp [*]

/-- Settles O6: each parameter by its own reading, sources and bus sources by their codes, commands by their own bytes. -/
theorem parameterCodesAndLegalSources : Obligations.ParameterCodesAndLegalSources := by
  refine ⟨readBank_eq, readLane_iff, readLayer_iff, readSlot_iff, readLoadableCurve_iff,
    fun b l => ⟨readBus_iff b (.fill l), readBus_iff b (.cut l)⟩, fun b => ⟨?_, ?_, ?_, readBus_none_iff b⟩,
    fun b => ⟨readSelection_none_iff b, readLayerSet_none_iff b, readSwitch_eq b⟩, fun b sel => ?_, fun b set => ?_,
    fun b => ⟨readTransitionType_eq b, readWipeShape_eq b, readKeyKind_eq b, readEndMode_eq b, readCurveNumber_zero_iff b,
      readCurveNumber_none_iff b, readCurveNumber_iff b⟩,
    readSource_iff, readSource_isSome_iff, readBusSource_isSome_iff, readCommand_iff, readCommand_none_iff, fun c => ?_⟩
  · rw [readBus_iff, ← BitVec.toNat_inj]; rfl
  · rw [readBus_iff, ← BitVec.toNat_inj]; rfl
  · rw [readBus_iff, ← BitVec.toNat_inj]; rfl
  · rw [readSelection_iff, selection_weights]
  · rw [readLayerSet_iff, layerSet_weights]
  · cases c <;> rfl

end Sys2Proof.Machine
end

section
/-! Every step keeps every bus on a source legal on its bank (R55): the work that leaves the buses alone, the commands that write a bus,
and the operations one by one. -/

namespace Sys2Proof.Machine

/-! ### Work that leaves the buses alone -/

theorem busesLegal_of_buses_eq {s t : State} (hb : ∀ x : BankId, t.buses x = s.buses x) (h : s.busesLegal) : t.busesLegal := by
  intro x k
  rw [hb]
  exact h x k

theorem busesLegal_of_matrix_eq {s t : State} (hm : t.matrix = s.matrix) (h : s.busesLegal) : t.busesLegal :=
  busesLegal_of_buses_eq (buses_of_matrix_eq hm) h

theorem busesLegal_powerOn {s : State} (hm : s.matrix = Matrix.powerOn) : s.busesLegal := by
  intro x
  have hbuses : s.buses x = Buses.powerOn := by cases x <;> simp only [State.buses, hm] <;> rfl
  rw [hbuses]
  exact Buses.powerOn_legal x

theorem doWipeSet_matrix (me shape reverse : Byte) (softness : Word16) (s : State) :
    (doWipeSet me shape reverse softness s).matrix = s.matrix := by
  unfold doWipeSet; split <;> simp

theorem doKeySet_matrix (me layer kind : Byte) (clip : Word16) (gain invert : Byte) (s : State) :
    (doKeySet me layer kind clip gain invert s).matrix = s.matrix := by
  unfold doKeySet; split <;> simp

theorem doMaskSet_matrix (me layer : Byte) (box : Option BoxWords) (s : State) :
    (doMaskSet me layer box s).matrix = s.matrix := by
  unfold doMaskSet; split <;> simp

theorem doTransSet_matrix (me kind : Byte) (rate : Word16) (curve : Byte) (s : State) :
    (doTransSet me kind rate curve s).matrix = s.matrix := by
  unfold doTransSet; split
  · unfold transSet; split <;> simp
  · simp

theorem doNextSet_matrix (me selection : Byte) (s : State) : (doNextSet me selection s).matrix = s.matrix := by
  unfold doNextSet; split
  · split <;> simp
  · simp

theorem doLayerRate_matrix (me layer : Byte) (rate : Word16) (s : State) :
    (doLayerRate me layer rate s).matrix = s.matrix := by
  unfold doLayerRate; split <;> simp

theorem doOrder_matrix (me first second third fourth : Byte) (s : State) :
    (doOrder me first second third fourth s).matrix = s.matrix := by
  unfold doOrder; split
  · simp
  · split <;> simp

theorem doRaise_matrix (me layer : Byte) (s : State) : (doRaise me layer s).matrix = s.matrix := by
  unfold doRaise; split <;> simp

theorem doLower_matrix (me layer : Byte) (s : State) : (doLower me layer s).matrix = s.matrix := by
  unfold doLower; split <;> simp

theorem doLoadKeyframes_matrix (me first : Byte) (records : List KeyframeBytes) (s : State) :
    (doLoadKeyframes me first records s).matrix = s.matrix := by
  unfold doLoadKeyframes; split
  · simp
  · split
    · simp
    · split
      · simp
      · split <;> simp

theorem doRunSet_matrix (me count endMode loops : Byte) (s : State) :
    (doRunSet me count endMode loops s).matrix = s.matrix := by
  unfold doRunSet; split
  · split <;> simp
  · simp

theorem doAuxSelect_buses (source : Byte) (s : State) (x : BankId) : (doAuxSelect source s).buses x = s.buses x := by
  unfold doAuxSelect; split
  · simp
  · cases x <;> rfl

theorem doMatte_buses (y cb cr : Word16) (s : State) (x : BankId) : (doMatte y cb cr s).buses x = s.buses x := by
  cases x <;> rfl

theorem doNoticeMask_matrix (info advisory degraded : Byte) (s : State) :
    (doNoticeMask info advisory degraded s).matrix = s.matrix := by
  unfold doNoticeMask; split
  · rfl
  · simp

/-! ### The commands of a take -/

/-- SELECT writes a source that has been read as legal on the bank (R55, R57). -/
theorem busesLegal_doSelect (me bus source : Byte) {s : State} (h : s.busesLegal) : (doSelect me bus source s).busesLegal := by
  unfold doSelect; split
  · exact (onlyPosts_refuse ..).engineWork.2 h
  · split
    · exact (onlyPosts_refuse ..).engineWork.2 h
    · split
      · exact (onlyPosts_refuse ..).engineWork.2 h
      · rename_i src hsrc
        exact busesLegal_setBus _ h (readBusSource_legal hsrc)

/-- RESET leaves the buses as they are, or puts BLACK on every one (R47, R48). -/
theorem busesLegal_doReset (scope : Byte) {s : State} (h : s.busesLegal) : (doReset scope s).busesLegal := by
  unfold doReset; split
  · exact busesLegal_of_matrix_eq (s := s) rfl h
  · exact busesLegal_powerOn (resetFull_matrix s)
  · exact (onlyPosts_refuse ..).engineWork.2 h

theorem busesLegal_runCommand (c : Command) (s : State) (h : s.busesLegal) : (runCommand c s).busesLegal := by
  cases c with
  | cancel _ => exact h
  | cancelAll => exact h
  | reset scope => exact busesLegal_doReset scope h
  | laneSet _ _ _ => exact (onlyLanes_doLaneSet ..).engineWork.2 h
  | resync _ => exact (onlyLanes_doResync ..).engineWork.2 h
  | select me bus source => exact busesLegal_doSelect me bus source h
  | auxSelect source => exact busesLegal_of_buses_eq (doAuxSelect_buses source s) h
  | matte y cb cr => exact busesLegal_of_buses_eq (doMatte_buses y cb cr s) h
  | loadCurve curve points => exact busesLegal_of_matrix_eq (doLoadCurve_lanes_matrix curve points s).2 h
  | wipeSet _ _ _ _ => exact busesLegal_of_matrix_eq (doWipeSet_matrix ..) h
  | keySet _ _ _ _ _ _ => exact busesLegal_of_matrix_eq (doKeySet_matrix ..) h
  | maskSet _ _ _ => exact busesLegal_of_matrix_eq (doMaskSet_matrix ..) h
  | transSet _ _ _ _ => exact busesLegal_of_matrix_eq (doTransSet_matrix ..) h
  | nextSet _ _ => exact busesLegal_of_matrix_eq (doNextSet_matrix ..) h
  | cut _ => exact (engineWork_doCut ..).2 h
  | auto _ => exact (engineWork_doAuto ..).2 h
  | lever _ _ => exact (engineWork_doLever ..).2 h
  | layerOn _ _ => exact (engineWork_doLayerOn ..).2 h
  | layerOff _ _ => exact (engineWork_doLayerOff ..).2 h
  | layerRate _ _ _ => exact busesLegal_of_matrix_eq (doLayerRate_matrix ..) h
  | order _ _ _ _ _ => exact busesLegal_of_matrix_eq (doOrder_matrix ..) h
  | raise _ _ => exact busesLegal_of_matrix_eq (doRaise_matrix ..) h
  | lower _ _ => exact busesLegal_of_matrix_eq (doLower_matrix ..) h
  | loadKeyframes _ _ _ => exact busesLegal_of_matrix_eq (doLoadKeyframes_matrix ..) h
  | runSet _ _ _ _ => exact busesLegal_of_matrix_eq (doRunSet_matrix ..) h
  | run _ => exact (engineWork_doRun ..).2 h
  | step _ => exact (engineWork_doStep ..).2 h
  | hold _ => exact (engineWork_doHold ..).2 h
  | abort _ => exact (engineWork_doAbort ..).2 h
  | grab _ _ => exact (onlyStore_doGrab ..).engineWork.2 h
  | clear _ => exact (onlyStore_doClear ..).engineWork.2 h
  | noticeMask _ _ _ => exact busesLegal_of_matrix_eq (doNoticeMask_matrix ..) h
  | clearSummary => exact h

theorem busesLegal_handOut (n : Nat) : ∀ s : State, s.busesLegal → (handOut n s).busesLegal := by
  induction n with
  | zero => exact fun _ h => h
  | succ n ih =>
    intro s h
    unfold handOut; split
    · exact h
    · refine ih _ (busesLegal_runCommand _ _ ?_)
      split
      · exact busesLegal_of_matrix_eq (s := s) rfl h
      · exact h

/-! ### The two lines of a picture period -/

theorem busesLegal_plainSwitchLine (p : FieldParity) {s : State} (h : s.busesLegal) : (plainSwitchLine p s).busesLegal := by
  have hlanes : (lanesWork s (beginPeriod p s)).matrix = s.matrix := (onlyLanes_lanesWork ..).matrix_eq
  have hformed := busesLegal_of_matrix_eq ((formTake_matrix _).trans hlanes) h
  exact busesLegal_handOut _ _ ((onlyStore_storeWork ..).engineWork.2 ((engineWork_banksWork _).2 hformed))

/-- At a format change only the banks' own work reaches the buses (R13). -/
theorem busesLegal_formatSwitchLine (p : FieldParity) {s : State} (h : s.busesLegal) : (formatSwitchLine p s).busesLegal :=
  busesLegal_of_matrix_eq (formatSwitchLine_matrix_eq p s)
    ((engineWork_banksWork _).2 (busesLegal_of_matrix_eq (formedAtChange_matrix p s) h))

theorem busesLegal_switchLine (p : FieldParity) (s : State) (h : s.busesLegal) : (switchLine p s).busesLegal := by
  unfold switchLine; split
  · exact busesLegal_formatSwitchLine p h
  · exact busesLegal_plainSwitchLine p h

theorem busesLegal_formatChangeLine (p : FieldParity) (s : State) (h : s.busesLegal) : (formatChangeLine p s).busesLegal := by
  unfold formatChangeLine; split
  · exact busesLegal_formatSwitchLine p h
  · exact h

theorem busesLegal_actHeld (e : HeldEvent) {s : State} (h : s.busesLegal) : (actHeld e s).busesLegal := by
  cases e with
  | start x => exact (onlyRef_actStart x s).engineWork.2 h
  | missing => exact (onlyRef_actMissing s).engineWork.2 h
  | packet carrier =>
    simp only [actHeld]; split
    · exact (onlyControl_collectCarrier carrier s).engineWork.2 h
    · exact h

theorem busesLegal_foldl_actHeld (l : List HeldEvent) :
    ∀ s : State, s.busesLegal → (l.foldl (fun t e => actHeld e t) s).busesLegal := by
  induction l with
  | nil => exact fun _ h => h
  | cons e l ih => exact fun s h => ih _ (busesLegal_actHeld e h)

theorem busesLegal_reportLine (s : State) (h : s.busesLegal) : (reportLine s).busesLegal := by
  unfold reportLine; split
  · exact busesLegal_foldl_actHeld _ _ (busesLegal_of_matrix_eq (s := s) rfl h)
  · exact h

/-! ### Events of the inputs -/

theorem busesLegal_referenceStart (x : ReferenceStart) (s : State) (h : s.busesLegal) : (referenceStart x s).busesLegal := by
  unfold referenceStart; split
  · exact h
  · exact (onlyRef_actStart x s).engineWork.2 h

theorem busesLegal_referenceMissing (s : State) (h : s.busesLegal) : (referenceMissing s).busesLegal := by
  unfold referenceMissing; split
  · exact h
  · exact (onlyRef_actMissing s).engineWork.2 h

theorem busesLegal_packetArrives (whole : Bool) (carrier : List Byte) (s : State) (h : s.busesLegal) :
    (packetArrives whole carrier s).busesLegal := by
  unfold packetArrives; split
  · split
    · exact h
    · exact (onlyControl_collectCarrier carrier s).engineWork.2 h
  · exact h

theorem busesLegal_dueEntry (s : State) (h : s.busesLegal) : (dueEntry s).busesLegal := by
  rw [dueEntry_frame]
  exact h

/-- Every operation of the commands keeps every bus on a legal source. -/
theorem kept_busesLegal : Kept State.busesLegal where
  restarted := fun _ _ _ _ => busesLegal_powerOn rfl
  signal := fun n signal s h => (onlyLanes_laneSignal n signal s).engineWork.2 h
  start := busesLegal_referenceStart
  missing := busesLegal_referenceMissing
  line := busesLegal_switchLine
  report := busesLegal_reportLine
  packet := busesLegal_packetArrives
  due := busesLegal_dueEntry
  change := busesLegal_formatChangeLine
  laneStart := fun n x s h => (onlyLanes_laneStart n x s).engineWork.2 h
  lock := fun n s h => (onlyLanes_laneLock n s).engineWork.2 h
  fadeEnd := fun bank l s h => (engineWork_fadeEnd bank l s).2 h
  autoDue := fun bank s h => (engineWork_autoCompletionDue bank s).2 h
  segmentEnd := fun bank s h => (engineWork_segmentEnd bank s).2 h
  release := fun bank s h => (engineWork_syncRelease bank s).2 h
  completion := fun m s h => (onlyStore_completeGrab s m s).engineWork.2 h
  begins := fun m s h => (onlyStore_grabBegin m s).engineWork.2 h
  timeout := fun m s h => (onlyStore_grabWaitTimeout m s).engineWork.2 h
  collect := fun target code count inner s h => (onlyControl_collectAt target code count inner s).engineWork.2 h
  command := busesLegal_runCommand

/-- Settles O56: legal buses are kept by every operation, so by every step. -/
theorem stepsKeepEveryBusLegal : Obligations.StepsKeepEveryBusLegal := fun _ _ hlegal hstep =>
  kept_busesLegal.step (fun _ _ h => h) hlegal hstep

end Sys2Proof.Machine
end

section
/-! SELECT, AUX_SELECT and MATTE (R56, R57, R61, R62): what each writes, and what is refused. -/

namespace Sys2Proof.Machine

/-! ### Sources legal on a bank (R55) -/

theorem readBusSource_none_of {bank : BankId} {source : Byte} (h : 34 < source.toNat ∨ (bank = .a ∧ source.toNat = 25)) :
    readBusSource bank source = none := by
  rw [← Option.not_isSome_iff_eq_none, readBusSource_isSome_iff]
  rintro ⟨hmax, hown⟩
  rcases h with h | ⟨hbank, h⟩
  · omega
  · exact hown hbank h

theorem readBusSource_of {bank : BankId} {source : Byte} {src : Source} (h : source.toNat = src.code) (hmax : src.code ≤ 34)
    (hown : bank = .a → src.code ≠ 25) : readBusSource bank source = some src :=
  Option.filter_eq_some_iff.mpr ⟨readSource_of h, (legalOn_iff bank src).mpr ⟨hmax, hown⟩⟩

/-! ### SELECT (R56, R57) -/

theorem doSelect_of_no_bank {me : Byte} (h : readBank me = none) (bus source : Byte) (s : State) :
    doSelect me bus source s = s.refuse 32 .target (.me me) := by
  simp only [doSelect, h]

theorem doSelect_of_no_bus {me bus : Byte} {bank : BankId} (hm : readBank me = some bank) (hb : readBus bus = none)
    (source : Byte) (s : State) : doSelect me bus source s = s.refuse 32 .target (.me me) := by
  simp only [doSelect, hm, hb]

theorem doSelect_of_illegal {me bus source : Byte} {bank : BankId} {k : Bus} (hm : readBank me = some bank)
    (hb : readBus bus = some k) (hs : readBusSource bank source = none) (s : State) :
    doSelect me bus source s = s.refuse 32 .source (.me me) := by
  simp only [doSelect, hm, hb, hs]

theorem doSelect_of_legal {me bus source : Byte} {bank : BankId} {k : Bus} {src : Source} (hm : readBank me = some bank)
    (hb : readBus bus = some k) (hs : readBusSource bank source = some src) (s : State) :
    doSelect me bus source s = s.setBus bank k src := by
  simp only [doSelect, hm, hb, hs]

theorem State.setBus_frame (s : State) (bank : BankId) (k : Bus) (src : Source) :
    (s.setBus bank k src).buses bank.other = s.buses bank.other ∧ (s.setBus bank k src).matrix.aux = s.matrix.aux ∧
      (s.setBus bank k src).matrix.matte = s.matrix.matte ∧
      s.setBus bank k src = { s with matrix := (s.setBus bank k src).matrix } := by
  cases bank <;> exact ⟨rfl, rfl, rfl, rfl⟩

/-- Settles O17: the refusals in the order of the parameters, and the one bus that a legal source is written to. -/
theorem selectSetsOneBus : Obligations.SelectSetsOneBus := by
  intro s me bus source hr
  rw [exec_select me bus source hr]
  refine ⟨fun hm => by rw [doSelect_of_no_bank hm], fun bank hm => ⟨fun hb => by rw [doSelect_of_no_bus hm hb], fun k hb =>
    ⟨fun h => by rw [doSelect_of_illegal hm hb (readBusSource_none_of h)], fun src hcode hmax hown =>
      ⟨s.setBus bank k src, ?_, ?_, fun other hne => ?_, State.setBus_frame s bank k src⟩⟩⟩⟩
  · rw [doSelect_of_legal hm hb (readBusSource_of hcode hmax hown)]
  · rw [State.buses_setBus, Buses.get_set_self]
  · rw [State.buses_setBus, Buses.get_set_of_ne _ _ hne]

/-! ### AUX_SELECT and MATTE (R61, R62) -/

theorem doAuxSelect_of_source {source : Byte} {src : Source} (h : source.toNat = src.code) (s : State) :
    doAuxSelect source s = { s with matrix := { s.matrix with aux := src } } := by
  simp only [doAuxSelect, readSource_of h]

theorem doAuxSelect_of_none {source : Byte} (h : 37 < source.toNat) (s : State) :
    doAuxSelect source s = s.refuse 33 .source .none := by
  simp only [doAuxSelect, readSource_none h]

/-- Settles O18: AUX_SELECT by what its code names, and MATTE by its clamped components. -/
theorem auxSelectAndMatteWriteTheMatrix : Obligations.AuxSelectAndMatteWriteTheMatrix := by
  refine fun s hr => ⟨fun source src h => ?_, fun source h => ?_, fun y cb cr =>
    ⟨{ y := matteComponent y, cb := matteComponent cb, cr := matteComponent cr }, exec_matte y cb cr hr, matteComponent_toNat y,
      matteComponent_toNat cb, matteComponent_toNat cr⟩⟩
  · rw [exec_auxSelect source hr, doAuxSelect_of_source h]
  · rw [exec_auxSelect source hr, doAuxSelect_of_none h]

end Sys2Proof.Machine
end

section
/-! A completion (R59, R94 to R96): the exchange of the buses, the toggle of each selected layer, the rest of the bank's record, and the
notice that it posts. -/

namespace Sys2Proof.Machine

/-! ### The bank's record (R94, R95) -/

theorem Me.completed_layer (m : Me) (how : DoneBy) (l : LayerId) :
    (m.completed how).layer l =
      if hasLayer m.selection l then { m.layer l with state := (m.layer l).state.toggled } else m.layer l :=
  Me.toggleSelected_layer m l

theorem Me.completed_layer_of_selected {m : Me} {l : LayerId} (h : hasLayer m.selection l = true) (how : DoneBy) :
    (m.completed how).layer l = { m.layer l with state := (m.layer l).state.toggled } := by
  rw [Me.completed_layer, if_pos h]

theorem Me.completed_layer_of_unselected {m : Me} {l : LayerId} (h : hasLayer m.selection l = false) (how : DoneBy) :
    (m.completed how).layer l = m.layer l := by
  rw [Me.completed_layer, if_neg (by simp [h])]

theorem Sense.opposite_eq (x : Sense) : x.opposite = if x = .forward then .reverse else .forward := by
  cases x <;> rfl

theorem Me.completed_frame (m : Me) (how : DoneBy) :
    m.completed how =
      { m with
        layers := (m.completed how).layers
        position := 0
        drive := .rest
        sense := if how = .lever then (if m.sense = .forward then .reverse else .forward) else m.sense
        pickup := if how = .lever then false else true } := by
  rw [← Sense.opposite_eq]
  rfl

/-! ### The whole state -/

theorem complete_me (bank : BankId) (how : DoneBy) (s : State) : (complete bank how s).me bank = (s.me bank).completed how := by
  rw [me_complete, if_pos rfl]

theorem complete_me_other (bank : BankId) (how : DoneBy) (s : State) :
    (complete bank how s).me bank.other = s.me bank.other := by
  rw [me_complete, if_neg (by cases bank <;> decide)]

/-- The exchange of R59 happens when BKGD is in the selection. -/
theorem complete_buses (bank : BankId) (how : DoneBy) (s : State) :
    (complete bank how s).buses bank =
      if hasBkgd (s.me bank).selection then { s.buses bank with a := (s.buses bank).b, b := (s.buses bank).a }
      else s.buses bank := by
  simp only [complete, State.buses_post, State.buses_modifyMe]
  split
  · exact State.buses_setBuses ..
  · rfl

theorem complete_buses_other (bank : BankId) (how : DoneBy) (s : State) :
    (complete bank how s).buses bank.other = s.buses bank.other := by
  simp only [complete, State.buses_post, State.buses_modifyMe]
  split
  · exact State.buses_other_setBuses ..
  · rfl

theorem complete_notices (bank : BankId) (how : DoneBy) (s : State) :
    (complete bank how s).notices =
      s.notices.take
        { kind := .transitionDone how, cls := .info, subject := .me (bankByte bank), number := s.ref.picture } := by
  simp only [complete, State.post_notices, State.modifyMe_notices, State.modifyMe_ref]
  split
  · simp only [exchangeBuses, State.setBuses_notices, State.setBuses_ref]
  · rfl

/-- Both banks, the matrix and the notices are all that a completion reaches. -/
theorem complete_frame (bank : BankId) (how : DoneBy) (s : State) :
    complete bank how s =
      { s with
        meA := (complete bank how s).meA
        meB := (complete bank how s).meB
        matrix := (complete bank how s).matrix
        notices := (complete bank how s).notices } := by
  obtain ⟨hengine, -⟩ := onlyEngine_complete bank how s
  rw [hengine]

/-- Settles O29: buses, layers, record and notice, each by its own lemma. -/
theorem completionEndsATransition : Obligations.CompletionEndsATransition := by
  rintro s bank how t rfl
  rw [complete_me, complete_me_other, complete_buses, complete_buses_other]
  refine ⟨fun h => if_pos h, fun h => if_neg (by simp [h]), rfl, (onlyEngine_complete ..).aux_eq,
    (onlyEngine_complete ..).matte_eq, fun l => ⟨fun h => Me.completed_layer_of_unselected h how, fun h => ?_⟩,
    Me.completed_frame .., rfl, complete_notices .., complete_frame ..⟩
  rw [Me.completed_layer_of_selected h]
  refine ⟨rfl, fun hs => ?_, fun hs => ?_, fun c rf hs => ?_, fun c rf hs => ?_⟩ <;> simp only [hs, LayerState.toggled]

end Sys2Proof.Machine
end

section
/-! The background of a look, the final alpha of its layers and its preview (R65, R75, R78 to R80, R85 to R88): the weights at the ends
of P, and what the composer makes of them. -/

namespace Sys2Proof.Machine

/-! ### The mix at its ends (R70) -/

theorem mix_zero (a b : Nat) : mix a b 0 = a := by
  unfold mix; omega

theorem mix_full (a b : Nat) : mix a b 1024 = b := by
  unfold mix; omega

theorem mixCode_zero (a b : Code10) : mixCode a b 0 = a := by
  rw [mixCode, mix_zero, BitVec.ofNat_toNat, BitVec.setWidth_eq]

theorem mixCode_full (a b : Code10) : mixCode a b 1024 = b := by
  rw [mixCode, mix_full, BitVec.ofNat_toNat, BitVec.setWidth_eq]

theorem mixPixel_zero (a b : Pixel) : mixPixel a b 0 = a := by
  simp only [mixPixel, mixCode_zero]

theorem mixPixel_full (a b : Pixel) : mixPixel a b 1024 = b := by
  simp only [mixPixel, mixCode_full]

/-! ### The weights at the ends of P (R73, R75, R77, R78) -/

theorem tableWeight_zero {table : Curve} (h : table.sound) : tableWeight table 0 = 0 := by
  obtain ⟨hfirst, -, -⟩ := h
  simpa [tableWeight, Vector.getD] using hfirst

theorem tableWeight_full {table : Curve} (h : table.sound) : tableWeight table 4096 = 1024 := by
  obtain ⟨-, hlast, -⟩ := h
  simpa [tableWeight] using hlast

theorem curveWeight_zero {c : Option Curve} (h : ∀ table : Curve, c = some table → table.sound) : curveWeight c 0 = 0 := by
  cases c with
  | none => rfl
  | some table => exact tableWeight_zero (h table rfl)

theorem curveWeight_full {c : Option Curve} (h : ∀ table : Curve, c = some table → table.sound) :
    curveWeight c 4096 = 1024 := by
  cases c with
  | none => rfl
  | some table => exact tableWeight_full (h table rfl)

theorem cutWeight_of_lt {p : Nat} (h : p < 2048) : cutWeight p = 0 := if_pos h

theorem cutWeight_of_ge {p : Nat} (h : 2048 ≤ p) : cutWeight p = 1024 := if_neg (Nat.not_lt.mpr h)

theorem scaled_le {v size : Nat} (h : v < size) : 4096 * v / size ≤ 4095 :=
  Nat.le_of_lt_succ (Nat.div_lt_of_lt_mul (by omega))

theorem centreDistance_lt {v size : Nat} (h : v < size) : centreDistance v size < size := by
  unfold centreDistance; omega

theorem patternBase_le {shape : WipeShape} {width height x y : Nat} (hx : x < width) (hy : y < height) :
    patternBase shape width height x y ≤ 4095 := by
  have hdx := scaled_le (centreDistance_lt hx)
  have hdy := scaled_le (centreDistance_lt hy)
  cases shape with
  | horizontal => exact scaled_le hx
  | vertical => exact scaled_le hy
  | box => exact Nat.max_le.mpr ⟨hdx, hdy⟩
  | diamond => simp only [patternBase]; omega

/-- A pattern value is at most 4095 on the active picture (R77). -/
theorem patternValue_le (w : Wipe) {width height x y : Nat} (hx : x < width) (hy : y < height) :
    patternValue w width height x y ≤ 4095 := by
  have hbase := patternBase_le (shape := w.shape) hx hy
  simp only [patternValue]
  split <;> omega

theorem wipeWeight_zero (softness q : Nat) : wipeWeight softness 0 q = 0 := by
  simp only [wipeWeight]
  split
  · rw [if_neg (Nat.not_lt_zero q)]
  · rw [if_neg (by omega), if_pos (by omega)]

theorem wipeWeight_full (softness : Nat) {q : Nat} (hq : q ≤ 4095) : wipeWeight softness 4096 q = 1024 := by
  simp only [wipeWeight]
  split
  · rw [if_pos (by omega)]
  · rw [if_pos (by omega)]

/-! ### The background (R79, R80) -/

theorem Look.background_of_rest {l : Look} (h : l.atRest = true) (x y : Nat) (p : BusPixels) : l.background x y p = p.a := by
  simp [Look.background, h]

theorem Look.background_of_no_bkgd {l : Look} (h : hasBkgd l.selection = false) (x y : Nat) (p : BusPixels) :
    l.background x y p = p.a := by
  simp [Look.background, h]

section Running

variable {l : Look} (hrun : l.atRest = false) (hbkgd : hasBkgd l.selection = true)
include hrun hbkgd

theorem Look.background_of_mix (h : l.kind = .mix) (x y : Nat) (p : BusPixels) :
    l.background x y p = mixPixel p.a p.b (curveWeight l.curve l.position) := by
  simp [Look.background, hrun, hbkgd, h]

theorem Look.background_of_cut (h : l.kind = .cut) (x y : Nat) (p : BusPixels) :
    l.background x y p = mixPixel p.a p.b (cutWeight l.position) := by
  simp [Look.background, hrun, hbkgd, h]

theorem Look.background_of_wipe (h : l.kind = .wipe) (x y : Nat) (p : BusPixels) :
    l.background x y p = mixPixel p.a p.b (l.wipeAt x y) := by
  simp [Look.background, hrun, hbkgd, h]

theorem Look.background_of_dip_first (h : l.kind = .dip) (hp : l.position ≤ 2048) (x y : Nat) (p : BusPixels) :
    l.background x y p = mixPixel p.a p.dip (curveWeight l.curve (2 * l.position)) := by
  simp [Look.background, hrun, hbkgd, h, hp]

theorem Look.background_of_dip_second (h : l.kind = .dip) (hp : 2049 ≤ l.position) (x y : Nat) (p : BusPixels) :
    l.background x y p = mixPixel p.dip p.b (curveWeight l.curve (2 * l.position - 4096)) := by
  have hpast : ¬ l.position ≤ 2048 := by omega
  simp [Look.background, hrun, hbkgd, h, hpast]

/-- At P = 0 every type shows bus A. -/
theorem Look.background_of_start (hcurve : ∀ c : Curve, l.curve = some c → c.sound) (hp : l.position = 0) (x y : Nat)
    (p : BusPixels) : l.background x y p = p.a := by
  cases h : l.kind with
  | mix => rw [Look.background_of_mix hrun hbkgd h, hp, curveWeight_zero hcurve, mixPixel_zero]
  | cut => rw [Look.background_of_cut hrun hbkgd h, hp, cutWeight_of_lt (by decide), mixPixel_zero]
  | wipe => rw [Look.background_of_wipe hrun hbkgd h, Look.wipeAt, hp, wipeWeight_zero, mixPixel_zero]
  | dip => rw [Look.background_of_dip_first hrun hbkgd h (by omega), hp, curveWeight_zero hcurve, mixPixel_zero]

/-- At P = 4096 every type shows bus B, at every position of the active picture. -/
theorem Look.background_of_end (hcurve : ∀ c : Curve, l.curve = some c → c.sound) (hp : l.position = 4096) {x y : Nat}
    (hx : x < l.format.width) (hy : y < l.format.height) (p : BusPixels) : l.background x y p = p.b := by
  cases h : l.kind with
  | mix => rw [Look.background_of_mix hrun hbkgd h, hp, curveWeight_full hcurve, mixPixel_full]
  | cut => rw [Look.background_of_cut hrun hbkgd h, hp, cutWeight_of_ge (by decide), mixPixel_full]
  | wipe =>
    rw [Look.background_of_wipe hrun hbkgd h, Look.wipeAt, hp, wipeWeight_full _ (patternValue_le _ hx hy), mixPixel_full]
  | dip => rw [Look.background_of_dip_second hrun hbkgd h (by omega), hp, curveWeight_full hcurve, mixPixel_full]

end Running

/-! ### The final alpha of a layer (R85 to R87) -/

theorem Look.carried_iff (l : Look) (n : LayerId) :
    l.carried n = true ↔ l.atRest = false ∧ hasLayer l.selection n = true := by
  simp [Look.carried]

theorem Look.not_carried_iff (l : Look) (n : LayerId) :
    l.carried n = false ↔ l.atRest = true ∨ hasLayer l.selection n = false := by
  rw [Look.carried, Bool.and_eq_false_iff, Bool.not_eq_false']

theorem Look.finalAlpha_of_not_carried {l : Look} {n : LayerId} (h : l.carried n = false) (x y : Nat) (p : BusPixels) :
    l.finalAlpha n x y p = l.layers[n].maskedAlpha x y (l.keySource n p) * l.layers[n].state.level / 1024 := by
  simp [Look.finalAlpha, Look.levelFactor, Look.transitionFactor, h]

theorem Look.finalAlpha_of_carried {l : Look} {n : LayerId} (h : l.carried n = true) (x y : Nat) (p : BusPixels) :
    l.finalAlpha n x y p =
      l.layers[n].maskedAlpha x y (l.keySource n p) *
        (if l.layers[n].state.heading then 1024 - l.layerWeight x y else l.layerWeight x y) / 1024 := by
  simp [Look.finalAlpha, Look.levelFactor, Look.transitionFactor, h]

/-- The layer weight by type, as a number that is given for each (R86). -/
theorem Look.layerWeight_eq {l : Look} {x y weight : Nat}
    (hcurve : l.kind = .mix ∨ l.kind = .dip → weight = curveWeight l.curve l.position)
    (hcut : l.kind = .cut → weight = cutWeight l.position) (hwipe : l.kind = .wipe → weight = l.wipeAt x y) :
    l.layerWeight x y = weight := by
  unfold Look.layerWeight
  cases h : l.kind with
  | mix => exact (hcurve (.inl h)).symm
  | cut => exact (hcut h).symm
  | wipe => exact (hwipe h).symm
  | dip => exact (hcurve (.inr h)).symm

theorem LayerState.heading_eq_false {x : LayerState} (h : x = .off ∨ ∃ c rf, x = .falling c rf) : x.heading = false := by
  rcases h with rfl | ⟨c, rf, rfl⟩ <;> rfl

theorem LayerState.heading_eq_true {x : LayerState} (h : x = .on ∨ ∃ c rf, x = .rising c rf) : x.heading = true := by
  rcases h with rfl | ⟨c, rf, rfl⟩ <;> rfl

/-- Settles O25: the background at the ends, the preview, the background between the ends, and the final alpha. -/
theorem backgroundAtTheEndsAndSteadyPreview : Obligations.BackgroundAtTheEndsAndSteadyPreview := by
  refine ⟨fun l x y p hx hy hcurve _ => ⟨fun h => Look.background_of_rest h x y p,
      fun h => Look.background_of_no_bkgd h x y p, fun hp => ?_,
      fun hrun hbkgd hp => Look.background_of_end hrun hbkgd hcurve hp hx hy p, fun hrun hbkgd hdip hp => ?_⟩,
    fun _ _ _ _ _ _ _ _ _ => rfl,
    fun l x y p hrun hbkgd => ⟨fun h => Look.background_of_mix hrun hbkgd h x y p, fun h => ⟨fun hp => ?_, fun hp => ?_⟩,
      fun h => Look.background_of_wipe hrun hbkgd h x y p,
      fun h => ⟨fun hp => Look.background_of_dip_first hrun hbkgd h hp x y p,
        fun hp => Look.background_of_dip_second hrun hbkgd h hp x y p⟩⟩,
    fun l n x y p alpha weight halpha hw hcut hwipe => ⟨fun h => ?_, fun hrun hsel => ⟨fun h => ?_, fun h => ?_⟩⟩⟩
  · cases hrest : l.atRest with
    | true => exact Look.background_of_rest hrest x y p
    | false =>
      cases hbkgd : hasBkgd l.selection with
      | false => exact Look.background_of_no_bkgd hbkgd x y p
      | true => exact Look.background_of_start hrest hbkgd hcurve hp x y p
  · rw [Look.background_of_dip_first hrun hbkgd hdip (by omega), hp, curveWeight_full hcurve, mixPixel_full]
  · rw [Look.background_of_cut hrun hbkgd h, cutWeight_of_lt hp, mixPixel_zero]
  · rw [Look.background_of_cut hrun hbkgd h, cutWeight_of_ge hp, mixPixel_full]
  · rw [Look.finalAlpha_of_not_carried ((l.not_carried_iff n).mpr h), halpha]
  · rw [Look.finalAlpha_of_carried ((l.carried_iff n).mpr ⟨hrun, hsel⟩), LayerState.heading_eq_false h,
      Look.layerWeight_eq hw hcut hwipe, halpha, if_neg (by decide)]
  · rw [Look.finalAlpha_of_carried ((l.carried_iff n).mpr ⟨hrun, hsel⟩), LayerState.heading_eq_true h,
      Look.layerWeight_eq hw hcut hwipe, halpha, if_pos rfl]

end Sys2Proof.Machine
end

section
/-! What the step of a run comes to (R137 to R144): the entry that it reaches, the end of a pass, and the operations of a run by the
case that each is in. -/

namespace Sys2Proof.Machine

/-! ### A changed record of a bank -/

theorem State.modifyMe_congr (s : State) (bank : BankId) {f g : Me → Me} (h : f (s.me bank) = g (s.me bank)) :
    s.modifyMe bank f = s.modifyMe bank g := by
  unfold State.modifyMe; rw [h]

theorem State.modifyMe_of_fixed {s : State} {bank : BankId} {f : Me → Me} (h : f (s.me bank) = s.me bank) :
    s.modifyMe bank f = s := by
  unfold State.modifyMe; rw [h, State.setMe_me]

/-! ### Where a run stands (R139, R143) -/

/-- What a run that has reached index `i` goes on to: the entry there, or entry 0 of the next pass. -/
def Me.goesOn (m : Me) (i j passes : Nat) : Prop :=
  i < m.count ∧ j = i ∧ passes = m.run.passes ∨
    m.count ≤ i ∧ 1 ≤ m.count ∧ m.endMode = .loop ∧ m.run.passes ≠ 1 ∧ j = 0 ∧ passes = m.run.passes - 1

/-- Index `i` is the end of the last pass. -/
def Me.endsAt (m : Me) (i : Nat) : Prop :=
  m.count ≤ i ∧ (m.endMode = .stop ∨ m.run.passes = 1 ∨ m.count = 0)

/-- The record of a bank whose run stands before entry `j` with `passes` passes left. -/
def Me.before (m : Me) (j passes : Nat) : Me :=
  { m with run := { m.run with index := j, counter := 0, passes := passes } }

theorem Me.arrivesAt_iff (m : Me) (j passes : Nat) : m.arrivesAt j passes ↔ ∃ i : Nat, m.reaches i ∧ m.goesOn i j passes :=
  Iff.rfl

theorem Me.loopsOn_iff (m : Me) : m.loopsOn = true ↔ m.endMode = .loop ∧ 1 ≤ m.count ∧ m.run.passes ≠ 1 := by
  simp only [Me.loopsOn, Bool.and_eq_true, Bool.or_eq_true, decide_eq_true_eq, and_assoc]
  have hpasses : m.run.passes = 0 ∨ 1 < m.run.passes ↔ m.run.passes ≠ 1 := by omega
  rw [hpasses]

theorem Me.endsAt.not_loopsOn {m : Me} {i : Nat} (h : m.endsAt i) : ¬ m.loopsOn = true := by
  rw [Me.loopsOn_iff]
  rintro ⟨hloop, hcount, hpasses⟩
  rcases h.2 with hstop | hlast | hnone
  · rw [hloop] at hstop; cases hstop
  · exact hpasses hlast
  · omega

/-- Where a run is past its pass and does not end, it loops on. -/
theorem Me.goesOn_of_loopsOn {m : Me} {i : Nat} (hi : m.count ≤ i) (h : m.loopsOn = true) :
    m.goesOn i 0 (m.run.passes - 1) := by
  obtain ⟨hloop, hcount, hpasses⟩ := m.loopsOn_iff.mp h
  exact .inr ⟨hi, hcount, hloop, hpasses, rfl, rfl⟩

/-! ### The arrival and the end of a pass (R139, R143, R144) -/

section Arrive

variable {bank : BankId} {s : State} {j passes : Nat}

theorem arrive_of_goesOn (hc : (s.me bank).run.counter = 0) (h : (s.me bank).goesOn (s.me bank).run.index j passes) :
    arrive bank s = (arriveEntry bank (s.modifyMe bank (fun m => m.before j passes)), none) := by
  simp only [arrive]
  rcases h with ⟨hi, rfl, rfl⟩ | ⟨hi, hcount, hloop, hpasses, rfl, rfl⟩
  · have hsame : (s.me bank).before (s.me bank).run.index (s.me bank).run.passes = s.me bank := by
      rw [Me.before, ← hc]
    rw [if_pos hi, State.modifyMe_of_fixed hsame]
  · rw [if_neg (Nat.not_lt.mpr hi), if_pos ((Me.loopsOn_iff _).mpr ⟨hloop, hcount, hpasses⟩)]
    rfl

theorem arrive_of_endsAt (h : (s.me bank).endsAt (s.me bank).run.index) : arrive bank s = endRun bank s := by
  simp only [arrive]
  rw [if_neg (Nat.not_lt.mpr h.1), if_neg h.not_loopsOn]

theorem endRun_pastSegment (bank : BankId) (s : State) :
    endRun bank (s.modifyMe bank (fun m => { m with run := m.run.pastSegment })) = endRun bank s := by
  simp only [endRun, State.modifyMe_modifyMe, State.me_modifyMe]

theorem pauseAfterSegment_of_goesOn (h : (s.me bank).goesOn ((s.me bank).run.index + 1) j passes) :
    pauseAfterSegment bank s =
      (s.modifyMe bank
        (fun m => { m with run := { m.run with state := .paused, index := j, counter := 0, passes := passes } }), none) := by
  simp only [pauseAfterSegment, State.modifyMe_modifyMe, State.me_modifyMe]
  rcases h with ⟨hi, rfl, rfl⟩ | ⟨hi, hcount, hloop, hpasses, rfl, rfl⟩
  · rw [if_pos (by exact hi)]
    exact congrArg (·, none) (State.modifyMe_congr s bank rfl)
  · have hloops : ({ s.me bank with run := (s.me bank).run.pastSegment } : Me).loopsOn = true :=
      (Me.loopsOn_iff _).mpr ⟨hloop, hcount, hpasses⟩
    rw [if_neg (by exact Nat.not_lt.mpr hi), if_pos hloops]
    exact congrArg (·, none) (State.modifyMe_congr s bank rfl)

theorem pauseAfterSegment_of_endsAt (h : (s.me bank).endsAt ((s.me bank).run.index + 1)) :
    pauseAfterSegment bank s = endRun bank s := by
  have hloops : ¬ ({ s.me bank with run := (s.me bank).run.pastSegment } : Me).loopsOn = true := h.not_loopsOn
  simp only [pauseAfterSegment, State.me_modifyMe]
  rw [if_neg (by exact Nat.not_lt.mpr h.1), if_neg hloops, endRun_pastSegment]

end Arrive

/-! ### The step of a run, case by case (R137, R138) -/

section Step

variable {bank : BankId} {s : State}

theorem runStep_of_running (h : (s.me bank).run.state = .running) : runStep bank s = stepPlaying false bank s := by
  simp only [runStep, h]

theorem runStep_of_holding (h : (s.me bank).run.state = .holding) : runStep bank s = stepPlaying true bank s := by
  simp only [runStep, h]

theorem runStep_of_paused (h : (s.me bank).run.state = .paused) : runStep bank s = (s, none) := by
  simp only [runStep, h]

theorem stepPlaying_of_start (holding : Bool) (h : (s.me bank).run.counter = 0) : stepPlaying holding bank s = arrive bank s :=
  if_pos h

theorem stepPlaying_of_within (holding : Bool) (hc : (s.me bank).run.counter ≠ 0)
    (hk : (s.me bank).run.counter < ((s.me bank).entry (s.me bank).run.index).duration) :
    stepPlaying holding bank s = (s.modifyMe bank Me.segmentAdvanced, none) := by
  simp only [stepPlaying]
  rw [if_neg hc, if_pos hk]

theorem stepPlaying_of_past (holding : Bool) (hc : (s.me bank).run.counter ≠ 0)
    (hk : ((s.me bank).entry (s.me bank).run.index).duration ≤ (s.me bank).run.counter) :
    stepPlaying holding bank s =
      if holding then pauseAfterSegment bank s
      else arrive bank (s.modifyMe bank (fun m => { m with run := m.run.pastSegment })) := by
  simp only [stepPlaying]
  rw [if_neg hc, if_neg (Nat.not_lt.mpr hk)]

/-- A step before an entry has begun is the arrival there, in RUNNING and in HOLDING. -/
theorem runStep_of_start (hplay : (s.me bank).run.state.plays) (h : (s.me bank).run.counter = 0) :
    runStep bank s = arrive bank s := by
  rcases hplay with hr | hr
  · rw [runStep_of_running hr, stepPlaying_of_start _ h]
  · rw [runStep_of_holding hr, stepPlaying_of_start _ h]

/-- A step within a segment, in RUNNING and in HOLDING. -/
theorem runStep_of_within (hplay : (s.me bank).run.state.plays) (hc : (s.me bank).run.counter ≠ 0)
    (hk : (s.me bank).run.counter < ((s.me bank).entry (s.me bank).run.index).duration) :
    runStep bank s = (s.modifyMe bank Me.segmentAdvanced, none) := by
  rcases hplay with hr | hr
  · rw [runStep_of_running hr, stepPlaying_of_within _ hc hk]
  · rw [runStep_of_holding hr, stepPlaying_of_within _ hc hk]

section Past

variable (hc : (s.me bank).run.counter ≠ 0)
  (hk : ((s.me bank).entry (s.me bank).run.index).duration ≤ (s.me bank).run.counter)
include hc hk

theorem runStep_of_past_running (hr : (s.me bank).run.state = .running) :
    runStep bank s = arrive bank (s.modifyMe bank (fun m => { m with run := m.run.pastSegment })) := by
  rw [runStep_of_running hr, stepPlaying_of_past _ hc hk, if_neg (by decide)]

theorem runStep_of_past_holding (hr : (s.me bank).run.state = .holding) : runStep bank s = pauseAfterSegment bank s := by
  rw [runStep_of_holding hr, stepPlaying_of_past _ hc hk, if_pos rfl]

/-- A RUNNING run past a segment arrives at the entry that it goes on to. -/
theorem runStep_of_past_goesOn {j passes : Nat} (hr : (s.me bank).run.state = .running)
    (h : (s.me bank).goesOn ((s.me bank).run.index + 1) j passes) :
    runStep bank s = (arriveEntry bank (s.modifyMe bank (fun m => m.before j passes)), none) := by
  have hnext : ((s.modifyMe bank (fun m => { m with run := m.run.pastSegment })).me bank).goesOn
      ((s.modifyMe bank (fun m => { m with run := m.run.pastSegment })).me bank).run.index j passes := by
    rw [State.me_modifyMe]; exact h
  rw [runStep_of_past_running hc hk hr, arrive_of_goesOn (by rw [State.me_modifyMe]; rfl) hnext, State.modifyMe_modifyMe]
  rfl

/-- A run past its last segment ends, in RUNNING and in HOLDING. -/
theorem runStep_of_past_endsAt (hplay : (s.me bank).run.state.plays)
    (h : (s.me bank).endsAt ((s.me bank).run.index + 1)) : runStep bank s = endRun bank s := by
  rcases hplay with hr | hr
  · have hnext : ((s.modifyMe bank (fun m => { m with run := m.run.pastSegment })).me bank).endsAt
        ((s.modifyMe bank (fun m => { m with run := m.run.pastSegment })).me bank).run.index := by
      rw [State.me_modifyMe]; exact h
    rw [runStep_of_past_running hc hk hr, arrive_of_endsAt hnext, endRun_pastSegment]
  · rw [runStep_of_past_holding hc hk hr, pauseAfterSegment_of_endsAt h]

end Past

/-- The step of a run that arrives at an entry. -/
theorem runStep_of_arrivesAt {j passes : Nat} (h : (s.me bank).arrivesAt j passes) :
    runStep bank s = (arriveEntry bank (s.modifyMe bank (fun m => m.before j passes)), none) := by
  obtain ⟨i, ⟨-, ⟨hc, hplay, rfl⟩ | ⟨hc, hr, hk, rfl⟩⟩, hon⟩ := h
  · rw [runStep_of_start hplay hc, arrive_of_goesOn hc hon]
  · exact runStep_of_past_goesOn hc hk hr hon

/-- The step of a run that ends. -/
theorem runStep_of_endsRun (h : (s.me bank).endsRun) : runStep bank s = endRun bank s := by
  obtain ⟨-, hplay, ⟨hc, hi⟩ | ⟨hc, hk, hi⟩, hend⟩ := h
  · rw [runStep_of_start hplay hc, arrive_of_endsAt ⟨hi, hend⟩]
  · exact runStep_of_past_endsAt hc hk hplay ⟨hi, hend⟩

end Step

/-! ### The end of a run (R144) -/

/-- The state in which a run has gone IDLE and posted RUN_DONE, before the bank completes or resolves. -/
def endedRun (bank : BankId) (s : State) : State :=
  (s.modifyMe bank (fun m => { m with run := Run.idle })).post .runDone .info (.me (bankByte bank))

theorem endedRun_me (bank : BankId) (s : State) : (endedRun bank s).me bank = { s.me bank with run := Run.idle } := by
  rw [endedRun, State.me_post, State.me_modifyMe]

theorem endedRun_buses (bank : BankId) (s : State) : (endedRun bank s).buses bank = s.buses bank := by
  rw [endedRun, State.buses_post, State.buses_modifyMe]

theorem endedRun_notices (bank : BankId) (s : State) :
    (endedRun bank s).notices =
      s.notices.take { kind := .runDone, cls := .info, subject := .me (bankByte bank), number := s.ref.picture } := by
  rw [endedRun, State.post_notices, State.modifyMe_notices, State.modifyMe_ref]

section Ended

variable {bank : BankId} {s : State}

theorem takeDue_endRun_of_end (h : (s.me bank).position = 4096) :
    takeDue bank (endRun bank s) = complete bank .run (endedRun bank s) := by
  simp only [endRun]
  rw [if_pos h]
  rfl

theorem takeDue_endRun_of_not_end (h : (s.me bank).position ≠ 4096) :
    takeDue bank (endRun bank s) = (endedRun bank s).modifyMe bank Me.resolved := by
  simp only [endRun]
  rw [if_neg h]
  rfl

theorem Me.resolved_of_zero {m : Me} (h : m.position = 0) : m.resolved = { m with drive := .rest, pickup := true } := by
  rw [Me.resolved, if_pos h]

theorem Me.resolved_of_ne_zero {m : Me} (h : m.position ≠ 0) : m.resolved = { m with drive := .manual, pickup := true } := by
  rw [Me.resolved, if_neg h]

theorem takeDue_endRun_of_zero (h : (s.me bank).position = 0) :
    takeDue bank (endRun bank s) = (endedRun bank s).modifyMe bank (fun m => { m with drive := .rest, pickup := true }) := by
  rw [takeDue_endRun_of_not_end (by omega)]
  exact State.modifyMe_congr _ _ (Me.resolved_of_zero (by rw [endedRun_me]; exact h))

theorem takeDue_endRun_of_between (h0 : (s.me bank).position ≠ 0) (h : (s.me bank).position ≠ 4096) :
    takeDue bank (endRun bank s) = (endedRun bank s).modifyMe bank (fun m => { m with drive := .manual, pickup := true }) := by
  rw [takeDue_endRun_of_not_end h]
  exact State.modifyMe_congr _ _ (Me.resolved_of_ne_zero (by rw [endedRun_me]; exact h0))

theorem takeDue_endRun_run (bank : BankId) (s : State) : ((takeDue bank (endRun bank s)).me bank).run = Run.idle := by
  by_cases h : (s.me bank).position = 4096
  · rw [takeDue_endRun_of_end h, complete_me, endedRun_me]; rfl
  · rw [takeDue_endRun_of_not_end h, State.me_modifyMe, endedRun_me]; rfl

end Ended

/-! ### The arrival at an entry (R139 to R142) -/

/-- The state after the requests of an entry (R140). -/
def requested (bank : BankId) (e : Keyframe) (s : State) : State :=
  presetRequest bank e (layerRequests bank e s)

theorem requested_me (bank : BankId) (e : Keyframe) (s : State) :
    (requested bank e s).me bank = { s.me bank with layers := ((requested bank e s).me bank).layers } :=
  onlyLayers_requests bank e s bank

/-- An entry that asks for nothing (R140). -/
theorem requested_of_none {e : Keyframe} (hon : e.layerOn = 0) (hoff : e.layerOff = 0) (hp : e.preset = none) (bank : BankId)
    (s : State) : requested bank e s = s := by
  have hnone : ∀ l : LayerId, inLayerSet 0 l = false := by decide
  have hround : ∀ (l : List LayerId) (t : State), l.foldl (fun t _ => t) t = t := by
    intro l
    induction l with
    | nil => exact fun _ => rfl
    | cons a l ih => exact ih
  simp only [requested, presetRequest, layerRequests, hp, hon, hoff, hnone, Bool.false_eq_true, if_false, hround]

section ArriveEntry

variable {bank : BankId} {s : State} {e : Keyframe} (he : e = (s.me bank).entry (s.me bank).run.index)
include he

theorem requested_entry :
    ((requested bank e s).me bank).entry ((requested bank e s).me bank).run.index = e := by
  rw [requested_me]; exact he.symm

theorem arriveEntry_of_plain (h : e.sync = false) :
    arriveEntry bank s =
      (requested bank e s).modifyMe bank
        (fun m =>
          { m with
            run := { m.run with start := m.position, counter := 1 }
            position := segmentPosition m.position e.target 1 e.duration }) := by
  have hbegun : ((requested bank e s).me bank).segmentBegun =
      { (requested bank e s).me bank with
        run := { ((requested bank e s).me bank).run with start := ((requested bank e s).me bank).position, counter := 1 }
        position := segmentPosition ((requested bank e s).me bank).position e.target 1 e.duration } := by
    simp only [Me.segmentBegun, requested_entry he]
  simp only [arriveEntry, ← he, h]
  exact State.modifyMe_congr _ _ hbegun

theorem arriveEntry_of_sync (h : e.sync = true) :
    arriveEntry bank s =
      (postMark bank (requested bank e s)).modifyMe bank
        (fun m => { m with run := { m.run with state := .waiting m.run.state.resume, counter := 0 } }) := by
  simp only [arriveEntry, ← he, h]
  rfl

end ArriveEntry

theorem postMark_me (bank : BankId) (s : State) : (postMark bank s).me bank = s.me bank := by
  unfold postMark; split
  · rw [State.me_post]
  · cases bank <;> rfl

theorem postMark_buses (bank : BankId) (s : State) (x : BankId) : (postMark bank s).buses x = s.buses x := by
  unfold postMark; split
  · rw [State.buses_post]
  · rw [State.buses_modifyMe]

theorem postMark_mark_other (bank : BankId) (s : State) : ((postMark bank s).me bank.other).mark = true := by
  unfold postMark; split
  · rename_i h; rw [State.me_post]; exact h
  · rw [State.me_modifyMe]

/-! ### The settling of a bank's mark (R142) -/

section SyncRelease

variable {bank : BankId} {s : State} {r : ResumeState} (hr : (s.me bank).run.state = .waiting r)
include hr

theorem syncRelease_of_no_mark (h : (s.me bank).mark = false) : syncRelease bank s = s := by
  simp [syncRelease, hr, h]

theorem syncRelease_of_mark (h : (s.me bank).mark = true) :
    syncRelease bank s =
      s.modifyMe bank
        (fun m =>
          { m with
            mark := false
            run := { m.run with state := r.state, start := m.position, counter := 1 }
            position := segmentPosition m.position (m.entry m.run.index).target 1 (m.entry m.run.index).duration }) := by
  simp only [syncRelease, hr, h]
  rfl

end SyncRelease

theorem resume_state_of_plays {r : RunState} (h : r.plays) : r.resume.state = r := by
  rcases h with rfl | rfl <;> rfl

theorem plays_ne_waiting {r : RunState} (h : r.plays) (q : ResumeState) : r ≠ .waiting q := by
  rcases h with rfl | rfl <;> exact nofun

end Sys2Proof.Machine
end

section
/-! The own work of one bank at a switch line (R92): what it makes of the bank rests on the bank's record and buses alone, and of the
other bank it reaches the partner mark alone, when its run arrives at a sync entry (R141). -/

namespace Sys2Proof.Machine

/-! ### A bank that is the same in two states -/

/-- But for its partner mark, which is `mark` in `t`, bank `x` and its buses are the same in `s` and `t`. -/
structure SameBank (x : BankId) (mark : Bool) (s t : State) : Prop where
  me : t.me x = { s.me x with mark := mark }
  buses : t.buses x = s.buses x

theorem Apart.sameBank {x : BankId} {s t : State} (h : Apart x s t) : SameBank x (t.me x).mark s t := by
  obtain ⟨hme, hbuses, -⟩ := h
  exact ⟨hme, hbuses⟩

theorem SameBank.refl (x : BankId) (s : State) : SameBank x (s.me x).mark s s := ⟨rfl, rfl⟩

theorem SameBank.trans {x : BankId} {b c : Bool} {s t u : State} (h : SameBank x b s t) (k : SameBank x c t u) :
    SameBank x c s u :=
  ⟨by rw [k.me, h.me], k.buses.trans h.buses⟩

section Same

variable {x : BankId} {b : Bool} {s t : State} (h : SameBank x b s t)
include h

theorem SameBank.mark : (t.me x).mark = b := by rw [h.me]
theorem SameBank.run : (t.me x).run = (s.me x).run := by rw [h.me]
theorem SameBank.drive : (t.me x).drive = (s.me x).drive := by rw [h.me]
theorem SameBank.count : (t.me x).count = (s.me x).count := by rw [h.me]
theorem SameBank.position : (t.me x).position = (s.me x).position := by rw [h.me]
theorem SameBank.loopsOn : (t.me x).loopsOn = (s.me x).loopsOn := by rw [h.me]; rfl
theorem SameBank.entry (i : Nat) : (t.me x).entry i = (s.me x).entry i := by rw [h.me]; rfl
theorem SameBank.layerBusy (l : LayerId) : (t.me x).layerBusy l = (s.me x).layerBusy l := by rw [h.me]; rfl
theorem SameBank.meets_iff : (t.me x).meets ↔ (s.me x).meets := by rw [h.me]; exact Iff.rfl

theorem SameBank.post (kind : NoticeKind) (cls : NoticeClass) (subject : Subject) :
    SameBank x b (s.post kind cls subject) (t.post kind cls subject) :=
  ⟨by rw [State.me_post, State.me_post, h.me], by rw [State.buses_post, State.buses_post, h.buses]⟩

/-- A change of the record that does not look at the mark. -/
theorem SameBank.modifyMe {f : Me → Me} (hf : f { s.me x with mark := b } = { f (s.me x) with mark := b }) :
    SameBank x b (s.modifyMe x f) (t.modifyMe x f) :=
  ⟨by rw [State.me_modifyMe, State.me_modifyMe, h.me, hf], by rw [State.buses_modifyMe, State.buses_modifyMe, h.buses]⟩

theorem SameBank.setBus (k : Bus) (src : Source) : SameBank x b (s.setBus x k src) (t.setBus x k src) :=
  ⟨by rw [State.me_setBus, State.me_setBus, h.me], by rw [State.buses_setBus, State.buses_setBus, h.buses]⟩

theorem SameBank.layerOn (l : LayerId) : SameBank x b (layerOn x l s) (layerOn x l t) := by
  by_cases hbusy : (s.me x).layerBusy l = true
  · simp only [Machine.layerOn, h.layerBusy, if_pos hbusy]
    exact h.post ..
  · simp only [Machine.layerOn, h.layerBusy, if_neg hbusy]
    exact h.modifyMe rfl

theorem SameBank.layerOff (l : LayerId) : SameBank x b (layerOff x l s) (layerOff x l t) := by
  by_cases hbusy : (s.me x).layerBusy l = true
  · simp only [Machine.layerOff, h.layerBusy, if_pos hbusy]
    exact h.post ..
  · simp only [Machine.layerOff, h.layerBusy, if_neg hbusy]
    exact h.modifyMe rfl

theorem SameBank.placePreset (code : Byte) : SameBank x b (placePreset x code s) (placePreset x code t) := by
  unfold Machine.placePreset
  cases readBusSource x code with
  | none => exact h.post ..
  | some src => exact h.setBus ..

theorem SameBank.presetRequest (e : Keyframe) : SameBank x b (presetRequest x e s) (presetRequest x e t) := by
  unfold Machine.presetRequest
  cases e.preset with
  | none => exact h
  | some code => exact h.placePreset code

theorem SameBank.postMark : SameBank x b (postMark x s) (postMark x t) :=
  ⟨by rw [postMark_me, postMark_me, h.me], by rw [postMark_buses, postMark_buses, h.buses]⟩

theorem SameBank.complete (how : DoneBy) : SameBank x b (complete x how s) (complete x how t) := by
  refine ⟨?_, ?_⟩
  · rw [complete_me, complete_me, h.me]; rfl
  · rw [complete_buses, complete_buses, h.buses, h.me]

end Same

/-- A round over the layers in which each step keeps the bank the same. -/
theorem SameBank.foldl {x : BankId} {b : Bool} {α : Type} {f : State → α → State}
    (hf : ∀ (s t : State) (a : α), SameBank x b s t → SameBank x b (f s a) (f t a)) (l : List α) :
    ∀ s t : State, SameBank x b s t → SameBank x b (l.foldl f s) (l.foldl f t) := by
  induction l with
  | nil => exact fun _ _ h => h
  | cons a l ih => exact fun s t h => ih _ _ (hf s t a h)

/-! ### The step of a bank is the same where the bank is -/

/-- Two steps of bank `x` leave it the same, with the same completion due. -/
structure SameStep (x : BankId) (mark : Bool) (p q : State × Option DoneBy) : Prop where
  bank : SameBank x mark p.1 q.1
  due : q.2 = p.2

theorem SameBank.step {x : BankId} {b : Bool} {s t : State} (h : SameBank x b s t) (due : Option DoneBy) :
    SameStep x b (s, due) (t, due) :=
  ⟨h, rfl⟩

section SameSteps

variable {x : BankId} {b : Bool} {s t : State} (h : SameBank x b s t)
include h

theorem SameBank.layerRequests (e : Keyframe) : SameBank x b (layerRequests x e s) (layerRequests x e t) := by
  refine SameBank.foldl (fun s t l k => ?_) _ _ _ (SameBank.foldl (fun s t l k => ?_) _ _ _ h)
  · split
    · exact k.layerOff l
    · exact k
  · split
    · exact k.layerOn l
    · exact k

theorem SameBank.requested (e : Keyframe) : SameBank x b (requested x e s) (requested x e t) :=
  (h.layerRequests e).presetRequest e

theorem SameBank.arriveEntry : SameBank x b (arriveEntry x s) (arriveEntry x t) := by
  have he : (t.me x).entry (t.me x).run.index = (s.me x).entry (s.me x).run.index := by rw [h.run, h.entry]
  have hasked := h.requested ((s.me x).entry (s.me x).run.index)
  cases hsync : ((s.me x).entry (s.me x).run.index).sync with
  | false =>
    rw [arriveEntry_of_plain rfl hsync, arriveEntry_of_plain he.symm hsync]
    exact hasked.modifyMe rfl
  | true =>
    rw [arriveEntry_of_sync rfl hsync, arriveEntry_of_sync he.symm hsync]
    exact hasked.postMark.modifyMe rfl

theorem SameBank.endRun : SameStep x b (endRun x s) (endRun x t) := by
  have hidle := (h.modifyMe (f := fun m => { m with run := Run.idle }) rfl).post .runDone .info (.me (bankByte x))
  by_cases hp : (s.me x).position = 4096
  · simp only [Machine.endRun, h.position, if_pos hp]
    exact hidle.step _
  · simp only [Machine.endRun, h.position, if_neg hp]
    exact (hidle.modifyMe rfl).step _

theorem SameBank.arrive : SameStep x b (arrive x s) (arrive x t) := by
  by_cases hi : (s.me x).run.index < (s.me x).count
  · simp only [Machine.arrive, h.run, h.count, if_pos hi]
    exact h.arriveEntry.step _
  · by_cases hl : (s.me x).loopsOn = true
    · simp only [Machine.arrive, h.run, h.count, h.loopsOn, if_neg hi, if_pos hl]
      exact (SameBank.arriveEntry (h.modifyMe rfl)).step _
    · simp only [Machine.arrive, h.run, h.count, h.loopsOn, if_neg hi, if_neg hl]
      exact h.endRun

theorem SameBank.pauseAfterSegment : SameStep x b (pauseAfterSegment x s) (pauseAfterSegment x t) := by
  have hmoved := h.modifyMe (f := fun m => { m with run := m.run.pastSegment }) rfl
  unfold Machine.pauseAfterSegment
  generalize s.modifyMe x (fun m => { m with run := m.run.pastSegment }) = s' at hmoved
  generalize t.modifyMe x (fun m => { m with run := m.run.pastSegment }) = t' at hmoved
  by_cases hi : (s'.me x).run.index < (s'.me x).count
  · simp only [hmoved.run, hmoved.count, if_pos hi]
    exact (hmoved.modifyMe rfl).step _
  · by_cases hl : (s'.me x).loopsOn = true
    · simp only [hmoved.run, hmoved.count, hmoved.loopsOn, if_neg hi, if_pos hl]
      exact (hmoved.modifyMe rfl).step _
    · simp only [hmoved.run, hmoved.count, hmoved.loopsOn, if_neg hi, if_neg hl]
      exact hmoved.endRun

theorem SameBank.stepPlaying (holding : Bool) : SameStep x b (stepPlaying holding x s) (stepPlaying holding x t) := by
  by_cases hc : (s.me x).run.counter = 0
  · have hc' : (t.me x).run.counter = 0 := by rw [h.run]; exact hc
    rw [stepPlaying_of_start _ hc, stepPlaying_of_start _ hc']
    exact h.arrive
  · have hc' : (t.me x).run.counter ≠ 0 := by rw [h.run]; exact hc
    rcases Nat.lt_or_ge (s.me x).run.counter ((s.me x).entry (s.me x).run.index).duration with hk | hk
    · rw [stepPlaying_of_within _ hc hk, stepPlaying_of_within _ hc' (by rw [h.run, h.entry]; exact hk)]
      exact (h.modifyMe rfl).step _
    · rw [stepPlaying_of_past _ hc hk, stepPlaying_of_past _ hc' (by rw [h.run, h.entry]; exact hk)]
      cases holding with
      | false => exact SameBank.arrive (h.modifyMe rfl)
      | true => exact h.pauseAfterSegment

theorem SameBank.runStep : SameStep x b (runStep x s) (runStep x t) := by
  simp only [Machine.runStep, h.run]
  cases (s.me x).run.state with
  | running => exact h.stepPlaying false
  | holding => exact h.stepPlaying true
  | _ => exact h.step _

theorem SameBank.driveStep : SameStep x b (driveStep x s) (driveStep x t) := by
  simp only [Machine.driveStep, h.drive]
  cases (s.me x).drive with
  | rest => exact h.step _
  | manual => exact h.step _
  | auto start span k =>
    by_cases hk : k < span
    · simp only [if_pos hk]
      exact (h.modifyMe rfl).step _
    · simp only [if_neg hk]
      exact h.step _
  | keyed => exact h.runStep

end SameSteps

theorem SameStep.takeDue {x : BankId} {b : Bool} {p q : State × Option DoneBy} (h : SameStep x b p q) :
    SameBank x b (takeDue x p) (takeDue x q) := by
  obtain ⟨hbank, hdue⟩ := h
  unfold Machine.takeDue
  rw [hdue]
  cases p.2 with
  | none => exact hbank
  | some how => exact hbank.complete how

/-- What the own work of a bank makes of it rests on its record and buses alone, and leaves its mark as it is. -/
theorem SameBank.bankOwn {x : BankId} {b : Bool} {s t : State} (h : SameBank x b s t) :
    SameBank x b (bankOwn x s) (bankOwn x t) :=
  (SameBank.driveStep (h.modifyMe (f := Me.fadeStep) rfl)).takeDue

theorem bankOwn_mark (x : BankId) (s : State) : ((bankOwn x s).me x).mark = (s.me x).mark :=
  (SameBank.refl x s).bankOwn.mark

/-! ### The own work by drive state (R92, R93, R137) -/

section Own

variable {x : BankId} {s : State}

theorem bankOwn_of_auto_running {start span k : Nat} (hd : (s.me x).drive = .auto start span k) (hk : k < span) :
    bankOwn x s =
      s.modifyMe x
        (fun m =>
          { m.fadeStep with drive := .auto start span (k + 1), position := autoPosition start span (k + 1) }) := by
  have hfaded : ((s.modifyMe x Me.fadeStep).me x).drive = .auto start span k := by rw [State.me_modifyMe]; exact hd
  unfold bankOwn driveStep
  rw [hfaded]
  simp only [if_pos hk, takeDue, State.modifyMe_modifyMe]

theorem bankOwn_of_auto_done {start span k : Nat} (hd : (s.me x).drive = .auto start span k) (hk : span ≤ k) :
    bankOwn x s = complete x .auto (s.modifyMe x Me.fadeStep) := by
  have hfaded : ((s.modifyMe x Me.fadeStep).me x).drive = .auto start span k := by rw [State.me_modifyMe]; exact hd
  unfold bankOwn driveStep
  rw [hfaded]
  simp only [if_neg (Nat.not_lt.mpr hk), takeDue]

theorem driveStep_of_keyed (hd : (s.me x).drive = .keyed) : driveStep x s = runStep x s := by
  simp only [driveStep, hd]

theorem bankOwn_of_keyed (hd : (s.me x).drive = .keyed) :
    bankOwn x s = takeDue x (runStep x (s.modifyMe x Me.fadeStep)) := by
  rw [bankOwn, driveStep_of_keyed (by rw [State.me_modifyMe]; exact hd)]

end Own

/-! ### The mark of the other bank (R141) -/

theorem Me.reaches_unique {m : Me} {i i' : Nat} (h : m.reaches i) (h' : m.reaches i') : i = i' := by
  obtain ⟨-, ⟨hc, -, rfl⟩ | ⟨hc, -, -, rfl⟩⟩ := h
  · obtain ⟨-, ⟨-, -, rfl⟩ | ⟨hc', -⟩⟩ := h'
    · rfl
    · exact absurd hc hc'
  · obtain ⟨-, ⟨hc', -⟩ | ⟨-, -, -, rfl⟩⟩ := h'
    · exact absurd hc' hc
    · rfl

/-- A run arrives at one entry. -/
theorem Me.arrivesAt_unique {m : Me} {j j' passes passes' : Nat} (h : m.arrivesAt j passes) (h' : m.arrivesAt j' passes') :
    j = j' := by
  obtain ⟨i, hi, hon⟩ := h
  obtain ⟨i', hi', hon'⟩ := h'
  obtain rfl := Me.reaches_unique hi hi'
  omega

theorem Me.meets_iff_sync {m : Me} {j passes : Nat} (h : m.arrivesAt j passes) : m.meets ↔ (m.entry j).sync = true := by
  refine ⟨?_, fun hsync => ⟨j, passes, h, hsync⟩⟩
  rintro ⟨j', passes', h', hsync⟩
  rw [Me.arrivesAt_unique h h']
  exact hsync

section Other

variable (x : BankId) (s : State)

theorem endRun_me_other : (endRun x s).1.me x.other = s.me x.other := by
  simp only [endRun]
  split <;> simp only [State.me_other_modifyMe, State.me_post]

theorem pauseAfterSegment_me_other : (pauseAfterSegment x s).1.me x.other = s.me x.other := by
  simp only [pauseAfterSegment]
  split
  · simp only [State.me_other_modifyMe]
  · split
    · simp only [State.me_other_modifyMe]
    · rw [endRun_me_other, State.me_other_modifyMe]

theorem requested_mark_other (e : Keyframe) : ((requested x e s).me x.other).mark = (s.me x.other).mark := by
  rw [requested, onlyLayers_requests x e s x.other]

/-- The arrival at an entry gives the other bank a mark when it is a sync entry. -/
theorem arriveEntry_mark_other :
    ((arriveEntry x s).me x.other).mark = true ↔
      (s.me x.other).mark = true ∨ ((s.me x).entry (s.me x).run.index).sync = true := by
  cases hsync : ((s.me x).entry (s.me x).run.index).sync with
  | false =>
    rw [arriveEntry_of_plain rfl hsync, State.me_other_modifyMe, requested_mark_other]
    simp
  | true =>
    rw [arriveEntry_of_sync rfl hsync, State.me_other_modifyMe, postMark_mark_other]
    simp

variable {x s}

theorem arrive_me_other_of_over (h : ∀ j passes : Nat, ¬ (s.me x).goesOn (s.me x).run.index j passes) :
    (arrive x s).1.me x.other = s.me x.other := by
  simp only [arrive]
  split
  · rename_i hi
    exact absurd (.inl ⟨hi, rfl, rfl⟩) (h _ _)
  · split
    · rename_i hi hl
      exact absurd (Me.goesOn_of_loopsOn (Nat.not_lt.mp hi) hl) (h _ _)
    · exact endRun_me_other x s

/-- A step of a run that does not arrive leaves the other bank alone. -/
theorem runStep_me_other (hd : (s.me x).drive = .keyed) (h : ∀ j passes : Nat, ¬ (s.me x).arrivesAt j passes) :
    (runStep x s).1.me x.other = s.me x.other := by
  have play (hplay : (s.me x).run.state.plays) : (runStep x s).1.me x.other = s.me x.other := by
    by_cases hc : (s.me x).run.counter = 0
    · rw [runStep_of_start hplay hc]
      exact arrive_me_other_of_over fun j passes hon => h j passes ⟨_, ⟨hd, .inl ⟨hc, hplay, rfl⟩⟩, hon⟩
    · rcases Nat.lt_or_ge (s.me x).run.counter ((s.me x).entry (s.me x).run.index).duration with hk | hk
      · rw [runStep_of_within hplay hc hk, State.me_other_modifyMe]
      · rcases hplay with hr | hr
        · rw [runStep_of_past_running hc hk hr, arrive_me_other_of_over, State.me_other_modifyMe]
          intro j passes hon
          rw [State.me_modifyMe] at hon
          exact h j passes ⟨_, ⟨hd, .inr ⟨hc, hr, hk, rfl⟩⟩, hon⟩
        · rw [runStep_of_past_holding hc hk hr, pauseAfterSegment_me_other]
  cases hr : (s.me x).run.state with
  | running => exact play (.inl hr)
  | holding => exact play (.inr hr)
  | _ => simp only [runStep, hr]

theorem driveStep_me_other (h : ∀ j passes : Nat, ¬ (s.me x).arrivesAt j passes) :
    (driveStep x s).1.me x.other = s.me x.other := by
  cases hd : (s.me x).drive with
  | keyed => rw [driveStep_of_keyed hd]; exact runStep_me_other hd h
  | auto start span k =>
    simp only [driveStep, hd]
    split
    · rw [State.me_other_modifyMe]
    · rfl
  | _ => simp only [driveStep, hd]

theorem driveStep_mark_other (x : BankId) (s : State) :
    ((driveStep x s).1.me x.other).mark = true ↔ (s.me x.other).mark = true ∨ (s.me x).meets := by
  by_cases h : ∃ j passes : Nat, (s.me x).arrivesAt j passes
  · obtain ⟨j, passes, harrives⟩ := h
    have hd : (s.me x).drive = .keyed := by obtain ⟨_, ⟨hd, -⟩, -⟩ := harrives; exact hd
    rw [driveStep_of_keyed hd, runStep_of_arrivesAt harrives, arriveEntry_mark_other, State.me_other_modifyMe,
      State.me_modifyMe, Me.meets_iff_sync harrives]
    rfl
  · have hnone : ∀ j passes : Nat, ¬ (s.me x).arrivesAt j passes := fun j passes hj => h ⟨j, passes, hj⟩
    rw [driveStep_me_other hnone]
    refine ⟨.inl, ?_⟩
    rintro (hmark | ⟨j, passes, harrives, -⟩)
    · exact hmark
    · exact absurd harrives (hnone j passes)

theorem takeDue_me_other (x : BankId) (p : State × Option DoneBy) : (takeDue x p).me x.other = p.1.me x.other := by
  unfold takeDue
  cases p.2 with
  | none => rfl
  | some how => exact complete_me_other ..

/-- The own work of a bank gives the other bank a mark when its run arrives at a sync entry. -/
theorem bankOwn_mark_other (x : BankId) (s : State) :
    ((bankOwn x s).me x.other).mark = true ↔ (s.me x.other).mark = true ∨ (s.me x).meets := by
  rw [bankOwn, takeDue_me_other, driveStep_mark_other, State.me_other_modifyMe, State.me_modifyMe]
  exact Iff.rfl

end Other

end Sys2Proof.Machine
end

section
/-! A bank at a switch line that takes no command (R92 to R96, R115, R137, R141, R142): the state that the banks' own work starts from,
the line as one bank sees it, and the notices that a bank's work posts. -/

namespace Sys2Proof.Machine

/-! ### Notices that stay in the queue (R174 to R176) -/

/-- A notice of an enabled class that is not a LANE notice stands in the queue, unless a notice has been lost. -/
theorem ReportBuilder.mem_take_self {r : ReportBuilder} {n : Notice} (henabled : r.enabled.get n.cls = true)
    (hlane : n.isLane = false) (hlost : (r.take n).lost = false) : n ∈ (r.take n).queue := by
  have hnew : ∀ q : Notice, q.sameLane n = false := fun q => Notice.sameLane_of_not_isLane_right q hlane
  by_cases hroom : r.queue.length < 32
  · rw [ReportBuilder.take_queue henabled hlane hroom]
    exact List.mem_append_right _ (List.mem_singleton_self n)
  · simp [ReportBuilder.take, ReportBuilder.enqueue, henabled, hnew, hroom] at hlost

/-- A notice in the queue that is not a LANE notice stays there when another is taken. -/
theorem ReportBuilder.mem_take {r : ReportBuilder} {n : Notice} (hlane : n.isLane = false) (h : n ∈ r.queue) (m : Notice) :
    n ∈ (r.take m).queue := by
  simp only [ReportBuilder.take]; split
  · simp only [ReportBuilder.enqueue]; split
    · exact List.mem_map.mpr ⟨n, h, by simp [Notice.sameLane_of_not_isLane m hlane]⟩
    · split
      · exact List.mem_append_left _ h
      · exact h
  · exact h

/-- A lost flag stays set when a notice is taken. -/
theorem ReportBuilder.lost_of_take_lost {r : ReportBuilder} {m : Notice} (h : (r.take m).lost = false) : r.lost = false := by
  simp only [ReportBuilder.take, ReportBuilder.enqueue] at h
  split at h
  · split at h
    · exact h
    · split at h
      · exact h
      · cases h
  · exact h

/-- A posted notice of an enabled class is in the queue after any more notices, unless one has been lost. -/
theorem Posted.mem_queue {r r' : ReportBuilder} {n : Notice} (h : Posted (r.take n) r') (henabled : r.enabled.get n.cls = true)
    (hlane : n.isLane = false) : r'.lost = false → n ∈ r'.queue :=
  h.keeps (P := fun x => x.lost = false → n ∈ x.queue)
    (fun _ m hx hlost => ReportBuilder.mem_take hlane (hx (ReportBuilder.lost_of_take_lost hlost)) m)
    (ReportBuilder.mem_take_self henabled hlane)

theorem ClassFlags.raise_keeps_info {f : ClassFlags} (h : f.info = true) (cls : NoticeClass) : (f.raise cls).info = true := by
  cases cls <;> first | rfl | exact h

/-- After an INFO notice and any more notices the INFO flags are set. -/
theorem Posted.info_flags {r r' : ReportBuilder} {n : Notice} (h : Posted (r.take n) r') (hcls : n.cls = .info) :
    r'.summary.info = true ∧ r'.recent.info = true := by
  refine h.keeps (P := fun x => x.summary.info = true ∧ x.recent.info = true) (fun x m ⟨hs, hr⟩ => ?_) ?_
  · rw [ReportBuilder.take_summary, ReportBuilder.take_recent]
    exact ⟨ClassFlags.raise_keeps_info hs _, ClassFlags.raise_keeps_info hr _⟩
  · rw [ReportBuilder.take_summary, ReportBuilder.take_recent, hcls]
    exact ⟨rfl, rfl⟩

/-! ### The state that the banks' own work starts from -/

/-- The state after the lanes' work of a switch line with nothing to take. -/
def formedLine (p : FieldParity) (s : State) : State :=
  { lanesWork s (beginPeriod p s) with control := { (lanesWork s (beginPeriod p s)).control with fill := 0 } }

theorem formedLine_me (p : FieldParity) (s : State) (x : BankId) : (formedLine p s).me x = s.me x := by
  have hlanes := onlyLanes_lanesWork s (beginPeriod p s)
  cases x
  · exact hlanes.meA_eq
  · exact hlanes.meB_eq

theorem formedLine_buses (p : FieldParity) (s : State) (x : BankId) : (formedLine p s).buses x = s.buses x :=
  buses_of_matrix_eq (onlyLanes_lanesWork s (beginPeriod p s)).matrix_eq x

theorem formedLine_picture (p : FieldParity) (s : State) : (formedLine p s).ref.picture = s.ref.picture + 1 :=
  congrArg ReferenceUnit.picture (onlyLanes_lanesWork s (beginPeriod p s)).ref_eq

theorem formedLine_enabled (p : FieldParity) (s : State) : (formedLine p s).notices.enabled = s.notices.enabled :=
  (onlyLanes_lanesWork s (beginPeriod p s)).2.enabled_eq

/-- A switch line that takes no command and carries out no format change. -/
structure QuietLine (s : State) : Prop where
  change : s.ref.change = none
  takeList : s.control.takeList = []
  take : s.control.take = []
  schedule : ∀ e ∈ s.control.schedule, e.target ≠ s.ref.picture + 1

theorem QuietLine.exec {s : State} (h : QuietLine s) (hr : s.resetPin = false) (p : FieldParity) :
    exec (.switchLine p) s = .next (plainSwitchLine p s) := by
  rw [exec_switchLine p hr, switchLine_of_no_change p h.change]

theorem QuietLine.line_eq {s : State} (h : QuietLine s) (p : FieldParity) :
    plainSwitchLine p s = ownWork s (formedLine p s) :=
  plainSwitchLine_nothing p s h.takeList h.take h.schedule

section Line

variable {s : State} (h : QuietLine s) (p : FieldParity)
include h

theorem QuietLine.me (x : BankId) : (plainSwitchLine p s).me x = (banksWork (formedLine p s)).me x := by
  rw [h.line_eq, ownWork]
  cases x
  · exact (onlyStore_storeWork ..).meA_eq
  · exact (onlyStore_storeWork ..).meB_eq

theorem QuietLine.buses (x : BankId) : (plainSwitchLine p s).buses x = (banksWork (formedLine p s)).buses x := by
  rw [h.line_eq, ownWork]
  exact buses_of_matrix_eq (onlyStore_storeWork ..).matrix_eq x

theorem QuietLine.posted : Posted (banksWork (formedLine p s)).notices (plainSwitchLine p s).notices := by
  rw [h.line_eq, ownWork]
  exact (onlyStore_storeWork ..).2

end Line

/-! ### The line as one bank sees it -/

theorem syncRelease_me_other (x : BankId) (s : State) : (syncRelease x s).me x.other = s.me x.other := by
  simp only [syncRelease]
  split
  · rfl
  · rfl
  · split
    · rw [State.me_other_modifyMe]
    · rfl
  · rfl
  · rfl

/-- Bank `x` at a switch line from `s` to `t`: from `own` its own work is done, and in `settled` its mark is checked. -/
structure SeenLine (x : BankId) (s own settled t : State) : Prop where
  before : SameBank x (own.me x).mark s own
  picture : own.ref.picture = s.ref.picture + 1
  enabled : own.notices.enabled = s.notices.enabled
  after : SameBank x (settled.me x).mark (bankOwn x s) settled
  mark : (settled.me x).mark = true ↔ (s.me x).mark = true ∨ (s.me x.other).meets
  me : t.me x = (syncRelease x settled).me x
  buses : t.buses x = settled.buses x
  posted : Posted (bankOwn x own).notices t.notices

/-- M/E A does its own work first, and its mark is settled once M/E B has done its own. -/
theorem seenLine_a {s : State} (h : QuietLine s) (p : FieldParity) :
    SeenLine .a s (formedLine p s) (bankOwn .b (bankOwn .a (formedLine p s))) (plainSwitchLine p s) where
  before := ⟨by rw [formedLine_me], formedLine_buses p s .a⟩
  picture := formedLine_picture p s
  enabled := formedLine_enabled p s
  after := by
    have hown : SameBank .a (s.me .a).mark (bankOwn .a s) (bankOwn .a (formedLine p s)) :=
      SameBank.bankOwn ⟨by rw [formedLine_me], formedLine_buses p s .a⟩
    exact hown.trans (apart_bankOwn .a _).sameBank
  mark := by
    have hmark := bankOwn_mark_other .b (bankOwn .a (formedLine p s))
    have hother : SameBank .b _ (formedLine p s) (bankOwn .a (formedLine p s)) := (apart_bankOwn .b _).sameBank
    have hmeets : ((bankOwn .a (formedLine p s)).me .b).meets ↔ (s.me .b).meets := by
      rw [hother.meets_iff, formedLine_me]
    rw [hmeets] at hmark
    refine hmark.trans ?_
    show ((bankOwn .a (formedLine p s)).me .a).mark = true ∨ _ ↔ _
    rw [bankOwn_mark, formedLine_me]
    exact Iff.rfl
  me := (h.me p .a).trans (syncRelease_me_other .b _)
  buses := by
    rw [h.buses, banksWork, syncRelease_buses, syncRelease_buses]
  posted :=
    (((onlyEngine_bankOwn .b _).trans (onlyEngine_syncRelease .a _)).trans (onlyEngine_syncRelease .b _)).2.trans (h.posted p)

/-- M/E B does its own work on what that of M/E A leaves. -/
theorem seenLine_b {s : State} (h : QuietLine s) (p : FieldParity) :
    SeenLine .b s (bankOwn .a (formedLine p s)) (syncRelease .a (bankOwn .b (bankOwn .a (formedLine p s))))
      (plainSwitchLine p s) := by
  have hformed : SameBank .b ((formedLine p s).me .b).mark s (formedLine p s) :=
    ⟨by rw [formedLine_me], formedLine_buses p s .b⟩
  have hbefore : SameBank .b _ s (bankOwn .a (formedLine p s)) :=
    hformed.trans (apart_bankOwn .b (formedLine p s)).sameBank
  have hrelease : ∀ u : State, (syncRelease .a u).me .b = u.me .b := syncRelease_me_other .a
  refine ⟨hbefore, ?_, ?_, ?_, ?_, h.me p .b, ?_, ?_⟩
  · rw [(onlyEngine_bankOwn ..).ref_eq]; exact formedLine_picture p s
  · rw [(onlyEngine_bankOwn ..).2.enabled_eq]; exact formedLine_enabled p s
  · refine ⟨?_, by rw [syncRelease_buses, hbefore.bankOwn.buses]⟩
    rw [hrelease, bankOwn_mark]
    exact hbefore.bankOwn.me
  · rw [hrelease, bankOwn_mark]
    refine (bankOwn_mark_other .a (formedLine p s)).trans ?_
    rw [formedLine_me, formedLine_me]
    exact Iff.rfl
  · rw [h.buses, banksWork, syncRelease_buses]
  · exact ((onlyEngine_syncRelease .a _).trans (onlyEngine_syncRelease .b _)).2.trans (h.posted p)

theorem QuietLine.seen {s : State} (h : QuietLine s) (p : FieldParity) (x : BankId) :
    ∃ own settled : State, SeenLine x s own settled (plainSwitchLine p s) := by
  cases x
  · exact ⟨_, _, seenLine_a h p⟩
  · exact ⟨_, _, seenLine_b h p⟩

section Seen

variable {x : BankId} {s own settled t : State} (h : SeenLine x s own settled t)
include h

theorem SeenLine.buses_eq : t.buses x = (bankOwn x s).buses x :=
  h.buses.trans h.after.buses

/-- Where the run does not stand WAITING there is no mark to settle. -/
theorem SeenLine.me_of_not_waiting (hw : ∀ r : ResumeState, ((bankOwn x s).me x).run.state ≠ .waiting r) :
    t.me x = { (bankOwn x s).me x with mark := (t.me x).mark } := by
  have hsettled : t.me x = settled.me x := by
    rw [h.me, syncRelease_of_not_waiting x settled (fun r => by rw [h.after.run]; exact hw r)]
  rw [hsettled]
  exact h.after.me

/-- A notice that the bank's own work posts of an enabled class is in the queue after the line, unless one has been lost. -/
theorem SeenLine.mem_queue {r : ReportBuilder} {n : Notice} (hn : Posted (r.take n) (bankOwn x own).notices)
    (hr : r.enabled = s.notices.enabled) (hcls : n.cls = .info) (hlane : n.isLane = false)
    (henabled : s.notices.enabled.info = true) (hlost : t.notices.lost = false) : n ∈ t.notices.queue :=
  (hn.trans h.posted).mem_queue (by rw [hr, hcls]; exact henabled) hlane hlost

end Seen

/-! ### The fades (R115) -/

theorem LayerState.fadeStep_of_rising {c rf : Nat} (h : c < rf) :
    (LayerState.rising c rf).fadeStep = if c + 1 = rf then .on else .rising (c + 1) rf := by
  have hlast : c + 1 ≥ rf ↔ c + 1 = rf := by omega
  simp only [LayerState.fadeStep, hlast]

theorem LayerState.fadeStep_of_falling {c : Nat} (h : 1 ≤ c) (rf : Nat) :
    (LayerState.falling c rf).fadeStep = if c = 1 then .off else .falling (c - 1) rf := by
  have hlast : c ≤ 1 ↔ c = 1 := by omega
  simp only [LayerState.fadeStep, hlast]

theorem Me.fadeStep_state (m : Me) (l : LayerId) : (m.fadeStep.layer l).state = (m.layer l).state.fadeStep := by
  rw [Me.fadeStep_layer]

/-- One fade step of a layer, by its state. -/
theorem Me.fadeStep_cases (m : Me) (l : LayerId) :
    m.fadeStep.layer l = { m.layer l with state := (m.layer l).state.fadeStep } ∧
      ((m.layer l).state = .off → (m.fadeStep.layer l).state = .off) ∧
      ((m.layer l).state = .on → (m.fadeStep.layer l).state = .on) ∧
      (∀ c rf, (m.layer l).state = .rising c rf → c < rf →
        (m.fadeStep.layer l).state = if c + 1 = rf then .on else .rising (c + 1) rf) ∧
      ∀ c rf, (m.layer l).state = .falling c rf → 1 ≤ c →
        (m.fadeStep.layer l).state = if c = 1 then .off else .falling (c - 1) rf := by
  rw [Me.fadeStep_state]
  refine ⟨Me.fadeStep_layer m l, fun h => ?_, fun h => ?_, fun c rf h hc => ?_, fun c rf h hc => ?_⟩
  · rw [h]; rfl
  · rw [h]; rfl
  · rw [h]; exact LayerState.fadeStep_of_rising hc
  · rw [h]; exact LayerState.fadeStep_of_falling hc rf

/-! ### AUTO_COMPLETION_DUE (R93, log 3) -/

theorem autoCompletionDue_of_done {bank : BankId} {s : State} {start span k : Nat}
    (hd : (s.me bank).drive = .auto start span k) (hk : span ≤ k) : autoCompletionDue bank s = complete bank .auto s := by
  simp only [autoCompletionDue, hd, if_neg (Nat.not_lt.mpr hk)]

theorem autoCompletionDue_of_running {bank : BankId} {s : State} {start span k : Nat}
    (hd : (s.me bank).drive = .auto start span k) (hk : k < span) : autoCompletionDue bank s = s := by
  simp only [autoCompletionDue, hd, if_pos hk]

theorem autoCompletionDue_of_not_auto {bank : BankId} {s : State}
    (hd : (s.me bank).drive = .rest ∨ (s.me bank).drive = .manual ∨ (s.me bank).drive = .keyed) :
    autoCompletionDue bank s = s := by
  rcases hd with hd | hd | hd <;> simp only [autoCompletionDue, hd]

/-! ### A bank at the line, by its drive state -/

section Bank

variable {x : BankId} {s own settled t : State} (h : SeenLine x s own settled t)
include h

/-- Own work that changes the record alone, in a run that does not wait. -/
theorem SeenLine.of_modifyMe {f : Me → Me} (hown : bankOwn x s = s.modifyMe x f)
    (hrun : ∀ r : ResumeState, (f (s.me x)).run.state ≠ .waiting r) :
    t.me x = { f (s.me x) with mark := (t.me x).mark } ∧ t.buses x = s.buses x := by
  have hme : (bankOwn x s).me x = f (s.me x) := by rw [hown, State.me_modifyMe]
  have hline := h.me_of_not_waiting (by rw [hme]; exact hrun)
  rw [hme] at hline
  exact ⟨hline, by rw [h.buses_eq, hown, State.buses_modifyMe]⟩

theorem SeenLine.of_still (hsound : (s.me x).driveSound) (hd : (s.me x).drive = .rest ∨ (s.me x).drive = .manual) :
    t.me x = { (s.me x).fadeStep with mark := (t.me x).mark } ∧ t.buses x = s.buses x := by
  have hidle : (s.me x).run = Run.idle := hsound.idle (by rcases hd with hd | hd <;> rw [hd] <;> exact nofun)
  refine h.of_modifyMe (bankOwn_of_still hd) fun r => ?_
  show (s.me x).run.state ≠ .waiting r
  rw [hidle]
  exact nofun

theorem SeenLine.of_auto_running (hsound : (s.me x).driveSound) {start span k : Nat}
    (hd : (s.me x).drive = .auto start span k) (hk : k < span) :
    t.me x =
        { (s.me x).fadeStep with
          drive := .auto start span (k + 1)
          position := start + (4096 - start) * (k + 1) / span
          mark := (t.me x).mark } ∧
      t.buses x = s.buses x := by
  have hidle : (s.me x).run = Run.idle := hsound.idle (by rw [hd]; exact nofun)
  refine h.of_modifyMe (bankOwn_of_auto_running hd hk) fun r => ?_
  show (s.me x).run.state ≠ .waiting r
  rw [hidle]
  exact nofun

theorem SeenLine.of_within (hd : (s.me x).drive = .keyed) (hplay : (s.me x).run.state.plays)
    (hc : (s.me x).run.counter ≠ 0) (hk : (s.me x).run.counter < ((s.me x).entry (s.me x).run.index).duration) :
    t.me x = { (s.me x).fadeStep.segmentAdvanced with mark := (t.me x).mark } ∧ t.buses x = s.buses x := by
  have hstep : bankOwn x s = s.modifyMe x (fun m => m.fadeStep.segmentAdvanced) := by
    rw [bankOwn_of_keyed hd, runStep_of_within (by rw [State.me_modifyMe]; exact hplay) (by rw [State.me_modifyMe]; exact hc)
      (by rw [State.me_modifyMe]; exact hk)]
    exact State.modifyMe_modifyMe ..
  exact h.of_modifyMe hstep (plays_ne_waiting hplay)

theorem SeenLine.of_paused (hd : (s.me x).drive = .keyed) (hp : (s.me x).run.state = .paused) :
    t.me x = { (s.me x).fadeStep with mark := (t.me x).mark } ∧ t.buses x = s.buses x := by
  have hstep : bankOwn x s = s.modifyMe x Me.fadeStep := by
    rw [bankOwn_of_keyed hd, runStep_of_paused (by rw [State.me_modifyMe]; exact hp)]
    rfl
  refine h.of_modifyMe hstep fun r => ?_
  show (s.me x).run.state ≠ .waiting r
  rw [hp]
  exact nofun

/-- An AUTO at its span completes on the faded bank. -/
theorem SeenLine.of_auto_done (hsound : (s.me x).driveSound) {start span k : Nat}
    (hd : (s.me x).drive = .auto start span k) (hk : span ≤ k) :
    t.me x = { (complete x .auto (s.modifyMe x Me.fadeStep)).me x with mark := (t.me x).mark } ∧
      t.buses x = (complete x .auto (s.modifyMe x Me.fadeStep)).buses x := by
  have hidle : (s.me x).run = Run.idle := hsound.idle (by rw [hd]; exact nofun)
  have hown := bankOwn_of_auto_done hd hk
  have hrun : ((bankOwn x s).me x).run = (s.me x).run := by rw [hown, complete_me, State.me_modifyMe]; rfl
  have hline := h.me_of_not_waiting fun r => by rw [hrun, hidle]; exact nofun
  rw [hown] at hline
  exact ⟨hline, by rw [h.buses_eq, hown]⟩

/-- The TRANSITION_DONE that an AUTO at its span posts. -/
theorem SeenLine.auto_posted {start span k : Nat} (hd : (s.me x).drive = .auto start span k) (hk : span ≤ k) :
    Posted
      (own.notices.take
        { kind := .transitionDone .auto, cls := .info, subject := .me (bankByte x), number := s.ref.picture + 1 })
      (bankOwn x own).notices := by
  rw [bankOwn_of_auto_done (by rw [h.before.drive]; exact hd) hk, complete_notices, State.modifyMe_notices,
    State.modifyMe_ref, h.picture]
  exact .refl _

end Bank

/-- Settles O32: the line as the bank sees it, by drive state; then one fade step, and AUTO_COMPLETION_DUE. -/
theorem bankAtASwitchLine : Obligations.BankAtASwitchLine := by
  refine ⟨fun s p x hr hsound hchange hlist htake hschedule => ?_, Me.fadeStep_cases,
    fun s bank hr => ⟨fun start span k hd => ⟨fun hk => ?_, fun hk => ?_⟩, fun hd => ?_⟩⟩
  · have hquiet : QuietLine s := ⟨hchange, hlist, htake, hschedule⟩
    obtain ⟨own, settled, h⟩ := hquiet.seen p x
    refine ⟨plainSwitchLine p s, hquiet.exec hr p, h.of_still hsound, fun start span k hd hk => h.of_auto_running hsound hd hk,
      fun start span k hd hk => ?_, fun hd hplay e he hc hk => ?_, h.of_paused⟩
    · obtain ⟨hme, hbuses⟩ := h.of_auto_done hsound hd hk
      have hposted := h.auto_posted hd hk
      obtain ⟨hsummary, hrecent⟩ := (hposted.trans h.posted).info_flags rfl
      refine ⟨?_, by rintro done rfl; exact ⟨hme, hbuses⟩, hsummary, hrecent, h.mem_queue hposted h.enabled rfl rfl⟩
      rw [complete_me, State.me_modifyMe] at hme
      rw [complete_buses, State.me_modifyMe, State.buses_modifyMe] at hbuses
      rw [hme, hbuses]
      exact ⟨rfl, rfl, rfl, rfl, fun hb => by rw [if_pos (by exact hb)]; exact ⟨rfl, rfl⟩,
        fun hb => if_neg fun hbkgd => Bool.noConfusion (hb.symm.trans hbkgd)⟩
    · subst he
      exact h.of_within hd hplay hc hk
  · rw [exec_autoCompletionDue bank hr, autoCompletionDue_of_done hd hk]
  · rw [exec_autoCompletionDue bank hr, autoCompletionDue_of_running hd hk]
  · rw [exec_autoCompletionDue bank hr, autoCompletionDue_of_not_auto hd]

end Sys2Proof.Machine
end

section
/-! The segments of a run (R60, R123, R137 to R144, R149): SEGMENT_END by what the run comes to, and the same steps in a bank's own work
at a switch line. -/

namespace Sys2Proof.Machine

/-! ### The requests of an entry (R140) -/

/-- The requests of an entry as rows. -/
def entryRequests (bank : BankId) (e : Keyframe) : List Instr :=
  (allLayers.filter (inLayerSet e.layerOn)).map (fun l => .layerOn (bankByte bank) (layerByte l)) ++
      (allLayers.filter (inLayerSet e.layerOff)).map (fun l => .layerOff (bankByte bank) (layerByte l)) ++
    e.preset.toList.map (fun code => .select (bankByte bank) 1 code)

/-- R60, R123: the requests carried out as rows are the requests of the entry. -/
theorem asked_eq_requested {bank : BankId} {e : Keyframe} {s asked : State} {requests : List Instr} (hs : s.resetPin = false)
    (hrequests : requests = entryRequests bank e) (hasked : asked = carryOut requests s) : asked = requested bank e s := by
  rw [hasked, hrequests]
  exact carryOut_requests bank e s hs

theorem requested_run (bank : BankId) (e : Keyframe) (s : State) :
    ((requested bank e s).me bank).run = (s.me bank).run := by
  rw [requested_me]

theorem requested_mark (bank : BankId) (e : Keyframe) (s : State) :
    ((requested bank e s).me bank).mark = (s.me bank).mark := by
  rw [requested_me]

theorem requested_position (bank : BankId) (e : Keyframe) (s : State) :
    ((requested bank e s).me bank).position = (s.me bank).position := by
  rw [requested_me]

/-! ### Where a pass goes on or ends (R143) -/

theorem Me.goesOn_or_endsAt (m : Me) (i : Nat) : (∃ j passes : Nat, m.goesOn i j passes) ∨ m.endsAt i := by
  rcases Nat.lt_or_ge i m.count with hi | hi
  · exact .inl ⟨i, m.run.passes, .inl ⟨hi, rfl, rfl⟩⟩
  · cases he : m.endMode with
    | stop => exact .inr ⟨hi, .inl he⟩
    | loop =>
      by_cases hp : m.run.passes = 1
      · exact .inr ⟨hi, .inr (.inl hp)⟩
      · rcases Nat.eq_zero_or_pos m.count with hc | hc
        · exact .inr ⟨hi, .inr (.inr hc)⟩
        · exact .inl ⟨0, m.run.passes - 1, .inr ⟨hi, hc, he, hp, rfl, rfl⟩⟩

/-! ### SEGMENT_END (log 3) -/

theorem Me.atSegmentEnd_iff (m : Me) :
    m.atSegmentEnd = true ↔
      m.run.state.plays ∧ m.run.counter ≠ 0 ∧ (m.entry m.run.index).duration ≤ m.run.counter := by
  simp only [Me.atSegmentEnd, RunState.plays, Bool.and_eq_true, Bool.or_eq_true, decide_eq_true_eq, and_assoc]

section SegmentEnd

variable {bank : BankId} {s : State}

theorem segmentEnd_elsewhere
    (h : (s.me bank).run.counter = 0 ∨ (s.me bank).run.counter < ((s.me bank).entry (s.me bank).run.index).duration ∨
      ((s.me bank).run.state ≠ .running ∧ (s.me bank).run.state ≠ .holding)) : segmentEnd bank s = s := by
  refine if_neg fun hend => ?_
  obtain ⟨hplay, hc, hk⟩ := (Me.atSegmentEnd_iff _).mp hend
  rcases h with h | h | ⟨hrunning, hholding⟩
  · exact hc h
  · omega
  · rcases hplay with hr | hr
    · exact hrunning hr
    · exact hholding hr

theorem before_entry (bank : BankId) (s : State) (j passes : Nat) :
    (s.me bank).entry j =
      ((s.modifyMe bank (fun m => m.before j passes)).me bank).entry
        ((s.modifyMe bank (fun m => m.before j passes)).me bank).run.index := by
  rw [State.me_modifyMe]; rfl

theorem asked_mark {e : Keyframe} {asked : State} {j passes : Nat}
    (hasked : asked = requested bank e (s.modifyMe bank (fun m => m.before j passes))) :
    ((postMark bank asked).me bank).mark = (s.me bank).mark := by
  rw [postMark_me, hasked, requested_mark, State.me_modifyMe]; rfl

variable (hc : (s.me bank).run.counter ≠ 0)
  (hk : ((s.me bank).entry (s.me bank).run.index).duration ≤ (s.me bank).run.counter)
include hc hk

theorem segmentEnd_of_plays (hplay : (s.me bank).run.state.plays) :
    segmentEnd bank s = syncRelease bank (takeDue bank (runStep bank s)) :=
  if_pos ((Me.atSegmentEnd_iff _).mpr ⟨hplay, hc, hk⟩)

/-- A HOLDING run pauses before the entry that it goes on to (R138). -/
theorem segmentEnd_of_holding {j passes : Nat} (hr : (s.me bank).run.state = .holding)
    (hon : (s.me bank).goesOn ((s.me bank).run.index + 1) j passes) :
    segmentEnd bank s =
      s.modifyMe bank
        (fun m => { m with run := { m.run with state := .paused, index := j, counter := 0, passes := passes } }) := by
  rw [segmentEnd_of_plays hc hk (.inr hr), runStep_of_past_holding hc hk hr, pauseAfterSegment_of_goesOn hon]
  exact syncRelease_of_not_waiting _ _ fun r => by rw [takeDue, State.me_modifyMe]; exact nofun

/-- A run at the end of its last pass ends (R144). -/
theorem segmentEnd_of_endsAt (hplay : (s.me bank).run.state.plays)
    (hend : (s.me bank).endsAt ((s.me bank).run.index + 1)) : segmentEnd bank s = takeDue bank (endRun bank s) := by
  rw [segmentEnd_of_plays hc hk hplay, runStep_of_past_endsAt hc hk hplay hend]
  exact syncRelease_of_not_waiting _ _ fun r => by rw [takeDue_endRun_run]; exact nofun

section Arrives

variable (hr : (s.me bank).run.state = .running) {j passes : Nat}
  (hon : (s.me bank).goesOn ((s.me bank).run.index + 1) j passes)
include hr hon

theorem segmentEnd_of_arrival :
    segmentEnd bank s = syncRelease bank (arriveEntry bank (s.modifyMe bank (fun m => m.before j passes))) := by
  rw [segmentEnd_of_plays hc hk (.inl hr), runStep_of_past_goesOn hc hk hr hon]
  rfl

variable {e : Keyframe} (he : e = (s.me bank).entry j) {asked : State}
  (hasked : asked = requested bank e (s.modifyMe bank (fun m => m.before j passes)))
include he hasked

/-- A RUNNING run begins the segment of an entry that is not a sync entry (R139). -/
theorem segmentEnd_of_plain (hsync : e.sync = false) :
    segmentEnd bank s =
      asked.modifyMe bank
        (fun m =>
          { m with
            run := { m.run with start := m.position, counter := 1 }
            position := segmentPosition m.position e.target 1 e.duration }) := by
  have hentry := he.trans (before_entry bank s j passes)
  rw [segmentEnd_of_arrival hc hk hr hon, arriveEntry_of_plain hentry hsync, ← hasked]
  refine syncRelease_of_not_waiting _ _ fun r => ?_
  rw [State.me_modifyMe]
  show (asked.me bank).run.state ≠ .waiting r
  rw [hasked, requested_run, State.me_modifyMe]
  exact plays_ne_waiting (.inl hr) r

/-- What stands at a sync entry before the marks are settled: the mark is posted and the run waits (R141). -/
theorem segmentEnd_of_sync (hsync : e.sync = true) :
    segmentEnd bank s =
      syncRelease bank
        ((postMark bank asked).modifyMe bank
          (fun m => { m with run := { m.run with state := .waiting .running, counter := 0 } })) := by
  have hentry := he.trans (before_entry bank s j passes)
  have hrunning : ((postMark bank asked).me bank).run.state = .running := by
    rw [postMark_me, hasked, requested_run, State.me_modifyMe]; exact hr
  rw [segmentEnd_of_arrival hc hk hr hon, arriveEntry_of_sync hentry hsync, ← hasked]
  refine congrArg _ (State.modifyMe_congr _ _ ?_)
  rw [hrunning]
  rfl

/-- Without a mark the run waits (R142). -/
theorem segmentEnd_waits (hsync : e.sync = true) (hm : (s.me bank).mark = false) :
    segmentEnd bank s =
      (postMark bank asked).modifyMe bank
        (fun m => { m with run := { m.run with state := .waiting .running, counter := 0 } }) := by
  rw [segmentEnd_of_sync hc hk hr hon he hasked hsync]
  exact syncRelease_of_no_mark (r := .running) (by rw [State.me_modifyMe])
    (by rw [State.me_modifyMe]; exact (asked_mark hasked).trans hm)

/-- With a mark the run consumes it and begins its segment (R142). -/
theorem segmentEnd_begins (hsync : e.sync = true) (hm : (s.me bank).mark = true) :
    segmentEnd bank s =
      (postMark bank asked).modifyMe bank
        (fun m =>
          { m with
            mark := false
            run := { m.run with state := .running, start := m.position, counter := 1 }
            position := segmentPosition m.position e.target 1 e.duration }) := by
  have hentry : e = ((postMark bank asked).me bank).entry ((postMark bank asked).me bank).run.index := by
    rw [postMark_me, hasked, requested_entry (he.trans (before_entry bank s j passes))]
  rw [segmentEnd_of_sync hc hk hr hon he hasked hsync,
    syncRelease_of_mark (r := .running) (by rw [State.me_modifyMe])
      (by rw [State.me_modifyMe]; exact (asked_mark hasked).trans hm),
    State.modifyMe_modifyMe, hentry]
  exact State.modifyMe_congr _ _ rfl

end Arrives

/-- A RUNNING run begins the segment of an entry that asks for nothing (R139). -/
theorem segmentEnd_of_nothing_asked {e : Keyframe} (hr : (s.me bank).run.state = .running)
    (hi : (s.me bank).run.index + 1 < (s.me bank).count) (he : e = (s.me bank).entry ((s.me bank).run.index + 1))
    (hsync : e.sync = false) (hlayerOn : e.layerOn = 0) (hlayerOff : e.layerOff = 0) (hpreset : e.preset = none) :
    segmentEnd bank s =
      s.modifyMe bank
        (fun m =>
          { m with
            run := { m.run with index := m.run.index + 1, start := m.position, counter := 1 }
            position := segmentPosition m.position e.target 1 e.duration }) := by
  have hasked := requested_of_none hlayerOn hlayerOff hpreset bank
    (s.modifyMe bank (fun m => m.before ((s.me bank).run.index + 1) (s.me bank).run.passes))
  rw [segmentEnd_of_plain hc hk hr (.inl ⟨hi, rfl, rfl⟩) he hasked.symm hsync, State.modifyMe_modifyMe]
  exact State.modifyMe_congr _ _ rfl

end SegmentEnd

/-! ### The arrival at a switch line (R139 to R142) -/

theorem resume_eq_of_plays {r : RunState} (h : r.plays) : r.resume = if r = .holding then .holding else .running := by
  rcases h with rfl | rfl <;> rfl

theorem Me.arrivesAt.keyed {m : Me} {j passes : Nat} (h : m.arrivesAt j passes) : m.drive = .keyed := by
  obtain ⟨i, ⟨hd, -⟩, -⟩ := h
  exact hd

theorem Me.arrivesAt.plays {m : Me} {j passes : Nat} (h : m.arrivesAt j passes) : m.run.state.plays := by
  obtain ⟨i, ⟨-, ⟨-, hplay, -⟩ | ⟨-, hr, -⟩⟩, -⟩ := h
  · exact hplay
  · exact .inl hr

section Arrival

variable {x : BankId} {s own settled t : State} (h : SeenLine x s own settled t) {j passes : Nat}
  (harrives : (s.me x).arrivesAt j passes) {e : Keyframe} (he : e = (s.me x).entry j) {asked : State}
  (hasked : asked = requested x e (s.modifyMe x (fun m => m.fadeStep.before j passes)))

include harrives in
theorem bankOwn_of_arrivesAt :
    bankOwn x s = arriveEntry x (s.modifyMe x (fun m => m.fadeStep.before j passes)) := by
  rw [bankOwn_of_keyed harrives.keyed, runStep_of_arrivesAt (by rw [State.me_modifyMe]; exact harrives),
    State.modifyMe_modifyMe]
  rfl

include he in
theorem faded_entry :
    e =
      ((s.modifyMe x (fun m => m.fadeStep.before j passes)).me x).entry
        ((s.modifyMe x (fun m => m.fadeStep.before j passes)).me x).run.index := by
  rw [he, State.me_modifyMe]; rfl

section Asked

include hasked

theorem faded_run : (asked.me x).run = { (s.me x).run with index := j, counter := 0, passes := passes } := by
  rw [hasked, requested_run, State.me_modifyMe]; rfl

theorem faded_position : (asked.me x).position = (s.me x).position := by
  rw [hasked, requested_position, State.me_modifyMe]; rfl

theorem faded_mark : (asked.me x).mark = (s.me x).mark := by
  rw [hasked, requested_mark, State.me_modifyMe]; rfl

include harrives he

theorem bankOwn_me_of_plain (hsync : e.sync = false) :
    (bankOwn x s).me x =
      { asked.me x with
        run := { (asked.me x).run with start := (s.me x).position, counter := 1 }
        position := segmentPosition (s.me x).position e.target 1 e.duration } := by
  rw [bankOwn_of_arrivesAt harrives, arriveEntry_of_plain (faded_entry he) hsync, ← hasked, State.me_modifyMe,
    faded_position hasked]

theorem bankOwn_me_of_sync (hsync : e.sync = true) :
    (bankOwn x s).me x =
      { asked.me x with run := { (asked.me x).run with state := .waiting (s.me x).run.state.resume, counter := 0 } } := by
  rw [bankOwn_of_arrivesAt harrives, arriveEntry_of_sync (faded_entry he) hsync, ← hasked, State.me_modifyMe, postMark_me,
    faded_run hasked]

theorem bankOwn_buses_of_arrivesAt : (bankOwn x s).buses x = asked.buses x := by
  rw [bankOwn_of_arrivesAt harrives]
  cases hsync : e.sync with
  | false => rw [arriveEntry_of_plain (faded_entry he) hsync, ← hasked, State.buses_modifyMe]
  | true => rw [arriveEntry_of_sync (faded_entry he) hsync, ← hasked, State.buses_modifyMe, postMark_buses]

include h

/-- The run begins the segment of an entry that is not a sync entry. -/
theorem SeenLine.begins_of_plain (hsync : e.sync = false) :
    t.me x =
      { asked.me x with
        run := { (asked.me x).run with start := (s.me x).position, counter := 1 }
        position := segmentPosition (s.me x).position e.target 1 e.duration
        mark := (t.me x).mark } := by
  have hown := bankOwn_me_of_plain harrives he hasked hsync
  have hline := h.me_of_not_waiting fun r => by
    rw [hown, faded_run hasked]
    exact plays_ne_waiting harrives.plays r
  rw [hown] at hline
  exact hline

/-- A run at a sync entry begins its segment when its bank holds a mark or gets one on that line. -/
theorem SeenLine.begins_of_sync (hsync : e.sync = true) (hmark : (s.me x).mark = true ∨ (s.me x.other).meets) :
    t.me x =
      { asked.me x with
        run := { (asked.me x).run with start := (s.me x).position, counter := 1 }
        position := segmentPosition (s.me x).position e.target 1 e.duration
        mark := (t.me x).mark } := by
  have hsettled : settled.me x =
      { asked.me x with
        run := { (asked.me x).run with state := .waiting (s.me x).run.state.resume, counter := 0 }
        mark := (settled.me x).mark } :=
    h.after.me.trans (by rw [bankOwn_me_of_sync harrives he hasked hsync])
  have hentry : (asked.me x).entry (asked.me x).run.index = e := by
    rw [hasked, requested_entry (faded_entry he)]
  have hwaiting : (settled.me x).run.state = .waiting (s.me x).run.state.resume := by rw [hsettled]
  have hline : t.me x =
      { asked.me x with
        run := { (asked.me x).run with start := (s.me x).position, counter := 1 }
        position := segmentPosition (s.me x).position e.target 1 e.duration
        mark := false } := by
    rw [h.me, syncRelease_of_mark hwaiting (h.mark.mpr hmark), State.me_modifyMe, hsettled,
      resume_state_of_plays harrives.plays, ← hentry, ← faded_position hasked]
    simp only [Me.entry, faded_run hasked]
  rw [hline]

/-- A run at a sync entry waits when its bank neither holds a mark nor gets one on that line. -/
theorem SeenLine.waits (hsync : e.sync = true) (hm : (s.me x).mark = false) (hother : ¬ (s.me x.other).meets) :
    t.me x =
      { asked.me x with
        run :=
          { (asked.me x).run with
            state := .waiting (if (s.me x).run.state = .holding then .holding else .running) } } := by
  have hnone : (settled.me x).mark = false := by
    rw [← Bool.not_eq_true, h.mark, hm]
    exact fun hmark => hmark.elim nofun hother
  have hwaiting : (settled.me x).run.state = .waiting (s.me x).run.state.resume := by
    rw [h.after.run, bankOwn_me_of_sync harrives he hasked hsync]
  rw [h.me, syncRelease_of_no_mark hwaiting hnone, h.after.me, bankOwn_me_of_sync harrives he hasked hsync, hnone,
    resume_eq_of_plays harrives.plays, faded_run hasked, ← hm, ← faded_mark hasked]

end Asked

end Arrival

theorem BankId.other_other (x : BankId) : x.other.other = x := by
  cases x <;> rfl

theorem runStep_of_idle {x : BankId} {s : State} (h : (s.me x).run.state = .idle) : runStep x s = (s, none) := by
  simp only [runStep, h]

/-- The own work of a bank without a run starts none. -/
theorem bankOwn_run_of_idle {x : BankId} {s : State} (h : (s.me x).run.state = .idle) :
    ((bankOwn x s).me x).run.state = .idle := by
  cases hd : (s.me x).drive with
  | rest => rw [bankOwn_of_still (.inl hd), State.me_modifyMe]; exact h
  | manual => rw [bankOwn_of_still (.inr hd), State.me_modifyMe]; exact h
  | auto start span k =>
    rcases Nat.lt_or_ge k span with hk | hk
    · rw [bankOwn_of_auto_running hd hk, State.me_modifyMe]; exact h
    · rw [bankOwn_of_auto_done hd hk, complete_me, State.me_modifyMe]; exact h
  | keyed =>
    have hfaded : ((s.modifyMe x Me.fadeStep).me x).run.state = .idle := by rw [State.me_modifyMe]; exact h
    rw [bankOwn_of_keyed hd, runStep_of_idle hfaded]
    exact hfaded

/-- A bank without a run keeps the mark that it gets on the line. -/
theorem SeenLine.mark_of_idle {x : BankId} {s own settled t : State} (h : SeenLine x s own settled t)
    (hidle : (s.me x).run.state = .idle) (hother : (s.me x.other).meets) : (t.me x).mark = true := by
  have hrun : (settled.me x).run.state = .idle := by rw [h.after.run]; exact bankOwn_run_of_idle hidle
  rw [h.me, syncRelease_of_not_waiting x settled fun r => by rw [hrun]; exact nofun]
  exact h.mark.mpr (.inr hother)

/-! ### The end of a run at a switch line (R143, R144, R149) -/

/-- The end of a run posts RUN_DONE first. -/
theorem takeDue_endRun_posted (x : BankId) (s : State) :
    Posted (s.notices.take { kind := .runDone, cls := .info, subject := .me (bankByte x), number := s.ref.picture })
      (takeDue x (endRun x s)).notices := by
  rw [← endedRun_notices]
  by_cases hp : (s.me x).position = 4096
  · rw [takeDue_endRun_of_end hp, complete_notices]
    exact .take _ (.refl _)
  · rw [takeDue_endRun_of_not_end hp, State.modifyMe_notices]
    exact .refl _

theorem endedRun_picture (x : BankId) (s : State) : (endedRun x s).ref.picture = s.ref.picture := by
  rw [endedRun, State.post_ref, State.modifyMe_ref]

theorem Me.endsRun.keyed {m : Me} (h : m.endsRun) : m.drive = .keyed := by
  obtain ⟨hd, -⟩ := h
  exact hd

section Ends

variable {x : BankId} {s own settled t : State} (h : SeenLine x s own settled t) (hends : (s.me x).endsRun)

include hends in
theorem bankOwn_of_endsRun : bankOwn x s = takeDue x (endRun x (s.modifyMe x Me.fadeStep)) := by
  rw [bankOwn_of_keyed hends.keyed, runStep_of_endsRun (by rw [State.me_modifyMe]; exact hends)]

include h hends

theorem SeenLine.own_of_endsRun : bankOwn x own = takeDue x (endRun x (own.modifyMe x Me.fadeStep)) :=
  bankOwn_of_endsRun (by rw [h.before.me]; exact hends)

theorem SeenLine.me_of_endsRun : t.me x = { (bankOwn x s).me x with mark := (t.me x).mark } :=
  h.me_of_not_waiting fun r => by rw [bankOwn_of_endsRun hends, takeDue_endRun_run]; exact nofun

theorem SeenLine.runDone_posted :
    Posted
      (own.notices.take
        { kind := .runDone, cls := .info, subject := .me (bankByte x), number := s.ref.picture + 1 })
      (bankOwn x own).notices := by
  have hposted := takeDue_endRun_posted x (own.modifyMe x Me.fadeStep)
  rw [State.modifyMe_notices, State.modifyMe_ref, h.picture] at hposted
  rw [h.own_of_endsRun hends]
  exact hposted

theorem SeenLine.runDone_reported :
    t.notices.summary.info = true ∧ t.notices.recent.info = true ∧
      (s.notices.enabled.info = true → t.notices.lost = false →
        { kind := .runDone, cls := .info, subject := .me (bankByte x), number := s.ref.picture + 1 } ∈ t.notices.queue) := by
  have hposted := h.runDone_posted hends
  obtain ⟨hsummary, hrecent⟩ := (hposted.trans h.posted).info_flags rfl
  exact ⟨hsummary, hrecent, h.mem_queue hposted h.enabled rfl rfl⟩

/-- At P = 4096 the bank completes after RUN_DONE. -/
theorem SeenLine.completes_of_endsRun (hp : (s.me x).position = 4096) {ended : State}
    (hended : ended = s.modifyMe x (fun m => { m.fadeStep with run := Run.idle })) :
    t.me x = { (complete x .run ended).me x with mark := (t.me x).mark } ∧ t.buses x = (complete x .run ended).buses x ∧
      (s.notices.enabled.info = true → t.notices.lost = false →
        { kind := .transitionDone .run, cls := .info, subject := .me (bankByte x), number := s.ref.picture + 1 } ∈
          t.notices.queue) := by
  have hme : (endedRun x (s.modifyMe x Me.fadeStep)).me x = ended.me x := by
    rw [endedRun_me, hended, State.me_modifyMe, State.me_modifyMe]
  have hbuses : (endedRun x (s.modifyMe x Me.fadeStep)).buses x = ended.buses x := by
    rw [endedRun_buses, hended, State.buses_modifyMe, State.buses_modifyMe]
  have hown : bankOwn x s = complete x .run (endedRun x (s.modifyMe x Me.fadeStep)) := by
    rw [bankOwn_of_endsRun hends, takeDue_endRun_of_end (by rw [State.me_modifyMe]; exact hp)]
  have hposition : ((own.modifyMe x Me.fadeStep).me x).position = 4096 := by
    rw [State.me_modifyMe]; exact h.before.position.trans hp
  have hposted : Posted
      ((endedRun x (own.modifyMe x Me.fadeStep)).notices.take
        { kind := .transitionDone .run, cls := .info, subject := .me (bankByte x), number := s.ref.picture + 1 })
      (bankOwn x own).notices := by
    rw [h.own_of_endsRun hends, takeDue_endRun_of_end hposition, complete_notices, endedRun_picture, State.modifyMe_ref,
      h.picture]
    exact .refl _
  refine ⟨?_, ?_, h.mem_queue hposted ?_ rfl rfl⟩
  · rw [complete_me, ← hme, ← complete_me, ← hown]
    exact h.me_of_endsRun hends
  · rw [complete_buses, ← hme, ← hbuses, ← complete_buses _ .run, ← hown]
    exact h.buses_eq
  · rw [endedRun_notices, ReportBuilder.take_enabled, State.modifyMe_notices, h.enabled]

/-- Elsewhere the bank resolves by P. -/
theorem SeenLine.resolves_of_endsRun (hp : (s.me x).position ≠ 4096) {ended : State}
    (hended : ended = s.modifyMe x (fun m => { m.fadeStep with run := Run.idle })) :
    t.me x = { (ended.me x).resolved with mark := (t.me x).mark } ∧ t.buses x = s.buses x := by
  have hme : (endedRun x (s.modifyMe x Me.fadeStep)).me x = ended.me x := by
    rw [endedRun_me, hended, State.me_modifyMe, State.me_modifyMe]
  have hown : bankOwn x s = (endedRun x (s.modifyMe x Me.fadeStep)).modifyMe x Me.resolved := by
    rw [bankOwn_of_endsRun hends, takeDue_endRun_of_not_end (by rw [State.me_modifyMe]; exact hp)]
  have hline := h.me_of_endsRun hends
  rw [hown, State.me_modifyMe, hme] at hline
  exact ⟨hline, by rw [h.buses_eq, hown, State.buses_modifyMe, endedRun_buses, State.buses_modifyMe]⟩

end Ends

/-! ### The end of a segment at a switch line -/

/-- A run that pauses or ends at the end of a segment does at a switch line what SEGMENT_END does after the fades. -/
theorem SeenLine.as_segmentEnd {x : BankId} {s own settled t : State} (h : SeenLine x s own settled t)
    (hd : (s.me x).drive = .keyed) (hc : (s.me x).run.counter ≠ 0)
    (hk : ((s.me x).entry (s.me x).run.index).duration ≤ (s.me x).run.counter)
    (hstops : (s.me x).run.state = .holding ∨ (s.me x).run.state = .running ∧ (s.me x).endsAt ((s.me x).run.index + 1)) :
    t.me x = { (segmentEnd x (s.modifyMe x Me.fadeStep)).me x with mark := (t.me x).mark } ∧
      t.buses x = (segmentEnd x (s.modifyMe x Me.fadeStep)).buses x := by
  have hfaded : (s.modifyMe x Me.fadeStep).me x = (s.me x).fadeStep := State.me_modifyMe ..
  have hc' : ((s.modifyMe x Me.fadeStep).me x).run.counter ≠ 0 := by rw [hfaded]; exact hc
  have hk' : (((s.modifyMe x Me.fadeStep).me x).entry ((s.modifyMe x Me.fadeStep).me x).run.index).duration ≤
      ((s.modifyMe x Me.fadeStep).me x).run.counter := by rw [hfaded]; exact hk
  have hplay : ((s.modifyMe x Me.fadeStep).me x).run.state.plays := by
    rw [hfaded]
    rcases hstops with hr | ⟨hr, -⟩
    · exact .inr hr
    · exact .inl hr
  have hwait : ∀ r : ResumeState, ((bankOwn x s).me x).run.state ≠ .waiting r := by
    intro r
    rw [bankOwn_of_keyed hd]
    rcases (s.me x).goesOn_or_endsAt ((s.me x).run.index + 1) with ⟨j, passes, hon⟩ | hend
    · rcases hstops with hr | ⟨-, hend⟩
      · rw [runStep_of_past_holding hc' hk' (by rw [hfaded]; exact hr), pauseAfterSegment_of_goesOn (by rw [hfaded]; exact hon),
          takeDue, State.me_modifyMe]
        exact nofun
      · rw [runStep_of_past_endsAt hc' hk' hplay (by rw [hfaded]; exact hend), takeDue_endRun_run]
        exact nofun
    · rw [runStep_of_past_endsAt hc' hk' hplay (by rw [hfaded]; exact hend), takeDue_endRun_run]
      exact nofun
  have hsame : segmentEnd x (s.modifyMe x Me.fadeStep) = bankOwn x s := by
    rw [segmentEnd_of_plays hc' hk' hplay, ← bankOwn_of_keyed hd]
    exact syncRelease_of_not_waiting x _ hwait
  rw [hsame]
  exact ⟨h.me_of_not_waiting hwait, h.buses_eq⟩

/-! ### The statement's four parts -/

theorem exec_segmentEnd_of_endsAt {bank : BankId} {s ended : State} (hr : s.resetPin = false)
    (hc : (s.me bank).run.counter ≠ 0)
    (hk : ((s.me bank).entry (s.me bank).run.index).duration ≤ (s.me bank).run.counter)
    (hplay : (s.me bank).run.state.plays) (hend : (s.me bank).endsAt ((s.me bank).run.index + 1))
    (hended : ended = endedRun bank s) :
    ((s.me bank).position = 4096 → exec (.segmentEnd bank) s = .next (complete bank .run ended)) ∧
      ((s.me bank).position = 0 →
        exec (.segmentEnd bank) s = .next (ended.modifyMe bank (fun m => { m with drive := .rest, pickup := true }))) ∧
      ((s.me bank).position ≠ 0 → (s.me bank).position ≠ 4096 →
        exec (.segmentEnd bank) s = .next (ended.modifyMe bank (fun m => { m with drive := .manual, pickup := true }))) := by
  rw [exec_segmentEnd bank hr, segmentEnd_of_endsAt hc hk hplay hend, hended]
  exact ⟨fun hp => by rw [takeDue_endRun_of_end hp], fun hp => by rw [takeDue_endRun_of_zero hp],
    fun h0 hp => by rw [takeDue_endRun_of_between h0 hp]⟩

/-- Settles O41: the formula, SEGMENT_END without and with requests, and the same steps at a switch line. -/
theorem segmentsOfARun : Obligations.SegmentsOfARun := by
  refine ⟨fun start target k duration _ _ hd hk => ?_, fun s bank m hr hm => ?_,
    fun s bank m j passes hr hm hc hk hon => ?_, fun s p bank m hr hchange hlist htake hschedule hm hd => ?_⟩
  · obtain ⟨hformula, hmin, hmax⟩ := segmentPosition_bounds start target k duration hd hk
    exact ⟨hformula, hmin, hmax, segmentPosition_end start target duration hd⟩
  · subst hm
    refine ⟨fun h => by rw [exec_segmentEnd bank hr, segmentEnd_elsewhere h], fun hc hk =>
      ⟨fun e hrun hi he hsync hon hoff hpreset => ?_, fun hhold hi => ?_, fun hplay hi hend ended hended =>
        exec_segmentEnd_of_endsAt hr hc hk hplay ⟨hi, hend⟩ hended⟩⟩
    · rw [exec_segmentEnd bank hr, segmentEnd_of_nothing_asked hc hk hrun hi he hsync hon hoff hpreset]
    · rw [exec_segmentEnd bank hr, segmentEnd_of_holding hc hk hhold (.inl ⟨hi, rfl, rfl⟩)]
      exact congrArg _ (State.modifyMe_congr _ _ rfl)
  · subst hm
    rw [exec_segmentEnd bank hr]
    refine ⟨fun hhold => by rw [segmentEnd_of_holding hc hk hhold hon], fun hrun e requests asked he hrequests hasked => ?_⟩
    have hreq : asked = requested bank e (s.modifyMe bank (fun m => m.before j passes)) :=
      asked_eq_requested (by rw [State.modifyMe_resetPin]; exact hr) hrequests hasked
    exact ⟨fun hsync => by rw [segmentEnd_of_plain hc hk hrun hon he hreq hsync],
      fun hsync hmark => by rw [segmentEnd_waits hc hk hrun hon he hreq hsync hmark],
      fun hsync hmark => by rw [segmentEnd_begins hc hk hrun hon he hreq hsync hmark]⟩
  · subst hm
    have hquiet : QuietLine s := ⟨hchange, hlist, htake, hschedule⟩
    obtain ⟨own, settled, h⟩ := hquiet.seen p bank
    refine ⟨plainSwitchLine p s, hquiet.exec hr p, fun j passes e requests asked harrives he hrequests hasked => ?_,
      fun hends ended done hended hdone => ?_, fun hc hk hstops stepped hstepped => ?_⟩
    · have hreq : asked = requested bank e (s.modifyMe bank (fun m => m.fadeStep.before j passes)) :=
        asked_eq_requested (by rw [State.modifyMe_resetPin]; exact hr) hrequests hasked
      refine ⟨h.buses_eq.trans (bankOwn_buses_of_arrivesAt harrives he hreq), fun hbegins => ?_,
        h.waits harrives he hreq, fun hsync hidle => ?_⟩
      · cases hsync : e.sync with
        | false => exact h.begins_of_plain harrives he hreq hsync
        | true => exact h.begins_of_sync harrives he hreq hsync (hbegins.resolve_left (by rw [hsync]; decide))
      · obtain ⟨own', settled', h'⟩ := hquiet.seen p bank.other
        refine h'.mark_of_idle hidle ?_
        rw [BankId.other_other]
        exact ⟨j, passes, harrives, he ▸ hsync⟩
    · subst hdone
      have hposition : (ended.me bank).position = (s.me bank).position := by rw [hended, State.me_modifyMe]; rfl
      refine ⟨fun hp => h.completes_of_endsRun hends hp hended, fun hp => ?_, fun h0 hp => ?_, h.runDone_reported hends⟩
      · obtain ⟨hme, hbuses⟩ := h.resolves_of_endsRun hends (by omega) hended
        rw [Me.resolved_of_zero (hposition.trans hp)] at hme
        exact ⟨hme, hbuses⟩
      · obtain ⟨hme, hbuses⟩ := h.resolves_of_endsRun hends hp hended
        rw [Me.resolved_of_ne_zero (hposition ▸ h0)] at hme
        exact ⟨hme, hbuses⟩
    · rw [exec_segmentEnd bank (by rw [State.modifyMe_resetPin]; exact hr)] at hstepped
      cases hstepped
      exact h.as_segmentEnd hd hc hk hstops

end Sys2Proof.Machine
end


section
/-! The mix of two samples and the clamp of the outputs (R61, R70, R71): the mix as a weighted mean that stays between its two samples,
a programme as the chain of mixes, and the one clamp that every output sample passes through. -/

namespace Sys2Proof.Machine

/-! ### The mix of two samples (R70) -/

theorem mix_comm {w : Nat} (h : w ≤ 1024) (a b : Nat) : mix a b w = mix b a (1024 - w) := by
  unfold mix
  rw [Nat.sub_sub_self h, Nat.add_comm (a * (1024 - w))]

/-- The weights 1024 − w and w share out 1024, so they give back a sample that is mixed with itself. -/
theorem weights_share_out {w : Nat} (h : w ≤ 1024) (a : Nat) : a * (1024 - w) + a * w = 1024 * a := by
  rw [← Nat.mul_add, Nat.sub_add_cancel h, Nat.mul_comm]

theorem mix_self {w : Nat} (h : w ≤ 1024) (a : Nat) : mix a a w = a := by
  unfold mix
  rw [weights_share_out h]
  omega

theorem mix_between {a b w : Nat} (h : w ≤ 1024) (hab : a ≤ b) : a ≤ mix a b w ∧ mix a b w ≤ b := by
  have hlow : a * w ≤ b * w := Nat.mul_le_mul_right w hab
  have hhigh : a * (1024 - w) ≤ b * (1024 - w) := Nat.mul_le_mul_right (1024 - w) hab
  have ha := weights_share_out h a
  have hb := weights_share_out h b
  unfold mix
  omega

theorem mix_bounds {w : Nat} (h : w ≤ 1024) (a b : Nat) : min a b ≤ mix a b w ∧ mix a b w ≤ max a b := by
  rcases Nat.le_total a b with hab | hba
  · rw [Nat.min_eq_left hab, Nat.max_eq_right hab]
    exact mix_between h hab
  · rw [Nat.min_eq_right hba, Nat.max_eq_left hba, mix_comm h]
    exact mix_between (Nat.sub_le ..) hba

theorem mixCode_toNat {w : Nat} (h : w ≤ 1024) (a b : Code10) : (mixCode a b w).toNat = mix a.toNat b.toNat w := by
  obtain ⟨-, hmax⟩ := mix_bounds h a.toNat b.toNat
  exact Nat.mod_eq_of_lt (Nat.lt_of_le_of_lt hmax (Nat.max_lt.mpr ⟨a.isLt, b.isLt⟩))

/-- Settles O20: the mix by its weights, each component by the same mix, and a programme as the fold over its four layers. -/
theorem mixOfTwoSamples : Obligations.MixOfTwoSamples := by
  refine ⟨fun a b w hw ha hb => ?_, fun p q w hw => ⟨mixCode_toNat hw .., mixCode_toNat hw .., mixCode_toNat hw ..⟩,
    fun l x y p n1 n2 n3 n4 horder => ?_⟩
  · obtain ⟨hmin, hmax⟩ := mix_bounds hw a b
    exact ⟨rfl, mix_zero a b, mix_full a b, hmin, hmax, Nat.le_trans hmax (Nat.max_le.mpr ⟨ha, hb⟩), mix_self hw a⟩
  · simp only [Look.programme, horder, List.foldl_cons, List.foldl_nil]

/-! ### The clamp of an output sample (R71) -/

theorem clampCode_toNat (a : Code10) : (clampCode a).toNat = max 4 (min 1019 a.toNat) := by
  simp only [clampCode, clampTo, BitVec.toNat_ofNat]
  omega

/-- Every component lies in 4 to 1019 (R71). -/
def InOutputRange (p : Pixel) : Prop :=
  (4 ≤ p.y.toNat ∧ p.y.toNat ≤ 1019) ∧ (4 ≤ p.cb.toNat ∧ p.cb.toNat ≤ 1019) ∧ 4 ≤ p.cr.toNat ∧ p.cr.toNat ≤ 1019

theorem clampCode_bounds (a : Code10) : 4 ≤ (clampCode a).toNat ∧ (clampCode a).toNat ≤ 1019 := by
  rw [clampCode_toNat]
  omega

theorem clampPixel_inOutputRange (p : Pixel) : InOutputRange (clampPixel p) :=
  ⟨clampCode_bounds p.y, clampCode_bounds p.cb, clampCode_bounds p.cr⟩

theorem pairwise_inOutputRange {f : Nat → Nat → Pixel} (h : ∀ x y : Nat, InOutputRange (f x y)) (x y : Nat) :
    InOutputRange (pairwise f x y) := by
  obtain ⟨hy, -, -⟩ := h x y
  obtain ⟨-, hcb, hcr⟩ := h (evenOf x) y
  exact ⟨hy, hcb, hcr⟩

/-! ### What the composers give out -/

theorem eq_of_sampleAt_eq_some {s : State} {x y : Nat} {p q : Pixel} (h : s.sampleAt x y p = some q) : q = p := by
  unfold State.sampleAt at h
  split at h
  · exact (Option.some.inj h).symm
  · cases h

theorem eq_some_of_output_eq_some {s : State} {y : Nat} {p : Option Pixel} {q : Pixel} (h : s.output y p = some q) :
    p = some q := by
  unfold State.output at h
  split at h
  · exact h
  · cases h

theorem inOutputRange_of_sampleAt_pairwise {f : Nat → Nat → Pixel} (hf : ∀ i j : Nat, InOutputRange (f i j)) {s : State}
    {x y : Nat} {p : Pixel} (h : s.sampleAt x y (pairwise f x y) = some p) : InOutputRange p := by
  rw [eq_of_sampleAt_eq_some h]
  exact pairwise_inOutputRange hf x y

/-- A programme ends with the clamp, whatever its look and the samples on its buses. -/
theorem programmePixel_inOutputRange {s : State} {bank : BankId} {x y : Nat} {p : Pixel}
    (h : programmePixel s bank x y = some p) : InOutputRange p :=
  inOutputRange_of_sampleAt_pairwise (f := (programmeOf s bank).sample) (fun _ _ => clampPixel_inOutputRange _) h

theorem previewPixel_inOutputRange {s : State} {bank : BankId} {x y : Nat} {p : Pixel}
    (h : previewPixel s bank x y = some p) : InOutputRange p :=
  inOutputRange_of_sampleAt_pairwise (fun _ _ => clampPixel_inOutputRange _) h

/-- AUX clamps its samples itself, since it may carry a source that no bank composes (R61). -/
theorem auxOutput_inOutputRange {s : State} {x y : Nat} {p : Pixel} (h : auxOutput s x y = some p) : InOutputRange p := by
  obtain ⟨q, -, rfl⟩ := Option.map_eq_some_iff.mp (eq_some_of_output_eq_some h)
  exact clampPixel_inOutputRange q

/-- The layers that preview passes over are those that its filter leaves out (R66, R88). -/
theorem Look.preview_eq_filter (l : Look) (x y : Nat) (p : BusPixels) :
    l.preview x y p =
      clampPixel
        ((l.order.filter (fun n => afterOn (hasLayer l.selection n) l.layers[n].state)).foldl
          (fun out n => mixPixel out p.fill[n] (l.layers[n].maskedAlpha x y (l.keySource n p)))
          (if hasBkgd l.selection then p.b else p.a)) := by
  rw [List.foldl_filter]
  rfl

/-- Settles O21: both outputs of a bank and AUX end with the clamp, which keeps 4 to 1019 and is applied to the whole fold. -/
theorem outputSamplesLieInRange : Obligations.OutputSamplesLieInRange := by
  refine ⟨fun s x y p hp => ?_, fun a => ?_, fun l x y p => ⟨rfl, l.preview_eq_filter x y p⟩⟩
  · simp only [List.mem_cons, List.not_mem_nil, or_false] at hp
    rcases hp with h | h | h | h | h | h | h
    · exact programmePixel_inOutputRange (eq_some_of_output_eq_some h.symm)
    · exact previewPixel_inOutputRange (eq_some_of_output_eq_some h.symm)
    · exact auxOutput_inOutputRange h.symm
    · exact programmePixel_inOutputRange (bank := .a) h.symm
    · exact previewPixel_inOutputRange (bank := .a) h.symm
    · exact programmePixel_inOutputRange (bank := .b) h.symm
    · exact previewPixel_inOutputRange (bank := .b) h.symm
  · rw [clampCode_toNat]
    split
    · omega
    · split <;> omega

end Sys2Proof.Machine
end


section
/-! The weights of a position (R69, R72, R73, R77, R78): the curve weight between the points of a table, the pattern value of each wipe
shape, and the wipe weight on both sides of the soft band and within it. -/

namespace Sys2Proof.Machine

/-! ### The points of a sound table (R72) -/

/-- Each step up to the last point rises, and the last point is 1024. -/
theorem Curve.point_le {table : Curve} (h : table.sound) (steps i : Nat) (hi : i + steps = 64) : table[i] ≤ 1024 := by
  obtain ⟨-, hlast, hstep⟩ := h
  induction steps generalizing i with
  | zero =>
    obtain rfl : i = 64 := hi
    exact Nat.le_of_eq hlast
  | succ steps ih => exact Nat.le_trans (hstep ⟨i, by omega⟩) (ih (i + 1) (by omega))

/-! ### The curve weight (R73) -/

/-- Between two points: the lower one and the rounded share of the step to the next. -/
theorem tableWeight_between (table : Curve) (i : Fin 64) {f : Nat} (hf : f < 64) :
    tableWeight table (64 * i.val + f) = table[i.val] + ((table[i.val + 1] - table[i.val]) * f + 32) / 64 := by
  have hi := i.isLt
  have hdiv : (64 * i.val + f) / 64 = i.val := by omega
  have hmod : (64 * i.val + f) % 64 = f := by omega
  simp only [tableWeight, hdiv, hmod]
  rw [if_neg (Nat.not_le.mpr hi)]
  simp [Vector.getD, show i.val < 65 by omega, show i.val + 1 < 65 by omega]

theorem tableWeight_point (table : Curve) (i : Fin 65) : tableWeight table (64 * i.val) = table[i.val] := by
  rcases Nat.lt_or_ge i.val 64 with hi | hi
  · exact (tableWeight_between table ⟨i.val, hi⟩ (by decide : 0 < 64)).trans (by simp)
  · obtain rfl : i = Fin.last 64 := Fin.ext (by simp only [Fin.val_last]; omega)
    rfl

/-- The rounded share of a step of `d` is no more than the step. -/
theorem roundedShare_le (d : Nat) {f : Nat} (hf : f < 64) : (d * f + 32) / 64 ≤ d := by
  have hshare : d * f ≤ d * 64 := Nat.mul_le_mul_left d (Nat.le_of_lt hf)
  omega

theorem tableWeight_between_points {table : Curve} (h : table.sound) (i : Fin 64) {f : Nat} (hf : f < 64) :
    table[i.val] ≤ tableWeight table (64 * i.val + f) ∧ tableWeight table (64 * i.val + f) ≤ table[i.val + 1] := by
  obtain ⟨-, -, hstep⟩ := h
  have hrise := hstep i
  have hshare := roundedShare_le (table[i.val + 1] - table[i.val]) hf
  rw [tableWeight_between table i hf]
  omega

/-- The power-on tables rise by 16 from point to point (R72). -/
theorem tableWeight_powerOn {p : Nat} (h : p ≤ 4096) :
    tableWeight Curve.powerOn p = 16 * (p / 64) + (16 * (p % 64) + 32) / 64 := by
  rcases Nat.lt_or_ge p 4096 with hp | hp
  · have hi : p / 64 < 64 := by omega
    have hbetween := tableWeight_between Curve.powerOn ⟨p / 64, hi⟩ (Nat.mod_lt p (by decide : 0 < 64))
    rw [Nat.div_add_mod] at hbetween
    simp only [Curve.powerOn, Vector.getElem_ofFn] at hbetween
    rw [Curve.powerOn, hbetween, Nat.mul_succ, Nat.add_sub_cancel_left]
  · obtain rfl : p = 4096 := Nat.le_antisymm h hp
    exact tableWeight_full Curve.powerOn_sound

/-- Settles O22: curve 0 by its formula, a sound table between its points and at them, and the power-on tables beside curve 0. -/
theorem curveWeightFollowsTheTable : Obligations.CurveWeightFollowsTheTable := by
  refine ⟨fun _ => rfl, fun table h => ⟨fun i f hf => ?_, tableWeight_point table, tableWeight_zero h, tableWeight_full h⟩,
    ⟨rfl, rfl⟩, fun p hp => ?_⟩
  · obtain ⟨hlow, hhigh⟩ := tableWeight_between_points h i hf
    exact ⟨tableWeight_between table i hf, hlow, hhigh, Nat.le_trans hhigh (Curve.point_le h (63 - i.val) (i.val + 1) (by omega))⟩
  · have hweight : curveWeight (some Curve.powerOn) p = 16 * (p / 64) + (16 * (p % 64) + 32) / 64 := tableWeight_powerOn hp
    have hzero : curveWeight none p = p / 4 := rfl
    omega

/-! ### The pattern value (R77) -/

theorem patternValue_reversed (w : Wipe) (width height x y : Nat) :
    patternValue { w with reverse := true } width height x y =
      4095 - patternValue { w with reverse := false } width height x y :=
  rfl

/-- An even size has no position at its centre. -/
theorem centreDistance_pos {size : Nat} (h : size % 2 = 0) (v : Nat) : 1 ≤ centreDistance v size := by
  unfold centreDistance
  omega

theorem width_even (f : HouseFormat) : f.width % 2 = 0 := by
  cases f <;> rfl

theorem height_even (f : HouseFormat) : f.height % 2 = 0 := by
  cases f <;> rfl

/-! ### The wipe weight (R78) -/

theorem wipeWeight_hard (p q : Nat) : wipeWeight 0 p q = if q < p then 1024 else 0 := rfl

section Soft

variable {softness p q : Nat} {e : Int} (hsoft : 1 ≤ softness)
  (he : e = ((p * (4096 + softness) / 4096 : Nat) : Int) - softness)
include hsoft he

theorem wipeWeight_passed (hq : (q : Int) ≤ e) : wipeWeight softness p q = 1024 := by
  simp only [wipeWeight, ← he]
  rw [if_neg (by omega), if_pos hq]

theorem wipeWeight_ahead (hq : e + softness ≤ q) : wipeWeight softness p q = 0 := by
  simp only [wipeWeight, ← he]
  rw [if_neg (by omega), if_neg (by omega), if_pos hq]

theorem wipeWeight_band (hlow : e < q) (hhigh : (q : Int) < e + softness) :
    wipeWeight softness p q = (e + softness - q).toNat * 1024 / softness := by
  simp only [wipeWeight, ← he]
  rw [if_neg (by omega), if_neg (by omega), if_neg (by omega)]

end Soft

/-- A share of a softness below 1024, neither none of it nor the whole, weighs 1 to 1023. -/
theorem bandShare_bounds {d softness : Nat} (hd : 1 ≤ d) (hlt : d < softness) (hmax : softness ≤ 1023) :
    1 ≤ d * 1024 / softness ∧ d * 1024 / softness ≤ 1023 :=
  ⟨Nat.div_pos (by omega) (by omega), Nat.le_of_lt_succ (Nat.div_lt_of_lt_mul (by omega))⟩

/-- Softness 1 leaves no position in the band: its edge is that of softness 0. -/
theorem wipeWeight_one (p : Nat) {q : Nat} (hq : q ≤ 4095) : wipeWeight 1 p q = wipeWeight 0 p q := by
  rw [wipeWeight_hard]
  split
  · exact wipeWeight_passed (by decide) rfl (by omega)
  · exact wipeWeight_ahead (by decide) rfl (by omega)

/-- Settles O23: the shapes by their formulas, the wipe weight on each side of the band and within it, and the pair's even position. -/
theorem patternValuesAndWipeWeights : Obligations.PatternValuesAndWipeWeights := by
  refine ⟨fun f x y dx dy hx hy hdx hdy => ?_, wipeWeight_hard, fun softness p q e hsoft hmax _ _ he =>
    ⟨wipeWeight_passed hsoft he, wipeWeight_ahead hsoft he, fun hlow hhigh => ?_⟩,
    fun softness q _ hq => ⟨wipeWeight_zero softness q, wipeWeight_full softness hq⟩,
    fun p _ _ hq => wipeWeight_one p hq, fun _ _ _ _ => rfl, fun _ _ _ => ⟨rfl, rfl, rfl⟩⟩
  · obtain rfl : dx = centreDistance x f.width := hdx
    obtain rfl : dy = centreDistance y f.height := hdy
    exact ⟨fun _ => ⟨rfl, rfl, rfl, rfl⟩, fun w => ⟨patternValue_reversed w .., patternValue_le w hx hy⟩,
      ⟨centreDistance_pos (width_even f) x, Nat.le_sub_one_of_lt (centreDistance_lt hx)⟩,
      centreDistance_pos (height_even f) y, Nat.le_sub_one_of_lt (centreDistance_lt hy)⟩
  · have hshare : (((e + softness - q).toNat : Nat) : Int) = e + softness - q := Int.toNat_of_nonneg (by omega)
    rw [wipeWeight_band hsoft he hlow hhigh]
    refine ⟨?_, bandShare_bounds (by omega) (by omega) hmax⟩
    rw [Int.natCast_ediv, Int.natCast_mul, hshare]
    rfl

end Sys2Proof.Machine
end


section
/-! The key alpha of a layer and its mask (R82, R84): the clamped gain above the clip, its inversion, the positions of a mask box, and
the key source of each kind. -/

namespace Sys2Proof.Machine

/-! ### The key alpha (R82) -/

theorem keyAlpha_cast (clip gain k : Nat) :
    (keyAlpha clip gain k : Int) = max 0 (min 1024 (((k : Int) - clip) * gain * 64 / 876)) := by
  rw [keyAlpha, Int.fdiv_eq_ediv_of_nonneg _ (by decide)]
  exact Int.toNat_of_nonneg (Int.le_max_left ..)

theorem keyAlpha_le (clip gain k : Nat) : keyAlpha clip gain k ≤ 1024 := by
  have h := keyAlpha_cast clip gain k
  omega

theorem keyAlpha_gain_zero (clip k : Nat) : keyAlpha clip 0 k = 0 := by
  have hcast := keyAlpha_cast clip 0 k
  omega

theorem keyAlpha_of_le_clip {clip k : Nat} (h : k ≤ clip) (gain : Nat) : keyAlpha clip gain k = 0 := by
  have hbelow : ((k : Int) - clip) * gain ≤ 0 := Int.mul_nonpos_of_nonpos_of_nonneg (by omega) (Int.natCast_nonneg gain)
  have hcast := keyAlpha_cast clip gain k
  omega

/-- Gain 16 spans the 876 codes from black to white exactly. -/
theorem keyAlpha_unity (clip : Nat) : keyAlpha clip 16 (clip + 876) = 1024 := by
  have hcast := keyAlpha_cast clip 16 (clip + 876)
  omega

/-! ### Inversion and the mask (R82, R84) -/

theorem insideMask_box_iff (box : MaskBox) (x y : Nat) :
    insideMask (some box) x y = true ↔ box.left ≤ x ∧ x ≤ box.right ∧ box.top ≤ y ∧ y ≤ box.bottom := by
  simp [insideMask, and_assoc]

theorem Layer.maskedAlpha_of_inside {l : Layer} {x y : Nat} (h : insideMask l.mask x y = true) (k : Nat) :
    l.maskedAlpha x y k = if l.invert then 1024 - keyAlpha l.clip l.gain k else keyAlpha l.clip l.gain k :=
  if_pos h

theorem Layer.maskedAlpha_of_outside {l : Layer} {x y : Nat} (h : ¬insideMask l.mask x y = true) (k : Nat) :
    l.maskedAlpha x y k = 0 :=
  if_neg h

theorem Layer.maskedAlpha_of_no_mask {l : Layer} (h : l.mask = none) (x y k : Nat) :
    l.maskedAlpha x y k = if l.invert then 1024 - keyAlpha l.clip l.gain k else keyAlpha l.clip l.gain k :=
  Layer.maskedAlpha_of_inside (by rw [h]; rfl) k

theorem Layer.maskedAlpha_le (l : Layer) (x y k : Nat) : l.maskedAlpha x y k ≤ 1024 := by
  have hkey := keyAlpha_le l.clip l.gain k
  by_cases h : insideMask l.mask x y = true
  · rw [Layer.maskedAlpha_of_inside h]
    split <;> omega
  · rw [Layer.maskedAlpha_of_outside h]
    omega

section Box

variable {l : Layer} {box : MaskBox} (hmask : l.mask = some box) {x y : Nat}
include hmask

theorem Layer.maskedAlpha_in_box (h : box.left ≤ x ∧ x ≤ box.right ∧ box.top ≤ y ∧ y ≤ box.bottom) (k : Nat) :
    l.maskedAlpha x y k = Layer.maskedAlpha { l with mask := none } x y k :=
  (Layer.maskedAlpha_of_inside (by rw [hmask]; exact (insideMask_box_iff box x y).mpr h) k).trans
    (Layer.maskedAlpha_of_no_mask (l := { l with mask := none }) rfl x y k).symm

theorem Layer.maskedAlpha_off_box (h : ¬(box.left ≤ x ∧ x ≤ box.right ∧ box.top ≤ y ∧ y ≤ box.bottom)) (k : Nat) :
    l.maskedAlpha x y k = 0 :=
  Layer.maskedAlpha_of_outside (by rw [hmask]; exact mt (insideMask_box_iff box x y).mp h) k

end Box

/-! ### The key source (R82) -/

theorem Look.keySource_of_luma {l : Look} {n : LayerId} (h : l.layers[n].kind = .luma) (p : BusPixels) :
    l.keySource n p = p.fill[n].y.toNat := by
  rw [Look.keySource, h]

theorem Look.keySource_of_linear {l : Look} {n : LayerId} (h : l.layers[n].kind = .linear) (p : BusPixels) :
    l.keySource n p = p.cut[n].y.toNat := by
  rw [Look.keySource, h]

/-- Settles O24: the key alpha and its limits, the inversion, a mask box with and without a position in it, and the key source. -/
theorem keyAlphaAndMaskOfALayer : Obligations.KeyAlphaAndMaskOfALayer := by
  refine ⟨fun clip gain k => ⟨keyAlpha_cast clip gain k, keyAlpha_gain_zero clip k, fun h => keyAlpha_of_le_clip h gain,
      keyAlpha_unity clip⟩,
    Layer.maskedAlpha_le, fun l x y k h => Layer.maskedAlpha_of_no_mask h x y k,
    fun l box x y k hmask => ⟨fun h => Layer.maskedAlpha_in_box hmask h k, fun h => Layer.maskedAlpha_off_box hmask h k,
      fun h => Layer.maskedAlpha_off_box hmask (by omega) k⟩,
    fun l n p => ⟨fun h => Look.keySource_of_luma h p, fun h => Look.keySource_of_linear h p⟩⟩

end Sys2Proof.Machine
end


section
/-! LOAD_CURVE, WIPE_SET, KEY_SET and MASK_SET (R72, R74, R76, R81, R83): the corrected table and its count, what each command writes,
and what is refused. -/

namespace Sys2Proof.Machine

/-! ### LOAD_CURVE (R74) -/

theorem clampedPoints_get (points : Vector Word16 65) (i : Nat) (h : i < 65) :
    (clampedPoints points)[i] = min 1024 (points[i]).toNat := by
  simp [clampedPoints, clampTo]

/-- Two tables side by side, point by point. -/
theorem zip_toList_eq_map (table other : Curve) :
    table.toList.zip other.toList = (List.finRange 65).map (fun i => (table[i.val], other[i.val])) := by
  apply List.ext_getElem <;> simp

/-- The count of R74 over the places of the table. -/
theorem correctedCount_eq (table : Curve) :
    correctedCount table =
      ((List.finRange 65).filter (fun i => (correctedPoints table)[i.val] ≠ table[i.val])).length := by
  rw [correctedCount, zip_toList_eq_map, List.filter_map, List.length_map]
  simp only [Function.comp_def, ne_comm]

theorem correctedCount_le (table : Curve) : correctedCount table ≤ 65 := by
  rw [correctedCount_eq]
  exact Nat.le_trans (List.length_filter_le ..) (Nat.le_of_eq List.length_finRange)

theorem doLoadCurve_of_none {curve : Byte} (h : curve.toNat = 0 ∨ 4 < curve.toNat) (points : Vector Word16 65) (s : State) :
    doLoadCurve curve points s = s.refuse 48 .target (.curve curve) := by
  rw [doLoadCurve, readLoadableCurve_none h]

theorem doLoadCurve_of_curve {curve : Byte} {k : CurveId} (h : curve.toNat = k.val + 1) (points : Vector Word16 65)
    (s : State) : doLoadCurve curve points s = loadCurve k points s := by
  rw [doLoadCurve, readLoadableCurve_of h]

theorem loadCurve_of_uncorrected {points : Vector Word16 65} (h : correctedCount (clampedPoints points) = 0) (k : CurveId)
    (s : State) :
    loadCurve k points s = { s with curves := s.curves.set k (correctedPoints (clampedPoints points)) } :=
  if_pos h

theorem loadCurve_of_corrected {points : Vector Word16 65} (h : 1 ≤ correctedCount (clampedPoints points)) (k : CurveId)
    (s : State) :
    loadCurve k points s =
      State.post { s with curves := s.curves.set k (correctedPoints (clampedPoints points)) }
        (.curve (correctedCount (clampedPoints points))) .advisory (.curve (curveByte k)) :=
  if_neg (Nat.one_le_iff_ne_zero.mp h)

/-- Settles O26: the refusal, then the corrected table point by point, its count, and the notice when the count is not 0. -/
theorem loadCurveCorrectsAndStores : Obligations.LoadCurveCorrectsAndStores := by
  intro s curve points hr
  rw [exec_loadCurve curve points hr]
  refine ⟨fun h => by rw [doLoadCurve_of_none h], fun k hk => ⟨correctedPoints (clampedPoints points),
    correctedCount (clampedPoints points), _, rfl, correctedPoints_zero _, correctedPoints_last _, fun i => ?_, ?_,
    correctedCount_le _, fun h => ?_, fun h => ?_⟩⟩
  · rw [correctedPoints_get _ i.val i.isLt, clampedPoints_get]
  · simp only [correctedCount_eq, clampedPoints_get]
  · rw [doLoadCurve_of_curve hk, loadCurve_of_uncorrected h]
  · rw [doLoadCurve_of_curve hk, loadCurve_of_corrected h]

/-! ### WIPE_SET (R76) -/

theorem doWipeSet_of_read {me shape reverse : Byte} {bank : BankId} {k : WipeShape} {r : Bool} (hm : readBank me = some bank)
    (hk : readWipeShape shape = some k) (hv : readSwitch reverse = some r) (softness : Word16) (s : State) :
    doWipeSet me shape reverse softness s =
      s.modifyMe bank (fun m => { m with wipe := { shape := k, reverse := r, softness := min 1023 softness.toNat } }) := by
  simp only [doWipeSet, hm, hk, hv, clampTo, Nat.zero_max]

theorem doWipeSet_of_none {me shape reverse : Byte}
    (h : readBank me = none ∨ readWipeShape shape = none ∨ readSwitch reverse = none) (softness : Word16) (s : State) :
    doWipeSet me shape reverse softness s = s.refuse 49 .target (.me me) := by
  unfold doWipeSet
  split
  · rename_i hm hk hv; simp [hm, hk, hv] at h
  · rfl

/-! ### KEY_SET (R81) -/

/-- A gain is one byte, so the clamp to 0 to 255 keeps it. -/
theorem clampTo_byte (b : Byte) : clampTo 0 255 b.toNat = b.toNat := by
  unfold clampTo
  omega

theorem doKeySet_of_read {me layer kind invert : Byte} {bank : BankId} {l : LayerId} {k : KeyKind} {v : Bool}
    (hm : readBank me = some bank) (hl : readLayer layer = some l) (hk : readKeyKind kind = some k)
    (hv : readSwitch invert = some v) (clip : Word16) (gain : Byte) (s : State) :
    doKeySet me layer kind clip gain invert s =
      s.modifyMe bank
        (fun m => m.setLayer l { m.layer l with kind := k, clip := min 1023 clip.toNat, gain := gain.toNat, invert := v }) := by
  simp only [doKeySet, hm, hl, hk, hv, clampTo_byte]
  simp only [clampTo, Nat.zero_max]

theorem doKeySet_of_none {me layer kind invert : Byte}
    (h : readBank me = none ∨ readLayer layer = none ∨ readKeyKind kind = none ∨ readSwitch invert = none) (clip : Word16)
    (gain : Byte) (s : State) :
    doKeySet me layer kind clip gain invert s = s.refuse 50 .target (.layer me layer) := by
  unfold doKeySet
  split
  · rename_i hm hl hk hv; simp [hm, hl, hk, hv] at h
  · rfl

/-! ### MASK_SET (R83) -/

theorem clampedBox_eq (house : HouseFormat) (b : BoxWords) :
    clampedBox house b =
      { left := min (house.width - 1) b.left.toNat
        right := min (house.width - 1) b.right.toNat
        top := min (house.height - 1) b.top.toNat
        bottom := min (house.height - 1) b.bottom.toNat } := by
  simp only [clampedBox, clampTo, Nat.zero_max]

theorem doMaskSet_of_read {me layer : Byte} {bank : BankId} {l : LayerId} (hm : readBank me = some bank)
    (hl : readLayer layer = some l) (box : Option BoxWords) (s : State) :
    doMaskSet me layer box s =
      s.modifyMe bank (fun m => m.setLayer l { m.layer l with mask := box.map (clampedBox s.ref.house) }) := by
  simp only [doMaskSet, hm, hl]

theorem doMaskSet_of_none {me layer : Byte} (h : readBank me = none ∨ readLayer layer = none) (box : Option BoxWords)
    (s : State) : doMaskSet me layer box s = s.refuse 51 .target (.layer me layer) := by
  unfold doMaskSet
  split
  · rename_i hm hl; simp [hm, hl] at h
  · rfl

/-- Settles O27: each command by what its naming parameters and choices read as, in every state of the part. -/
theorem wipeKeyAndMaskSettings : Obligations.WipeKeyAndMaskSettings := by
  refine fun s me hr => ⟨fun shape reverse softness => ⟨fun bank k r hm hk hv => ?_, fun h => ?_⟩,
    fun layer kind clip gain invert => ⟨fun bank l k v hm hl hk hv => ?_, fun h => ?_⟩,
    fun layer => ⟨fun bank l hm hl => ⟨?_, fun box => ?_⟩, fun h box => ?_⟩⟩
  · rw [exec_wipeSet me shape reverse softness hr, doWipeSet_of_read hm hk hv]
  · rw [exec_wipeSet me shape reverse softness hr, doWipeSet_of_none h]
  · rw [exec_keySet me layer kind clip gain invert hr, doKeySet_of_read hm hl hk hv]
  · rw [exec_keySet me layer kind clip gain invert hr, doKeySet_of_none h]
  · rw [exec_maskSet me layer none hr, doMaskSet_of_read hm hl]; rfl
  · rw [exec_maskSet me layer (some box) hr, doMaskSet_of_read hm hl, Option.map_some, clampedBox_eq]
  · rw [exec_maskSet me layer box hr, doMaskSet_of_none h]

end Sys2Proof.Machine
end

section
/-! Every step keeps P, the auto record, the run record and the drive state of both banks in agreement (R90, R91, R109, R133, R135,
R136): the work that leaves what the drive reads alone, the commands of a take, and the operations one by one. -/

namespace Sys2Proof.Machine

/-! ### Work that leaves the banks alone -/

theorem OnlyPosts.drivesSound {s t : State} (h : OnlyPosts s t) (hs : s.drivesSound) : t.drivesSound :=
  drivesSound_of_eq h.meA_eq h.meB_eq hs

theorem OnlyRef.drivesSound {s t : State} (h : OnlyRef s t) (hs : s.drivesSound) : t.drivesSound :=
  drivesSound_of_eq h.meA_eq h.meB_eq hs

theorem OnlyLanes.drivesSound {s t : State} (h : OnlyLanes s t) (hs : s.drivesSound) : t.drivesSound :=
  drivesSound_of_eq h.meA_eq h.meB_eq hs

theorem OnlyControl.drivesSound {s t : State} (h : OnlyControl s t) (hs : s.drivesSound) : t.drivesSound :=
  drivesSound_of_eq h.meA_eq h.meB_eq hs

theorem OnlyStore.drivesSound {s t : State} (h : OnlyStore s t) (hs : s.drivesSound) : t.drivesSound :=
  drivesSound_of_eq h.meA_eq h.meB_eq hs

/-- Work that leaves the record of each bank as it is leaves the drives as they are. -/
theorem sameDrives_of_me_eq {s t : State} (h : ∀ x : BankId, t.me x = s.me x) : SameDrives s t := fun x => by
  rw [h]
  exact ⟨rfl, rfl, rfl, rfl, rfl, rfl, rfl, rfl⟩

/-! ### Commands that do not reach the drive -/

theorem sameDrives_doSelect (me bus source : Byte) (s : State) : SameDrives s (doSelect me bus source s) := by
  unfold doSelect; split
  · exact sameDrives_refuse _ _ _ _
  · split
    · exact sameDrives_refuse _ _ _ _
    · split
      · exact sameDrives_refuse _ _ _ _
      · exact sameDrives_of_me_eq fun x => State.me_setBus ..

theorem sameDrives_doAuxSelect (source : Byte) (s : State) : SameDrives s (doAuxSelect source s) := by
  unfold doAuxSelect; split
  · exact sameDrives_refuse _ _ _ _
  · exact sameDrives_of_me_eq fun x => by cases x <;> rfl

theorem sameDrives_doMatte (y cb cr : Word16) (s : State) : SameDrives s (doMatte y cb cr s) :=
  sameDrives_of_me_eq fun x => by cases x <;> rfl

theorem sameDrives_doLoadCurve (curve : Byte) (points : Vector Word16 65) (s : State) :
    SameDrives s (doLoadCurve curve points s) := by
  unfold doLoadCurve; split
  · exact sameDrives_refuse _ _ _ _
  · refine sameDrives_of_me_eq fun x => ?_
    simp only [loadCurve]
    split <;> cases x <;> rfl

theorem sameDrives_doNoticeMask (info advisory degraded : Byte) (s : State) :
    SameDrives s (doNoticeMask info advisory degraded s) := by
  unfold doNoticeMask; split
  · exact sameDrives_of_me_eq fun x => by cases x <;> rfl
  · exact sameDrives_refuse _ _ _ _

theorem sameDrives_doWipeSet (me shape reverse : Byte) (softness : Word16) (s : State) :
    SameDrives s (doWipeSet me shape reverse softness s) := by
  unfold doWipeSet; split
  · exact sameDrives_modifyMe _ _ _ ⟨rfl, rfl, rfl, rfl, rfl, rfl, rfl, rfl⟩
  · exact sameDrives_refuse _ _ _ _

/-- A changed layer record is nothing that the drive reads. -/
theorem sameDrives_setLayer (s : State) (bank : BankId) (l : LayerId) (x : Me → Layer) :
    SameDrives s (s.modifyMe bank (fun m => m.setLayer l (x m))) :=
  sameDrives_modifyMe _ _ _ ⟨rfl, rfl, rfl, rfl, rfl, rfl, rfl, rfl⟩

theorem sameDrives_doKeySet (me layer kind : Byte) (clip : Word16) (gain invert : Byte) (s : State) :
    SameDrives s (doKeySet me layer kind clip gain invert s) := by
  unfold doKeySet; split
  · exact sameDrives_setLayer _ _ _ _
  · exact sameDrives_refuse _ _ _ _

theorem sameDrives_doMaskSet (me layer : Byte) (box : Option BoxWords) (s : State) :
    SameDrives s (doMaskSet me layer box s) := by
  unfold doMaskSet; split
  · exact sameDrives_setLayer _ _ _ _
  · exact sameDrives_refuse _ _ _ _

theorem sameDrives_doLayerRate (me layer : Byte) (rate : Word16) (s : State) :
    SameDrives s (doLayerRate me layer rate s) := by
  unfold doLayerRate; split
  · exact sameDrives_setLayer _ _ _ _
  · exact sameDrives_refuse _ _ _ _

theorem sameDrives_fadeEnd (bank : BankId) (l : LayerId) (s : State) : SameDrives s (fadeEnd bank l s) := by
  unfold fadeEnd; split
  · exact sameDrives_setLayer _ _ _ _
  · exact .refl _

theorem sameDrives_doLayerOn (me layer : Byte) (s : State) : SameDrives s (doLayerOn me layer s) := by
  unfold doLayerOn; split
  · exact sameDrives_layerOn _ _ _
  · exact sameDrives_refuse _ _ _ _

theorem sameDrives_doLayerOff (me layer : Byte) (s : State) : SameDrives s (doLayerOff me layer s) := by
  unfold doLayerOff; split
  · exact sameDrives_layerOff _ _ _
  · exact sameDrives_refuse _ _ _ _

/-- A changed stacking order is nothing that the drive reads. -/
theorem sameDrives_setOrder (s : State) (bank : BankId) (order : Me → List LayerId) :
    SameDrives s (s.modifyMe bank (fun m => { m with order := order m })) :=
  sameDrives_modifyMe _ _ _ ⟨rfl, rfl, rfl, rfl, rfl, rfl, rfl, rfl⟩

theorem sameDrives_doOrder (me first second third fourth : Byte) (s : State) :
    SameDrives s (doOrder me first second third fourth s) := by
  unfold doOrder; split
  · exact sameDrives_refuse _ _ _ _
  · split
    · exact sameDrives_refuse _ _ _ _
    · exact sameDrives_setOrder _ _ _

theorem sameDrives_doRaise (me layer : Byte) (s : State) : SameDrives s (doRaise me layer s) := by
  unfold doRaise; split
  · exact sameDrives_setOrder _ _ _
  · exact sameDrives_refuse _ _ _ _

theorem sameDrives_doLower (me layer : Byte) (s : State) : SameDrives s (doLower me layer s) := by
  unfold doLower; split
  · exact sameDrives_setOrder _ _ _
  · exact sameDrives_refuse _ _ _ _

theorem sameDrives_doNextSet (me selection : Byte) (s : State) : SameDrives s (doNextSet me selection s) := by
  unfold doNextSet; split
  · split
    · exact sameDrives_modifyMe _ _ _ ⟨rfl, rfl, rfl, rfl, rfl, rfl, rfl, rfl⟩
    · exact sameDrives_refuse _ _ _ _
  · exact sameDrives_refuse _ _ _ _

/-! ### Commands of the transition (R97 to R108) -/

/-- A rate clamped to 1 to 999 is sound, whether or not the type part is taken (R97, R98). -/
theorem drivesSound_doTransSet (me kind : Byte) (rate : Word16) (curve : Byte) {s : State} (h : s.drivesSound) :
    (doTransSet me kind rate curve s).drivesSound := by
  obtain ⟨hlow, hhigh⟩ := clampTo_bounds 1 999 rate.toNat (by decide)
  unfold doTransSet; split
  · rename_i bank _ _ _ _ _
    unfold transSet; split
    · exact drivesSound_modifyMe h (driveSound_rate (h bank) hlow hhigh _ _)
    · have hrefused : (s.refuse 64 .busy (.me (bankByte bank))).drivesSound := drivesSound_post _ _ _ h
      have hrate := driveSound_rate (hrefused bank) hlow hhigh ((s.refuse 64 .busy (.me (bankByte bank))).me bank).kind
      exact drivesSound_modifyMe hrefused (hrate _)
  · exact drivesSound_post _ _ _ h

theorem drivesSound_doCut (me : Byte) {s : State} (h : s.drivesSound) : (doCut me s).drivesSound := by
  unfold doCut; split
  · exact drivesSound_post _ _ _ h
  · exact drivesSound_cutBank _ h

theorem drivesSound_doAuto (me : Byte) {s : State} (h : s.drivesSound) : (doAuto me s).drivesSound := by
  unfold doAuto; split
  · exact drivesSound_post _ _ _ h
  · exact drivesSound_autoBank _ h

theorem drivesSound_doLever (me : Byte) (value : Word16) {s : State} (h : s.drivesSound) :
    (doLever me value s).drivesSound := by
  unfold doLever; split
  · exact drivesSound_post _ _ _ h
  · exact drivesSound_leverBank _ h (clampTo_bounds 0 4096 value.toNat (by decide)).2

/-! ### Commands of the run (R134, R135, R145 to R150) -/

/-- The records of LOAD_KEYFRAMES are sound as read, and no run that plays has its table written (R134). -/
theorem drivesSound_doLoadKeyframes (me first : Byte) (records : List KeyframeBytes) {s : State} (h : s.drivesSound) :
    (doLoadKeyframes me first records s).drivesSound := by
  unfold doLoadKeyframes; split
  · exact drivesSound_post _ _ _ h
  · rename_i bank _
    split
    · exact drivesSound_post _ _ _ h
    · split
      · exact drivesSound_post _ _ _ h
      · rename_i ks hks
        split
        · exact drivesSound_post _ _ _ h
        · rename_i hstill
          obtain ⟨-, -, -, -, -, htable⟩ := (h bank).base
          exact drivesSound_modifyMe h (driveSound_table (h bank) (eq_false_of_ne_true hstill)
            (writeKeyframes_sound ks _ _ (readKeyframes_sound hks) htable))

/-- RUN_SET clamps count and loops, and a run that plays keeps its settings (R135). -/
theorem drivesSound_doRunSet (me count endMode loops : Byte) {s : State} (h : s.drivesSound) :
    (doRunSet me count endMode loops s).drivesSound := by
  unfold doRunSet; split
  · rename_i bank _ _ _
    split
    · exact drivesSound_post _ _ _ h
    · rename_i hstill
      exact drivesSound_modifyMe h (driveSound_runSettings (h bank) (eq_false_of_ne_true hstill)
        (clampTo_bounds 0 32 _ (by decide)).2 (clampTo_bounds 0 63 _ (by decide)).2 _)
  · exact drivesSound_post _ _ _ h

theorem drivesSound_doRun (me : Byte) {s : State} (h : s.drivesSound) : (doRun me s).drivesSound := by
  unfold doRun; split
  · exact drivesSound_post _ _ _ h
  · exact drivesSound_runBank _ h

theorem drivesSound_doStep (me : Byte) {s : State} (h : s.drivesSound) : (doStep me s).drivesSound := by
  unfold doStep; split
  · exact drivesSound_post _ _ _ h
  · exact drivesSound_stepBank _ h

theorem drivesSound_doHold (me : Byte) {s : State} (h : s.drivesSound) : (doHold me s).drivesSound := by
  unfold doHold; split
  · exact drivesSound_post _ _ _ h
  · exact drivesSound_holdBank _ h

theorem drivesSound_doAbort (me : Byte) {s : State} (h : s.drivesSound) : (doAbort me s).drivesSound := by
  unfold doAbort; split
  · exact drivesSound_post _ _ _ h
  · exact drivesSound_abortBank _ h

/-! ### Resets (R15, R47, R48) -/

theorem drivesSound_powerOn {s : State} (ha : s.meA = Me.powerOn) (hb : s.meB = Me.powerOn) : s.drivesSound := by
  intro x
  cases x
  · simp only [State.me, ha]; exact powerOn_driveSound
  · simp only [State.me, hb]; exact powerOn_driveSound

theorem drivesSound_resetEngine {s : State} (h : s.drivesSound) : (resetEngine s).drivesSound := by
  intro x
  cases x
  · exact engineReset_driveSound (h .a)
  · exact engineReset_driveSound (h .b)

theorem drivesSound_resetFull (s : State) : (resetFull s).drivesSound := by
  unfold resetFull fullScope
  exact (onlyLanes_lanesFullReset _).drivesSound (drivesSound_powerOn rfl rfl)

theorem drivesSound_doReset (scope : Byte) {s : State} (h : s.drivesSound) : (doReset scope s).drivesSound := by
  unfold doReset; split
  · exact drivesSound_resetEngine h
  · exact drivesSound_resetFull s
  · exact drivesSound_post _ _ _ h

/-! ### The commands of a take -/

theorem drivesSound_runCommand (c : Command) (s : State) (h : s.drivesSound) : (runCommand c s).drivesSound := by
  cases c with
  | cancel _ => exact drivesSound_of_eq (s := s) rfl rfl h
  | cancelAll => exact drivesSound_of_eq (s := s) rfl rfl h
  | reset scope => exact drivesSound_doReset scope h
  | laneSet _ _ _ => exact (onlyLanes_doLaneSet ..).drivesSound h
  | resync _ => exact (onlyLanes_doResync ..).drivesSound h
  | select _ _ _ => exact (sameDrives_doSelect _ _ _ s).sound h
  | auxSelect _ => exact (sameDrives_doAuxSelect _ s).sound h
  | matte _ _ _ => exact (sameDrives_doMatte _ _ _ s).sound h
  | loadCurve _ _ => exact (sameDrives_doLoadCurve _ _ s).sound h
  | wipeSet _ _ _ _ => exact (sameDrives_doWipeSet _ _ _ _ s).sound h
  | keySet _ _ _ _ _ _ => exact (sameDrives_doKeySet _ _ _ _ _ _ s).sound h
  | maskSet _ _ _ => exact (sameDrives_doMaskSet _ _ _ s).sound h
  | transSet me kind rate curve => exact drivesSound_doTransSet me kind rate curve h
  | nextSet _ _ => exact (sameDrives_doNextSet _ _ s).sound h
  | cut me => exact drivesSound_doCut me h
  | auto me => exact drivesSound_doAuto me h
  | lever me value => exact drivesSound_doLever me value h
  | layerOn _ _ => exact (sameDrives_doLayerOn _ _ s).sound h
  | layerOff _ _ => exact (sameDrives_doLayerOff _ _ s).sound h
  | layerRate _ _ _ => exact (sameDrives_doLayerRate _ _ _ s).sound h
  | order _ _ _ _ _ => exact (sameDrives_doOrder _ _ _ _ _ s).sound h
  | raise _ _ => exact (sameDrives_doRaise _ _ s).sound h
  | lower _ _ => exact (sameDrives_doLower _ _ s).sound h
  | loadKeyframes me first records => exact drivesSound_doLoadKeyframes me first records h
  | runSet me count endMode loops => exact drivesSound_doRunSet me count endMode loops h
  | run me => exact drivesSound_doRun me h
  | step me => exact drivesSound_doStep me h
  | hold me => exact drivesSound_doHold me h
  | abort me => exact drivesSound_doAbort me h
  | grab _ _ => exact (onlyStore_doGrab ..).drivesSound h
  | clear _ => exact (onlyStore_doClear ..).drivesSound h
  | noticeMask _ _ _ => exact (sameDrives_doNoticeMask _ _ _ s).sound h
  | clearSummary => exact drivesSound_of_eq (s := s) rfl rfl h

theorem drivesSound_handOut (n : Nat) : ∀ s : State, s.drivesSound → (handOut n s).drivesSound := by
  induction n with
  | zero => exact fun _ h => h
  | succ n ih =>
    intro s h
    unfold handOut; split
    · exact h
    · refine ih _ (drivesSound_runCommand _ _ ?_)
      split
      · exact drivesSound_post _ _ _ (drivesSound_of_eq (s := s) rfl rfl h)
      · exact drivesSound_of_eq (s := s) rfl rfl h

/-! ### The two lines of a picture period -/

theorem drivesSound_beginPeriod (p : FieldParity) {s : State} (h : s.drivesSound) : (beginPeriod p s).drivesSound :=
  drivesSound_of_eq (s := s) rfl rfl h

theorem drivesSound_formTake {s : State} (h : s.drivesSound) : (formTake s).drivesSound :=
  drivesSound_of_eq (formTake_meA s) (formTake_meB s) h

theorem drivesSound_plainSwitchLine (p : FieldParity) {s : State} (h : s.drivesSound) :
    (plainSwitchLine p s).drivesSound := by
  have hlanes := (onlyLanes_lanesWork s _).drivesSound (drivesSound_beginPeriod p h)
  have hbanks := drivesSound_banksWork (drivesSound_formTake hlanes)
  exact drivesSound_handOut _ _ ((onlyStore_storeWork ..).drivesSound hbanks)

/-- At a format change each bank comes to REST from what its own work leaves (R13). -/
theorem drivesSound_formatSwitchLine (p : FieldParity) {s : State} (h : s.drivesSound) :
    (formatSwitchLine p s).drivesSound := by
  intro x
  rw [formatSwitchLine_me]
  have hformed : (formedAtChange p s).drivesSound := fun y => by rw [formedAtChange_me]; exact h y
  exact engineReset_driveSound (drivesSound_banksWork hformed x)

theorem drivesSound_switchLine (p : FieldParity) (s : State) (h : s.drivesSound) : (switchLine p s).drivesSound := by
  unfold switchLine; split
  · exact drivesSound_formatSwitchLine p h
  · exact drivesSound_plainSwitchLine p h

theorem drivesSound_formatChangeLine (p : FieldParity) (s : State) (h : s.drivesSound) :
    (formatChangeLine p s).drivesSound := by
  unfold formatChangeLine; split
  · exact drivesSound_formatSwitchLine p h
  · exact h

theorem drivesSound_actHeld (e : HeldEvent) {s : State} (h : s.drivesSound) : (actHeld e s).drivesSound := by
  cases e with
  | start x => exact (onlyRef_actStart x s).drivesSound h
  | missing => exact (onlyRef_actMissing s).drivesSound h
  | packet carrier =>
    simp only [actHeld]; split
    · exact (onlyControl_collectCarrier carrier s).drivesSound h
    · exact h

theorem drivesSound_foldl_actHeld (l : List HeldEvent) :
    ∀ s : State, s.drivesSound → (l.foldl (fun t e => actHeld e t) s).drivesSound := by
  induction l with
  | nil => exact fun _ h => h
  | cons e l ih => exact fun s h => ih _ (drivesSound_actHeld e h)

theorem drivesSound_reportLine (s : State) (h : s.drivesSound) : (reportLine s).drivesSound := by
  unfold reportLine; split
  · exact drivesSound_foldl_actHeld _ _ (drivesSound_of_eq (s := s) rfl rfl h)
  · exact h

/-! ### Events of the inputs -/

theorem drivesSound_referenceStart (x : ReferenceStart) (s : State) (h : s.drivesSound) :
    (referenceStart x s).drivesSound := by
  unfold referenceStart; split
  · exact drivesSound_of_eq (s := s) rfl rfl h
  · exact (onlyRef_actStart x s).drivesSound h

theorem drivesSound_referenceMissing (s : State) (h : s.drivesSound) : (referenceMissing s).drivesSound := by
  unfold referenceMissing; split
  · exact drivesSound_of_eq (s := s) rfl rfl h
  · exact (onlyRef_actMissing s).drivesSound h

theorem drivesSound_packetArrives (whole : Bool) (carrier : List Byte) (s : State) (h : s.drivesSound) :
    (packetArrives whole carrier s).drivesSound := by
  unfold packetArrives; split
  · split
    · exact drivesSound_of_eq (s := s) rfl rfl h
    · exact (onlyControl_collectCarrier carrier s).drivesSound h
  · exact h

theorem drivesSound_dueEntry (s : State) (h : s.drivesSound) : (dueEntry s).drivesSound := by
  rw [dueEntry_frame]
  exact drivesSound_of_eq (s := s) rfl rfl h

/-- Every operation of the commands keeps both drives sound. -/
theorem kept_drivesSound : Kept State.drivesSound where
  restarted := fun _ _ _ _ => drivesSound_powerOn rfl rfl
  signal := fun n signal s h => (onlyLanes_laneSignal n signal s).drivesSound h
  start := drivesSound_referenceStart
  missing := drivesSound_referenceMissing
  line := drivesSound_switchLine
  report := drivesSound_reportLine
  packet := drivesSound_packetArrives
  due := drivesSound_dueEntry
  change := drivesSound_formatChangeLine
  laneStart := fun n x s h => (onlyLanes_laneStart n x s).drivesSound h
  lock := fun n s h => (onlyLanes_laneLock n s).drivesSound h
  fadeEnd := fun bank l s h => (sameDrives_fadeEnd bank l s).sound h
  autoDue := fun bank _ h => drivesSound_autoCompletionDue bank h
  segmentEnd := fun bank _ h => drivesSound_segmentEnd bank h
  release := fun _ _ h => drivesSound_syncRelease h
  completion := fun m s h => (onlyStore_completeGrab s m s).drivesSound h
  begins := fun m s h => (onlyStore_grabBegin m s).drivesSound h
  timeout := fun m s h => (onlyStore_grabWaitTimeout m s).drivesSound h
  collect := fun target code count inner s h => (onlyControl_collectAt target code count inner s).drivesSound h
  command := drivesSound_runCommand

/-- Settles O58: sound drives are kept by every operation, so by every step. -/
theorem stepsKeepDriveAndRunSound : Obligations.StepsKeepDriveAndRunSound := fun _ _ hsound hstep =>
  kept_drivesSound.step (fun _ _ h => drivesSound_of_eq rfl rfl h) hsound hstep

end Sys2Proof.Machine
end

section
/-! TRANS_SET, NEXT_SET, CUT, AUTO and LEVER (R93, R97 to R108): each command by its parameters, the drive state of the bank it
names and what it finds there. -/

namespace Sys2Proof.Machine

/-! ### TRANS_SET and NEXT_SET (R97 to R99) -/

theorem Drive.isRest_iff (d : Drive) : d.isRest = true ↔ d = .rest := by
  cases d <;> simp [Drive.isRest]

theorem doTransSet_of_none {me kind curve : Byte}
    (h : readBank me = none ∨ readTransitionType kind = none ∨ readCurveNumber curve = none) (rate : Word16) (s : State) :
    doTransSet me kind rate curve s = s.refuse 64 .target (.me me) := by
  unfold doTransSet
  split
  · rename_i hm hk hc; simp [hm, hk, hc] at h
  · rfl

section TransSet

variable {me kind curve : Byte} {bank : BankId} {k : TransitionType} {c : Option CurveId} (hm : readBank me = some bank)
  (hk : readTransitionType kind = some k) (hc : readCurveNumber curve = some c)
include hm hk hc

theorem doTransSet_of_read (rate : Word16) (s : State) :
    doTransSet me kind rate curve s = transSet bank k (max 1 (min 999 rate.toNat)) c s := by
  simp only [doTransSet, hm, hk, hc, clampTo]

/-- At REST, or with the type held, all three settings are written (R97, R98). -/
theorem doTransSet_taken (rate : Word16) {s : State} (h : (s.me bank).drive = .rest ∨ (s.me bank).kind = k) :
    doTransSet me kind rate curve s =
      s.modifyMe bank (fun m => { m with kind := k, rate := max 1 (min 999 rate.toNat), curve := c }) := by
  rw [doTransSet_of_read hm hk hc, transSet, if_pos (h.imp_left (Drive.isRest_iff _).mpr)]

/-- Away from REST a changed type is refused, and rate and curve are written (R98). -/
theorem doTransSet_of_busy_type (rate : Word16) {s : State} (hd : (s.me bank).drive ≠ .rest) (hkind : (s.me bank).kind ≠ k) :
    doTransSet me kind rate curve s =
      (s.refuse 64 .busy (.me me)).modifyMe bank
        (fun m => { m with rate := max 1 (min 999 rate.toNat), curve := c }) := by
  have hbusy : ¬((s.me bank).drive.isRest = true ∨ (s.me bank).kind = k) :=
    not_or.mpr ⟨mt (Drive.isRest_iff _).mp hd, hkind⟩
  rw [doTransSet_of_read hm hk hc, transSet, if_neg hbusy, bankByte_of hm]

end TransSet

theorem doNextSet_of_none {me selection : Byte} (h : readBank me = none ∨ readSelection selection = none) (s : State) :
    doNextSet me selection s = s.refuse 65 .target (.me me) := by
  unfold doNextSet
  split
  · rename_i hm hs; simp [hm, hs] at h
  · rfl

theorem doNextSet_of_read {me selection : Byte} {bank : BankId} (hm : readBank me = some bank) (hs : selection.toNat ≤ 31)
    (s : State) :
    doNextSet me selection s =
      if (s.me bank).drive = .rest then s.modifyMe bank (fun m => { m with selection := selection.setWidth 5 })
      else s.refuse 65 .busy (.me me) := by
  have hread : readSelection selection = some (selection.setWidth 5) := if_pos (by omega)
  simp only [doNextSet, hm, hread, Drive.isRest_iff]

/-- Settles O28: TRANS_SET by what its parameters read as and its two parts, then NEXT_SET. -/
theorem transitionSettings : Obligations.TransitionSettings := by
  refine fun s me hr => ⟨fun kind rate curve => ⟨fun h => ?_, fun bank k c hm hk hc => ⟨fun h => ?_, fun hd hkind => ?_⟩⟩,
    fun selection => ⟨fun h => ?_, fun bank hm hs => ⟨fun hd => ?_, fun hd => ?_⟩⟩⟩
  · rw [exec_transSet me kind rate curve hr, doTransSet_of_none h]
  · rw [exec_transSet me kind rate curve hr, doTransSet_taken hm hk hc rate h]
  · rw [exec_transSet me kind rate curve hr, doTransSet_of_busy_type hm hk hc rate hd hkind]
  · rw [exec_nextSet me selection hr, doNextSet_of_none (h.imp_right (readSelection_none_iff selection).mpr)]
  · rw [exec_nextSet me selection hr, doNextSet_of_read hm hs, if_pos hd]
  · rw [exec_nextSet me selection hr, doNextSet_of_read hm hs, if_neg hd]

/-! ### The fade check of CUT and AUTO (R100, R101) -/

theorem Me.selectedFading_iff (m : Me) :
    m.selectedFading = true ↔ ∃ l : LayerId, hasLayer m.selection l = true ∧ (m.layer l).state.fading = true := by
  simp [Me.selectedFading]

theorem Me.selectedFading_eq_false {m : Me}
    (h : ∀ l : LayerId, hasLayer m.selection l = true → (m.layer l).state.fading = false) : m.selectedFading = false := by
  rw [← Bool.not_eq_true, Me.selectedFading_iff]
  rintro ⟨l, hsel, hfading⟩
  exact Bool.noConfusion ((h l hsel).symm.trans hfading)

/-! ### CUT (R100) -/

theorem doCut_of_bank {me : Byte} {bank : BankId} (hm : readBank me = some bank) (s : State) : doCut me s = cutBank bank s := by
  simp only [doCut, hm]

/-- CUT at REST, with its refusals in order. -/
theorem cutBank_of_rest {bank : BankId} {s : State} (hd : (s.me bank).drive = .rest) :
    cutBank bank s =
      if (s.me bank).selection = 0 then s.refuse 66 .empty (.me (bankByte bank))
      else if (s.me bank).selectedFading then s.refuse 66 .busy (.me (bankByte bank))
      else complete bank .cut s := by
  simp only [cutBank, hd]

/-- CUT of a transition by the lever or the automatic rate. -/
theorem cutBank_of_moving {bank : BankId} {s : State}
    (hd : (s.me bank).drive = .manual ∨ ∃ start span k : Nat, (s.me bank).drive = .auto start span k) :
    cutBank bank s = complete bank .cut s := by
  rcases hd with hd | ⟨start, span, k, hd⟩ <;> simp only [cutBank, hd]

theorem cutBank_of_keyed {bank : BankId} {s : State} (hd : (s.me bank).drive = .keyed) :
    cutBank bank s = s.refuse 66 .busy (.me (bankByte bank)) := by
  simp only [cutBank, hd]

/-- Settles O30: CUT by the drive state, and at REST by its two checks. -/
theorem cutCompletesAtOnce : Obligations.CutCompletesAtOnce := by
  refine fun s me hr => ⟨fun hm => ?_, fun bank hm => ?_⟩
  · rw [exec_cut me hr, doCut, hm]
  · rw [exec_cut me hr, doCut_of_bank hm, ← bankByte_of hm]
    refine ⟨fun hd hsel => ?_, fun hd hsel hfading => ?_, fun hd hsel hstill => ?_, fun hd => ?_, fun start span k hd => ?_,
      fun hd => ?_⟩
    · rw [cutBank_of_rest hd, if_pos hsel]
    · rw [cutBank_of_rest hd, if_neg hsel, if_pos ((Me.selectedFading_iff _).mpr hfading)]
    · rw [cutBank_of_rest hd, if_neg hsel, Me.selectedFading_eq_false hstill, if_neg Bool.false_ne_true]
    · rw [cutBank_of_moving (.inl hd)]
    · rw [cutBank_of_moving (.inr ⟨start, span, k, hd⟩)]
    · rw [cutBank_of_keyed hd]

/-! ### AUTO (R93, R101 to R103) -/

theorem doAuto_of_bank {me : Byte} {bank : BankId} (hm : readBank me = some bank) (s : State) :
    doAuto me s = autoBank bank s := by
  simp only [doAuto, hm]

section Auto

variable {bank : BankId} {s : State}

/-- AUTO starts from REST at 0 with span D, and from MANUAL at P with the span that is left. -/
theorem autoBank_of_still (hd : (s.me bank).drive = .rest ∨ (s.me bank).drive = .manual) :
    ∃ start span : Nat, autoBank bank s = startAuto bank start span s ∧
      ((s.me bank).drive = .rest → start = 0 ∧ span = (s.me bank).rate) ∧
      ((s.me bank).drive = .manual →
        start = (s.me bank).position ∧ span = spanFrom (s.me bank).rate (s.me bank).position) := by
  rcases hd with hd | hd
  · exact ⟨0, (s.me bank).rate, by simp only [autoBank, hd], fun _ => ⟨rfl, rfl⟩, fun h => by rw [hd] at h; cases h⟩
  · exact ⟨_, _, by simp only [autoBank, hd], fun h => (by rw [hd] at h; cases h), fun _ => ⟨rfl, rfl⟩⟩

theorem autoBank_of_driven (hd : (s.me bank).drive = .keyed ∨ ∃ start span k : Nat, (s.me bank).drive = .auto start span k) :
    autoBank bank s = s.refuse 67 .busy (.me (bankByte bank)) := by
  rcases hd with hd | ⟨start, span, k, hd⟩ <;> simp only [autoBank, hd]

variable (start span : Nat)

theorem startAuto_of_empty (hsel : (s.me bank).selection = 0) :
    startAuto bank start span s = s.refuse 67 .empty (.me (bankByte bank)) :=
  if_pos hsel

variable (hsel : (s.me bank).selection ≠ 0)
include hsel

theorem startAuto_of_fading (hfading : (s.me bank).selectedFading = true) :
    startAuto bank start span s = s.refuse 67 .busy (.me (bankByte bank)) := by
  simp only [startAuto, if_neg hsel, hfading, if_true]

variable (hstill : (s.me bank).selectedFading = false)
include hstill

/-- AUTO of type CUT completes as CUT does (R103). -/
theorem startAuto_of_cut (hk : (s.me bank).kind = .cut) : startAuto bank start span s = complete bank .cut s := by
  simp only [startAuto, if_neg hsel, hstill, Bool.false_eq_true, if_false, if_pos hk]

theorem startAuto_starts (hk : (s.me bank).kind ≠ .cut) :
    startAuto bank start span s =
      s.modifyMe bank
        (fun m => { m with drive := .auto start span 1, position := start + (4096 - start) / span }) := by
  simp only [startAuto, if_neg hsel, hstill, Bool.false_eq_true, if_false, if_neg hk, Me.startedAuto, autoPosition,
    Nat.mul_one]

end Auto

/-- Settles O31: AUTO by the drive state, and from REST and MANUAL by its checks, its type and its span. -/
theorem autoStartsTheAutomaticRate : Obligations.AutoStartsTheAutomaticRate := by
  refine fun s me hr => ⟨fun hm => ?_, fun bank hm => ?_⟩
  · rw [exec_auto me hr, doAuto, hm]
  · rw [exec_auto me hr, doAuto_of_bank hm, ← bankByte_of hm]
    refine ⟨fun start span k hd => ?_, fun hd => ?_, fun hd => ?_⟩
    · rw [autoBank_of_driven (.inr ⟨start, span, k, hd⟩)]
    · rw [autoBank_of_driven (.inl hd)]
    · obtain ⟨start, span, hstarts, hrest, hmanual⟩ := autoBank_of_still hd
      rw [hstarts]
      refine ⟨fun hsel => ?_, fun hsel hfading => ?_, fun hsel hstill => ?_⟩
      · rw [startAuto_of_empty start span hsel]
      · rw [startAuto_of_fading start span hsel ((Me.selectedFading_iff _).mpr hfading)]
      · have hnone := Me.selectedFading_eq_false hstill
        refine ⟨fun hk => ?_, fun hk hd => ?_, fun hk hd p d hp hspan => ?_⟩
        · rw [startAuto_of_cut start span hsel hnone hk]
        · obtain ⟨rfl, rfl⟩ := hrest hd
          rw [startAuto_starts _ _ hsel hnone hk]
          exact congrArg _ (State.modifyMe_congr _ _ (by simp only [Nat.zero_add, Nat.sub_zero]))
        · obtain ⟨rfl, rfl⟩ := hmanual hd
          subst hp
          rw [startAuto_starts _ _ hsel hnone hk, spanFrom, ← hspan]

/-! ### LEVER (R104 to R108) -/

theorem effective_eq (sense : Sense) (v : Nat) : effective sense v = if sense = .forward then v else 4096 - v := by
  cases sense <;> rfl

theorem doLever_of_bank {me : Byte} {bank : BankId} (hm : readBank me = some bank) (value : Word16) (s : State) :
    doLever me value s = leverBank bank (min 4096 value.toNat) s := by
  simp only [doLever, hm, clampTo, Nat.zero_max]

section Follow

variable {bank : BankId} {s : State} {e : Nat}

/-- At effective position 0 the bank returns to REST. -/
theorem followLever_of_start (h : e = 0) :
    followLever bank e s = s.modifyMe bank (fun m => { m with drive := .rest, position := 0 }) := by
  subst h; rfl

theorem followLever_of_between (h1 : 1 ≤ e) (h2 : e ≤ 4095) :
    followLever bank e s = s.modifyMe bank (fun m => { m with drive := .manual, position := e }) := by
  rw [followLever, if_neg (by omega), if_neg (by omega)]

/-- At effective position 4096 the transition completes. -/
theorem followLever_of_end (h : e = 4096) :
    followLever bank e s =
      complete bank .lever (s.modifyMe bank (fun m => { m with drive := .manual, position := 4096 })) := by
  subst h; rfl

end Follow

section Lever

variable {bank : BankId} {v : Nat} {s : State}

theorem leverBank_of_driven
    (hd : (s.me bank).drive = .keyed ∨ ∃ start span k : Nat, (s.me bank).drive = .auto start span k) :
    leverBank bank v s = s := by
  rcases hd with hd | ⟨start, span, k, hd⟩ <;> simp only [leverBank, hd]

/-- At REST with pickup clear the bank follows the lever (R106). -/
theorem leverBank_of_rest (hd : (s.me bank).drive = .rest) (hp : (s.me bank).pickup = false) :
    leverBank bank v s = followLever bank (effective (s.me bank).sense v) s := by
  simp only [leverBank, hd, hp, Bool.false_eq_true, if_false]

theorem leverBank_of_waiting (hd : (s.me bank).drive = .rest) (hp : (s.me bank).pickup = true) :
    leverBank bank v s = pickUpAtRest bank v s := by
  simp only [leverBank, hd, hp, if_true]

/-- In MANUAL with pickup set a lever that is not at P is ignored (R108). -/
theorem leverBank_of_manual_apart (hd : (s.me bank).drive = .manual) (hp : (s.me bank).pickup = true)
    (hgap : 64 < gap (effective (s.me bank).sense v) (s.me bank).position) : leverBank bank v s = s := by
  simp only [leverBank, hd, hp, if_true, if_neg (Nat.not_le.mpr hgap)]

/-- In MANUAL with pickup clear, or with the lever at P, the bank follows the lever with pickup clear (R107, R108). -/
theorem leverBank_of_manual (hd : (s.me bank).drive = .manual)
    (h : (s.me bank).pickup = false ∨ gap (effective (s.me bank).sense v) (s.me bank).position ≤ 64) :
    leverBank bank v s =
      followLever bank (effective (s.me bank).sense v) (s.modifyMe bank (fun m => { m with pickup := false })) := by
  by_cases hp : (s.me bank).pickup = true
  · have hgap := h.resolve_left (by rw [hp]; exact nofun)
    simp only [leverBank, hd, hp, if_true, if_pos hgap]
  · have hclear : (s.me bank).pickup = false := eq_false_of_ne_true hp
    rw [State.modifyMe_of_fixed (by rw [← hclear])]
    simp only [leverBank, hd, hclear, Bool.false_eq_true, if_false]

/-- At REST with pickup set a lever within 64 of the low end is picked up in FORWARD (R105). -/
theorem pickUpAtRest_of_low (h : v ≤ 64) :
    pickUpAtRest bank v s =
      followLever bank v (s.modifyMe bank (fun m => { m with sense := .forward, pickup := false })) := by
  rw [pickUpAtRest, if_pos h]; rfl

/-- Within 64 of the high end it is picked up in REVERSE, and reads 4096 − v. -/
theorem pickUpAtRest_of_high (h : 4032 ≤ v) :
    pickUpAtRest bank v s =
      followLever bank (4096 - v) (s.modifyMe bank (fun m => { m with sense := .reverse, pickup := false })) := by
  rw [pickUpAtRest, if_neg (by omega), if_pos h]; rfl

theorem pickUpAtRest_of_between (h1 : 64 < v) (h2 : v < 4032) : pickUpAtRest bank v s = s := by
  rw [pickUpAtRest, if_neg (by omega), if_neg (by omega)]

/-- A bank that stands at REST stays as it is when it returns to REST. -/
theorem Me.at_rest_eq {m : Me} (hd : m.drive = .rest) (hp : m.position = 0) : { m with drive := .rest, position := 0 } = m := by
  rw [← hd, ← hp]

end Lever

/-- Settles O33: LEVER by the drive state and pickup, and the effective position that it reads. -/
theorem leverDrivesThePosition : Obligations.LeverDrivesThePosition := by
  refine fun s me value hr => ⟨fun hm => ?_, fun bank v e hm hv he => ?_⟩
  · rw [exec_lever me value hr, doLever, hm]
  · rw [exec_lever me value hr, doLever_of_bank hm, ← hv]
    rw [← effective_eq] at he
    refine ⟨fun start span k hd => ?_, fun hd => ?_, fun hd hp hpickup => ?_, fun hd hp hclear => ?_, fun hd => ?_⟩
    · rw [leverBank_of_driven (.inr ⟨start, span, k, hd⟩)]
    · rw [leverBank_of_driven (.inl hd)]
    · rw [leverBank_of_waiting hd hpickup]
      have hstays (sense : Sense) :
          (s.modifyMe bank (fun m => { m with sense := sense, pickup := false })).modifyMe bank
              (fun m => { m with drive := .rest, position := 0 }) =
            s.modifyMe bank (fun m => { m with sense := sense, pickup := false }) :=
        State.modifyMe_of_fixed (by rw [State.me_modifyMe]; exact Me.at_rest_eq hd hp)
      refine ⟨fun h1 h2 => ?_, fun h0 => ?_, fun h1 h2 => ?_, fun hend => ?_, fun h1 h2 => ?_⟩
      · rw [pickUpAtRest_of_between h1 h2]
      · rw [pickUpAtRest_of_low (by omega), followLever_of_start h0, hstays]
      · rw [pickUpAtRest_of_low h2, followLever_of_between h1 (by omega), State.modifyMe_modifyMe]
      · rw [pickUpAtRest_of_high (by omega), followLever_of_start (by omega), hstays]
      · rw [pickUpAtRest_of_high h1, followLever_of_between (by omega) (by omega), State.modifyMe_modifyMe]
    · rw [leverBank_of_rest hd hclear, ← he]
      refine ⟨fun h0 => ?_, fun h1 h2 => ?_, fun hend => ?_⟩
      · rw [followLever_of_start h0, State.modifyMe_of_fixed (Me.at_rest_eq hd hp)]
      · rw [followLever_of_between h1 h2]
      · rw [followLever_of_end hend]
    · refine ⟨fun hpickup hgap => ?_, fun hmeets => ?_⟩
      · rw [leverBank_of_manual_apart hd hpickup (by rw [← he, gap]; omega)]
      · rw [leverBank_of_manual hd (hmeets.imp_right fun hnear => by rw [← he, gap]; omega), ← he]
        refine ⟨fun h0 => ?_, fun h1 h2 => ?_, fun hend => ?_⟩
        · rw [followLever_of_start h0, State.modifyMe_modifyMe]
        · rw [followLever_of_between h1 h2, State.modifyMe_modifyMe]
        · rw [followLever_of_end hend, State.modifyMe_modifyMe]

end Sys2Proof.Machine
end

section
/-! Runs that meet at sync entries (R92, R141, R142): SYNC_RELEASE and the posting of a mark as they stand alone, and at a switch
line the run that waits, the mark that each bank holds after the line, and the overrun of a mark. -/

namespace Sys2Proof.Machine

/-! ### Which runs stand at a sync entry when the marks are settled -/

/-- A due completion leaves the run as it is. -/
theorem takeDue_run (x : BankId) (p : State × Option DoneBy) : ((takeDue x p).me x).run = (p.1.me x).run := by
  unfold takeDue
  cases p.2 with
  | none => rfl
  | some how => rw [complete_me]; rfl

section Step

variable {x : BankId} {s : State}

theorem runStep_of_waiting {r : ResumeState} (h : (s.me x).run.state = .waiting r) : runStep x s = (s, none) := by
  simp only [runStep, h]

theorem endRun_run (x : BankId) (s : State) : ((endRun x s).1.me x).run = Run.idle := by
  rw [← takeDue_run, takeDue_endRun_run]

/-- A run that plays and does not arrive at an entry does not come to wait. -/
theorem runStep_ne_waiting (hd : (s.me x).drive = .keyed) (hplay : (s.me x).run.state.plays)
    (hnone : ∀ j passes : Nat, ¬ (s.me x).arrivesAt j passes) (r : ResumeState) :
    ((runStep x s).1.me x).run.state ≠ .waiting r := by
  by_cases hc : (s.me x).run.counter = 0
  · rcases (s.me x).goesOn_or_endsAt (s.me x).run.index with ⟨j, passes, hon⟩ | hend
    · exact absurd ⟨_, ⟨hd, .inl ⟨hc, hplay, rfl⟩⟩, hon⟩ (hnone j passes)
    · rw [runStep_of_start hplay hc, arrive_of_endsAt hend, endRun_run]
      exact nofun
  · rcases Nat.lt_or_ge (s.me x).run.counter ((s.me x).entry (s.me x).run.index).duration with hk | hk
    · rw [runStep_of_within hplay hc hk, State.me_modifyMe]
      exact plays_ne_waiting hplay r
    · rcases (s.me x).goesOn_or_endsAt ((s.me x).run.index + 1) with ⟨j, passes, hon⟩ | hend
      · rcases hplay with hr | hr
        · exact absurd ⟨_, ⟨hd, .inr ⟨hc, hr, hk, rfl⟩⟩, hon⟩ (hnone j passes)
        · rw [runStep_of_past_holding hc hk hr, pauseAfterSegment_of_goesOn hon, State.me_modifyMe]
          exact nofun
      · rw [runStep_of_past_endsAt hc hk hplay hend, endRun_run]
        exact nofun

/-- The own work of a bank that is not KEYED leaves its run as it is. -/
theorem bankOwn_run_of_not_keyed (hd : (s.me x).drive ≠ .keyed) : ((bankOwn x s).me x).run = (s.me x).run := by
  cases h : (s.me x).drive with
  | rest => rw [bankOwn_of_still (.inl h), State.me_modifyMe]; rfl
  | manual => rw [bankOwn_of_still (.inr h), State.me_modifyMe]; rfl
  | auto start span k =>
    rcases Nat.lt_or_ge k span with hk | hk
    · rw [bankOwn_of_auto_running h hk, State.me_modifyMe]; rfl
    · rw [bankOwn_of_auto_done h hk, complete_me, State.me_modifyMe]; rfl
  | keyed => exact absurd h hd

/-- The own work of a bank whose run does not arrive at an entry brings no run to wait, and leaves one that waits. -/
theorem bankOwn_waits_iff_of_no_arrival (hnone : ∀ j passes : Nat, ¬ (s.me x).arrivesAt j passes) (r : ResumeState) :
    ((bankOwn x s).me x).run.state = .waiting r ↔ (s.me x).run.state = .waiting r := by
  by_cases hd : (s.me x).drive = .keyed
  · have hfaded : (s.modifyMe x Me.fadeStep).me x = (s.me x).fadeStep := State.me_modifyMe ..
    have hplays (hplay : (s.me x).run.state.plays) :
        ((bankOwn x s).me x).run.state = .waiting r ↔ (s.me x).run.state = .waiting r := by
      rw [bankOwn_of_keyed hd, takeDue_run]
      exact iff_of_false
        (runStep_ne_waiting (by rw [hfaded]; exact hd) (by rw [hfaded]; exact hplay) (by rw [hfaded]; exact hnone) r)
        (plays_ne_waiting hplay r)
    cases hr : (s.me x).run.state with
    | running => exact hr ▸ hplays (.inl hr)
    | holding => exact hr ▸ hplays (.inr hr)
    | idle =>
      rw [bankOwn_of_keyed hd, takeDue_run, runStep_of_idle (by rw [hfaded]; exact hr), hfaded]
      exact hr ▸ Iff.rfl
    | paused =>
      rw [bankOwn_of_keyed hd, takeDue_run, runStep_of_paused (by rw [hfaded]; exact hr), hfaded]
      exact hr ▸ Iff.rfl
    | waiting q =>
      rw [bankOwn_of_keyed hd, takeDue_run, runStep_of_waiting (r := q) (by rw [hfaded]; exact hr), hfaded]
      exact hr ▸ Iff.rfl
  · rw [bankOwn_run_of_not_keyed hd]

/-- After its own work a bank's run waits when it has arrived at a sync entry, or waited before (R141, R142). -/
theorem bankOwn_waits_iff (x : BankId) (s : State) :
    (∃ r : ResumeState, ((bankOwn x s).me x).run.state = .waiting r) ↔
      (s.me x).meets ∨ ∃ r : ResumeState, (s.me x).run.state = .waiting r := by
  by_cases h : ∃ j passes : Nat, (s.me x).arrivesAt j passes
  · obtain ⟨j, passes, harrives⟩ := h
    have hplay : ∀ r : ResumeState, (s.me x).run.state ≠ .waiting r := plays_ne_waiting harrives.plays
    rw [Me.meets_iff_sync harrives]
    cases hsync : ((s.me x).entry j).sync with
    | true =>
      refine iff_of_true ⟨(s.me x).run.state.resume, ?_⟩ (.inl rfl)
      rw [bankOwn_me_of_sync harrives rfl rfl hsync]
    | false =>
      refine iff_of_false (fun ⟨r, hr⟩ => ?_) fun hwaits => hwaits.elim nofun fun ⟨r, hr⟩ => hplay r hr
      rw [bankOwn_me_of_plain harrives rfl rfl hsync, faded_run rfl] at hr
      exact hplay r hr
  · have hnone : ∀ j passes : Nat, ¬ (s.me x).arrivesAt j passes := fun j passes hj => h ⟨j, passes, hj⟩
    have hmeets : ¬ (s.me x).meets := fun ⟨j, passes, hj, _⟩ => hnone j passes hj
    simp only [bankOwn_waits_iff_of_no_arrival hnone, hmeets, false_or]

/-- The own work of a KEYED bank whose run waits is the fades. -/
theorem bankOwn_of_waiting (hd : (s.me x).drive = .keyed) {r : ResumeState} (hr : (s.me x).run.state = .waiting r) :
    bankOwn x s = s.modifyMe x Me.fadeStep := by
  rw [bankOwn_of_keyed hd, runStep_of_waiting (r := r) (by rw [State.me_modifyMe]; exact hr)]
  rfl

end Step

/-! ### The marks after the line -/

section Marks

variable {x : BankId} {s own settled t : State} (h : SeenLine x s own settled t)
include h

/-- A bank holds a mark after the line when it held or got one and its run stands at no sync entry. -/
theorem SeenLine.mark_iff :
    (t.me x).mark = true ↔
      ((s.me x).mark = true ∨ (s.me x.other).meets) ∧ ¬ (s.me x).meets ∧
        ∀ r : ResumeState, (s.me x).run.state ≠ .waiting r := by
  have hrun : (settled.me x).run = ((bankOwn x s).me x).run := h.after.run
  have hstands := bankOwn_waits_iff x s
  by_cases hwaits : ∃ r : ResumeState, ((bankOwn x s).me x).run.state = .waiting r
  · obtain ⟨r, hr⟩ := hwaits
    have hgone : (t.me x).mark = false := by
      have hw : (settled.me x).run.state = .waiting r := by rw [hrun]; exact hr
      rw [h.me]
      cases hm : (settled.me x).mark with
      | true => rw [syncRelease_of_mark hw hm, State.me_modifyMe]
      | false => rw [syncRelease_of_no_mark hw hm]; exact hm
    refine iff_of_false (by rw [hgone]; exact nofun) ?_
    rintro ⟨-, hmeets, hwait⟩
    rcases hstands.mp ⟨r, hr⟩ with hsync | ⟨q, hq⟩
    · exact hmeets hsync
    · exact hwait q hq
  · have hline : t.me x = settled.me x := by
      rw [h.me, syncRelease_of_not_waiting x settled fun r hr => hwaits ⟨r, by rw [← hrun]; exact hr⟩]
    have hnone := mt hstands.mpr hwaits
    rw [hline, h.mark]
    exact (and_iff_left ⟨fun hm => hnone (.inl hm), fun r hr => hnone (.inr ⟨r, hr⟩)⟩).symm

/-! ### A run that waits -/

section Waiting

variable (hd : (s.me x).drive = .keyed) {r : ResumeState} (hr : (s.me x).run.state = .waiting r)
include hd hr

theorem SeenLine.settled_of_waiting : settled.me x = { (s.me x).fadeStep with mark := (settled.me x).mark } := by
  have hafter := h.after.me
  rw [bankOwn_of_waiting hd hr, State.me_modifyMe] at hafter
  exact hafter

theorem SeenLine.buses_of_waiting : t.buses x = s.buses x := by
  rw [h.buses_eq, bankOwn_of_waiting hd hr, State.buses_modifyMe]

/-- With a mark, held or got on that line, a run that waits begins its segment in its resume state. -/
theorem SeenLine.begins_of_waiting (hmark : (s.me x).mark = true ∨ (s.me x.other).meets) :
    t.me x =
      { (s.me x).fadeStep with
        mark := false
        run := { (s.me x).run with state := r.state, start := (s.me x).position, counter := 1 }
        position :=
          segmentPosition (s.me x).position ((s.me x).entry (s.me x).run.index).target 1
            ((s.me x).entry (s.me x).run.index).duration } := by
  have hsettled := h.settled_of_waiting hd hr
  have hwaiting : (settled.me x).run.state = .waiting r := by rw [hsettled]; exact hr
  rw [h.me, syncRelease_of_mark hwaiting (h.mark.mpr hmark), State.me_modifyMe, hsettled]
  rfl

/-- Without a mark it goes on waiting, with P held. -/
theorem SeenLine.waits_on (hm : (s.me x).mark = false) (hother : ¬ (s.me x.other).meets) : t.me x = (s.me x).fadeStep := by
  have hsettled := h.settled_of_waiting hd hr
  have hwaiting : (settled.me x).run.state = .waiting r := by rw [hsettled]; exact hr
  have hnone : (settled.me x).mark = false := by
    rw [← Bool.not_eq_true, h.mark, hm]
    exact fun hmark => hmark.elim nofun hother
  rw [h.me, syncRelease_of_no_mark hwaiting hnone, hsettled, hnone, ← hm]
  rfl

end Waiting

/-! ### A run that arrives at a sync entry -/

/-- A run that arrives at a sync entry and finds a mark, held or got on that line, begins the entry's segment. -/
theorem SeenLine.meets_begins {j passes : Nat} (harrives : (s.me x).arrivesAt j passes)
    (hsync : ((s.me x).entry j).sync = true) (hmark : (s.me x).mark = true ∨ (s.me x.other).meets) :
    (t.me x).run = { (s.me x).run with index := j, start := (s.me x).position, counter := 1, passes := passes } ∧
      (t.me x).position =
        segmentPosition (s.me x).position ((s.me x).entry j).target 1 ((s.me x).entry j).duration := by
  rw [h.begins_of_sync harrives rfl rfl hsync hmark]
  refine ⟨?_, rfl⟩
  rw [faded_run rfl]

end Marks

/-! ### A mark that is overrun (R141) -/

theorem ClassFlags.raise_keeps_advisory {f : ClassFlags} (h : f.advisory = true) (cls : NoticeClass) :
    (f.raise cls).advisory = true := by
  cases cls <;> first | rfl | exact h

/-- After an ADVISORY notice and any more notices the ADVISORY flags are set. -/
theorem Posted.advisory_flags {r r' : ReportBuilder} {n : Notice} (h : Posted (r.take n) r') (hcls : n.cls = .advisory) :
    r'.summary.advisory = true ∧ r'.recent.advisory = true := by
  refine h.keeps (P := fun x => x.summary.advisory = true ∧ x.recent.advisory = true) (fun x m ⟨hs, hr⟩ => ?_) ?_
  · rw [ReportBuilder.take_summary, ReportBuilder.take_recent]
    exact ⟨ClassFlags.raise_keeps_advisory hs _, ClassFlags.raise_keeps_advisory hr _⟩
  · rw [ReportBuilder.take_summary, ReportBuilder.take_recent, hcls]
    exact ⟨rfl, rfl⟩

theorem postMark_of_no_mark {bank : BankId} {s : State} (h : (s.me bank.other).mark = false) :
    postMark bank s = s.modifyMe bank.other (fun m => { m with mark := true }) :=
  if_neg (by rw [h]; exact nofun)

theorem postMark_of_mark {bank : BankId} {s : State} (h : (s.me bank.other).mark = true) :
    postMark bank s = s.post .markOverrun .advisory (.me (bankByte bank.other)) :=
  if_pos h

theorem onlyEngine_requested (bank : BankId) (e : Keyframe) (s : State) : OnlyEngine s (requested bank e s) :=
  (onlyEngine_layerRequests bank e s).trans (onlyEngine_presetRequest bank e _)

/-- The own work of a bank whose run arrives at a sync entry posts MARK_OVERRUN when the other bank holds a mark. -/
theorem bankOwn_overruns {x : BankId} {s : State} (hmeets : (s.me x).meets) (hother : (s.me x.other).mark = true) :
    ∃ before : ReportBuilder, before.enabled = s.notices.enabled ∧
      (bankOwn x s).notices =
        before.take
          { kind := .markOverrun, cls := .advisory, subject := .me (bankByte x.other), number := s.ref.picture } := by
  obtain ⟨j, passes, harrives, hsync⟩ := hmeets
  have hengine := (onlyEngine_modifyMe s x (fun m => m.fadeStep.before j passes)).trans
    (onlyEngine_requested x ((s.me x).entry j) _)
  refine ⟨(requested x ((s.me x).entry j) (s.modifyMe x (fun m => m.fadeStep.before j passes))).notices,
    hengine.2.enabled_eq, ?_⟩
  rw [bankOwn_of_arrivesAt harrives, arriveEntry_of_sync (faded_entry rfl) hsync, State.modifyMe_notices,
    postMark_of_mark (by rw [requested_mark_other, State.me_other_modifyMe]; exact hother), State.post_notices,
    hengine.ref_eq]

/-- The line as a bank sees it, with the mark that its own work finds in the other bank. -/
theorem QuietLine.seen_beside {s : State} (h : QuietLine s) (p : FieldParity) (x : BankId) :
    ∃ own settled : State, SeenLine x s own settled (plainSwitchLine p s) ∧
      (own.me x.other).mark = (s.me x.other).mark := by
  cases x
  · exact ⟨_, _, seenLine_a h p, congrArg Me.mark (formedLine_me p s .b)⟩
  · exact ⟨_, _, seenLine_b h p, (bankOwn_mark .a _).trans (congrArg Me.mark (formedLine_me p s .a))⟩

/-- The MARK_OVERRUN of a line is reported. -/
theorem SeenLine.overrun_reported {x : BankId} {s own settled t : State} (h : SeenLine x s own settled t)
    (hbeside : (own.me x.other).mark = (s.me x.other).mark) (hmeets : (s.me x).meets) (hother : (s.me x.other).mark = true) :
    t.notices.summary.advisory = true ∧ t.notices.recent.advisory = true ∧
      (s.notices.enabled.advisory = true → t.notices.lost = false →
        { kind := .markOverrun, cls := .advisory, subject := .me (bankByte x.other), number := s.ref.picture + 1 } ∈
          t.notices.queue) := by
  obtain ⟨before, henabled, hnotices⟩ := bankOwn_overruns (h.before.meets_iff.mpr hmeets) (hbeside.trans hother)
  have hposted := h.posted
  rw [hnotices, h.picture] at hposted
  obtain ⟨hsummary, hrecent⟩ := hposted.advisory_flags rfl
  refine ⟨hsummary, hrecent, fun hadvisory => hposted.mem_queue ?_ rfl⟩
  rw [henabled, h.enabled]
  exact hadvisory

/-! ### The statement's parts -/

/-- Two runs that stand before sync entries arrive there and meet. -/
theorem Me.arrivesAt_of_start {m : Me} (hd : m.drive = .keyed) (hr : m.run.state = .running) (hc : m.run.counter = 0)
    (hi : m.run.index < m.count) : m.arrivesAt m.run.index m.run.passes :=
  ⟨m.run.index, ⟨hd, .inl ⟨hc, .inl hr, rfl⟩⟩, .inl ⟨hi, rfl, rfl⟩⟩

/-- Settles O42: SYNC_RELEASE, the posting of a mark, two runs that meet, and a bank at a line with a run that waits. -/
theorem runsMeetAtSyncEntries : Obligations.RunsMeetAtSyncEntries := by
  refine ⟨fun s bank hr => ?_, fun s bank => ⟨postMark_of_no_mark, postMark_of_mark⟩,
    fun s p hr hchange hlist htake hschedule hstart => ?_, fun s p hr hchange hlist htake hschedule hkeyed => ?_⟩
  · rw [exec_syncRelease bank hr]
    refine ⟨fun r hw => ⟨fun hm => ?_, fun hm => ?_⟩, fun hw => ?_⟩
    · rw [syncRelease_of_mark hw hm]
    · rw [syncRelease_of_no_mark hw hm]
    · rw [syncRelease_of_not_waiting bank s hw]
  · have hquiet : QuietLine s := ⟨hchange, hlist, htake, hschedule⟩
    have harrives (bank : BankId) : (s.me bank).arrivesAt (s.me bank).run.index (s.me bank).run.passes := by
      obtain ⟨hd, hrun, hc, hi, -⟩ := hstart bank
      exact Me.arrivesAt_of_start hd hrun hc hi
    have hmeets (bank : BankId) : (s.me bank).meets := by
      obtain ⟨-, -, -, -, hsync, -⟩ := hstart bank
      exact ⟨_, _, harrives bank, hsync⟩
    refine ⟨plainSwitchLine p s, hquiet.exec hr p, fun bank => ?_⟩
    obtain ⟨-, hrunning, -, -, hsync, -⟩ := hstart bank
    obtain ⟨own, settled, h⟩ := hquiet.seen p bank
    obtain ⟨hrun, hposition⟩ := h.meets_begins (harrives bank) hsync (.inr (hmeets bank.other))
    have hmark : ((plainSwitchLine p s).me bank).mark = false := by
      rw [← Bool.not_eq_true, h.mark_iff]
      rintro ⟨-, hnone, -⟩
      exact hnone (hmeets bank)
    rw [hrun]
    exact ⟨hrunning, rfl, rfl, hmark, hposition⟩
  · have hquiet : QuietLine s := ⟨hchange, hlist, htake, hschedule⟩
    refine ⟨plainSwitchLine p s, hquiet.exec hr p, fun bank m other hm hother => ?_⟩
    subst hm hother
    obtain ⟨own, settled, h, hbeside⟩ := hquiet.seen_beside p bank
    refine ⟨fun r hw => ?_, h.mark_iff, h.overrun_reported hbeside⟩
    have hd : (s.me bank).drive = .keyed := (hkeyed bank).mpr (by rw [hw]; exact nofun)
    refine ⟨h.buses_of_waiting hd hw, h.begins_of_waiting hd hw, h.waits_on hd hw,
      fun j passes harrives hsync hmark => ?_⟩
    obtain ⟨_, _, h'⟩ := hquiet.seen p bank.other
    rw [h.begins_of_waiting hd hw (.inr ⟨j, passes, harrives, hsync⟩)]
    exact ⟨rfl, rfl, h'.meets_begins harrives hsync (.inl hmark)⟩

end Sys2Proof.Machine
end

section
/-! Every step keeps fades within their counts and each stacking order a permutation of the four layers (R113, R124): the work that
makes moves alone, the commands that write a bank's settings, the resets, and the operations one by one. -/

namespace Sys2Proof.Machine

/-- Both banks have sound layers and a stacking order that holds each layer exactly once. -/
def State.layersSound (s : State) : Prop :=
  ∀ bank : BankId, (s.me bank).layersSound

/-! ### Work that makes moves alone -/

theorem EngineWork.layersSound {s t : State} (h : EngineWork s t) (hs : s.layersSound) : t.layersSound := fun x =>
  (h.1 x).layersSound (hs x)

theorem layersSound_of_me_eq {s t : State} (h : ∀ x : BankId, t.me x = s.me x) (hs : s.layersSound) : t.layersSound := fun x =>
  (h x).symm ▸ hs x

theorem layersSound_refuse {s : State} (h : s.layersSound) (code : Byte) (reason : Reason) (subject : Subject) :
    (s.refuse code reason subject).layersSound :=
  (engineWork_refuse s code reason subject).layersSound h

theorem engineWork_formTake (s : State) : EngineWork s (formTake s) :=
  engineWork_of_eq (formTake_meA s) (formTake_meB s) (formTake_matrix s)

/-- The take of a switch line is formed on banks that the period's start and the lanes' work leave as they were. -/
theorem engineWork_formedAtLine (p : FieldParity) (s : State) : EngineWork s (formTake (lanesWork s (beginPeriod p s))) :=
  have hbegun : EngineWork s (beginPeriod p s) := engineWork_of_eq rfl rfl rfl
  (hbegun.trans (onlyLanes_lanesWork s _).engineWork).trans (engineWork_formTake _)

theorem engineWork_actHeld (e : HeldEvent) (s : State) : EngineWork s (actHeld e s) := by
  cases e with
  | start x => exact (onlyRef_actStart x s).engineWork
  | missing => exact (onlyRef_actMissing s).engineWork
  | packet carrier =>
    simp only [actHeld]; split
    · exact (onlyControl_collectCarrier carrier s).engineWork
    · exact .refl s

theorem engineWork_reportLine (s : State) : EngineWork s (reportLine s) := by
  unfold reportLine; split
  · have hsent : EngineWork s { sendReport (formTally s) with awaitingReport := false, held := [] } :=
      engineWork_of_eq rfl rfl rfl
    exact hsent.trans (EngineWork.foldl (fun t e => engineWork_actHeld e t) _ _)
  · exact .refl s

theorem engineWork_referenceStart (x : ReferenceStart) (s : State) : EngineWork s (referenceStart x s) := by
  unfold referenceStart; split
  · exact engineWork_of_eq rfl rfl rfl
  · exact (onlyRef_actStart x s).engineWork

theorem engineWork_referenceMissing (s : State) : EngineWork s (referenceMissing s) := by
  unfold referenceMissing; split
  · exact engineWork_of_eq rfl rfl rfl
  · exact (onlyRef_actMissing s).engineWork

theorem engineWork_packetArrives (whole : Bool) (carrier : List Byte) (s : State) :
    EngineWork s (packetArrives whole carrier s) := by
  unfold packetArrives; split
  · split
    · exact engineWork_of_eq rfl rfl rfl
    · exact (onlyControl_collectCarrier carrier s).engineWork
  · exact .refl s

theorem engineWork_dueEntry (s : State) : EngineWork s (dueEntry s) := by
  rw [dueEntry_frame]
  exact engineWork_of_eq rfl rfl rfl

/-! ### Commands that leave the record of each bank as it is -/

theorem me_doSelect (me bus source : Byte) (s : State) (x : BankId) : (doSelect me bus source s).me x = s.me x := by
  unfold doSelect; split
  · exact State.me_refuse ..
  · split
    · exact State.me_refuse ..
    · split
      · exact State.me_refuse ..
      · exact State.me_setBus ..

theorem me_doAuxSelect (source : Byte) (s : State) (x : BankId) : (doAuxSelect source s).me x = s.me x := by
  unfold doAuxSelect; split
  · exact State.me_refuse ..
  · cases x <;> rfl

theorem me_doLoadCurve (curve : Byte) (points : Vector Word16 65) (s : State) (x : BankId) :
    (doLoadCurve curve points s).me x = s.me x := by
  unfold doLoadCurve; split
  · exact State.me_refuse ..
  · simp only [loadCurve]
    split <;> cases x <;> rfl

theorem me_doNoticeMask (info advisory degraded : Byte) (s : State) (x : BankId) :
    (doNoticeMask info advisory degraded s).me x = s.me x := by
  unfold doNoticeMask; split
  · cases x <;> rfl
  · exact State.me_refuse ..

/-! ### Commands of a bank's settings beside its layers (R76, R97 to R99, R134, R135) -/

section Settings
variable {s : State} (h : s.layersSound)
include h

theorem layersSound_doWipeSet (me shape reverse : Byte) (softness : Word16) :
    (doWipeSet me shape reverse softness s).layersSound := by
  unfold doWipeSet; split
  · exact layersSound_modifyMe h (h _)
  · exact layersSound_refuse h _ _ _

theorem layersSound_doTransSet (me kind : Byte) (rate : Word16) (curve : Byte) :
    (doTransSet me kind rate curve s).layersSound := by
  unfold doTransSet; split
  · unfold transSet; split
    · exact layersSound_modifyMe h (h _)
    · have hrefused := layersSound_refuse h
      exact layersSound_modifyMe (hrefused _ _ _) (hrefused _ _ _ _)
  · exact layersSound_refuse h _ _ _

theorem layersSound_doNextSet (me selection : Byte) : (doNextSet me selection s).layersSound := by
  unfold doNextSet; split
  · split
    · exact layersSound_modifyMe h (h _)
    · exact layersSound_refuse h _ _ _
  · exact layersSound_refuse h _ _ _

theorem layersSound_doLoadKeyframes (me first : Byte) (records : List KeyframeBytes) :
    (doLoadKeyframes me first records s).layersSound := by
  unfold doLoadKeyframes; split
  · exact layersSound_refuse h _ _ _
  · split
    · exact layersSound_refuse h _ _ _
    · split
      · exact layersSound_refuse h _ _ _
      · split
        · exact layersSound_refuse h _ _ _
        · exact layersSound_modifyMe h (h _)

theorem layersSound_doRunSet (me count endMode loops : Byte) : (doRunSet me count endMode loops s).layersSound := by
  unfold doRunSet; split
  · split
    · exact layersSound_refuse h _ _ _
    · exact layersSound_modifyMe h (h _)
  · exact layersSound_refuse h _ _ _

/-! ### Commands of one layer's settings (R81, R83, R120) -/

/-- A layer record with its fade as it was and a rate of 1 to 999 is sound. -/
theorem layersSound_layerSettings {bank : BankId} {l : LayerId} {x : Me → Layer}
    (hstate : (x (s.me bank)).state = ((s.me bank).layer l).state) (hlow : 1 ≤ (x (s.me bank)).rate)
    (hhigh : (x (s.me bank)).rate ≤ 999) : (s.modifyMe bank (fun m => m.setLayer l (x m))).layersSound := by
  obtain ⟨-, -, hfade⟩ := (h bank).1 l
  exact layersSound_modifyMe h (layersSound_setLayer (h bank) ⟨hlow, hhigh, hstate ▸ hfade⟩)

theorem layersSound_doKeySet (me layer kind : Byte) (clip : Word16) (gain invert : Byte) :
    (doKeySet me layer kind clip gain invert s).layersSound := by
  unfold doKeySet; split
  · rename_i bank l _ _ _ _ _ _
    obtain ⟨hlow, hhigh, -⟩ := (h bank).1 l
    exact layersSound_layerSettings h rfl hlow hhigh
  · exact layersSound_refuse h _ _ _

theorem layersSound_doMaskSet (me layer : Byte) (box : Option BoxWords) : (doMaskSet me layer box s).layersSound := by
  unfold doMaskSet; split
  · rename_i bank l _ _
    obtain ⟨hlow, hhigh, -⟩ := (h bank).1 l
    exact layersSound_layerSettings h rfl hlow hhigh
  · exact layersSound_refuse h _ _ _

/-- LAYER_RATE clamps the rate to 1 to 999 and leaves a fade its own rate in use (R120). -/
theorem layersSound_doLayerRate (me layer : Byte) (rate : Word16) : (doLayerRate me layer rate s).layersSound := by
  obtain ⟨hlow, hhigh⟩ := clampTo_bounds 1 999 rate.toNat (by decide)
  unfold doLayerRate; split
  · exact layersSound_layerSettings h rfl hlow hhigh
  · exact layersSound_refuse h _ _ _

/-! ### The stacking order (R125 to R127) -/

/-- A new stacking order that holds each layer exactly once leaves the layers as they were. -/
theorem layersSound_setOrder {bank : BankId} {order : Me → List LayerId} (hperm : (order (s.me bank)).Perm [0, 1, 2, 3]) :
    (s.modifyMe bank (fun m => { m with order := order m })).layersSound :=
  layersSound_modifyMe h ⟨(h bank).1, hperm⟩

theorem layersSound_doOrder (me first second third fourth : Byte) :
    (doOrder me first second third fourth s).layersSound := by
  unfold doOrder; split
  · exact layersSound_refuse h _ _ _
  · split
    · exact layersSound_refuse h _ _ _
    · rename_i hread
      exact layersSound_setOrder h (readOrder_perm hread)

theorem layersSound_doRaise (me layer : Byte) : (doRaise me layer s).layersSound := by
  unfold doRaise; split
  · rename_i bank l _ _
    exact layersSound_setOrder h (raisedOrder_perm (h bank).2 (by decide) l (mem_layers l))
  · exact layersSound_refuse h _ _ _

theorem layersSound_doLower (me layer : Byte) : (doLower me layer s).layersSound := by
  unfold doLower; split
  · rename_i bank l _ _
    exact layersSound_setOrder h (loweredOrder_perm (h bank).2 (by decide) l (mem_layers l))
  · exact layersSound_refuse h _ _ _

end Settings

/-! ### Resets (R15, R47, R48) -/

/-- The ENGINE scope drops every fade and keeps rates and stacking order (R47). -/
theorem Me.engineReset_layersSound {m : Me} (h : m.layersSound) : m.engineReset.layersSound := by
  obtain ⟨hlayers, horder⟩ := h
  refine ⟨fun l => ?_, horder⟩
  obtain ⟨hlow, hhigh, -⟩ := hlayers l
  rw [Me.engineReset_layer]
  exact ⟨hlow, hhigh, trivial⟩

theorem layersSound_powerOn {s : State} (ha : s.meA = Me.powerOn) (hb : s.meB = Me.powerOn) : s.layersSound
  | .a => show s.meA.layersSound from ha ▸ Me.powerOn_layersSound
  | .b => show s.meB.layersSound from hb ▸ Me.powerOn_layersSound

theorem layersSound_resetEngine {s : State} (h : s.layersSound) : (resetEngine s).layersSound
  | .a => Me.engineReset_layersSound (h .a)
  | .b => Me.engineReset_layersSound (h .b)

theorem layersSound_resetFull (s : State) : (resetFull s).layersSound := by
  unfold resetFull fullScope
  exact (onlyLanes_lanesFullReset _).engineWork.layersSound (layersSound_powerOn rfl rfl)

theorem layersSound_doReset (scope : Byte) {s : State} (h : s.layersSound) : (doReset scope s).layersSound := by
  unfold doReset; split
  · exact layersSound_resetEngine h
  · exact layersSound_resetFull s
  · exact layersSound_refuse h _ _ _

/-! ### The commands of a take -/

theorem layersSound_runCommand (c : Command) (s : State) (h : s.layersSound) : (runCommand c s).layersSound := by
  cases c with
  | cancel _ => exact h
  | cancelAll => exact h
  | reset scope => exact layersSound_doReset scope h
  | laneSet _ _ _ => exact (onlyLanes_doLaneSet ..).engineWork.layersSound h
  | resync _ => exact (onlyLanes_doResync ..).engineWork.layersSound h
  | select me bus source => exact layersSound_of_me_eq (me_doSelect me bus source s) h
  | auxSelect source => exact layersSound_of_me_eq (me_doAuxSelect source s) h
  | matte _ _ _ => exact h
  | loadCurve curve points => exact layersSound_of_me_eq (me_doLoadCurve curve points s) h
  | wipeSet _ _ _ _ => exact layersSound_doWipeSet h _ _ _ _
  | keySet _ _ _ _ _ _ => exact layersSound_doKeySet h _ _ _ _ _ _
  | maskSet _ _ _ => exact layersSound_doMaskSet h _ _ _
  | transSet _ _ _ _ => exact layersSound_doTransSet h _ _ _ _
  | nextSet _ _ => exact layersSound_doNextSet h _ _
  | cut _ => exact (engineWork_doCut ..).layersSound h
  | auto _ => exact (engineWork_doAuto ..).layersSound h
  | lever _ _ => exact (engineWork_doLever ..).layersSound h
  | layerOn _ _ => exact (engineWork_doLayerOn ..).layersSound h
  | layerOff _ _ => exact (engineWork_doLayerOff ..).layersSound h
  | layerRate _ _ _ => exact layersSound_doLayerRate h _ _ _
  | order _ _ _ _ _ => exact layersSound_doOrder h _ _ _ _ _
  | raise _ _ => exact layersSound_doRaise h _ _
  | lower _ _ => exact layersSound_doLower h _ _
  | loadKeyframes _ _ _ => exact layersSound_doLoadKeyframes h _ _ _
  | runSet _ _ _ _ => exact layersSound_doRunSet h _ _ _ _
  | run _ => exact (engineWork_doRun ..).layersSound h
  | step _ => exact (engineWork_doStep ..).layersSound h
  | hold _ => exact (engineWork_doHold ..).layersSound h
  | abort _ => exact (engineWork_doAbort ..).layersSound h
  | grab _ _ => exact (onlyStore_doGrab ..).engineWork.layersSound h
  | clear _ => exact (onlyStore_doClear ..).engineWork.layersSound h
  | noticeMask info advisory degraded => exact layersSound_of_me_eq (me_doNoticeMask info advisory degraded s) h
  | clearSummary => exact h

theorem layersSound_handOut (n : Nat) : ∀ s : State, s.layersSound → (handOut n s).layersSound := by
  induction n with
  | zero => exact fun _ h => h
  | succ n ih =>
    intro s h
    unfold handOut; split
    · exact h
    · refine ih _ (layersSound_runCommand _ _ ?_)
      split
      · exact (engineWork_post ..).layersSound h
      · exact h

/-! ### The switch line (R13, R42, R92) -/

theorem layersSound_plainSwitchLine (p : FieldParity) {s : State} (h : s.layersSound) : (plainSwitchLine p s).layersSound :=
  have hbanks := (engineWork_formedAtLine p s).trans (engineWork_banksWork _)
  layersSound_handOut _ _ ((hbanks.trans (onlyStore_storeWork ..).engineWork).layersSound h)

/-- At a format change each bank comes to REST from what its own work leaves (R13). -/
theorem layersSound_formatSwitchLine (p : FieldParity) {s : State} (h : s.layersSound) :
    (formatSwitchLine p s).layersSound := by
  intro x
  rw [formatSwitchLine_me]
  have hformed : (formedAtChange p s).layersSound := layersSound_of_me_eq (formedAtChange_me p s) h
  exact Me.engineReset_layersSound ((engineWork_banksWork _).layersSound hformed x)

theorem layersSound_switchLine (p : FieldParity) (s : State) (h : s.layersSound) : (switchLine p s).layersSound := by
  unfold switchLine; split
  · exact layersSound_formatSwitchLine p h
  · exact layersSound_plainSwitchLine p h

theorem layersSound_formatChangeLine (p : FieldParity) (s : State) (h : s.layersSound) :
    (formatChangeLine p s).layersSound := by
  unfold formatChangeLine; split
  · exact layersSound_formatSwitchLine p h
  · exact h

/-! ### Every operation -/

/-- Every operation of the commands keeps the layers and the stacking orders sound. -/
theorem kept_layersSound : Kept State.layersSound where
  restarted := fun _ _ _ _ => layersSound_powerOn rfl rfl
  signal := fun n signal s => (onlyLanes_laneSignal n signal s).engineWork.layersSound
  start := fun x s => (engineWork_referenceStart x s).layersSound
  missing := fun s => (engineWork_referenceMissing s).layersSound
  line := layersSound_switchLine
  report := fun s => (engineWork_reportLine s).layersSound
  packet := fun whole carrier s => (engineWork_packetArrives whole carrier s).layersSound
  due := fun s => (engineWork_dueEntry s).layersSound
  change := layersSound_formatChangeLine
  laneStart := fun n x s => (onlyLanes_laneStart n x s).engineWork.layersSound
  lock := fun n s => (onlyLanes_laneLock n s).engineWork.layersSound
  fadeEnd := fun bank l s => (engineWork_fadeEnd bank l s).layersSound
  autoDue := fun bank s => (engineWork_autoCompletionDue bank s).layersSound
  segmentEnd := fun bank s => (engineWork_segmentEnd bank s).layersSound
  release := fun bank s => (engineWork_syncRelease bank s).layersSound
  completion := fun m s => (onlyStore_completeGrab s m s).engineWork.layersSound
  begins := fun m s => (onlyStore_grabBegin m s).engineWork.layersSound
  timeout := fun m s => (onlyStore_grabWaitTimeout m s).engineWork.layersSound
  collect := fun target code count inner s => (onlyControl_collectAt target code count inner s).engineWork.layersSound
  command := layersSound_runCommand

/-- Settles O57: sound layers and stacking orders are kept by every operation, so by every step. -/
theorem stepsKeepLayersAndOrderSound : Obligations.StepsKeepLayersAndOrderSound := fun _ _ hsound hstep =>
  kept_layersSound.step (fun _ _ h => h) hsound hstep

end Sys2Proof.Machine
end

section
/-! LAYER_ON, LAYER_OFF, LAYER_RATE, FADE_END and the level of a layer (R114 to R120), and the stacking order under ORDER, RAISE and
LOWER (R125 to R127): each command by its parameters and by what it finds in the bank it names. -/

namespace Sys2Proof.Machine

/-! ### LAYER_ON and LAYER_OFF (R116 to R118) -/

theorem doLayerOn_of_none {me layer : Byte} (h : readBank me = none ∨ readLayer layer = none) (s : State) :
    doLayerOn me layer s = s.refuse 80 .target (.layer me layer) := by
  unfold doLayerOn
  split
  · rename_i hm hl; simp [hm, hl] at h
  · rfl

theorem doLayerOff_of_none {me layer : Byte} (h : readBank me = none ∨ readLayer layer = none) (s : State) :
    doLayerOff me layer s = s.refuse 81 .target (.layer me layer) := by
  unfold doLayerOff
  split
  · rename_i hm hl; simp [hm, hl] at h
  · rfl

theorem Me.layerBusy_iff (m : Me) (l : LayerId) :
    m.layerBusy l = true ↔ hasLayer m.selection l = true ∧ m.drive ≠ .rest := by
  simp [Me.layerBusy]

theorem Me.not_layerBusy {m : Me} {l : LayerId} (h : hasLayer m.selection l = false ∨ m.drive = .rest) :
    m.layerBusy l ≠ true := by
  rw [Ne, Me.layerBusy_iff]
  rintro ⟨hselected, hmoving⟩
  exact h.elim (ne_false_of_eq_true hselected) hmoving

section OnOff
variable {me layer : Byte} {bank : BankId} {l : LayerId} (hm : readBank me = some bank) (hl : readLayer layer = some l)
  {s : State}
include hm hl

theorem doLayerOn_of_busy (hbusy : (s.me bank).layerBusy l = true) :
    doLayerOn me layer s = s.refuse 80 .busy (.layer me layer) := by
  simp only [doLayerOn, hm, hl, layerOn, if_pos hbusy, bankByte_of hm, layerByte_of hl]

theorem doLayerOff_of_busy (hbusy : (s.me bank).layerBusy l = true) :
    doLayerOff me layer s = s.refuse 81 .busy (.layer me layer) := by
  simp only [doLayerOff, hm, hl, layerOff, if_pos hbusy, bankByte_of hm, layerByte_of hl]

theorem doLayerOn_of_free (hfree : (s.me bank).layerBusy l ≠ true) :
    doLayerOn me layer s =
      s.modifyMe bank (fun m =>
        m.setLayer l { m.layer l with state := ((s.me bank).layer l).state.turnedOn ((s.me bank).layer l).rate }) := by
  simp only [doLayerOn, hm, hl, layerOn, if_neg hfree]
  rfl

theorem doLayerOff_of_free (hfree : (s.me bank).layerBusy l ≠ true) :
    doLayerOff me layer s =
      s.modifyMe bank (fun m =>
        m.setLayer l { m.layer l with state := ((s.me bank).layer l).state.turnedOff ((s.me bank).layer l).rate }) := by
  simp only [doLayerOff, hm, hl, layerOff, if_neg hfree]
  rfl

end OnOff

theorem LayerState.turnedOn_off_of_slow {rate : Nat} (h : 2 ≤ rate) : LayerState.off.turnedOn rate = .rising 1 rate :=
  if_neg (by omega)

theorem LayerState.turnedOff_on_of_slow {rate : Nat} (h : 2 ≤ rate) :
    LayerState.on.turnedOff rate = .falling (rate - 1) rate :=
  if_neg (by omega)

/-- Settles O34: the refusals in order, then each command by the layer's state and, from OFF and ON, by its rate. -/
theorem layerOnAndOffStartOrReverseAFade : Obligations.LayerOnAndOffStartOrReverseAFade := by
  intro s me layer hr
  rw [exec_layerOn me layer hr, exec_layerOff me layer hr]
  refine ⟨fun h => ?_, fun bank l hm hl => ⟨fun hselected hmoving => ?_, fun h => ?_⟩⟩
  · rw [doLayerOn_of_none h, doLayerOff_of_none h]
    exact ⟨rfl, rfl⟩
  · have hbusy := ((s.me bank).layerBusy_iff l).mpr ⟨hselected, hmoving⟩
    rw [doLayerOn_of_busy hm hl hbusy, doLayerOff_of_busy hm hl hbusy]
    exact ⟨rfl, rfl⟩
  · have hfree := Me.not_layerBusy h
    rw [doLayerOn_of_free hm hl hfree, doLayerOff_of_free hm hl hfree]
    refine ⟨_, _, rfl, rfl, fun hoff hslow => ?_, fun hoff hfast => ?_, fun c rf hrising => ?_, fun hon hslow => ?_,
      fun hon hfast => ?_, fun c rf hfalling => ?_⟩
    · rw [hoff]; exact ⟨LayerState.turnedOn_off_of_slow hslow, rfl⟩
    · rw [hoff, hfast]; exact ⟨rfl, rfl⟩
    · rw [hrising]; exact ⟨rfl, rfl⟩
    · rw [hon]; exact ⟨rfl, LayerState.turnedOff_on_of_slow hslow⟩
    · rw [hon, hfast]; exact ⟨rfl, rfl⟩
    · rw [hfalling]; exact ⟨rfl, rfl⟩

/-! ### LAYER_RATE (R120) -/

theorem doLayerRate_of_read {me layer : Byte} {bank : BankId} {l : LayerId} (hm : readBank me = some bank)
    (hl : readLayer layer = some l) (rate : Word16) (s : State) :
    doLayerRate me layer rate s =
      s.modifyMe bank (fun m => m.setLayer l { m.layer l with rate := max 1 (min 999 rate.toNat) }) := by
  simp only [doLayerRate, hm, hl, clampTo]

theorem doLayerRate_of_none {me layer : Byte} (h : readBank me = none ∨ readLayer layer = none) (rate : Word16) (s : State) :
    doLayerRate me layer rate s = s.refuse 82 .target (.layer me layer) := by
  unfold doLayerRate
  split
  · rename_i hm hl; simp [hm, hl] at h
  · rfl

/-! ### The level of a fade (R114) -/

/-- A count strictly between 0 and Rf, with Rf below 1024, stands for a level strictly between nothing and full. -/
theorem fadeLevel_bounds {c rf : Nat} (hc : 1 ≤ c) (hlt : c < rf) (hrf : rf ≤ 999) :
    1 ≤ 1024 * c / rf ∧ 1024 * c / rf ≤ 1023 := by
  constructor
  · rw [Nat.le_div_iff_mul_le (by omega)]; omega
  · rw [← Nat.lt_succ_iff, Nat.div_lt_iff_lt_mul (by omega)]; omega

/-! ### FADE_END (R115, log 3) -/

section FadeEnd
variable {s : State} {bank : BankId} {l : LayerId}

/-- A fade that its next step ends takes that step. -/
theorem fadeEnd_of_ends {x : LayerState} (hends : ((s.me bank).layer l).state.fadeEnds = true)
    (hstep : ((s.me bank).layer l).state.fadeStep = x) :
    fadeEnd bank l s = s.modifyMe bank (fun m => m.setLayer l { m.layer l with state := x }) := by
  subst hstep
  simp only [fadeEnd, if_pos hends]
  rfl

theorem fadeEnd_of_goes_on (h : ((s.me bank).layer l).state.fadeEnds = false) : fadeEnd bank l s = s := by
  simp [fadeEnd, h]

theorem fadeEnd_of_rising {c rf : Nat} (h : ((s.me bank).layer l).state = .rising c rf) :
    (rf ≤ c + 1 → fadeEnd bank l s = s.modifyMe bank (fun m => m.setLayer l { m.layer l with state := .on })) ∧
      (c + 1 < rf → fadeEnd bank l s = s) := by
  refine ⟨fun hlast => fadeEnd_of_ends ?_ ?_, fun hmore => fadeEnd_of_goes_on ?_⟩ <;> rw [h]
  · exact decide_eq_true hlast
  · exact if_pos hlast
  · exact decide_eq_false (Nat.not_le.mpr hmore)

theorem fadeEnd_of_falling {c rf : Nat} (h : ((s.me bank).layer l).state = .falling c rf) :
    (c ≤ 1 → fadeEnd bank l s = s.modifyMe bank (fun m => m.setLayer l { m.layer l with state := .off })) ∧
      (2 ≤ c → fadeEnd bank l s = s) := by
  refine ⟨fun hlast => fadeEnd_of_ends ?_ ?_, fun hmore => fadeEnd_of_goes_on ?_⟩ <;> rw [h]
  · exact decide_eq_true hlast
  · exact if_pos hlast
  · exact decide_eq_false (Nat.not_le.mpr hmore)

theorem fadeEnd_of_standing (h : ((s.me bank).layer l).state = .off ∨ ((s.me bank).layer l).state = .on) :
    fadeEnd bank l s = s := by
  apply fadeEnd_of_goes_on
  obtain h | h := h <;> rw [h] <;> rfl

end FadeEnd

/-- Settles O35: LAYER_RATE by its parameters, the level of a fade by its bounds, and FADE_END by the state of the layer. -/
theorem layerRateLevelAndFadeEnd : Obligations.LayerRateLevelAndFadeEnd := by
  refine ⟨fun s me layer rate hr => ?_, ⟨rfl, rfl, fun c rf hc hlt hrf => ⟨rfl, rfl, fadeLevel_bounds hc hlt hrf⟩⟩,
    fun s bank l hr => ?_⟩
  · rw [exec_layerRate me layer rate hr]
    exact ⟨fun h => congrArg _ (doLayerRate_of_none h rate s),
      fun bank l hm hl => congrArg _ (doLayerRate_of_read hm hl rate s)⟩
  · simp only [exec_fadeEnd bank l hr, Host.Outcome.next.injEq]
    exact ⟨fun c rf => fadeEnd_of_rising, fun c rf => fadeEnd_of_falling, fadeEnd_of_standing⟩

/-! ### RAISE and LOWER (R126, R127) -/

theorem doRaise_of_none {me layer : Byte} (h : readBank me = none ∨ readLayer layer = none) (s : State) :
    doRaise me layer s = s.refuse 84 .target (.layer me layer) := by
  unfold doRaise
  split
  · rename_i hm hl; simp [hm, hl] at h
  · rfl

theorem doLower_of_none {me layer : Byte} (h : readBank me = none ∨ readLayer layer = none) (s : State) :
    doLower me layer s = s.refuse 85 .target (.layer me layer) := by
  unfold doLower
  split
  · rename_i hm hl; simp [hm, hl] at h
  · rfl

/-- Writing the order that a bank already holds changes nothing. -/
theorem modifyMe_same_order {s : State} {bank : BankId} {order : List LayerId} (h : order = (s.me bank).order) :
    s.modifyMe bank (fun m => { m with order := order }) = s := by
  subst h
  exact State.setMe_me s bank

theorem filter_ne_of_notMem {order : List LayerId} {l : LayerId} (h : l ∉ order) : order.filter (· ≠ l) = order :=
  List.filter_eq_self.mpr fun _ hx => decide_eq_true fun e => h (e ▸ hx)

theorem raisedOrder_of_last {below : List LayerId} {l : LayerId} (h : l ∉ below) :
    raisedOrder (below ++ [l]) l = below ++ [l] := by
  rw [raisedOrder, List.filter_append, filter_ne_of_notMem h]
  simp

theorem loweredOrder_of_first {above : List LayerId} {l : LayerId} (h : l ∉ above) :
    loweredOrder (l :: above) l = l :: above := by
  rw [loweredOrder, List.filter_cons_of_neg (by simp), filter_ne_of_notMem h]

section Move
variable {me layer : Byte} {bank : BankId} {l : LayerId} (hm : readBank me = some bank) (hl : readLayer layer = some l)
  (s : State)
include hm hl

theorem doRaise_of_read :
    doRaise me layer s = s.modifyMe bank (fun m => { m with order := raisedOrder (s.me bank).order l }) := by
  simp only [doRaise, hm, hl]
  rfl

theorem doLower_of_read :
    doLower me layer s = s.modifyMe bank (fun m => { m with order := loweredOrder (s.me bank).order l }) := by
  simp only [doLower, hm, hl]
  rfl

end Move

/-- Settles O36: each command by its parameters, with the new order written out, and a layer that is already at its place. -/
theorem raiseAndLowerMoveOneLayer : Obligations.RaiseAndLowerMoveOneLayer := by
  refine ⟨fun s me layer hr => ?_, fun s me layer hr => ?_⟩
  · rw [exec_raise me layer hr]
    refine ⟨fun h => congrArg _ (doRaise_of_none h s), fun bank l hm hl => ?_⟩
    rw [doRaise_of_read hm hl]
    refine ⟨⟨_, rfl, rfl⟩, fun below horder hnot => congrArg _ (modifyMe_same_order ?_)⟩
    rw [horder, raisedOrder_of_last hnot]
  · rw [exec_lower me layer hr]
    refine ⟨fun h => congrArg _ (doLower_of_none h s), fun bank l hm hl => ?_⟩
    rw [doLower_of_read hm hl]
    refine ⟨⟨_, rfl, rfl⟩, fun above horder hnot => congrArg _ (modifyMe_same_order ?_)⟩
    rw [horder, loweredOrder_of_first hnot]

/-! ### ORDER (R125) -/

/-- A byte from 1 to 4 is the byte of a layer. -/
theorem exists_layerByte {n : Byte} (h : 1 ≤ n.toNat ∧ n.toNat ≤ 4) : ∃ l : LayerId, n = layerByte l :=
  have hread : readLayer n = some ⟨n.toNat - 1, by omega⟩ := readLayer_of (by simp only; omega)
  ⟨_, (layerByte_of hread).symm⟩

theorem layerByte_toNat (l : LayerId) : (layerByte l).toNat = l.val + 1 := by
  revert l; decide

theorem readLayer_layerByte (l : LayerId) : readLayer (layerByte l) = some l :=
  readLayer_of (layerByte_toNat l)

theorem layerByte_inj {l k : LayerId} : layerByte l = layerByte k ↔ l = k :=
  ⟨fun h => by rw [← Option.some_inj, ← readLayer_layerByte l, h, readLayer_layerByte], congrArg layerByte⟩

theorem nodup_map_layerByte (order : List LayerId) : (order.map layerByte).Nodup ↔ order.Nodup := by
  simp only [List.Nodup, List.pairwise_map, ne_eq, layerByte_inj]

/-- An order that is read is the one that the four bytes name. -/
theorem readOrder_bytes {first second third fourth : Byte} {order : List LayerId}
    (h : readOrder first second third fourth = some order) :
    [first, second, third, fourth] = order.map layerByte ∧ order.Nodup := by
  unfold readOrder at h
  split at h
  · rename_i hp hq hr ht
    split at h
    · rename_i hnodup
      cases h
      simp only [List.map, layerByte_of hp, layerByte_of hq, layerByte_of hr, layerByte_of ht]
      exact ⟨trivial, hnodup⟩
    · cases h
  · cases h

theorem readOrder_of_layers {p q r t : LayerId} (h : [p, q, r, t].Nodup) :
    readOrder (layerByte p) (layerByte q) (layerByte r) (layerByte t) = some [p, q, r, t] := by
  simp only [readOrder, readLayer_layerByte, if_pos h]

section Order
variable {first second third fourth : Byte}

/-- A number outside 1 to 4, or one that appears twice, leaves the list unread. -/
theorem readOrder_eq_none
    (h : (∃ n ∈ [first, second, third, fourth], n.toNat = 0 ∨ 4 < n.toNat) ∨ ¬ [first, second, third, fourth].Nodup) :
    readOrder first second third fourth = none := by
  rw [Option.eq_none_iff_forall_ne_some]
  intro order hread
  obtain ⟨hbytes, hnodup⟩ := readOrder_bytes hread
  rw [hbytes] at h
  obtain ⟨n, hn, hrange⟩ | hrepeated := h
  · obtain ⟨l, -, rfl⟩ := List.mem_map.mp hn
    rw [layerByte_toNat] at hrange
    omega
  · exact hrepeated ((nodup_map_layerByte order).mpr hnodup)

/-- Four distinct numbers from 1 to 4 are read as the order they show. -/
theorem readOrder_eq_some (hrange : ∀ n ∈ [first, second, third, fourth], 1 ≤ n.toNat ∧ n.toNat ≤ 4)
    (hnodup : [first, second, third, fourth].Nodup) :
    ∃ order : List LayerId,
      readOrder first second third fourth = some order ∧
        order.map (fun l => l.val + 1) = [first.toNat, second.toNat, third.toNat, fourth.toNat] := by
  obtain ⟨p, rfl⟩ := exists_layerByte (hrange first (by simp))
  obtain ⟨q, rfl⟩ := exists_layerByte (hrange second (by simp))
  obtain ⟨r, rfl⟩ := exists_layerByte (hrange third (by simp))
  obtain ⟨t, rfl⟩ := exists_layerByte (hrange fourth (by simp))
  have hlayers : [p, q, r, t].Nodup := (nodup_map_layerByte _).mp hnodup
  exact ⟨_, readOrder_of_layers hlayers, by simp only [List.map, layerByte_toNat]⟩

end Order

theorem doOrder_of_no_bank {me : Byte} (hm : readBank me = none) (first second third fourth : Byte) (s : State) :
    doOrder me first second third fourth s = s.refuse 83 .target (.me me) := by
  simp only [doOrder, hm]

section WithBank
variable {me : Byte} {bank : BankId} (hm : readBank me = some bank) {first second third fourth : Byte}
include hm

theorem doOrder_of_unread (h : readOrder first second third fourth = none) (s : State) :
    doOrder me first second third fourth s = s.refuse 83 .order (.me me) := by
  simp only [doOrder, hm, h]

theorem doOrder_of_read {order : List LayerId} (h : readOrder first second third fourth = some order) (s : State) :
    doOrder me first second third fourth s = s.modifyMe bank (fun m => { m with order := order }) := by
  simp only [doOrder, hm, h]

end WithBank

/-- Settles O37: the check of the M/E, then the list as a whole, read or not. -/
theorem orderReplacesTheStackingOrder : Obligations.OrderReplacesTheStackingOrder := by
  intro s me first second third fourth hr
  rw [exec_order me first second third fourth hr]
  refine ⟨fun hm => congrArg _ (doOrder_of_no_bank hm ..), fun bank hm => ⟨fun hbad => ?_, fun hrange hnodup => ?_⟩⟩
  · rw [doOrder_of_unread hm (readOrder_eq_none hbad)]
  · obtain ⟨order, hread, hshown⟩ := readOrder_eq_some hrange hnodup
    rw [doOrder_of_read hm hread]
    exact ⟨order, rfl, hshown, fun l => (readOrder_perm hread).mem_iff.mpr (mem_layers l)⟩

end Sys2Proof.Machine
end

section
/-! LOAD_KEYFRAMES and RUN_SET (R133 to R135), and RUN, STEP, HOLD and ABORT (R145 to R150): what each record is held as and where it
stands in the table, and each command by the state of the run that it finds. -/

namespace Sys2Proof.Machine

/-! ### A record as it is held (R133, R134) -/

/-- Whether a record's sync choice and layer sets are outside what exists (R134). -/
def SetsOutside (r : KeyframeBytes) : Prop :=
  1 < r.sync.toNat ∨ (∃ x : Byte, r.layerOn = some x ∧ 15 < x.toNat) ∨ ∃ x : Byte, r.layerOff = some x ∧ 15 < x.toNat

/-- Whether a record's sync choice and layer sets exist (R134). -/
def SetsInside (r : KeyframeBytes) : Prop :=
  r.sync.toNat ≤ 1 ∧ (∀ x : Byte, r.layerOn = some x → x.toNat ≤ 15) ∧ ∀ x : Byte, r.layerOff = some x → x.toNat ≤ 15

/-- How a record of the table answers to the bytes it was loaded from (R134). -/
def Keyframe.HeldFor (k : Keyframe) (r : KeyframeBytes) : Prop :=
  k.target = min 4096 r.target.toNat ∧ k.duration = max 1 (min 999 r.duration.toNat) ∧ k.sync = (r.sync = 1 : Bool) ∧
    k.layerOn.toNat = (r.layerOn.getD 0).toNat ∧ k.layerOff.toNat = (r.layerOff.getD 0).toNat ∧ k.preset = r.preset

theorem readSwitch_none {b : Byte} (h : 1 < b.toNat) : readSwitch b = none := by
  unfold readSwitch
  split
  · omega
  · omega
  · rfl

theorem readSwitch_of_le {b : Byte} (h : b.toNat ≤ 1) : readSwitch b = some (b = 1 : Bool) := by
  rw [readSwitch_eq]
  obtain rfl | rfl : b = 0 ∨ b = 1 := by bv_omega
  · rfl
  · rfl

theorem readRecordSet_none {set : Option Byte} (h : ∃ x : Byte, set = some x ∧ 15 < x.toNat) : readRecordSet set = none := by
  obtain ⟨x, rfl, hx⟩ := h
  exact (readLayerSet_none_iff x).mpr hx

/-- An absent set and one sent empty are both held as the empty set. -/
theorem readRecordSet_of_le {set : Option Byte} (h : ∀ x : Byte, set = some x → x.toNat ≤ 15) :
    ∃ held : LayerSet, readRecordSet set = some held ∧ held.toNat = (set.getD 0).toNat := by
  cases set with
  | none => exact ⟨0, rfl, rfl⟩
  | some x =>
    obtain ⟨held, hread⟩ := Option.ne_none_iff_exists'.mp
      (mt (readLayerSet_none_iff x).mp (Nat.not_lt.mpr (h x rfl)))
    exact ⟨held, hread, ((readLayerSet_iff x held).mp hread).symm⟩

/-- How the records of a command answer, place by place, to the bytes they were loaded from (R134). -/
structure AllHeldFor (ks : List Keyframe) (records : List KeyframeBytes) : Prop where
  length_eq : ks.length = records.length
  heldFor : ∀ {j : Nat} {r : KeyframeBytes}, records[j]? = some r → ∃ k : Keyframe, ks[j]? = some k ∧ k.HeldFor r

theorem readKeyframe_of_outside {r : KeyframeBytes} (h : SetsOutside r) : readKeyframe r = none := by
  unfold readKeyframe
  split
  · rename_i hsync hon hoff
    obtain h | h | h := h
    · rw [readSwitch_none h] at hsync; cases hsync
    · rw [readRecordSet_none h] at hon; cases hon
    · rw [readRecordSet_none h] at hoff; cases hoff
  · rfl

theorem readKeyframe_of_inside {r : KeyframeBytes} (h : SetsInside r) : ∃ k : Keyframe, readKeyframe r = some k ∧ k.HeldFor r := by
  obtain ⟨hsync, hon, hoff⟩ := h
  obtain ⟨on, hread, hheld⟩ := readRecordSet_of_le hon
  obtain ⟨off, hread', hheld'⟩ := readRecordSet_of_le hoff
  simp only [readKeyframe, readSwitch_of_le hsync, hread, hread', Option.some.injEq, exists_eq_left']
  exact ⟨Nat.zero_max _, rfl, rfl, hheld, hheld', rfl⟩

/-! ### The records of one command (R134) -/

theorem readKeyframes_of_outside {r : KeyframeBytes} (h : SetsOutside r) :
    ∀ {records : List KeyframeBytes}, r ∈ records → readKeyframes records = none
  | x :: rest, hr => by
    obtain rfl | hr := List.mem_cons.mp hr
    · simp only [readKeyframes, readKeyframe_of_outside h]
    · rw [readKeyframes, readKeyframes_of_outside h hr]
      cases readKeyframe x <;> rfl

theorem AllHeldFor.nil : AllHeldFor [] [] :=
  ⟨rfl, fun h => nomatch h⟩

theorem AllHeldFor.cons {k : Keyframe} {r : KeyframeBytes} {ks : List Keyframe} {records : List KeyframeBytes}
    (h : k.HeldFor r) (hrest : AllHeldFor ks records) : AllHeldFor (k :: ks) (r :: records) := by
  refine ⟨congrArg Nat.succ hrest.length_eq, fun {j x} hx => ?_⟩
  cases j with
  | zero => cases hx; exact ⟨k, rfl, h⟩
  | succ j => exact hrest.heldFor hx

theorem readKeyframes_of_inside :
    ∀ {records : List KeyframeBytes}, (∀ r ∈ records, SetsInside r) →
      ∃ ks : List Keyframe, readKeyframes records = some ks ∧ AllHeldFor ks records
  | [], _ => ⟨[], rfl, AllHeldFor.nil⟩
  | r :: rest, h => by
    obtain ⟨k, hk, hheld⟩ := readKeyframe_of_inside (h r List.mem_cons_self)
    obtain ⟨ks, hks, hrest⟩ := readKeyframes_of_inside (fun x hx => h x (List.mem_cons_of_mem r hx))
    exact ⟨k :: ks, by simp only [readKeyframes, hk, hks], AllHeldFor.cons hheld hrest⟩

/-- After the writing an index holds the record that falls on it, and without one what it held before. -/
theorem writeKeyframes_get (i : Fin 32) : ∀ (ks : List Keyframe) (table : Vector Keyframe 32) (first : Nat),
    (writeKeyframes table first ks)[i] = if first ≤ i.val then (ks[i.val - first]?).getD table[i] else table[i]
  | [], table, first => by simp [writeKeyframes]
  | k :: rest, table, first => by
    rw [writeKeyframes, writeKeyframes_get i rest]
    simp only [Fin.getElem_fin, Vector.getElem_setIfInBounds]
    obtain hlt | heq | hgt := Nat.lt_trichotomy i.val first
    · rw [if_neg (by omega), if_neg (by omega), if_neg (by omega)]
    · rw [if_neg (by omega), if_pos heq.symm, if_pos (Nat.le_of_eq heq.symm), Nat.sub_eq_zero_of_le (Nat.le_of_eq heq)]
      rfl
    · have hnext : i.val - first = i.val - (first + 1) + 1 := by omega
      rw [if_pos (Nat.succ_le_of_lt hgt), if_neg (Nat.ne_of_lt hgt), if_pos (Nat.le_of_lt hgt), hnext, List.getElem?_cons_succ]

theorem writeKeyframes_get_outside {i : Fin 32} {ks : List Keyframe} {first : Nat}
    (h : i.val < first ∨ first + ks.length ≤ i.val) (table : Vector Keyframe 32) :
    (writeKeyframes table first ks)[i] = table[i] := by
  rw [writeKeyframes_get]
  split
  · rw [List.getElem?_eq_none (by omega)]; rfl
  · rfl

/-- The record held at an index is the one that was sent for it. -/
theorem writeKeyframes_heldFor {records : List KeyframeBytes} {ks : List Keyframe}
    (h : AllHeldFor ks records) (table : Vector Keyframe 32) {first : Nat} {i : Fin 32}
    (hi : first ≤ i.val) {r : KeyframeBytes} (hr : records[i.val - first]? = some r) :
    ((writeKeyframes table first ks)[i]).HeldFor r := by
  obtain ⟨k, hk, hfor⟩ := h.heldFor hr
  rw [writeKeyframes_get, if_pos hi, hk]
  exact hfor

/-! ### LOAD_KEYFRAMES and RUN_SET (R134, R135) -/

theorem RunState.playing_iff (r : RunState) : r.playing = true ↔ r ≠ .idle ∧ r ≠ .paused := by
  cases r <;> simp [RunState.playing]

theorem RunState.not_playing {r : RunState} (h : r = .idle ∨ r = .paused) : ¬ r.playing = true := by
  rw [RunState.playing_iff]
  exact fun ⟨hidle, hpaused⟩ => h.elim hidle hpaused

theorem doLoadKeyframes_of_target {me first : Byte} {records : List KeyframeBytes}
    (h : readBank me = none ∨ 31 < first.toNat ∨ 32 < first.toNat + records.length) (s : State) :
    doLoadKeyframes me first records s = s.refuse 96 .target (.me me) := by
  unfold doLoadKeyframes
  split
  · rfl
  · rename_i hm
    rw [if_pos (h.resolve_left (by rw [hm]; exact nofun))]

section Load
variable {me first : Byte} {records : List KeyframeBytes} {bank : BankId} (hm : readBank me = some bank)
  (s : State)
include hm

theorem doLoadKeyframes_of_unread (h : readKeyframes records = none) :
    doLoadKeyframes me first records s = s.refuse 96 .target (.me me) := by
  simp only [doLoadKeyframes, hm, h, ite_self]

theorem doLoadKeyframes_of_read (hfirst : first.toNat ≤ 31) (hextent : first.toNat + records.length ≤ 32)
    {ks : List Keyframe} (h : readKeyframes records = some ks) :
    doLoadKeyframes me first records s =
      if (s.me bank).run.state.playing then s.refuse 96 .busy (.me me)
      else s.modifyMe bank (fun m => { m with table := writeKeyframes m.table first.toNat ks }) := by
  have hfits : ¬ (first.toNat > 31 ∨ first.toNat + records.length > 32) := by omega
  simp only [doLoadKeyframes, hm, h, if_neg hfits]

end Load

theorem doRunSet_of_none {me endMode : Byte} (h : readBank me = none ∨ readEndMode endMode = none) (count loops : Byte)
    (s : State) : doRunSet me count endMode loops s = s.refuse 97 .target (.me me) := by
  unfold doRunSet
  split
  · rename_i hm he; simp [hm, he] at h
  · rfl

theorem doRunSet_of_read {me endMode : Byte} {bank : BankId} {e : EndMode} (hm : readBank me = some bank)
    (he : readEndMode endMode = some e) (count loops : Byte) (s : State) :
    doRunSet me count endMode loops s =
      if (s.me bank).run.state.playing then s.refuse 97 .busy (.me me)
      else s.modifyMe bank (fun m => { m with count := min 32 count.toNat, endMode := e, loops := min 63 loops.toNat }) := by
  simp only [doRunSet, hm, he, clampTo, Nat.zero_max]

theorem readEndMode_none {b : Byte} (h : 1 < b.toNat) : readEndMode b = none := by
  unfold readEndMode
  split
  · omega
  · omega
  · rfl

theorem readEndMode_of_le {b : Byte} (h : b.toNat ≤ 1) : readEndMode b = some (if b = 0 then .stop else .loop) := by
  rw [readEndMode_eq]
  obtain rfl | rfl : b = 0 ∨ b = 1 := by bv_omega
  · rfl
  · rfl

/-- Settles O38: LOAD_KEYFRAMES by its operands, its records as read and the run's state, then RUN_SET. -/
theorem keyframeTableAndRunSettings : Obligations.KeyframeTableAndRunSettings := by
  refine fun s me hr => ⟨fun first records => ?_, fun count endMode loops => ?_⟩
  · rw [exec_loadKeyframes me first records hr]
    refine ⟨fun h => congrArg _ (doLoadKeyframes_of_target h s), fun bank hm hfirst hextent => ⟨?_, fun hinside => ?_⟩⟩
    · rintro ⟨r, hr, houtside⟩
      rw [doLoadKeyframes_of_unread hm s (readKeyframes_of_outside houtside hr)]
    · obtain ⟨ks, hread, hheld⟩ := readKeyframes_of_inside hinside
      rw [doLoadKeyframes_of_read hm s hfirst hextent hread]
      refine ⟨fun hidle hpaused => ?_, fun hstill => ?_⟩
      · rw [if_pos ((RunState.playing_iff _).mpr ⟨hidle, hpaused⟩)]
      · rw [if_neg (RunState.not_playing hstill)]
        exact ⟨writeKeyframes (s.me bank).table first.toNat ks, rfl,
          fun i hi => writeKeyframes_get_outside (hheld.length_eq ▸ hi) _,
          fun i r hi hr => writeKeyframes_heldFor hheld _ hi hr⟩
  · rw [exec_runSet me count endMode loops hr]
    refine ⟨fun h => congrArg _ (doRunSet_of_none (h.imp_right readEndMode_none) ..), fun bank hm hend => ?_⟩
    rw [doRunSet_of_read hm (readEndMode_of_le hend)]
    refine ⟨fun hidle hpaused => ?_, fun hstill => ?_⟩
    · rw [if_pos ((RunState.playing_iff _).mpr ⟨hidle, hpaused⟩)]
    · rw [if_neg (RunState.not_playing hstill)]

/-! ### The start of a run from IDLE (R146, R147) -/

theorem startRefusal_of_auto {m : Me} {start span k : Nat} (h : m.drive = .auto start span k) : startRefusal m = some .busy := by
  rw [startRefusal, h]
  exact if_pos ⟨nofun, nofun⟩

section Still
variable {m : Me} (hstill : m.drive = .rest ∨ m.drive = .manual)
include hstill

/-- From REST and MANUAL the checks are those of the count, the selection and the fades. -/
theorem startRefusal_of_still :
    startRefusal m =
      if m.count = 0 then some .empty else if m.selection = 0 then some .empty
      else if m.selectedFading then some .busy else none :=
  if_neg fun ⟨hrest, hmanual⟩ => hstill.elim hrest hmanual

theorem startRefusal_of_empty (h : m.count = 0 ∨ m.selection = 0) : startRefusal m = some .empty := by
  rw [startRefusal_of_still hstill]
  obtain h | h := h
  · rw [if_pos h]
  · rw [if_pos h, ite_self]

variable (hcount : m.count ≠ 0) (hsel : m.selection ≠ 0)
include hcount hsel

theorem startRefusal_of_fading (h : m.selectedFading = true) : startRefusal m = some .busy := by
  rw [startRefusal_of_still hstill, if_neg hcount, if_neg hsel, if_pos h]

theorem startRefusal_of_passes (h : ¬ m.selectedFading = true) : startRefusal m = none := by
  rw [startRefusal_of_still hstill, if_neg hcount, if_neg hsel, if_neg h]

end Still

/-! ### RUN, STEP, HOLD and ABORT by the state of the run (R145 to R150) -/

section Commands
variable {me : Byte} (s : State)

theorem doRun_of_none (h : readBank me = none) : doRun me s = s.refuse 98 .target (.me me) := by
  simp only [doRun, h]

theorem doStep_of_none (h : readBank me = none) : doStep me s = s.refuse 99 .target (.me me) := by
  simp only [doStep, h]

theorem doHold_of_none (h : readBank me = none) : doHold me s = s.refuse 100 .target (.me me) := by
  simp only [doHold, h]

theorem doAbort_of_none (h : readBank me = none) : doAbort me s = s.refuse 101 .target (.me me) := by
  simp only [doAbort, h]

variable {bank : BankId} (h : readBank me = some bank)
include h

theorem doRun_of_bank : doRun me s = runBank bank s := by
  simp only [doRun, h]

theorem doStep_of_bank : doStep me s = stepBank bank s := by
  simp only [doStep, h]

theorem doHold_of_bank : doHold me s = holdBank bank s := by
  simp only [doHold, h]

theorem doAbort_of_bank : doAbort me s = abortBank bank s := by
  simp only [doAbort, h]

end Commands

section RunOfABank
variable {bank : BankId} {s : State}

theorem startRun_of_refused {reason : Reason} (h : startRefusal (s.me bank) = some reason) (code : Byte) (first : RunState) :
    startRun code first bank s = s.refuse code reason (.me (bankByte bank)) := by
  simp only [startRun, h]

theorem startRun_of_passes (h : startRefusal (s.me bank) = none) (code : Byte) (first : RunState) :
    startRun code first bank s =
      s.modifyMe bank
        (fun m =>
          { m with drive := .keyed, run := { state := first, index := 0, start := 0, counter := 0, passes := m.loops } }) := by
  simp only [startRun, h]

/-- A refused start is refused to RUN and to STEP alike. -/
theorem startRuns_refused {reason : Reason} (h : startRefusal (s.me bank) = some reason) :
    startRun 98 .running bank s = s.refuse 98 reason (.me (bankByte bank)) ∧
      startRun 99 .holding bank s = s.refuse 99 reason (.me (bankByte bank)) :=
  ⟨startRun_of_refused h 98 .running, startRun_of_refused h 99 .holding⟩

theorem runBank_of_idle (h : (s.me bank).run.state = .idle) : runBank bank s = startRun 98 .running bank s := by
  simp only [runBank, h]

theorem runBank_of_going (h : (s.me bank).run.state = .running ∨ ∃ r : ResumeState, (s.me bank).run.state = .waiting r) :
    runBank bank s = s := by
  obtain h | ⟨r, h⟩ := h <;> simp only [runBank, h]

theorem runBank_of_standing (h : (s.me bank).run.state = .holding ∨ (s.me bank).run.state = .paused) :
    runBank bank s = setRunState bank .running s := by
  obtain h | h := h <;> simp only [runBank, h]

theorem stepBank_of_idle (h : (s.me bank).run.state = .idle) : stepBank bank s = startRun 99 .holding bank s := by
  simp only [stepBank, h]

theorem stepBank_of_going (h : (s.me bank).run.state = .running ∨ ∃ r : ResumeState, (s.me bank).run.state = .waiting r) :
    stepBank bank s = s.refuse 99 .busy (.me (bankByte bank)) := by
  obtain h | ⟨r, h⟩ := h <;> simp only [stepBank, h]

theorem stepBank_of_holding (h : (s.me bank).run.state = .holding) : stepBank bank s = s := by
  simp only [stepBank, h]

theorem stepBank_of_paused (h : (s.me bank).run.state = .paused) : stepBank bank s = setRunState bank .holding s := by
  simp only [stepBank, h]

theorem holdBank_of_still
    (h : (s.me bank).run.state = .idle ∨ (s.me bank).run.state = .holding ∨ (s.me bank).run.state = .paused) :
    holdBank bank s = s := by
  obtain h | h | h := h <;> simp only [holdBank, h]

theorem holdBank_of_running (h : (s.me bank).run.state = .running) : holdBank bank s = setRunState bank .holding s := by
  simp only [holdBank, h]

theorem holdBank_of_waiting {r : ResumeState} (h : (s.me bank).run.state = .waiting r) :
    holdBank bank s = setRunState bank .paused s := by
  simp only [holdBank, h]

theorem abortBank_of_idle (h : (s.me bank).run.state = .idle) : abortBank bank s = s :=
  if_pos h

section Aborted
variable (hrun : (s.me bank).run.state ≠ .idle)
include hrun

theorem abortBank_of_run : abortBank bank s = s.modifyMe bank (fun m => { m with run := Run.idle }.resolved) :=
  if_neg hrun

theorem abortBank_of_zero (hp : (s.me bank).position = 0) :
    abortBank bank s = s.modifyMe bank (fun m => { m with run := Run.idle, drive := .rest, pickup := true }) :=
  (abortBank_of_run hrun).trans (State.modifyMe_congr s bank (Me.resolved_of_zero hp))

theorem abortBank_of_ne_zero (hp : (s.me bank).position ≠ 0) :
    abortBank bank s = s.modifyMe bank (fun m => { m with run := Run.idle, drive := .manual, pickup := true }) :=
  (abortBank_of_run hrun).trans (State.modifyMe_congr s bank (Me.resolved_of_ne_zero hp))

end Aborted

end RunOfABank

/-- Settles O39: RUN and STEP side by side, from IDLE by the checks of a start and elsewhere by the state of the run. -/
theorem runAndStepStartOrResumeARun : Obligations.RunAndStepStartOrResumeARun := by
  intro s me hr
  simp only [exec_run me hr, exec_step me hr, Host.Outcome.next.injEq]
  refine ⟨fun hm => ⟨doRun_of_none s hm, doStep_of_none s hm⟩, fun bank fading hm hfading => ?_⟩
  rw [← Me.selectedFading_iff] at hfading
  rw [doRun_of_bank s hm, doStep_of_bank s hm, ← bankByte_of hm]
  refine ⟨fun hidle => ?_, fun hrun => ⟨runBank_of_going (.inl hrun), stepBank_of_going (.inl hrun)⟩,
    fun r hrun => ⟨runBank_of_going (.inr ⟨r, hrun⟩), stepBank_of_going (.inr ⟨r, hrun⟩)⟩,
    fun hrun => ⟨runBank_of_standing (.inl hrun), stepBank_of_holding hrun⟩,
    fun hrun => ⟨runBank_of_standing (.inr hrun), stepBank_of_paused hrun⟩⟩
  rw [runBank_of_idle hidle, stepBank_of_idle hidle]
  refine ⟨fun start span k hd => startRuns_refused (startRefusal_of_auto hd), fun hd => ⟨fun hempty => ?_,
    fun hcount hsel hfades => ?_, fun hcount hsel hstill => ?_⟩⟩
  · exact startRuns_refused (startRefusal_of_empty hd hempty)
  · exact startRuns_refused (startRefusal_of_fading hd hcount hsel (hfading.mp hfades))
  · have hpasses := startRefusal_of_passes hd hcount hsel (mt hfading.mpr hstill)
    exact ⟨startRun_of_passes hpasses .., startRun_of_passes hpasses ..⟩

/-- Settles O40: HOLD by the state of the run, and ABORT of a run by P. -/
theorem holdAndAbortARun : Obligations.HoldAndAbortARun := by
  intro s me hr
  simp only [exec_hold me hr, exec_abort me hr, Host.Outcome.next.injEq]
  refine ⟨fun hm => ⟨doHold_of_none s hm, doAbort_of_none s hm⟩, fun bank hm => ?_⟩
  rw [doHold_of_bank s hm, doAbort_of_bank s hm]
  exact ⟨holdBank_of_still, holdBank_of_running, fun _ => holdBank_of_waiting, abortBank_of_idle,
    fun hrun => ⟨abortBank_of_zero hrun, abortBank_of_ne_zero hrun⟩⟩

end Sys2Proof.Machine
end

section
/-! Every step keeps the slots, the wait queue and the ports of the still store in agreement (R154, R156, R162): the work that leaves the
store alone, GRAB, CLEAR and the resets, and the operations one by one. -/

namespace Sys2Proof.Machine

/-! ### Work that leaves the store alone -/

theorem storeSound_of_eq {s t : State} (hstore : t.store = s.store) (h : s.store.sound) : t.store.sound := by
  rw [hstore]
  exact h

theorem OnlyEngine.storeSound {s t : State} (w : OnlyEngine s t) (h : s.store.sound) : t.store.sound :=
  storeSound_of_eq w.store_eq h

theorem OnlyLanes.storeSound {s t : State} (w : OnlyLanes s t) (h : s.store.sound) : t.store.sound :=
  storeSound_of_eq w.store_eq h

theorem OnlyControl.storeSound {s t : State} (w : OnlyControl s t) (h : s.store.sound) : t.store.sound :=
  storeSound_of_eq w.store_eq h

theorem doAuxSelect_store (source : Byte) (s : State) : (doAuxSelect source s).store = s.store := by
  unfold doAuxSelect; split <;> rfl

theorem doLoadCurve_store (curve : Byte) (points : Vector Word16 65) (s : State) :
    (doLoadCurve curve points s).store = s.store := by
  unfold doLoadCurve; split
  · rfl
  · simp only [loadCurve]; split <;> rfl

theorem doNoticeMask_store (info advisory degraded : Byte) (s : State) :
    (doNoticeMask info advisory degraded s).store = s.store := by
  unfold doNoticeMask; split <;> rfl

/-! ### The resets (R166, R167) -/

theorem resetFull_store (s : State) : (resetFull s).store = s.store.stopped.emptied := by
  unfold resetFull fullScope
  rw [(onlyLanes_lanesFullReset _).store_eq]
  rfl

theorem storeSound_resetFull (s : State) : (resetFull s).store.sound := by
  rw [resetFull_store]
  exact Store.emptied_sound s.store.stopped_sound

theorem storeSound_doReset (scope : Byte) {s : State} (h : s.store.sound) : (doReset scope s).store.sound := by
  unfold doReset; split
  · exact s.store.stopped_sound
  · exact storeSound_resetFull s
  · exact h

/-! ### The commands of a take -/

/-- Only RESET, GRAB and CLEAR reach the store. -/
theorem storeSound_runCommand (c : Command) (s : State) (h : s.store.sound) : (runCommand c s).store.sound := by
  cases c with
  | cancel _ => exact h
  | cancelAll => exact h
  | reset scope => exact storeSound_doReset scope h
  | laneSet _ _ _ => exact (onlyLanes_doLaneSet ..).storeSound h
  | resync _ => exact (onlyLanes_doResync ..).storeSound h
  | select _ _ _ => exact (onlyEngine_doSelect ..).storeSound h
  | auxSelect _ => exact storeSound_of_eq (doAuxSelect_store ..) h
  | matte _ _ _ => exact h
  | loadCurve _ _ => exact storeSound_of_eq (doLoadCurve_store ..) h
  | wipeSet _ _ _ _ => exact (onlyEngine_doWipeSet ..).storeSound h
  | keySet _ _ _ _ _ _ => exact (onlyEngine_doKeySet ..).storeSound h
  | maskSet _ _ _ => exact (onlyEngine_doMaskSet ..).storeSound h
  | transSet _ _ _ _ => exact (onlyEngine_doTransSet ..).storeSound h
  | nextSet _ _ => exact (onlyEngine_doNextSet ..).storeSound h
  | cut _ => exact (onlyEngine_doCut ..).storeSound h
  | auto _ => exact (onlyEngine_doAuto ..).storeSound h
  | lever _ _ => exact (onlyEngine_doLever ..).storeSound h
  | layerOn _ _ => exact (onlyEngine_doLayerOn ..).storeSound h
  | layerOff _ _ => exact (onlyEngine_doLayerOff ..).storeSound h
  | layerRate _ _ _ => exact (onlyEngine_doLayerRate ..).storeSound h
  | order _ _ _ _ _ => exact (onlyEngine_doOrder ..).storeSound h
  | raise _ _ => exact (onlyEngine_doRaise ..).storeSound h
  | lower _ _ => exact (onlyEngine_doLower ..).storeSound h
  | loadKeyframes _ _ _ => exact (onlyEngine_doLoadKeyframes ..).storeSound h
  | runSet _ _ _ _ => exact (onlyEngine_doRunSet ..).storeSound h
  | run _ => exact (onlyEngine_doRun ..).storeSound h
  | step _ => exact (onlyEngine_doStep ..).storeSound h
  | hold _ => exact (onlyEngine_doHold ..).storeSound h
  | abort _ => exact (onlyEngine_doAbort ..).storeSound h
  | grab slot source => exact doGrab_sound slot source s h
  | clear slot => exact doClear_sound slot s h
  | noticeMask _ _ _ => exact storeSound_of_eq (doNoticeMask_store ..) h
  | clearSummary => exact h

theorem storeSound_runEntry (e : TakeEntry) (s : State) (h : s.store.sound) : (runEntry e s).store.sound := by
  unfold runEntry
  refine storeSound_runCommand _ _ ?_
  split <;> exact h

theorem storeSound_handOut (n : Nat) : ∀ s : State, s.store.sound → (handOut n s).store.sound := by
  induction n with
  | zero => exact fun _ h => h
  | succ n ih =>
    intro s h
    unfold handOut; split
    · exact h
    · exact ih _ (storeSound_runEntry _ _ h)

/-! ### The two lines of a picture period -/

/-- The store a switch line's own work starts from is that of the period before. -/
theorem storeSound_plainSwitchLine (p : FieldParity) {s : State} (h : s.store.sound) : (plainSwitchLine p s).store.sound := by
  have hlanes := (onlyLanes_lanesWork s (beginPeriod p s)).storeSound h
  have hformed := storeSound_of_eq (formTake_store _) hlanes
  have hbanks := (onlyEngine_banksWork _).storeSound hformed
  exact storeSound_handOut _ _ (storeWork_sound _ _ _ hbanks)

/-- A change of house format withdraws every grab and empties every slot (R13, R167). -/
theorem storeSound_formatSwitchLine (p : FieldParity) (s : State) : (formatSwitchLine p s).store.sound := by
  rw [formatSwitchLine_store]
  exact Store.emptied_sound (Store.stopped_sound _)

theorem storeSound_switchLine (p : FieldParity) (s : State) (h : s.store.sound) : (switchLine p s).store.sound := by
  unfold switchLine; split
  · exact storeSound_formatSwitchLine p s
  · exact storeSound_plainSwitchLine p h

theorem storeSound_formatChangeLine (p : FieldParity) (s : State) (h : s.store.sound) :
    (formatChangeLine p s).store.sound := by
  unfold formatChangeLine; split
  · exact storeSound_formatSwitchLine p s
  · exact h

theorem actHeld_store (e : HeldEvent) (s : State) : (actHeld e s).store = s.store := by
  cases e with
  | start x => exact (onlyRef_actStart x s).store_eq
  | missing => exact (onlyRef_actMissing s).store_eq
  | packet carrier =>
    simp only [actHeld]; split
    · exact (onlyControl_collectCarrier carrier s).store_eq
    · rfl

theorem reportLine_store (s : State) : (reportLine s).store = s.store := by
  unfold reportLine; split
  · exact List.foldlRecOn (motive := fun t : State => t.store = s.store) _ _ rfl
      fun t ht e _ => (actHeld_store e t).trans ht
  · rfl

/-! ### Events of the inputs -/

theorem referenceStart_store (x : ReferenceStart) (s : State) : (referenceStart x s).store = s.store := by
  unfold referenceStart; split
  · rfl
  · exact (onlyRef_actStart x s).store_eq

theorem referenceMissing_store (s : State) : (referenceMissing s).store = s.store := by
  unfold referenceMissing; split
  · rfl
  · exact (onlyRef_actMissing s).store_eq

theorem packetArrives_store (whole : Bool) (carrier : List Byte) (s : State) :
    (packetArrives whole carrier s).store = s.store := by
  unfold packetArrives; split
  · split
    · rfl
    · exact (onlyControl_collectCarrier carrier s).store_eq
  · rfl

theorem dueEntry_store (s : State) : (dueEntry s).store = s.store := by
  rw [dueEntry_frame]

/-- Every operation of the commands keeps the store in agreement. -/
theorem kept_storeSound : Kept (fun s => s.store.sound) where
  restarted := fun _ _ _ _ => Store.powerOn_sound
  signal := fun n signal s h => (onlyLanes_laneSignal n signal s).storeSound h
  start := fun x s h => storeSound_of_eq (referenceStart_store x s) h
  missing := fun s h => storeSound_of_eq (referenceMissing_store s) h
  line := storeSound_switchLine
  report := fun s h => storeSound_of_eq (reportLine_store s) h
  packet := fun whole carrier s h => storeSound_of_eq (packetArrives_store whole carrier s) h
  due := fun s h => storeSound_of_eq (dueEntry_store s) h
  change := storeSound_formatChangeLine
  laneStart := fun n x s h => (onlyLanes_laneStart n x s).storeSound h
  lock := fun n s h => (onlyLanes_laneLock n s).storeSound h
  fadeEnd := fun bank l s h => (onlyEngine_fadeEnd bank l s).storeSound h
  autoDue := fun bank s h => (onlyEngine_autoCompletionDue bank s).storeSound h
  segmentEnd := fun bank s h => (onlyEngine_segmentEnd bank s).storeSound h
  release := fun bank s h => (onlyEngine_syncRelease bank s).storeSound h
  completion := fun m s h => completeGrab_sound s m s h
  begins := grabBegin_sound
  timeout := grabWaitTimeout_sound
  collect := fun target code count inner s h => (onlyControl_collectAt target code count inner s).storeSound h
  command := storeSound_runCommand

/-- Settles O55: the agreement is kept by every operation, so by every step. -/
theorem stepsKeepTheStillStoreSound : Obligations.StepsKeepTheStillStoreSound := fun _ _ hsound hstep =>
  kept_storeSound.step (fun _ _ h => h) hsound hstep

end Sys2Proof.Machine
end

section
/-! GRAB and CLEAR (R157 to R159): each by its parameters, the state of the slot, the on-air set of the last report line and the length
of the wait queue. -/

namespace Sys2Proof.Machine

/-! ### Sources that may be grabbed (R157) -/

theorem readGrabSource_none {source : Byte} (h : source.toNat = 0 ∨ 25 < source.toNat) : readGrabSource source = none := by
  unfold readGrabSource
  split
  · rename_i n hread
    have hcode := readSource_code hread
    have hn := n.isLt
    simp only [Source.code, laneCode] at hcode
    omega
  · rename_i hread
    have hcode : source.toNat = 25 := readSource_code hread
    omega
  · rfl

/-- The sources of codes 1 to 25: the lanes and M/E A's programme. -/
theorem Source.grabbable_cases {src : Source} (hmin : 1 ≤ src.code) (hmax : src.code ≤ 25) :
    (∃ n : LaneId, src = .lane n) ∨ src = .meAProgramme := by
  cases src with
  | lane n => exact .inl ⟨n, rfl⟩
  | meAProgramme => exact .inr rfl
  | slot m =>
    simp only [Source.code, slotCode] at hmax
    omega
  | black => simp [Source.code] at hmin
  | matte => simp [Source.code] at hmax
  | meAPreview => simp [Source.code] at hmax
  | meBProgramme => simp [Source.code] at hmax
  | meBPreview => simp [Source.code] at hmax

theorem readGrabSource_of {source : Byte} {src : Source} (h : source.toNat = src.code) (hmin : 1 ≤ src.code)
    (hmax : src.code ≤ 25) : readGrabSource source = some src := by
  unfold readGrabSource
  rw [readSource_of h]
  rcases Source.grabbable_cases hmin hmax with ⟨n, rfl⟩ | rfl <;> rfl

/-! ### GRAB, its checks in order (R157, R159) -/

theorem doGrab_of_no_slot {slot : Byte} (hm : readSlot slot = none) (source : Byte) (s : State) :
    doGrab slot source s = s.refuse 112 .target (.slot slot) := by
  simp only [doGrab, hm]

section OfSlot
variable {slot source : Byte} {m : SlotId} {s : State} (hm : readSlot slot = some m)
include hm

theorem doGrab_of_no_source (hsrc : readGrabSource source = none) :
    doGrab slot source s = s.refuse 112 .source (.slot slot) := by
  simp only [doGrab, hm, hsrc]

variable {src : Source} (hsrc : readGrabSource source = some src)
include hsrc

theorem doGrab_of_busy (hbusy : (s.slot m).state ≠ .idle) :
    doGrab slot source s = s.refuse 112 .busy (.slot slot) := by
  simp only [doGrab, hm, hsrc, if_pos hbusy]

variable (hidle : (s.slot m).state = .idle)
include hidle

theorem doGrab_of_onAir (hair : slotOnAir s m = true) : doGrab slot source s = s.refuse 112 .onAir (.slot slot) := by
  simp only [doGrab, hm, hsrc, hidle, hair, ne_eq, not_true_eq_false, if_false, if_true]

variable (hair : slotOnAir s m = false)
include hair

theorem doGrab_of_full (hfull : 4 ≤ s.store.queue.length) : doGrab slot source s = s.refuse 112 .full (.slot slot) := by
  simp only [doGrab, hm, hsrc, hidle, hair, ne_eq, not_true_eq_false, if_false, Bool.false_eq_true, if_pos hfull]

theorem doGrab_of_room (hroom : s.store.queue.length < 4) : doGrab slot source s = queueGrab m src s := by
  simp only [doGrab, hm, hsrc, hidle, hair, ne_eq, not_true_eq_false, if_false, Bool.false_eq_true,
    if_neg (Nat.not_le.mpr hroom)]

end OfSlot

/-! ### CLEAR (R158, R159) -/

theorem doClear_of_no_slot {slot : Byte} (hm : readSlot slot = none) (s : State) :
    doClear slot s = s.refuse 113 .target (.slot slot) := by
  simp only [doClear, hm]

section OfSlot
variable {slot : Byte} {m : SlotId} {s : State} (hm : readSlot slot = some m)
include hm

theorem doClear_of_onAir (hair : slotOnAir s m = true) : doClear slot s = s.refuse 113 .onAir (.slot slot) := by
  simp only [doClear, hm, hair, if_true]

theorem doClear_of_offAir (hair : slotOnAir s m = false) : doClear slot s = emptySlot m (withdrawGrab m s) := by
  simp only [doClear, hm, hair, Bool.false_eq_true, if_false]

end OfSlot

/-- A slot that is emptied in IDLE ends as a slot of no content, whatever it was. -/
theorem emptySlot_setSlotState_idle (m : SlotId) (s : State) :
    emptySlot m (setSlotState m .idle s) = s.setSlot m { state := .idle, content := none } := by
  simp [emptySlot, setSlotState, State.setSlot, State.slot]

theorem emptySlot_withdrawGrab_of_idle {m : SlotId} {s : State} (h : (s.slot m).state = .idle) :
    emptySlot m (withdrawGrab m s) = s.setSlot m { state := .idle, content := none } := by
  simp only [withdrawGrab, h, emptySlot]

theorem emptySlot_withdrawGrab_of_waiting {m : SlotId} {s : State} (h : (s.slot m).state = .waiting) :
    emptySlot m (withdrawGrab m s) = (dropEntry m s).setSlot m { state := .idle, content := none } := by
  simp only [withdrawGrab, h, emptySlot_setSlotState_idle]

theorem emptySlot_withdrawGrab_of_grabbing {m : SlotId} {s : State} {src : Source} {number : PictureNumber}
    (h : (s.slot m).state = .grabbing src number) :
    emptySlot m (withdrawGrab m s) = (releasePort m s).setSlot m { state := .idle, content := none } := by
  simp only [withdrawGrab, h, emptySlot_setSlotState_idle]

/-- Settles O43: the checks of GRAB and CLEAR one after the other, and what is left when all are passed. -/
theorem grabAndClearASlot : Obligations.GrabAndClearASlot := by
  intro s slot hr
  simp only [exec_grab slot _ hr, exec_clear slot hr, Host.Outcome.next.injEq]
  refine ⟨fun hslot => ⟨fun source => doGrab_of_no_slot (readSlot_none hslot) source s,
    doClear_of_no_slot (readSlot_none hslot) s⟩, fun m onAir hslot honAir => ?_⟩
  have hm : readSlot slot = some m := readSlot_of hslot
  have hair : slotOnAir s m = onAir := honAir.symm
  subst hair
  refine ⟨fun source => ⟨fun hsrc => doGrab_of_no_source hm (readGrabSource_none hsrc), fun src hcode hmin hmax => ?_⟩,
    doClear_of_onAir hm, fun hair => ?_⟩
  · have hsrc : readGrabSource source = some src := readGrabSource_of hcode hmin hmax
    exact ⟨doGrab_of_busy hm hsrc, doGrab_of_onAir hm hsrc, doGrab_of_full hm hsrc, doGrab_of_room hm hsrc⟩
  · rw [doClear_of_offAir hm hair]
    exact ⟨emptySlot_withdrawGrab_of_idle, emptySlot_withdrawGrab_of_waiting,
      fun _ _ => emptySlot_withdrawGrab_of_grabbing⟩

end Sys2Proof.Machine
end

section
/-! A grab's completion, its beginning and the end of its wait as commands of their own (R161 to R164, log 3, log 23), and what is
captured (R163). -/

namespace Sys2Proof.Machine

/-! ### Completions (R161) -/

theorem completeGrab_of_grabbing {m : SlotId} {s : State} {src : Source} {number : PictureNumber}
    (h : (s.slot m).state = .grabbing src number) (period : State) :
    completeGrab period m s = finishGrab m src (capture period src) s := by
  simp only [completeGrab, h]

theorem completeGrab_of_not_grabbing {m : SlotId} {s : State}
    (h : ∀ src number, (s.slot m).state ≠ .grabbing src number) (period : State) : completeGrab period m s = s := by
  unfold completeGrab
  split
  · rfl
  · rfl
  · rename_i src number hgrab
    exact absurd hgrab (h src number)

theorem finishGrab_slot (m : SlotId) (src : Source) (picture : Picture) (s : State) :
    (finishGrab m src picture s).slot m = { state := .idle, content := some picture } := by
  simp only [finishGrab, State.slot_post, State.slot_setSlot]

/-! ### Ready sources and free ports (R162, R163) -/

/-- A source is ready when it is M/E A's programme or a LOCKED lane. -/
theorem sourceReady_iff (locked : LaneId → Bool) (src : Source) :
    sourceReady locked src = true ↔ src = .meAProgramme ∨ ∃ n : LaneId, src = .lane n ∧ locked n = true := by
  cases src <;> simp [sourceReady]

theorem freePort_of_busy {s : State} (h0 : s.store.ports[0] ≠ none) (h1 : s.store.ports[1] ≠ none) : freePort s = none := by
  simp only [freePort, if_neg h0, if_neg h1]

theorem freePort_of_free {s : State} (h : s.store.ports[0] = none ∨ s.store.ports[1] = none) :
    ∃ p : Fin 2, freePort s = some p := by
  unfold freePort
  split
  · exact ⟨0, rfl⟩
  · rename_i h0
    exact ⟨1, if_pos (h.resolve_left h0)⟩

/-! ### The entry of a slot in the wait queue (R156) -/

theorem queueEntry_of_none {s : State} {m : SlotId} (h : ∀ e ∈ s.store.queue, e.slot ≠ m) : queueEntry s m = none :=
  List.find?_eq_none.mpr fun e he => by simpa using h e he

theorem grabSteps_of_no_entry {s : State} {m : SlotId} (h : ∀ e ∈ s.store.queue, e.slot ≠ m) :
    grabBegin m s = s ∧ grabWaitTimeout m s = s := by
  simp only [grabBegin, grabWaitTimeout, queueEntry_of_none h, and_self]

section Entry
variable {s : State} {before after : List GrabEntry} {e : GrabEntry} (hqueue : s.store.queue = before ++ e :: after)
  (hbefore : ∀ f ∈ before, f.slot ≠ e.slot)
include hqueue hbefore

theorem queueEntry_of_split : queueEntry s e.slot = some e := by
  have hnone : before.find? (fun f => decide (f.slot = e.slot)) = none :=
    List.find?_eq_none.mpr fun f hf => by simpa using hbefore f hf
  simp [queueEntry, hqueue, List.find?_append, hnone]

/-- Nothing happens to the entry of a slot that is on air. -/
theorem grabSteps_of_onAir (hair : slotOnAir s e.slot = true) :
    grabBegin e.slot s = s ∧ grabWaitTimeout e.slot s = s := by
  simp only [grabBegin, grabWaitTimeout, queueEntry_of_split hqueue hbefore, if_pos hair, and_self]

section OffAir
variable (hair : slotOnAir s e.slot = false)
include hair

theorem grabWaitTimeout_of_ready (hready : sourceReady (lockedNow s) e.source = true) : grabWaitTimeout e.slot s = s := by
  simp only [grabWaitTimeout, queueEntry_of_split hqueue hbefore, hair, hready, Bool.false_eq_true, if_false, if_true]

theorem grabBegin_of_not_ready (hready : sourceReady (lockedNow s) e.source = false) : grabBegin e.slot s = s := by
  simp only [grabBegin, queueEntry_of_split hqueue hbefore, hair, hready, Bool.false_eq_true, Bool.not_false, if_false,
    if_true]

theorem grabBegin_of_no_port (hready : sourceReady (lockedNow s) e.source = true) (hport : freePort s = none) :
    grabBegin e.slot s = s := by
  simp only [grabBegin, queueEntry_of_split hqueue hbefore, hair, hready, hport, Bool.false_eq_true, Bool.not_true, if_false]

theorem grabBegin_of_port (hready : sourceReady (lockedNow s) e.source = true) {p : Fin 2} (hport : freePort s = some p) :
    grabBegin e.slot s = beginGrab p e s := by
  simp only [grabBegin, queueEntry_of_split hqueue hbefore, hair, hready, hport, Bool.false_eq_true, Bool.not_true, if_false]

variable (hready : sourceReady (lockedNow s) e.source = false)
include hready

theorem grabWaitTimeout_of_waiting (hwait : e.wait < 7) : grabWaitTimeout e.slot s = s := by
  have hlast : e.wait + 1 < 8 := by omega
  simp only [grabWaitTimeout, queueEntry_of_split hqueue hbefore, hair, hready, Bool.false_eq_true, if_false, if_pos hlast]

theorem grabWaitTimeout_of_last (hwait : 7 ≤ e.wait) : grabWaitTimeout e.slot s = failGrab e.slot .noSource s := by
  have hlast : ¬ e.wait + 1 < 8 := by omega
  simp only [grabWaitTimeout, queueEntry_of_split hqueue hbefore, hair, hready, Bool.false_eq_true, if_false, if_neg hlast]

end OffAir

variable (hafter : ∀ f ∈ after, f.slot ≠ e.slot)
include hafter

theorem without_of_split : s.store.without e.slot = before ++ after := by
  unfold Store.without
  rw [hqueue, List.filter_append, List.filter_cons_of_neg (by simp), List.filter_eq_self.mpr (by simpa using hbefore),
    List.filter_eq_self.mpr (by simpa using hafter)]

theorem beginGrab_of_split (p : Fin 2) :
    beginGrab p e s =
      { s with
        store :=
          { slots := s.store.slots.set e.slot { s.slot e.slot with state := .grabbing e.source s.ref.picture }
            queue := before ++ after
            ports := s.store.ports.set p (some e.slot) } } := by
  rw [← without_of_split hqueue hbefore hafter]
  rfl

theorem failGrab_of_split (why : GrabFault) :
    failGrab e.slot why s =
      State.post
        { s with
          store :=
            { s.store with
              slots := s.store.slots.set e.slot { s.slot e.slot with state := .idle }
              queue := before ++ after } }
        (.grabFailed why) .degraded (.slot (slotByte e.slot)) := by
  rw [← without_of_split hqueue hbefore hafter]
  rfl

end Entry

/-! ### What is captured (R163) -/

theorem capture_meAProgramme (s : State) :
    capture s .meAProgramme =
      if s.periodFormat.interlaced then .woven s.parity (programmeOf s .a) else programmeOf s .a := by
  have hprogramme : capturedSource s .meAProgramme = programmeOf s .a := by
    simp [capturedSource, programmeOf, programmeA, busPicture]
  unfold capture
  rw [hprogramme]

end Sys2Proof.Machine
end

section
/-! The still store's own work at a switch line (R161 to R164): each grab in hand completes, and each entry of the queue has its turn,
which finds the ports that the entries before it have left. -/

namespace Sys2Proof.Machine

/-! ### One slot and its entries -/

/-- A slot and the entries for it in the wait queue are the same in two states. -/
structure SameAt (m : SlotId) (s t : State) : Prop where
  slot : t.slot m = s.slot m
  entry : ∀ f : GrabEntry, f.slot = m → (f ∈ t.store.queue ↔ f ∈ s.store.queue)

theorem SameAt.of_store_eq {s t : State} (h : t.store = s.store) (m : SlotId) : SameAt m s t :=
  ⟨by unfold State.slot; rw [h], fun _ _ => by rw [h]⟩

theorem SameAt.refl (m : SlotId) (s : State) : SameAt m s s := .of_store_eq rfl m

theorem SameAt.trans {m : SlotId} {s t u : State} (h : SameAt m s t) (k : SameAt m t u) : SameAt m s u :=
  ⟨k.slot.trans h.slot, fun f hf => (k.entry f hf).trans (h.entry f hf)⟩

/-! ### What the walk does with one entry (R162) -/

theorem failGrab_slot (m : SlotId) (why : GrabFault) (s : State) :
    (failGrab m why s).slot m = { s.slot m with state := .idle } :=
  State.slot_setSlot (dropEntry m s) m _

theorem beginGrab_slot (p : Fin 2) (e : GrabEntry) (s : State) :
    (beginGrab p e s).slot e.slot = { s.slot e.slot with state := .grabbing e.source s.ref.picture } :=
  State.slot_setSlot (occupyPort p e.slot (dropEntry e.slot s)) e.slot _

theorem Store.ne_of_mem_without {x : Store} {m : SlotId} {f : GrabEntry} (h : f ∈ x.without m) : f.slot ≠ m := by
  simpa using (List.mem_filter.mp h).2

theorem Store.mem_without_of_ne {x : Store} {m : SlotId} {f : GrabEntry} (h : f.slot ≠ m) : f ∈ x.without m ↔ f ∈ x.queue := by
  simp [Store.without, h]

theorem sameAt_failGrab {k m : SlotId} (h : k ≠ m) (why : GrabFault) (s : State) : SameAt k s (failGrab m why s) where
  slot := Store.slots_set_of_ne s.store _ h
  entry := by rintro f rfl; exact Store.mem_without_of_ne h

theorem sameAt_beginGrab {k : SlotId} {e : GrabEntry} (h : k ≠ e.slot) (p : Fin 2) (s : State) :
    SameAt k s (beginGrab p e s) where
  slot := Store.slots_set_of_ne s.store _ h
  entry := by rintro f rfl; exact Store.mem_without_of_ne h

theorem mem_setWait_of_ne {m : SlotId} {f : GrabEntry} (h : f.slot ≠ m) (n : Nat) (s : State) :
    f ∈ (setWait m n s).store.queue ↔ f ∈ s.store.queue := by
  simp only [setWait, List.mem_map]
  constructor
  · rintro ⟨g, hg, rfl⟩
    by_cases hgm : g.slot = m
    · rw [if_pos hgm] at h
      exact absurd hgm h
    · rwa [if_neg hgm]
  · exact fun hf => ⟨f, hf, if_neg h⟩

theorem mem_setWait_self {e : GrabEntry} {s : State} (h : e ∈ s.store.queue) (n : Nat) :
    { e with wait := n } ∈ (setWait e.slot n s).store.queue :=
  List.mem_map.mpr ⟨e, h, if_pos rfl⟩

theorem setWait_slots (m : SlotId) (n : Nat) (s : State) :
    (setWait m n s).store.queue.map (·.slot) = s.store.queue.map (·.slot) := by
  simp only [setWait, List.map_map]
  refine List.map_congr_left fun f _ => ?_
  simp only [Function.comp]
  split <;> rfl

theorem sameAt_setWait {k m : SlotId} (h : k ≠ m) (n : Nat) (s : State) : SameAt k s (setWait m n s) where
  slot := rfl
  entry := by rintro f rfl; exact mem_setWait_of_ne h n s

/-- Whether an entry's turn begins its grab when a port is free: its slot is not on air and its source is ready. -/
def grabBegins (locked : LaneId → Bool) (s : State) (e : GrabEntry) : Bool :=
  !slotOnAir s e.slot && sourceReady locked e.source

theorem grabBegins_iff (locked : LaneId → Bool) (s : State) (e : GrabEntry) :
    grabBegins locked s e = true ↔ slotOnAir s e.slot = false ∧ sourceReady locked e.source = true := by
  simp [grabBegins]

section Entry
variable {locked : LaneId → Bool} {e : GrabEntry} {s : State}

theorem walkEntry_of_onAir (hair : slotOnAir s e.slot = true) : walkEntry locked e s = failGrab e.slot .onAir s := by
  simp only [walkEntry, if_pos hair]

theorem walkEntry_of_waiting (hair : slotOnAir s e.slot = false) (hready : sourceReady locked e.source = false)
    (hwait : e.wait < 7) : walkEntry locked e s = setWait e.slot (e.wait + 1) s := by
  have hmore : ¬ e.wait + 1 ≥ 8 := by omega
  simp only [walkEntry, hair, hready, Bool.false_eq_true, Bool.not_false, if_false, if_true, if_neg hmore]

theorem walkEntry_of_last (hair : slotOnAir s e.slot = false) (hready : sourceReady locked e.source = false)
    (hwait : 7 ≤ e.wait) : walkEntry locked e s = failGrab e.slot .noSource s := by
  have hlast : e.wait + 1 ≥ 8 := by omega
  simp only [walkEntry, hair, hready, Bool.false_eq_true, Bool.not_false, if_false, if_true, if_pos hlast]

theorem walkEntry_of_port (hbegins : grabBegins locked s e = true) {p : Fin 2} (hport : freePort s = some p) :
    walkEntry locked e s = beginGrab p e s := by
  obtain ⟨hair, hready⟩ := (grabBegins_iff locked s e).mp hbegins
  simp only [walkEntry, hair, hready, hport, Bool.false_eq_true, Bool.not_true, if_false]

theorem walkEntry_of_no_port (hbegins : grabBegins locked s e = true) (hport : freePort s = none) :
    walkEntry locked e s = s := by
  obtain ⟨hair, hready⟩ := (grabBegins_iff locked s e).mp hbegins
  simp only [walkEntry, hair, hready, hport, Bool.false_eq_true, Bool.not_true, if_false]

end Entry

/-- The five ends of an entry's turn: the grab fails, goes on waiting, begins, or finds no port. -/
theorem walkEntry_cases (locked : LaneId → Bool) (e : GrabEntry) (s : State) :
    (grabBegins locked s e = false ∧
        ((∃ why, walkEntry locked e s = failGrab e.slot why s) ∨ walkEntry locked e s = setWait e.slot (e.wait + 1) s)) ∨
      grabBegins locked s e = true ∧
        ((∃ p, freePort s = some p ∧ walkEntry locked e s = beginGrab p e s) ∨
          freePort s = none ∧ walkEntry locked e s = s) := by
  cases hbegins : grabBegins locked s e with
  | true =>
    refine .inr ⟨rfl, ?_⟩
    cases hport : freePort s with
    | some p => exact .inl ⟨p, rfl, walkEntry_of_port hbegins hport⟩
    | none => exact .inr ⟨rfl, walkEntry_of_no_port hbegins hport⟩
  | false =>
    refine .inl ⟨rfl, ?_⟩
    cases hair : slotOnAir s e.slot with
    | true => exact .inl ⟨_, walkEntry_of_onAir hair⟩
    | false =>
      have hready : sourceReady locked e.source = false := by simpa [grabBegins, hair] using hbegins
      rcases Nat.lt_or_ge e.wait 7 with hwait | hwait
      · exact .inr (walkEntry_of_waiting hair hready hwait)
      · exact .inl ⟨_, walkEntry_of_last hair hready hwait⟩

theorem sameAt_walkEntry {k : SlotId} {e : GrabEntry} (h : k ≠ e.slot) (locked : LaneId → Bool) (s : State) :
    SameAt k s (walkEntry locked e s) := by
  rcases walkEntry_cases locked e s with ⟨-, ⟨why, hstep⟩ | hstep⟩ | ⟨-, ⟨p, -, hstep⟩ | ⟨-, hstep⟩⟩ <;> rw [hstep]
  · exact sameAt_failGrab h why s
  · exact sameAt_setWait h _ s
  · exact sameAt_beginGrab h p s
  · exact .refl k s

theorem walkEntry_slots_sublist (locked : LaneId → Bool) (e : GrabEntry) (s : State) :
    ((walkEntry locked e s).store.queue.map (·.slot)).Sublist (s.store.queue.map (·.slot)) := by
  have hwithout : ((s.store.without e.slot).map (·.slot)).Sublist (s.store.queue.map (·.slot)) := List.filter_sublist.map _
  rcases walkEntry_cases locked e s with ⟨-, ⟨why, hstep⟩ | hstep⟩ | ⟨-, ⟨p, -, hstep⟩ | ⟨-, hstep⟩⟩ <;>
    rewrite [hstep]
  · exact hwithout
  · rewrite [setWait_slots]
    exact List.Sublist.refl _
  · exact hwithout
  · exact List.Sublist.refl _

/-! ### The free ports as the walk goes on (R156, R162) -/

/-- The number of free ports. -/
def Store.freePorts (x : Store) : Nat :=
  (if x.ports[0] = none then 1 else 0) + if x.ports[1] = none then 1 else 0

theorem Store.freePorts_set {x : Store} {p : Fin 2} (hp : x.ports[p] = none) (m : SlotId) :
    ({ x with ports := x.ports.set p (some m) } : Store).freePorts = x.freePorts - 1 := by
  have hcases : p = 0 ∨ p = 1 := by omega
  rcases hcases with rfl | rfl
  · have h0 : x.ports[0] = none := hp
    simp [Store.freePorts, h0]
  · have h1 : x.ports[1] = none := hp
    simp [Store.freePorts, h1]

theorem beginGrab_freePorts {p : Fin 2} {s : State} (hport : freePort s = some p) (e : GrabEntry) :
    (beginGrab p e s).store.freePorts = s.store.freePorts - 1 :=
  Store.freePorts_set (freePort_some hport) e.slot

theorem freePort_eq_none_iff (s : State) : freePort s = none ↔ s.store.freePorts = 0 := by
  unfold freePort Store.freePorts
  split
  · simp
  · split <;> simp

/-- A turn takes a port exactly when it begins a grab and one is left. -/
theorem walkEntry_freePorts (locked : LaneId → Bool) (e : GrabEntry) (s : State) :
    (walkEntry locked e s).store.freePorts = s.store.freePorts - if grabBegins locked s e then 1 else 0 := by
  rcases walkEntry_cases locked e s with ⟨hb, ⟨why, hstep⟩ | hstep⟩ | ⟨hb, ⟨p, hport, hstep⟩ | ⟨hport, hstep⟩⟩ <;>
    rw [hstep, hb]
  · rfl
  · rfl
  · exact beginGrab_freePorts hport e
  · rw [(freePort_eq_none_iff s).mp hport, Nat.zero_sub]

theorem grabBegins_of_tally_eq {s t : State} (h : t.tally = s.tally) (locked : LaneId → Bool) :
    grabBegins locked t = grabBegins locked s := by
  funext e
  simp only [grabBegins, slotOnAir, State.onAir, h]

/-! ### The walk up to an entry's turn -/

/-- The walk over a part of the queue. -/
def walkOver (locked : LaneId → Bool) (l : List GrabEntry) (s : State) : State :=
  l.foldl (fun t e => walkEntry locked e t) s

theorem onlyStore_walkOver (locked : LaneId → Bool) (l : List GrabEntry) (s : State) : OnlyStore s (walkOver locked l s) :=
  OnlyStore.foldl (fun t e => onlyStore_walkEntry locked e t) l s

theorem walk_of_split (locked : LaneId → Bool) {s : State} {before after : List GrabEntry} {e : GrabEntry}
    (h : s.store.queue = before ++ e :: after) :
    walk locked s = walkOver locked after (walkEntry locked e (walkOver locked before s)) := by
  rw [walk, h, List.foldl_append, List.foldl_cons]
  rfl

theorem sameAt_walkOver {k : SlotId} (locked : LaneId → Bool) {l : List GrabEntry} (h : ∀ f ∈ l, f.slot ≠ k) (s : State) :
    SameAt k s (walkOver locked l s) :=
  List.foldlRecOn (motive := SameAt k s) l _ (.refl k s) fun t ht f hf => ht.trans (sameAt_walkEntry (h f hf).symm locked t)

theorem walk_slots_sublist (locked : LaneId → Bool) (s : State) :
    ((walk locked s).store.queue.map (·.slot)).Sublist (s.store.queue.map (·.slot)) :=
  List.foldlRecOn (motive := fun t : State => (t.store.queue.map (·.slot)).Sublist (s.store.queue.map (·.slot))) _ _
    (List.Sublist.refl _) fun t ht e _ => (walkEntry_slots_sublist locked e t).trans ht

/-- Each entry of the part that begins has taken one port, as long as there were any. -/
theorem walkOver_freePorts (locked : LaneId → Bool) (l : List GrabEntry) :
    ∀ s : State, (walkOver locked l s).store.freePorts = s.store.freePorts - (l.filter (grabBegins locked s)).length := by
  induction l with
  | nil => exact fun _ => rfl
  | cons e l ih =>
    intro s
    have hl : walkOver locked (e :: l) s = walkOver locked l (walkEntry locked e s) := rfl
    rw [hl, ih, walkEntry_freePorts, grabBegins_of_tally_eq (onlyStore_walkEntry locked e s).tally_eq]
    cases hb : grabBegins locked s e with
    | true => rw [List.filter_cons_of_pos hb, List.length_cons, if_pos rfl]; omega
    | false => rw [List.filter_cons_of_neg (by rw [hb]; decide), if_neg (by decide), Nat.sub_zero]

/-! ### The completions (R161) -/

theorem completeGrab_slot_of_ne {k m : SlotId} (h : k ≠ m) (period s : State) :
    (completeGrab period m s).slot k = s.slot k := by
  unfold completeGrab
  split
  · rfl
  · rfl
  · exact Store.slots_set_of_ne s.store _ h

/-- In a round over slots that leave slot `m` out, it stays as it is. -/
theorem foldl_completeGrab_slot (period : State) {m : SlotId} {l : List SlotId} (h : m ∉ l) (s : State) :
    (l.foldl (fun t k => completeGrab period k t) s).slot m = s.slot m :=
  List.foldlRecOn (motive := fun t : State => t.slot m = s.slot m) l _ rfl
    fun t ht _ hk => (completeGrab_slot_of_ne (ne_of_mem_of_not_mem hk h).symm period t).trans ht

/-- In a list without repetition an element stands neither before nor after itself. -/
theorem notMem_of_nodup_split {α : Type} {before after : List α} {a : α} (h : (before ++ a :: after).Nodup) :
    a ∉ before ∧ a ∉ after := by
  obtain ⟨-, hrest, happart⟩ := List.nodup_append.mp h
  exact ⟨fun ha => happart a ha a (List.mem_cons_self ..) rfl, (List.nodup_cons.mp hrest).1⟩

/-- Each slot has its turn in a round, in a state that differs from the first in the store and in notices alone. -/
theorem foldl_completeGrab_turn (period : State) {m : SlotId} {l : List SlotId} (hnodup : l.Nodup) (hm : m ∈ l) (s : State) :
    ∃ u : State, OnlyStore s u ∧ u.slot m = s.slot m ∧
      OnlyStore (completeGrab period m u) (l.foldl (fun t k => completeGrab period k t) s) ∧
      (l.foldl (fun t k => completeGrab period k t) s).slot m = (completeGrab period m u).slot m := by
  obtain ⟨before, after, rfl⟩ := List.append_of_mem hm
  obtain ⟨hbefore, hafter⟩ := notMem_of_nodup_split hnodup
  have honly (part : List SlotId) (t : State) : OnlyStore t (part.foldl (fun t k => completeGrab period k t) t) :=
    OnlyStore.foldl (fun t k => onlyStore_completeGrab period k t) part t
  rw [List.foldl_append, List.foldl_cons]
  exact ⟨_, honly before s, foldl_completeGrab_slot period hbefore s, honly after _, foldl_completeGrab_slot period hafter _⟩

theorem completions_turn (period : State) (m : SlotId) (s : State) :
    ∃ u : State, OnlyStore s u ∧ u.slot m = s.slot m ∧ OnlyStore (completeGrab period m u) (completions period s) ∧
      (completions period s).slot m = (completeGrab period m u).slot m :=
  foldl_completeGrab_turn period (List.nodup_finRange 8) (List.mem_finRange m) s

theorem completions_slot_of_not_grabbing (period : State) {m : SlotId} {s : State}
    (h : ∀ src number, (s.slot m).state ≠ .grabbing src number) : (completions period s).slot m = s.slot m := by
  obtain ⟨u, -, hu, -, hslot⟩ := completions_turn period m s
  rw [hslot, completeGrab_of_not_grabbing (by rw [hu]; exact h), hu]

theorem completeGrab_queue (period : State) (m : SlotId) (s : State) :
    (completeGrab period m s).store.queue = s.store.queue := by
  unfold completeGrab; split <;> rfl

theorem completions_queue (period s : State) : (completions period s).store.queue = s.store.queue := by
  unfold completions
  exact List.foldlRecOn (motive := fun t : State => t.store.queue = s.store.queue) _ _ rfl
    fun t ht m _ => (completeGrab_queue period m t).trans ht

/-- The grab in hand of a slot completes: its slot, and the notice that is posted. -/
theorem completions_of_grabbing (period : State) {m : SlotId} {s : State} {src : Source} {number : PictureNumber}
    (h : (s.slot m).state = .grabbing src number) :
    (completions period s).slot m = { state := .idle, content := some (capture period src) } ∧
      ∃ r : ReportBuilder, r.enabled = s.notices.enabled ∧
        Posted
          (r.take { kind := .grabDone src, cls := .info, subject := .slot (slotByte m), number := s.ref.picture })
          (completions period s).notices := by
  obtain ⟨u, hu, hum, hw, hslot⟩ := completions_turn period m s
  rw [← hum] at h
  rw [completeGrab_of_grabbing h] at hw hslot
  refine ⟨hslot.trans (finishGrab_slot ..), u.notices, hu.2.enabled_eq, ?_⟩
  rw [← hu.ref_eq]
  exact hw.2

theorem SlotState.isGrabbing_iff (x : SlotState) : x.isGrabbing = true ↔ ∃ src number, x = .grabbing src number := by
  cases x <;> simp [SlotState.isGrabbing]

theorem completions_not_grabbing (period s : State) (m : SlotId) :
    ((completions period s).slot m).state.isGrabbing = false := by
  by_cases h : ∃ src number, (s.slot m).state = .grabbing src number
  · obtain ⟨src, number, h⟩ := h
    rw [(completions_of_grabbing period h).1]
    rfl
  · rw [← SlotState.isGrabbing_iff, Bool.not_eq_true] at h
    rw [completions_slot_of_not_grabbing period fun src number hg => by simp [hg, SlotState.isGrabbing] at h]
    exact h

/-- Ports capture into GRABBING slots alone, so both are free once the grabs in hand have completed. -/
theorem completions_freePorts (period : State) {s : State} (hsound : s.store.sound) :
    (completions period s).store.freePorts = 2 := by
  obtain ⟨-, -, -, -, hports, -⟩ := completions_sound period s hsound
  have hnone (m : SlotId) :
      ¬ ((completions period s).store.ports[0] = some m ∨ (completions period s).store.ports[1] = some m) := fun hm =>
    Bool.noConfusion ((completions_not_grabbing period s m).symm.trans ((hports m).mpr hm))
  have h0 : (completions period s).store.ports[0] = none :=
    Option.eq_none_iff_forall_ne_some.mpr fun m hm => hnone m (.inl hm)
  have h1 : (completions period s).store.ports[1] = none :=
    Option.eq_none_iff_forall_ne_some.mpr fun m hm => hnone m (.inr hm)
  simp only [Store.freePorts, h0, h1, if_true]

end Sys2Proof.Machine
end

section
/-! The still store at a switch line whose take holds RESYNC commands alone (R25, R43, R161 to R164): the state that its own work starts
from, the lanes that the take leaves LOCKED, and what the line makes of each slot and of each entry of the queue. -/

namespace Sys2Proof.Machine

/-! ### A take of RESYNC commands (R25, R43) -/

/-- RESYNC takes the lane it names out of LOCKED and brings none into it. -/
theorem doResync_locked_iff (lane : Byte) (s : State) (n : LaneId) :
    ((doResync lane s).lane n).state = .locked ↔ (s.lane n).state = .locked ∧ readLane lane ≠ some n := by
  unfold doResync
  cases hread : readLane lane with
  | none => simp
  | some k =>
    simp only [resyncLane, ne_eq, Option.some.injEq]
    by_cases hk : n = k
    · subst hk
      cases hstate : (s.lane n).state <;> simp [hstate, Lane.moved]
    · have hne : ¬ k = n := fun e => hk e.symm
      cases hstate : (s.lane k).state <;>
        simp [hne, moveLane_lane_of_ne _ _ hk, State.lane_setLane_of_ne _ _ hk]

theorem keepsLock_cons (n : LaneId) {e : TakeEntry} (h : ∃ lane : Byte, e.command = .resync lane) (rest : List TakeEntry) :
    keepsLock n (e :: rest) = (!Command.unlocks n e.command && keepsLock n rest) := by
  have hresets : Command.resets e.command = false := by
    obtain ⟨lane, he⟩ := h
    rw [he]
    rfl
  rw [keepsLock, hresets]
  cases Command.unlocks n e.command <;> rfl

theorem lockedAfterTake_congr {s t : State} (hlanes : t.lanes = s.lanes) (hcontrol : t.control = s.control) :
    lockedAfterTake t = lockedAfterTake s := by
  funext n
  unfold lockedAfterTake lockedNow State.lane
  rw [hlanes, hcontrol]

theorem onlyLanes_runEntry {e : TakeEntry} (h : ∃ lane : Byte, e.command = .resync lane) (s : State) :
    OnlyLanes s (runEntry e s) := by
  obtain ⟨lane, he⟩ := h
  rw [runEntry, he]
  refine OnlyLanes.trans (t := if e.late then s.post (.late (Command.resync lane).code) .advisory .none else s) ?_
    (onlyLanes_doResync lane _)
  split
  · exact (onlyPosts_post ..).lanes
  · exact .refl s

theorem runEntry_locked_iff {e : TakeEntry} (h : ∃ lane : Byte, e.command = .resync lane) (s : State) (n : LaneId) :
    ((runEntry e s).lane n).state = .locked ↔ (s.lane n).state = .locked ∧ Command.unlocks n e.command = false := by
  obtain ⟨lane, he⟩ := h
  have hlate : (if e.late then s.post (.late (Command.resync lane).code) .advisory .none else s).lane n = s.lane n := by
    split <;> rfl
  rw [runEntry, he]
  refine (doResync_locked_iff lane _ n).trans ?_
  rw [hlate]
  simp [Command.unlocks]

/-- What a hand-out of RESYNC commands leaves: the store, some more notices, and LOCKED the lanes that R163 counts as ready. -/
theorem handOut_resyncs (k : Nat) :
    ∀ s : State, (∀ e ∈ s.control.take, ∃ lane : Byte, e.command = .resync lane) → s.control.take.length ≤ k →
      (handOut k s).store = s.store ∧ Posted s.notices (handOut k s).notices ∧
        ∀ n : LaneId, ((handOut k s).lane n).state = .locked ↔ lockedAfterTake s n = true := by
  induction k with
  | zero =>
    intro s _ hlength
    have htake : s.control.take = [] := List.eq_nil_of_length_eq_zero (Nat.le_zero.mp hlength)
    exact ⟨rfl, .refl _, fun n => by simp [handOut, lockedAfterTake, lockedNow, htake, keepsLock]⟩
  | succ k ih =>
    intro s hresync hlength
    rw [handOut]
    split
    · rename_i htake
      exact ⟨rfl, .refl _, fun n => by simp [lockedAfterTake, lockedNow, htake, keepsLock]⟩
    · rename_i e rest htake
      rw [htake] at hresync hlength
      have he := hresync e (List.mem_cons_self ..)
      have hrun := onlyLanes_runEntry he { s with control := { s.control with take := rest } }
      have hrest : (runEntry e { s with control := { s.control with take := rest } }).control.take = rest := by
        rw [hrun.control_eq]
      obtain ⟨hstore, hposted, hlocked⟩ := ih _
        (by rw [hrest]; exact fun f hf => hresync f (List.mem_cons_of_mem _ hf))
        (by rw [hrest]; exact Nat.le_of_succ_le_succ hlength)
      refine ⟨hstore.trans hrun.store_eq, hrun.2.trans hposted, fun n => (hlocked n).trans ?_⟩
      simp only [lockedAfterTake, lockedNow, hrest, htake, keepsLock_cons n he, Bool.and_eq_true, decide_eq_true_eq,
        Bool.not_eq_true', runEntry_locked_iff he, and_assoc]
      rfl

/-! ### The line as the store sees it -/

/-- The still store at a switch line from `s` to `t`: its own work is done in `own` with the lanes that `locked` picks, and what follows
it leaves the store as it is. -/
structure GrabLine (s own t : State) (locked : LaneId → Bool) : Prop where
  store : own.store = s.store
  tally : own.tally = s.tally
  picture : own.ref.picture = s.ref.picture + 1
  enabled : own.notices.enabled = s.notices.enabled
  after : t.store = (storeWork s locked own).store
  posted : Posted (storeWork s locked own).notices t.notices
  locked : ∀ n : LaneId, (t.lane n).state = .locked ↔ locked n = true

theorem formTake_take_of_none_due {s : State} (htake : s.control.take = [])
    (hdue : ∀ e ∈ s.control.schedule, e.target ≠ s.ref.picture) : (formTake s).control.take = s.control.takeList := by
  simp only [formTake, dueEntries_none _ s hdue, htake, List.nil_append]

/-- A switch line whose take holds RESYNC commands alone. -/
theorem grabLine_of_resyncs (p : FieldParity) {s : State} (htake : s.control.take = [])
    (hlist : ∀ c ∈ s.control.takeList, ∃ lane : Byte, c.command = .resync lane)
    (hdue : ∀ e ∈ s.control.schedule, e.target ≠ s.ref.picture + 1) :
    ∃ (own : State) (locked : LaneId → Bool), GrabLine s own (plainSwitchLine p s) locked := by
  have hlanes := onlyLanes_lanesWork s (beginPeriod p s)
  unfold plainSwitchLine handOutTake ownWork
  generalize lanesWork s (beginPeriod p s) = w at hlanes ⊢
  have hformed : (formTake w).control.take = s.control.takeList := by
    rw [formTake_take_of_none_due (by rw [hlanes.control_eq]; exact htake)
      (by rw [hlanes.control_eq, hlanes.ref_eq]; exact hdue), hlanes.control_eq]
    rfl
  have hbanks := onlyEngine_banksWork (formTake w)
  have hwork := onlyStore_storeWork s (lockedAfterTake (formTake w)) (banksWork (formTake w))
  have hcontrol := hwork.control_eq.trans hbanks.control_eq
  have hlocked := lockedAfterTake_congr (hwork.lanes_eq.trans hbanks.lanes_eq) hcontrol
  obtain ⟨hstore, hposted, hlane⟩ := handOut_resyncs _ (storeWork s (lockedAfterTake (formTake w)) (banksWork (formTake w)))
    (by rw [hcontrol, hformed]; exact hlist) (Nat.le_refl _)
  exact ⟨banksWork (formTake w), lockedAfterTake (formTake w),
    { store := by rw [hbanks.store_eq, formTake_store, hlanes.store_eq]; rfl
      tally := by rw [hbanks.tally_eq, formTake_tally, hlanes.tally_eq]; rfl
      picture := by rw [hbanks.ref_eq, formTake_ref, hlanes.ref_eq]; rfl
      enabled := by rw [hbanks.2.enabled_eq, formTake_notices, hlanes.2.enabled_eq]; rfl
      after := hstore
      posted := hposted
      locked := fun n => by rw [hlane n, hlocked] }⟩

/-! ### Notices of the line (R164, R174) -/

theorem ClassFlags.raise_keeps_get {f : ClassFlags} {c : NoticeClass} (h : f.get c = true) (cls : NoticeClass) :
    (f.raise cls).get c = true := by
  cases cls <;> cases c <;> first | rfl | exact h

theorem ClassFlags.get_raise_self (f : ClassFlags) (cls : NoticeClass) : (f.raise cls).get cls = true := by
  cases cls <;> rfl

/-- After a notice and any more notices both flags of its class are set. -/
theorem Posted.class_flags {r r' : ReportBuilder} {n : Notice} (h : Posted (r.take n) r') :
    r'.summary.get n.cls = true ∧ r'.recent.get n.cls = true := by
  refine h.keeps (P := fun x => x.summary.get n.cls = true ∧ x.recent.get n.cls = true) (fun x m ⟨hs, hr⟩ => ?_) ?_
  · rw [ReportBuilder.take_summary, ReportBuilder.take_recent]
    exact ⟨ClassFlags.raise_keeps_get hs _, ClassFlags.raise_keeps_get hr _⟩
  · rw [ReportBuilder.take_summary, ReportBuilder.take_recent]
    exact ⟨ClassFlags.get_raise_self _ _, ClassFlags.get_raise_self _ _⟩

/-! ### The slots without an entry (R161) -/

/-- A sound queue holds no entry twice. -/
theorem Store.sound.nodup_queue {x : Store} (h : x.sound) : x.queue.Nodup :=
  List.Pairwise.of_map (·.slot) (fun _ _ hslots hentries => hslots (congrArg GrabEntry.slot hentries)) h.2.1

theorem storeWork_eq_walkOver (period : State) (locked : LaneId → Bool) (s : State) :
    storeWork period locked s = walkOver locked (completions period s).store.queue (completions period s) := rfl

section Line
variable {s own t : State} {locked : LaneId → Bool} (h : GrabLine s own t locked)
include h

theorem GrabLine.slot_own (m : SlotId) : own.slot m = s.slot m := by
  unfold State.slot
  rw [h.store]

/-- Slots that do not wait are left alone by the walk. -/
theorem GrabLine.slot_of_not_waiting (hsound : s.store.sound) {m : SlotId} (hm : (s.slot m).state ≠ .waiting) :
    t.slot m = (completions s own).slot m := by
  have hqueue : ∀ f ∈ (completions s own).store.queue, f.slot ≠ m := by
    rw [completions_queue, h.store]
    rintro f hf rfl
    exact hm (hsound.not_grabbing_of_mem (List.mem_map.mpr ⟨f, hf, rfl⟩))
  have hafter := h.after
  rw [storeWork_eq_walkOver] at hafter
  exact (SameAt.of_store_eq hafter m).slot.trans (sameAt_walkOver locked hqueue (completions s own)).slot

theorem GrabLine.completes (hsound : s.store.sound) {m : SlotId} {src : Source} {number : PictureNumber}
    (hm : (s.slot m).state = .grabbing src number) :
    t.slot m = { state := .idle, content := some (capture s src) } ∧
      t.notices.summary.info = true ∧ t.notices.recent.info = true ∧
      (s.notices.enabled.info = true → t.notices.lost = false →
        { kind := .grabDone src, cls := .info, subject := .slot (slotByte m), number := s.ref.picture + 1 } ∈
          t.notices.queue) := by
  have hown : (own.slot m).state = .grabbing src number := by rw [h.slot_own]; exact hm
  obtain ⟨hslot, r, henabled, hposted⟩ := completions_of_grabbing s hown
  have hall := (hposted.trans (onlyStore_walk locked _).2).trans h.posted
  rw [h.picture] at hall
  obtain ⟨hsummary, hrecent⟩ := hall.class_flags
  refine ⟨(h.slot_of_not_waiting hsound (by rw [hm]; exact nofun)).trans hslot, hsummary, hrecent, fun hinfo =>
    hall.mem_queue ?_ rfl⟩
  rw [henabled, h.enabled]
  exact hinfo

theorem GrabLine.idle_slot (hsound : s.store.sound) {m : SlotId} (hm : (s.slot m).state = .idle) : t.slot m = s.slot m := by
  rw [h.slot_of_not_waiting hsound (by rw [hm]; exact nofun),
    completions_slot_of_not_grabbing s (by rw [h.slot_own, hm]; exact nofun), h.slot_own]

theorem GrabLine.slots_sublist : (t.store.queue.map (·.slot)).Sublist (s.store.queue.map (·.slot)) := by
  have hwalk := walk_slots_sublist locked (completions s own)
  rw [completions_queue, h.store] at hwalk
  rw [h.after, storeWork]
  exact hwalk

theorem GrabLine.ready_iff (src : Source) :
    sourceReady locked src = true ↔ src = .meAProgramme ∨ ∃ n : LaneId, src = .lane n ∧ (t.lane n).state = .locked := by
  simp only [sourceReady_iff, h.locked]

end Line

/-! ### The turn of an entry (R162) -/

/-- The turn of entry `e` at a switch line from `s` to `t`: it comes in state `u`, when the entries `before` it have had theirs. -/
structure EntryTurn (s u t : State) (locked : LaneId → Bool) (before : List GrabEntry) (e : GrabEntry) : Prop where
  slot : u.slot e.slot = s.slot e.slot
  queued : e ∈ u.store.queue
  tally : u.tally = s.tally
  picture : u.ref.picture = s.ref.picture + 1
  enabled : u.notices.enabled = s.notices.enabled
  ports : u.store.freePorts = 2 - (before.filter (grabBegins locked s)).length
  after : SameAt e.slot (walkEntry locked e u) t
  posted : Posted (walkEntry locked e u).notices t.notices

theorem GrabLine.turn {s own t : State} {locked : LaneId → Bool} (h : GrabLine s own t locked) (hsound : s.store.sound)
    {before after : List GrabEntry} {e : GrabEntry} (hqueue : s.store.queue = before ++ e :: after) :
    ∃ u : State, EntryTurn s u t locked before e := by
  have hnodup : ((before ++ e :: after).map (·.slot)).Nodup := hqueue ▸ hsound.2.1
  rw [List.map_append, List.map_cons] at hnodup
  obtain ⟨hbefore, hafter⟩ := notMem_of_nodup_split hnodup
  have hdone := onlyStore_completions s own
  have hmem : e ∈ before ++ e :: after := List.mem_append_right _ (List.mem_cons_self ..)
  have hwaits : (s.slot e.slot).state = .waiting :=
    hsound.not_grabbing_of_mem (by rw [hqueue]; exact List.mem_map_of_mem hmem)
  have hslot : (completions s own).slot e.slot = s.slot e.slot :=
    (completions_slot_of_not_grabbing s (by rw [h.slot_own, hwaits]; exact nofun)).trans (h.slot_own _)
  have hleft : (completions s own).store.queue = before ++ e :: after := by rw [completions_queue, h.store, hqueue]
  have hover := onlyStore_walkOver locked before (completions s own)
  have hsame := sameAt_walkOver locked (fun f hf e => hbefore (List.mem_map.mpr ⟨f, hf, e⟩)) (completions s own)
  have hwalk : t.store = (walkOver locked after (walkEntry locked e (walkOver locked before (completions s own)))).store := by
    rw [h.after, storeWork, walk_of_split locked hleft]
  have hposted := h.posted
  rw [storeWork, walk_of_split locked hleft] at hposted
  exact ⟨walkOver locked before (completions s own),
    { slot := hsame.slot.trans hslot
      queued := (hsame.entry e rfl).mpr (by rw [hleft]; exact hmem)
      tally := by rw [hover.tally_eq, hdone.tally_eq, h.tally]
      picture := by rw [hover.ref_eq, hdone.ref_eq, h.picture]
      enabled := by rw [hover.2.enabled_eq, hdone.2.enabled_eq, h.enabled]
      ports := by
        rw [walkOver_freePorts, completions_freePorts s (by rw [h.store]; exact hsound),
          grabBegins_of_tally_eq (hdone.tally_eq.trans h.tally)]
      after := (sameAt_walkOver locked (fun f hf e => hafter (List.mem_map.mpr ⟨f, hf, e⟩)) _).trans (.of_store_eq hwalk _)
      posted := (onlyStore_walkOver locked after _).2.trans hposted }⟩

section Turn
variable {s u t : State} {locked : LaneId → Bool} {before : List GrabEntry} {e : GrabEntry}
  (h : EntryTurn s u t locked before e)
include h

theorem EntryTurn.onAir_eq : slotOnAir u e.slot = slotOnAir s e.slot := by
  simp only [slotOnAir, State.onAir, h.tally]

/-- An entry leaves the queue when its turn takes it out. -/
theorem EntryTurn.gone (hstep : ∀ f ∈ (walkEntry locked e u).store.queue, f.slot ≠ e.slot) :
    ∀ f ∈ t.store.queue, f.slot ≠ e.slot :=
  fun f hf he => hstep f ((h.after.entry f he).mp hf) he

theorem EntryTurn.fails {why : GrabFault} (hstep : walkEntry locked e u = failGrab e.slot why u) :
    t.slot e.slot = { s.slot e.slot with state := .idle } ∧ (∀ f ∈ t.store.queue, f.slot ≠ e.slot) ∧
      t.notices.summary.degraded = true ∧ t.notices.recent.degraded = true ∧
      (s.notices.enabled.degraded = true → t.notices.lost = false →
        { kind := .grabFailed why, cls := .degraded, subject := .slot (slotByte e.slot), number := s.ref.picture + 1 } ∈
          t.notices.queue) := by
  have hposted : Posted
      (u.notices.take
        { kind := .grabFailed why, cls := .degraded, subject := .slot (slotByte e.slot), number := s.ref.picture + 1 })
      t.notices := by
    have hp := h.posted
    rw [hstep] at hp
    rw [← h.picture]
    exact hp
  obtain ⟨hsummary, hrecent⟩ := hposted.class_flags
  refine ⟨?_, h.gone ?_, hsummary, hrecent, fun hdegraded => hposted.mem_queue ?_ rfl⟩
  · rw [h.after.slot, hstep, failGrab_slot, h.slot]
  · rw [hstep]
    exact fun f hf => Store.ne_of_mem_without hf
  · rw [h.enabled]
    exact hdegraded

variable (hair : slotOnAir s e.slot = false)
include hair

theorem EntryTurn.waits (hready : sourceReady locked e.source = false) (hwait : e.wait < 7) :
    t.slot e.slot = s.slot e.slot ∧ { e with wait := e.wait + 1 } ∈ t.store.queue := by
  have hstep := walkEntry_of_waiting (h.onAir_eq.trans hair) hready hwait
  rw [h.after.slot, h.after.entry { e with wait := e.wait + 1 } rfl, hstep]
  exact ⟨h.slot, mem_setWait_self h.queued _⟩

variable (hready : sourceReady locked e.source = true)
include hready

theorem EntryTurn.grabBegins_eq : grabBegins locked u e = true :=
  (grabBegins_iff locked u e).mpr ⟨h.onAir_eq.trans hair, hready⟩

theorem EntryTurn.begins (hahead : (before.filter (grabBegins locked s)).length < 2) :
    t.slot e.slot = { s.slot e.slot with state := .grabbing e.source (s.ref.picture + 1) } ∧
      ∀ f ∈ t.store.queue, f.slot ≠ e.slot := by
  have hfree : freePort u ≠ none := by
    rw [ne_eq, freePort_eq_none_iff, h.ports]
    omega
  obtain ⟨p, hport⟩ := Option.ne_none_iff_exists'.mp hfree
  have hstep := walkEntry_of_port (h.grabBegins_eq hair hready) hport
  refine ⟨?_, h.gone ?_⟩
  · rw [h.after.slot, hstep, beginGrab_slot, h.slot, h.picture]
  · rw [hstep]
    exact fun f hf => Store.ne_of_mem_without hf

theorem EntryTurn.stays (hahead : 2 ≤ (before.filter (grabBegins locked s)).length) :
    t.slot e.slot = s.slot e.slot ∧ e ∈ t.store.queue := by
  have hport : freePort u = none := by
    rw [freePort_eq_none_iff, h.ports]
    omega
  have hstep := walkEntry_of_no_port (h.grabBegins_eq hair hready) hport
  rw [h.after.slot, h.after.entry _ rfl, hstep]
  exact ⟨h.slot, h.queued⟩

end Turn

/-- The entries of a list without repetition that a test picks are as many as a part that holds exactly these. -/
theorem length_filter_of_sublist {l ahead : List GrabEntry} {test : GrabEntry → Bool} (hnodup : l.Nodup)
    (hsub : ahead.Sublist l) (hmem : ∀ f ∈ l, f ∈ ahead ↔ test f = true) : (l.filter test).length = ahead.length := by
  refine ((List.perm_ext_iff_of_nodup (hnodup.filter _) (hnodup.sublist hsub)).mpr fun f => ?_).length_eq
  rw [List.mem_filter]
  exact ⟨fun ⟨hf, htest⟩ => (hmem f hf).mpr htest, fun hf => ⟨hsub.subset hf, (hmem f (hsub.subset hf)).mp hf⟩⟩

/-- Settles O44: the three rows by the slot's entry and the ports, the captures, and each slot and entry at the switch line. -/
theorem grabsCompleteBeginAndTimeOut : Obligations.GrabsCompleteBeginAndTimeOut := by
  refine ⟨fun s m hr => ?_, fun s n => ⟨rfl, capture_meAProgramme s⟩, fun s p hr hsound hchange htake hlist hdue => ?_⟩
  · simp only [exec_grabCompletion m hr, exec_grabBegin m hr, exec_grabWaitTimeout m hr, Host.Outcome.next.injEq]
    refine ⟨fun src number hgrab => completeGrab_of_grabbing hgrab s, fun hgrab => completeGrab_of_not_grabbing hgrab s,
      grabSteps_of_no_entry, ?_⟩
    rintro before after e ready hqueue rfl hbefore hafter - - hready
    replace hready : ready ↔ sourceReady (lockedNow s) e.source = true := by
      rw [hready, sourceReady_iff]
      simp only [lockedNow, decide_eq_true_eq]
    simp only [hready, Bool.not_eq_true]
    refine ⟨grabSteps_of_onAir hqueue hbefore, fun hair => ⟨grabWaitTimeout_of_ready hqueue hbefore hair,
      grabBegin_of_not_ready hqueue hbefore hair, fun hr h0 h1 =>
        grabBegin_of_no_port hqueue hbefore hair hr (freePort_of_busy h0 h1), fun hr hports => ?_, fun hr hwait => ?_,
      grabWaitTimeout_of_waiting hqueue hbefore hair⟩⟩
    · obtain ⟨q, hq⟩ := freePort_of_free hports
      refine ⟨q, freePort_some hq, ?_⟩
      rw [grabBegin_of_port hqueue hbefore hair hr hq, beginGrab_of_split hqueue hbefore hafter]
    · rw [grabWaitTimeout_of_last hqueue hbefore hair hr hwait, failGrab_of_split hqueue hbefore hafter]
  · obtain ⟨own, locked, h⟩ := grabLine_of_resyncs p htake hlist hdue
    refine ⟨plainSwitchLine p s, by rw [exec_switchLine p hr, switchLine_of_no_change p hchange],
      fun m src number => h.completes hsound, fun m => h.idle_slot hsound, h.slots_sublist, ?_⟩
    intro before after e onAir ready ahead hqueue honAir hready ⟨hsub, hmem⟩
    obtain ⟨u, hturn⟩ := h.turn hsound hqueue
    replace honAir : ∀ f, onAir f ↔ slotOnAir s f.slot = true := honAir
    replace hready : ∀ f, ready f ↔ sourceReady locked f.source = true := fun f =>
      (hready f).trans (h.ready_iff f.source).symm
    simp only [honAir, hready, Bool.not_eq_true] at hmem ⊢
    have hahead : (before.filter (grabBegins locked s)).length = ahead.length := by
      have hnodup : (before ++ e :: after).Nodup := hqueue ▸ hsound.nodup_queue
      exact length_filter_of_sublist (List.nodup_append.mp hnodup).1 hsub fun f hf =>
        (hmem f hf).trans (grabBegins_iff locked s f).symm
    rw [← hahead]
    exact ⟨fun hair => hturn.fails (walkEntry_of_onAir (hturn.onAir_eq.trans hair)), hturn.begins, hturn.stays, hturn.waits,
      fun hair hr hwait => hturn.fails (walkEntry_of_last (hturn.onAir_eq.trans hair) hr hwait)⟩

end Sys2Proof.Machine
end

section
/-! Every step keeps the notice queue at most 32 long, without two LANE notices for one lane (R174): most work only posts notices, the
resets and a format change empty the queue first (R49), and the report line takes the oldest away (R180). -/

namespace Sys2Proof.Machine

/-! ### Work that posts notices -/

theorem noticesSound_doAuxSelect (source : Byte) {s : State} (h : s.notices.sound) :
    (doAuxSelect source s).notices.sound := by
  unfold doAuxSelect; split
  · exact (onlyPosts_refuse ..).2.sound h
  · exact h

theorem noticesSound_doLoadCurve (curve : Byte) (points : Vector Word16 65) {s : State} (h : s.notices.sound) :
    (doLoadCurve curve points s).notices.sound := by
  unfold doLoadCurve; split
  · exact (onlyPosts_refuse ..).2.sound h
  · simp only [loadCurve]; split
    · exact h
    · exact ReportBuilder.take_sound _ _ h

/-- A written mask leaves the queue as it is (R174). -/
theorem noticesSound_doNoticeMask (info advisory degraded : Byte) {s : State} (h : s.notices.sound) :
    (doNoticeMask info advisory degraded s).notices.sound := by
  unfold doNoticeMask; split
  · exact h
  · exact (onlyPosts_refuse ..).2.sound h

/-! ### The resets (R49) -/

/-- The FULL scope posts its LANE notices to an empty queue. -/
theorem noticesSound_resetFull (s : State) : (resetFull s).notices.sound := by
  unfold resetFull fullScope
  exact (onlyLanes_lanesFullReset _).2.sound ReportBuilder.powerOn_sound

theorem noticesSound_doReset (scope : Byte) {s : State} (h : s.notices.sound) : (doReset scope s).notices.sound := by
  unfold doReset; split
  · exact ReportBuilder.emptied_sound _
  · exact noticesSound_resetFull s
  · exact (onlyPosts_refuse ..).2.sound h

/-! ### The commands of a take -/

/-- Only RESET empties the queue; every other command at most posts notices. -/
theorem noticesSound_runCommand (c : Command) (s : State) (h : s.notices.sound) : (runCommand c s).notices.sound := by
  cases c with
  | cancel _ => exact h
  | cancelAll => exact h
  | reset scope => exact noticesSound_doReset scope h
  | laneSet _ _ _ => exact (onlyLanes_doLaneSet ..).2.sound h
  | resync _ => exact (onlyLanes_doResync ..).2.sound h
  | select _ _ _ => exact (onlyEngine_doSelect ..).2.sound h
  | auxSelect source => exact noticesSound_doAuxSelect source h
  | matte _ _ _ => exact h
  | loadCurve curve points => exact noticesSound_doLoadCurve curve points h
  | wipeSet _ _ _ _ => exact (onlyEngine_doWipeSet ..).2.sound h
  | keySet _ _ _ _ _ _ => exact (onlyEngine_doKeySet ..).2.sound h
  | maskSet _ _ _ => exact (onlyEngine_doMaskSet ..).2.sound h
  | transSet _ _ _ _ => exact (onlyEngine_doTransSet ..).2.sound h
  | nextSet _ _ => exact (onlyEngine_doNextSet ..).2.sound h
  | cut _ => exact (onlyEngine_doCut ..).2.sound h
  | auto _ => exact (onlyEngine_doAuto ..).2.sound h
  | lever _ _ => exact (onlyEngine_doLever ..).2.sound h
  | layerOn _ _ => exact (onlyEngine_doLayerOn ..).2.sound h
  | layerOff _ _ => exact (onlyEngine_doLayerOff ..).2.sound h
  | layerRate _ _ _ => exact (onlyEngine_doLayerRate ..).2.sound h
  | order _ _ _ _ _ => exact (onlyEngine_doOrder ..).2.sound h
  | raise _ _ => exact (onlyEngine_doRaise ..).2.sound h
  | lower _ _ => exact (onlyEngine_doLower ..).2.sound h
  | loadKeyframes _ _ _ => exact (onlyEngine_doLoadKeyframes ..).2.sound h
  | runSet _ _ _ _ => exact (onlyEngine_doRunSet ..).2.sound h
  | run _ => exact (onlyEngine_doRun ..).2.sound h
  | step _ => exact (onlyEngine_doStep ..).2.sound h
  | hold _ => exact (onlyEngine_doHold ..).2.sound h
  | abort _ => exact (onlyEngine_doAbort ..).2.sound h
  | grab _ _ => exact (onlyStore_doGrab ..).2.sound h
  | clear _ => exact (onlyStore_doClear ..).2.sound h
  | noticeMask info advisory degraded => exact noticesSound_doNoticeMask info advisory degraded h
  | clearSummary => exact h

/-- A late entry posts LATE before its command (R41). -/
theorem noticesSound_runEntry (e : TakeEntry) {s : State} (h : s.notices.sound) : (runEntry e s).notices.sound := by
  unfold runEntry
  refine noticesSound_runCommand _ _ ?_
  split
  · exact (onlyPosts_post ..).2.sound h
  · exact h

theorem noticesSound_handOut (n : Nat) : ∀ s : State, s.notices.sound → (handOut n s).notices.sound := by
  induction n with
  | zero => exact fun _ h => h
  | succ n ih =>
    intro s h
    unfold handOut; split
    · exact h
    · exact ih _ (noticesSound_runEntry _ h)

/-! ### The two lines of a picture period -/

theorem noticesSound_plainSwitchLine (p : FieldParity) {s : State} (h : s.notices.sound) :
    (plainSwitchLine p s).notices.sound := by
  have hformed : (formTake (lanesWork s (beginPeriod p s))).notices.sound := by
    rw [formTake_notices]
    exact (onlyLanes_lanesWork s (beginPeriod p s)).2.sound h
  have hbanks := (onlyEngine_banksWork _).2.sound hformed
  exact noticesSound_handOut _ _ ((onlyStore_storeWork ..).2.sound hbanks)

theorem noticesSound_formatNotices (before : State) {c : State} (h : c.notices.sound) :
    (lanesFormatNotices before (postFormat (postReference c))).notices.sound := by
  have hreference : (postReference c).notices.sound := ReportBuilder.take_sound _ _ h
  have hformat : (postFormat (postReference c)).notices.sound := ReportBuilder.take_sound _ _ hreference
  exact (onlyLanes_lanesFormatNotices ..).2.sound hformat

/-- The notices of a format change are posted to an empty queue (R13, R49). -/
theorem noticesSound_formatSwitchLine (p : FieldParity) (s : State) : (formatSwitchLine p s).notices.sound := by
  rw [formatSwitchLine_eq_notices]
  exact noticesSound_formatNotices s (ReportBuilder.emptied_sound _)

theorem noticesSound_switchLine (p : FieldParity) (s : State) (h : s.notices.sound) : (switchLine p s).notices.sound := by
  unfold switchLine; split
  · exact noticesSound_formatSwitchLine p s
  · exact noticesSound_plainSwitchLine p h

theorem noticesSound_formatChangeLine (p : FieldParity) (s : State) (h : s.notices.sound) :
    (formatChangeLine p s).notices.sound := by
  unfold formatChangeLine; split
  · exact noticesSound_formatSwitchLine p s
  · exact h

theorem noticesSound_actHeld (e : HeldEvent) {s : State} (h : s.notices.sound) : (actHeld e s).notices.sound := by
  cases e with
  | start x => exact (onlyRef_actStart x s).2.sound h
  | missing => exact (onlyRef_actMissing s).2.sound h
  | packet carrier =>
    simp only [actHeld]; split
    · exact (onlyControl_collectCarrier carrier s).2.sound h
    · exact h

/-- The six oldest notices leave with the packet, and the held events post theirs after it (R176, R178, R180). -/
theorem noticesSound_reportLine (s : State) (h : s.notices.sound) : (reportLine s).notices.sound := by
  unfold reportLine; split
  · have hsent : (sendReport (formTally s)).notices.sound := ReportBuilder.dropped_sound _ _ h _ _
    exact List.foldlRecOn (motive := fun t : State => t.notices.sound) _ _ hsent fun _ ht e _ => noticesSound_actHeld e ht
  · exact h

/-! ### Events of the inputs -/

theorem noticesSound_referenceStart (x : ReferenceStart) (s : State) (h : s.notices.sound) :
    (referenceStart x s).notices.sound := by
  unfold referenceStart; split
  · exact h
  · exact (onlyRef_actStart x s).2.sound h

theorem noticesSound_referenceMissing (s : State) (h : s.notices.sound) : (referenceMissing s).notices.sound := by
  unfold referenceMissing; split
  · exact h
  · exact (onlyRef_actMissing s).2.sound h

theorem noticesSound_packetArrives (whole : Bool) (carrier : List Byte) (s : State) (h : s.notices.sound) :
    (packetArrives whole carrier s).notices.sound := by
  unfold packetArrives; split
  · split
    · exact h
    · exact (onlyControl_collectCarrier carrier s).2.sound h
  · exact h

theorem noticesSound_dueEntry (s : State) (h : s.notices.sound) : (dueEntry s).notices.sound := by
  rw [dueEntry_frame]
  exact h

/-- Every operation of the commands keeps the notice queue sound. -/
theorem kept_noticesSound : Kept (fun s => s.notices.sound) where
  restarted := fun _ _ _ _ => ReportBuilder.powerOn_sound
  signal := fun n signal s h => (onlyLanes_laneSignal n signal s).2.sound h
  start := noticesSound_referenceStart
  missing := noticesSound_referenceMissing
  line := noticesSound_switchLine
  report := noticesSound_reportLine
  packet := noticesSound_packetArrives
  due := noticesSound_dueEntry
  change := noticesSound_formatChangeLine
  laneStart := fun n x s h => (onlyLanes_laneStart n x s).2.sound h
  lock := fun n s h => (onlyLanes_laneLock n s).2.sound h
  fadeEnd := fun bank l s h => (onlyEngine_fadeEnd bank l s).2.sound h
  autoDue := fun bank s h => (onlyEngine_autoCompletionDue bank s).2.sound h
  segmentEnd := fun bank s h => (onlyEngine_segmentEnd bank s).2.sound h
  release := fun bank s h => (onlyEngine_syncRelease bank s).2.sound h
  completion := fun m s h => (onlyStore_completeGrab s m s).2.sound h
  begins := fun m s h => (onlyStore_grabBegin m s).2.sound h
  timeout := fun m s h => (onlyStore_grabWaitTimeout m s).2.sound h
  collect := fun target code count inner s h => (onlyControl_collectAt target code count inner s).2.sound h
  command := noticesSound_runCommand

/-- Settles O54: a sound queue is kept by every operation, so by every step. -/
theorem stepsKeepTheNoticeQueueSound : Obligations.StepsKeepTheNoticeQueueSound := fun _ _ hsound hstep =>
  kept_noticesSound.step (fun _ _ h => h) hsound hstep

end Sys2Proof.Machine
end

section
/-! How the report builder takes a notice (R174 to R176), and NOTICE_MASK and CLEAR_SUMMARY (R177). -/

namespace Sys2Proof.Machine

/-! ### The flags of a class (R177) -/

theorem ClassFlags.get_raise (f : ClassFlags) (cls other : NoticeClass) :
    (f.raise cls).get other = (decide (other = cls) || f.get other) := by
  cases cls <;> cases other <;> rfl

theorem ClassFlags.get_both (f g : ClassFlags) (cls : NoticeClass) : (f.both g).get cls = (f.get cls && g.get cls) := by
  cases cls <;> rfl

/-! ### The three steps (R174) -/

/-- The report builder with both flags of the class set, as step 1 of R174 leaves it. -/
def ReportBuilder.flagged (r : ReportBuilder) (cls : NoticeClass) : ReportBuilder :=
  { r with summary := r.summary.raise cls, recent := r.recent.raise cls }

section Take

variable {r : ReportBuilder} {n : Notice}

theorem ReportBuilder.take_of_disabled (h : r.enabled.get n.cls = false) : r.take n = r.flagged n.cls := by
  simp only [ReportBuilder.take, h, Bool.false_eq_true, if_false]
  rfl

theorem ReportBuilder.take_of_enabled (h : r.enabled.get n.cls = true) : r.take n = (r.flagged n.cls).enqueue n := by
  simp only [ReportBuilder.take, h, if_true]
  rfl

/-- A LANE notice whose lane has one in the queue updates it in place (R175). -/
theorem ReportBuilder.enqueue_of_queued (h : ∃ q ∈ r.queue, q.sameLane n = true) :
    r.enqueue n = { r with queue := r.queue.map (fun q => if q.sameLane n then q.updatedBy n else q) } :=
  if_pos (List.any_eq_true.mpr h)

theorem ReportBuilder.not_any_sameLane (h : ∀ q ∈ r.queue, q.sameLane n = false) :
    ¬r.queue.any (·.sameLane n) = true := by
  rw [List.any_eq_true]
  rintro ⟨q, hq, hlane⟩
  exact Bool.false_ne_true ((h q hq).symm.trans hlane)

/-- Any other notice joins the end of a queue that has room. -/
theorem ReportBuilder.enqueue_of_room (h : ∀ q ∈ r.queue, q.sameLane n = false) (hroom : r.queue.length < 32) :
    r.enqueue n = { r with queue := r.queue ++ [n] } := by
  rw [ReportBuilder.enqueue, if_neg (ReportBuilder.not_any_sameLane h), if_pos hroom]

/-- A full queue drops it and sets the lost flag (R176). -/
theorem ReportBuilder.enqueue_of_full (h : ∀ q ∈ r.queue, q.sameLane n = false) (hfull : 32 ≤ r.queue.length) :
    r.enqueue n = { r with lost := true } := by
  rw [ReportBuilder.enqueue, if_neg (ReportBuilder.not_any_sameLane h), if_neg (Nat.not_lt.mpr hfull)]

end Take

/-- Settles O45: the flags, the mask, the three things that the queue does, and the limit that it keeps. -/
theorem reportBuilderTakesANotice : Obligations.ReportBuilderTakesANotice := by
  rintro r f n rfl
  refine ⟨ClassFlags.get_raise_self .., fun other h => by simp [ClassFlags.get_raise, h], ReportBuilder.take_of_disabled,
    fun henabled => ?_, ReportBuilder.take_sound r n⟩
  rw [ReportBuilder.take_of_enabled henabled]
  refine ⟨fun hqueued => ⟨_, ReportBuilder.enqueue_of_queued hqueued, List.length_map .., fun i q hq => ?_⟩,
    ReportBuilder.enqueue_of_room (r := r.flagged n.cls), ReportBuilder.enqueue_of_full (r := r.flagged n.cls)⟩
  have hplace : (r.queue.map (fun q => if q.sameLane n then q.updatedBy n else q))[i]? =
      some (if q.sameLane n then q.updatedBy n else q) := by
    rw [List.getElem?_map, hq, Option.map_some]
  refine ⟨fun hother => hplace.trans ?_, fun hsame => hplace.trans ?_⟩
  · simp [hother]
  · simp [hsame, Notice.updatedBy]

/-! ### NOTICE_MASK and CLEAR_SUMMARY (R177) -/

theorem doNoticeMask_of_le {info advisory degraded : Byte} (hi : info.toNat ≤ 1) (ha : advisory.toNat ≤ 1)
    (hd : degraded.toNat ≤ 1) (s : State) :
    doNoticeMask info advisory degraded s =
      { s with
        notices :=
          { s.notices with enabled := { info := info = 1, advisory := advisory = 1, degraded := degraded = 1 } } } := by
  simp only [doNoticeMask, readSwitch_of_le hi, readSwitch_of_le ha, readSwitch_of_le hd]

/-- One enable outside 0 and 1 refuses the whole mask. -/
theorem doNoticeMask_of_outside {info advisory degraded : Byte}
    (h : 1 < info.toNat ∨ 1 < advisory.toNat ∨ 1 < degraded.toNat) (s : State) :
    doNoticeMask info advisory degraded s = s.refuse 128 .target .none := by
  have hread : readSwitch info = none ∨ readSwitch advisory = none ∨ readSwitch degraded = none :=
    h.imp readSwitch_none (Or.imp readSwitch_none readSwitch_none)
  unfold doNoticeMask
  split
  · rename_i hi ha hd
    simp [hi, ha, hd] at hread
  · rfl

/-- Settles O46: the mask by the range of its enables, and each summary flag by its recent flag. -/
theorem maskAndSummaryFlags : Obligations.MaskAndSummaryFlags := by
  refine fun s hr => ⟨fun info advisory degraded => ⟨fun hi ha hd => ?_, fun h => ?_⟩,
    s.notices.summary.both s.notices.recent, exec_clearSummary hr, ClassFlags.get_both _ _⟩
  · rw [exec_noticeMask info advisory degraded hr, doNoticeMask_of_le hi ha hd]
  · rw [exec_noticeMask info advisory degraded hr, doNoticeMask_of_outside h]

end Sys2Proof.Machine
end

section
/-! The tally sets (R168 to R171): the codes of a bank's two contributions, what one pass of the expansions adds, and the on-air set and
the preview set as the least sets that the expansions leave alone. -/

namespace Sys2Proof.Machine

/-! ### The codes of a set -/

/-- The codes of a set built up by unions are those of its start and of each part. -/
theorem getLsbD_foldl_union {α : Type} {f : TallySet → α → TallySet} {part : α → TallySet}
    (hf : ∀ set a, f set a = set ||| part a) (code : Nat) (l : List α) (start : TallySet) :
    (l.foldl f start).getLsbD code = true ↔ start.getLsbD code = true ∨ ∃ a ∈ l, (part a).getLsbD code = true := by
  induction l generalizing start with
  | nil => simp
  | cons a l ih => simp [ih, hf, or_assoc]

theorem getLsbD_sourceBit (src : Source) (code : Nat) :
    (sourceBit src).getLsbD code = true ↔ code ≤ 34 ∧ code = src.code := by
  rw [sourceBit, BitVec.getLsbD_ofNat, Nat.testBit_two_pow]
  simp only [Bool.and_eq_true, decide_eq_true_eq]
  omega

/-- A part that is in a set only when a test holds. -/
theorem getLsbD_ite_zero (p : Prop) [Decidable p] (set : TallySet) (code : Nat) :
    (if p then set else 0).getLsbD code = true ↔ p ∧ set.getLsbD code = true := by
  split <;> simp [*]

/-! ### The contributions of a bank (R169, R171) -/

theorem getLsbD_layerSources (x : Buses) (kind : KeyKind) (l : LayerId) (code : Nat) :
    (layerSources x kind l).getLsbD code = true ↔
      code ≤ 34 ∧ (code = (x.get (.fill l)).code ∨ kind = .linear ∧ code = (x.get (.cut l)).code) := by
  cases kind with
  | luma => simp [layerSources, getLsbD_sourceBit, Buses.get]
  | linear => simp [layerSources, getLsbD_sourceBit, Buses.get, and_or_left]

theorem getLsbD_layersSet (m : Me) (x : Buses) (shown : LayerId → Bool) (code : Nat) :
    (layersSet m x shown).getLsbD code = true ↔
      ∃ l : LayerId, shown l = true ∧ (layerSources x (m.layer l).kind l).getLsbD code = true := by
  have hstep : ∀ (set : TallySet) (l : LayerId),
      (if shown l then set ||| layerSources x (m.layer l).kind l else set) =
        set ||| (if shown l then layerSources x (m.layer l).kind l else 0) := by
    intro set l
    split <;> simp
  rw [layersSet, getLsbD_foldl_union hstep]
  simp only [getLsbD_ite_zero]
  simp

theorem LayerState.isOff_iff (l : LayerState) : l.isOff = true ↔ l = .off := by
  cases l <;> simp [LayerState.isOff]

theorem getLsbD_backgroundSet (m : Me) (x : Buses) (code : Nat) :
    (backgroundSet m x).getLsbD code = true ↔
      code ≤ 34 ∧
        (code = x.a.code ∨
          m.drive ≠ .rest ∧ hasBkgd m.selection = true ∧ (code = x.b.code ∨ m.kind = .dip ∧ code = x.dip.code)) := by
  have hmoving : (!m.drive.isRest && hasBkgd m.selection) = true ↔ m.drive ≠ .rest ∧ hasBkgd m.selection = true := by
    rw [Bool.and_eq_true, Bool.not_eq_true', ← Bool.not_eq_true, Drive.isRest_iff]
  unfold backgroundSet
  split
  · rename_i h
    obtain ⟨hdrive, hbkgd⟩ := hmoving.mp h
    simp only [BitVec.getLsbD_or, Bool.or_eq_true, getLsbD_sourceBit, getLsbD_ite_zero]
    tauto
  · rename_i h
    rw [hmoving] at h
    rw [getLsbD_sourceBit]
    tauto

theorem getLsbD_programmeContribution (m : Me) (x : Buses) (code : Nat) :
    (programmeContribution m x).getLsbD code = true ↔
      code ≤ 34 ∧
        (code = x.a.code ∨
          m.drive ≠ .rest ∧ hasBkgd m.selection = true ∧ (code = x.b.code ∨ m.kind = .dip ∧ code = x.dip.code) ∨
          ∃ l : LayerId,
            ((m.layer l).state ≠ .off ∨ hasLayer m.selection l = true ∧ m.drive ≠ .rest) ∧
              (code = (x.get (.fill l)).code ∨ (m.layer l).kind = .linear ∧ code = (x.get (.cut l)).code)) := by
  have hshown : ∀ l : LayerId, (!(m.layer l).state.isOff || (hasLayer m.selection l && !m.drive.isRest)) = true ↔
      (m.layer l).state ≠ .off ∨ hasLayer m.selection l = true ∧ m.drive ≠ .rest := by
    intro l
    rw [Bool.or_eq_true, Bool.and_eq_true, Bool.not_eq_true', Bool.not_eq_true', ← Bool.not_eq_true, ← Bool.not_eq_true,
      LayerState.isOff_iff, Drive.isRest_iff]
  simp only [programmeContribution, BitVec.getLsbD_or, Bool.or_eq_true, getLsbD_backgroundSet, getLsbD_layersSet, hshown,
    getLsbD_layerSources, and_left_comm (b := code ≤ 34), exists_and_left, ← and_or_left, or_assoc]

theorem getLsbD_previewContribution (m : Me) (x : Buses) (code : Nat) :
    (previewContribution m x).getLsbD code = true ↔
      code ≤ 34 ∧
        (code = (if hasBkgd m.selection then x.b.code else x.a.code) ∨
          ∃ l : LayerId,
            afterOn (hasLayer m.selection l) (m.layer l).state = true ∧
              (code = (x.get (.fill l)).code ∨ (m.layer l).kind = .linear ∧ code = (x.get (.cut l)).code)) := by
  have hbackground : (if hasBkgd m.selection then sourceBit x.b else sourceBit x.a) =
      sourceBit (if hasBkgd m.selection then x.b else x.a) := by
    split <;> rfl
  rw [previewContribution, hbackground, BitVec.getLsbD_or, Bool.or_eq_true, getLsbD_sourceBit, getLsbD_layersSet,
    apply_ite Source.code]
  simp only [getLsbD_layerSources, and_left_comm (b := code ≤ 34), exists_and_left, ← and_or_left]

/-! ### The after-state (R66) -/

theorem LayerState.heading_iff (l : LayerState) : l.heading = true ↔ l = .on ∨ ∃ c rf, l = .rising c rf := by
  cases l <;> simp [LayerState.heading]

theorem LayerState.heading_false_iff (l : LayerState) : l.heading = false ↔ l = .off ∨ ∃ c rf, l = .falling c rf := by
  cases l <;> simp [LayerState.heading]

/-- The after-state is ON for a selected layer that is OFF or FALLING, and for any other that is ON or RISING. -/
theorem afterOn_iff (selected : Bool) (l : LayerState) :
    afterOn selected l = true ↔
      (selected = true ∧ (l = .off ∨ ∃ c rf, l = .falling c rf) ∨
        selected = false ∧ (l = .on ∨ ∃ c rf, l = .rising c rf)) := by
  cases selected with
  | false => simp [afterOn, LayerState.heading_iff]
  | true => simp [afterOn, LayerState.heading_false_iff]

/-! ### One pass of the expansions (R170) -/

/-- Every code of one set is in the other. -/
def Within (x y : TallySet) : Prop :=
  ∀ code : Nat, x.getLsbD code = true → y.getLsbD code = true

theorem Within.trans {x y z : TallySet} (h : Within x y) (k : Within y z) : Within x z :=
  fun code hx => k code (h code hx)

theorem Within.antisymm {x y : TallySet} (h : Within x y) (k : Within y x) : x = y :=
  BitVec.eq_of_getLsbD_eq fun code _ => Bool.eq_iff_iff.mpr ⟨h code, k code⟩

/-- The slot that stands in for a lane of a set, where the lane is not LOCKED and falls back to one. -/
def standIn (s : State) (set : TallySet) (n : LaneId) : TallySet :=
  if set.getLsbD (n.val + 1) = true ∧ (s.lane n).state ≠ .locked then
    (s.lane n).fallback.elim 0 (fun m => sourceBit (.slot m))
  else 0

theorem getLsbD_standIn (s : State) (set : TallySet) (n : LaneId) (code : Nat) :
    (standIn s set n).getLsbD code = true ↔
      (set.getLsbD (n.val + 1) = true ∧ (s.lane n).state ≠ .locked) ∧
        ∃ m : SlotId, (s.lane n).fallback = some m ∧ code = m.val + 26 := by
  rw [standIn, getLsbD_ite_zero]
  refine and_congr_right fun _ => ?_
  cases (s.lane n).fallback with
  | none => simp
  | some m =>
    have hm := m.isLt
    simp only [Option.elim_some, getLsbD_sourceBit, Source.code, slotCode, Option.some.injEq, exists_eq_left']
    omega

section Expansions

variable {s : State} {set : TallySet}

theorem getLsbD_fallbackSet (code : Nat) :
    (fallbackSet s set).getLsbD code = true ↔ ∃ n : LaneId, (standIn s set n).getLsbD code = true := by
  rw [fallbackSet, getLsbD_foldl_union (part := standIn s set) fun acc n => ?_]
  · simp
  · simp only [standIn, laneCode, Bool.and_eq_true, decide_eq_true_eq]
    by_cases h : set.getLsbD (n.val + 1) = true ∧ (s.lane n).state ≠ .locked
    · rw [if_pos h, if_pos h]
      cases (s.lane n).fallback with
      | none => exact BitVec.or_zero.symm
      | some m => rfl
    · rw [if_neg h, if_neg h]
      exact BitVec.or_zero.symm

/-- The slots that stand in are in a set when each lane's is. -/
theorem fallbackSet_within_iff (y : TallySet) :
    Within (fallbackSet s set) y ↔
      ∀ (n : LaneId) (m : SlotId), set.getLsbD (n.val + 1) = true → (s.lane n).state ≠ .locked →
        (s.lane n).fallback = some m → y.getLsbD (m.val + 26) = true := by
  simp only [Within, getLsbD_fallbackSet, getLsbD_standIn]
  constructor
  · exact fun h n m hlane hlock hfall => h _ ⟨n, ⟨hlane, hlock⟩, m, hfall, rfl⟩
  · rintro h code ⟨n, ⟨hlane, hlock⟩, m, hfall, rfl⟩
    exact h n m hlane hlock hfall

theorem getLsbD_expandPass (code : Nat) :
    (expandPass s set).getLsbD code = true ↔
      set.getLsbD code = true ∨
        (set.getLsbD 25 = true ∧ (programmeContribution s.meA s.matrix.busesA).getLsbD code = true) ∨
          (fallbackSet s set).getLsbD code = true := by
  rw [expandPass, BitVec.getLsbD_or, BitVec.getLsbD_or, Bool.or_eq_true, Bool.or_eq_true, getLsbD_ite_zero, or_assoc]
  rfl

theorem within_expandPass : Within set (expandPass s set) :=
  fun code h => (getLsbD_expandPass code).mpr (.inl h)

theorem fallbackSet_within_expandPass : Within (fallbackSet s set) (expandPass s set) :=
  fun code h => (getLsbD_expandPass code).mpr (.inr (.inr h))

theorem programme_within_expandPass (h : set.getLsbD 25 = true) :
    Within (programmeContribution s.meA s.matrix.busesA) (expandPass s set) :=
  fun code hcode => (getLsbD_expandPass code).mpr (.inr (.inl ⟨h, hcode⟩))

/-- The expansions leave a set alone that holds what each of them would add. -/
theorem expandPass_eq_iff :
    expandPass s set = set ↔
      (set.getLsbD 25 = true → Within (programmeContribution s.meA s.matrix.busesA) set) ∧
        Within (fallbackSet s set) set := by
  constructor
  · intro h
    have hprogramme := programme_within_expandPass (s := s) (set := set)
    have hfallback := fallbackSet_within_expandPass (s := s) (set := set)
    rw [h] at hprogramme hfallback
    exact ⟨hprogramme, hfallback⟩
  · rintro ⟨hprogramme, hfallback⟩
    refine Within.antisymm (fun code h => ?_) within_expandPass
    obtain h | ⟨hin, h⟩ | h := (getLsbD_expandPass code).mp h
    · exact h
    · exact hprogramme hin code h
    · exact hfallback code h

/-- A larger set is expanded to a larger one. -/
theorem expandPass_mono {x y : TallySet} (h : Within x y) : Within (expandPass s x) (expandPass s y) := by
  intro code hcode
  obtain hx | ⟨hin, hx⟩ | hx := (getLsbD_expandPass code).mp hcode
  · exact within_expandPass code (h code hx)
  · exact programme_within_expandPass (h 25 hin) code hx
  · have hslots := (fallbackSet_within_iff (s := s) (set := y) _).mp fallbackSet_within_expandPass
    exact (fallbackSet_within_iff _).mpr (fun n m hlane => hslots n m (h _ hlane)) code hx

theorem expandPass_within {x : TallySet} (h : Within x set) (hleft : expandPass s set = set) :
    Within (expandPass s x) set := by
  have hmono := expandPass_mono (s := s) h
  rwa [hleft] at hmono

/-! ### What the expansions come to (R170) -/

/-- Slots have the codes 26 to 33, so a slot that stands in brings neither 25 nor a lane. -/
theorem fallbackSet_holds_slots {code : Nat} (h : (fallbackSet s set).getLsbD code = true) : 26 ≤ code := by
  obtain ⟨n, hn⟩ := (getLsbD_fallbackSet code).mp h
  obtain ⟨-, m, -, rfl⟩ := (getLsbD_standIn s set n code).mp hn
  exact Nat.le_add_left ..

/-- A pass adds M/E A's contribution only where 25 stands already, so it brings 25 to no set without it. -/
theorem own_of_expandPass (hin : (expandPass s set).getLsbD 25 = true) : set.getLsbD 25 = true := by
  obtain hset | ⟨hset, -⟩ | hslot := (getLsbD_expandPass 25).mp hin
  · exact hset
  · exact hset
  · exact absurd (fallbackSet_holds_slots hslot) (by decide)

/-- The second pass brings no lane: M/E A's contribution has come whole with the first. -/
theorem lane_of_expandPass_twice (n : LaneId)
    (hlane : (expandPass s (expandPass s set)).getLsbD (n.val + 1) = true) :
    (expandPass s set).getLsbD (n.val + 1) = true := by
  obtain hpass | ⟨hown, hprogramme⟩ | hslot := (getLsbD_expandPass _).mp hlane
  · exact hpass
  · exact programme_within_expandPass (own_of_expandPass hown) _ hprogramme
  · have := fallbackSet_holds_slots hslot
    omega

/-- A third pass adds nothing. -/
theorem expandPass_third : expandPass s (expandPass s (expandPass s set)) = expandPass s (expandPass s set) := by
  refine expandPass_eq_iff.mpr ⟨fun hown => ?_, (fallbackSet_within_iff _).mpr fun n m hlane => ?_⟩
  · exact programme_within_expandPass (own_of_expandPass hown)
  · have hslots := (fallbackSet_within_iff (s := s) (set := expandPass s set) _).mp fallbackSet_within_expandPass
    exact hslots n m (lane_of_expandPass_twice n hlane)

theorem expandPass_expand : expandPass s (expand s set) = expand s set :=
  congrArg (expandPass s) expandPass_third

theorem within_expand : Within set (expand s set) :=
  (within_expandPass.trans within_expandPass).trans within_expandPass

/-- The expanded set lies in every set that holds the start and that the expansions leave alone. -/
theorem expand_within {x : TallySet} (h : Within x set) (hleft : expandPass s set = set) : Within (expand s x) set :=
  expandPass_within (expandPass_within (expandPass_within h hleft) hleft) hleft

end Expansions

/-! ### The preview set (R171) -/

theorem getLsbD_previewSet (s : State) (code : Nat) :
    (previewSet s).getLsbD code = true ↔
      (expand s (previewContribution s.meB s.matrix.busesB)).getLsbD code = true ∧ (onAirSet s).getLsbD code = false := by
  by_cases hcode : code < 35
  · simp [previewSet, hcode, State.me, State.buses]
  · simp [BitVec.getLsbD_of_ge _ code (Nat.not_lt.mp hcode)]

/-- Settles O47: the contributions code by code, then each set as the least one that the expansions leave alone. -/
theorem tallySetsFollowReEntryAndFallback : Obligations.TallySetsFollowReEntryAndFallback := by
  refine ⟨fun m x code hcode => ⟨?_, ?_⟩, afterOn_iff, fun s _ => ?_⟩
  · rw [getLsbD_programmeContribution, and_iff_right hcode]
  · rw [getLsbD_previewContribution, and_iff_right hcode]
  · have hleft : expandPass s (onAirSet s) = onAirSet s := expandPass_expand
    obtain ⟨hreentry, hfallback⟩ := expandPass_eq_iff.mp hleft
    refine ⟨within_expand, hreentry, (fallbackSet_within_iff _).mp hfallback, fun set => expand_within,
      and_and_not .., fun code hpreview hair => (getLsbD_previewSet s code).mpr ⟨within_expand code hpreview, hair⟩,
      fun set => ?_, expand s (previewContribution s.meB s.matrix.busesB), within_expand, expandPass_expand,
      fun set => expand_within, getLsbD_previewSet s⟩
    rw [expandPass_eq_iff, fallbackSet_within_iff]
    rfl

end Sys2Proof.Machine
end

section
/-! The report packet (R187) and its notice entries (R188). The body is a list of parts laid end to end, so each field is found by the
place of its part, and a field of a bank's block by the place of its part in the block. -/

namespace Sys2Proof.Machine

/-! ### A part at a place -/

/-- The bytes of `part` stand in `bytes` from `offset` on. -/
def PlacedAt (part : List Byte) (offset : Nat) (bytes : List Byte) : Prop :=
  ∃ rest, bytes.drop offset = part ++ rest

/-- A part of bytes laid end to end stands behind the parts before it. -/
theorem placedAt_of_parts {bytes part : List Byte} {parts : List (List Byte)} {i offset : Nat} (hbytes : bytes = parts.flatten)
    (h : parts[i]? = some part) (hoffset : (parts.take i).flatten.length = offset) : PlacedAt part offset bytes := by
  obtain ⟨hlt, rfl⟩ := List.getElem?_eq_some_iff.mp h
  have hsplit : parts.flatten = (parts.take i).flatten ++ (parts[i] ++ (parts.drop (i + 1)).flatten) := by
    rw [← List.flatten_cons, ← List.drop_eq_getElem_cons, ← List.flatten_append, List.take_append_drop]
  exact ⟨_, by rw [hbytes, hsplit, ← hoffset, List.drop_left]⟩

/-- Parts of one width w stand w bytes apart. -/
theorem placedAt_flatMap {α : Type} {f : α → List Byte} {w i : Nat} {l : List α} {a : α} (hw : ∀ a, (f a).length = w)
    (h : l[i]? = some a) : PlacedAt (f a) (w * i) (l.flatMap f) := by
  have hlt : i < l.length := (List.getElem?_eq_some_iff.mp h).1
  refine placedAt_of_parts List.flatMap_def (i := i) (by simp [h]) ?_
  simp [List.length_flatten, hw, ← List.map_take, Nat.min_eq_left hlt.le, Function.comp_def, Nat.mul_comm]

section Reading

variable {part bytes whole : List Byte} {offset : Nat} (h : PlacedAt part offset bytes)
include h

theorem PlacedAt.within {start : Nat} (hwhole : PlacedAt bytes start whole) : PlacedAt part (start + offset) whole := by
  obtain ⟨_, hpart⟩ := h
  obtain ⟨_, hbytes⟩ := hwhole
  exact ⟨_, by rw [← List.drop_drop, hbytes, List.drop_append, hpart, List.append_assoc]⟩

theorem PlacedAt.byte {i k : Nat} {b : Byte} (hi : part[i]? = some b) (hk : k = offset + i) : bytes.getD k 0 = b := by
  obtain ⟨rest, hpart⟩ := h
  have hlt : i < part.length := (List.getElem?_eq_some_iff.mp hi).1
  rw [List.getD_eq_getElem?_getD, hk, ← List.getElem?_drop, hpart, List.getElem?_append_left hlt, hi, Option.getD_some]

theorem PlacedAt.drop_take {w : Nat} (hw : part.length = w) : (bytes.drop offset).take w = part := by
  obtain ⟨rest, hpart⟩ := h
  rw [hpart, List.take_left' hw]

end Reading

/-! ### Numbers (R182) -/

@[simp] theorem twoBytes_length (n : Nat) : (twoBytes n).length = 2 := rfl

@[simp] theorem pictureBytes_length (p : PictureNumber) : (pictureBytes p).length = 3 := rfl

theorem byteOf_toNat_of_lt {n : Nat} (h : n < 256) : (byteOf n).toNat = n :=
  (byteOf_toNat n).trans (Nat.mod_eq_of_lt h)

theorem weight_le (flag : Bool) (w : Nat) : weight flag w ≤ w := by
  cases flag
  · exact Nat.zero_le w
  · exact Nat.le_refl w

theorem PlacedAt.number {n offset high low : Nat} {bytes : List Byte} (h : PlacedAt (twoBytes n) offset bytes)
    (hhigh : high = offset) (hlow : low = offset + 1) (hn : n < 65536) :
    (bytes.getD high 0).toNat * 256 + (bytes.getD low 0).toNat = n := by
  rw [h.byte (i := 0) rfl hhigh, h.byte (i := 1) rfl hlow, byteOf_toNat, byteOf_toNat]
  omega

theorem PlacedAt.picture {p : PictureNumber} {offset high middle low : Nat} {bytes : List Byte}
    (h : PlacedAt (pictureBytes p) offset bytes) (hhigh : high = offset) (hmiddle : middle = offset + 1)
    (hlow : low = offset + 2) :
    ((bytes.getD high 0).toNat * 256 + (bytes.getD middle 0).toNat) * 256 + (bytes.getD low 0).toNat = p.toNat := by
  rw [h.byte (i := 0) rfl hhigh, h.byte (i := 1) rfl hmiddle, h.byte (i := 2) rfl hlow]
  simp only [byteOf_toNat]
  have := p.isLt
  omega

/-! ### Tally sets -/

@[simp] theorem tallyBytes_length (t : TallySet) : (tallyBytes t).length = 5 := rfl

theorem tallyBytes_get (t : TallySet) {j : Nat} (h : j < 5) : (tallyBytes t)[j]? = some (byteOf (t.toNat / 2 ^ (8 * j))) := by
  interval_cases j <;> simp [tallyBytes]

/-- The flag of code c is bit c mod 8 of byte ⌊c / 8⌋. -/
theorem PlacedAt.tally {t : TallySet} {offset code : Nat} {bytes : List Byte} (h : PlacedAt (tallyBytes t) offset bytes)
    (hcode : code ≤ 34) : (bytes.getD (offset + code / 8) 0).getLsbD (code % 8) = t.getLsbD code := by
  rw [h.byte (tallyBytes_get t (by omega)) rfl, byteOf, BitVec.getLsbD_ofNat, Nat.testBit_div_two_pow,
    Nat.mod_add_div, BitVec.getLsbD, decide_eq_true (Nat.mod_lt code (by decide)), Bool.true_and]

/-! ### The bytes of single fields -/

theorem Lane.reportByte_toNat (l : Lane) : l.reportByte.toNat = l.state.code + weight l.resync 4 := by
  have hcode : l.state.code ≤ 2 := by cases l.state <;> decide
  have := weight_le l.resync 4
  exact byteOf_toNat_of_lt (by omega)

theorem Slot.reportByte_toNat (x : Slot) : x.reportByte.toNat = x.state.code + weight x.content.isSome 4 := by
  have hcode : x.state.code ≤ 2 := by cases x.state <;> simp [SlotState.code]
  have := weight_le x.content.isSome 4
  exact byteOf_toNat_of_lt (by omega)

theorem ReportBuilder.flagsByte_toNat (r : ReportBuilder) :
    r.flagsByte.toNat =
      weight r.summary.info 1 + weight r.summary.advisory 2 + weight r.summary.degraded 4 + weight r.lost 8 := by
  have := weight_le r.summary.info 1
  have := weight_le r.summary.advisory 2
  have := weight_le r.summary.degraded 4
  have := weight_le r.lost 8
  exact byteOf_toNat_of_lt (by omega)

/-- A fade stands short of full, so every level fits its two bytes. -/
theorem LayerState.level_le {x : LayerState} (h : x.sound) : x.level ≤ 1024 := by
  have hfade : ∀ {c rf : Nat}, 1 ≤ c ∧ c < rf → 1024 * c / rf ≤ 1024 := fun hc =>
    Nat.div_le_of_le_mul (by rw [Nat.mul_comm]; exact Nat.mul_le_mul_right 1024 hc.2.le)
  cases x with
  | off => exact Nat.zero_le _
  | on => exact Nat.le_refl _
  | rising c rf => exact hfade h
  | falling c rf => exact hfade h

/-! ### The block of a bank -/

section Block

variable {m : Me}

@[simp] theorem Layer.reportBytes_length (l : Layer) : l.reportBytes.length = 3 := rfl

/-- The parts of a bank's block, in their order. -/
def Me.reportParts (m : Me) : List (List Byte) :=
  [[byteOf m.drive.code], twoBytes m.position,
    [byteOf m.selection.toNat, byteOf (weight (m.sense = .reverse) 1 + weight m.pickup 2), byteOf m.run.state.code,
      byteOf m.run.index, byteOf (weight m.mark 1)],
    m.layers.toList.flatMap Layer.reportBytes, m.order.map layerByte]

theorem Me.reportBytes_eq (m : Me) : m.reportBytes = m.reportParts.flatten := by
  simp [Me.reportBytes, Me.reportParts]

theorem Me.reportBytes_length (h : m.layersSound) : m.reportBytes.length = 24 := by
  simp [Me.reportBytes, h.2.length_eq]

theorem Me.layersSound.level_le (h : m.layersSound) (l : LayerId) : (m.layer l).state.level ≤ 1024 := by
  obtain ⟨hlayers, -⟩ := h
  obtain ⟨-, -, hfade⟩ := hlayers l
  exact LayerState.level_le hfade

theorem Me.placedAt_position : PlacedAt (twoBytes m.position) 1 m.reportBytes :=
  placedAt_of_parts m.reportBytes_eq (i := 1) rfl rfl

theorem Me.placedAt_settings :
    PlacedAt
      [byteOf m.selection.toNat, byteOf (weight (m.sense = .reverse) 1 + weight m.pickup 2), byteOf m.run.state.code,
        byteOf m.run.index, byteOf (weight m.mark 1)] 3 m.reportBytes :=
  placedAt_of_parts m.reportBytes_eq (i := 2) rfl rfl

theorem Me.placedAt_layer (l : LayerId) : PlacedAt (m.layer l).reportBytes (8 + 3 * l.val) m.reportBytes :=
  have hlayers : PlacedAt (m.layers.toList.flatMap Layer.reportBytes) 8 m.reportBytes :=
    placedAt_of_parts m.reportBytes_eq (i := 3) rfl rfl
  (placedAt_flatMap (f := Layer.reportBytes) (a := m.layer l) (fun _ => rfl) (by simp [Me.layer])).within hlayers

theorem Me.placedAt_order : PlacedAt (m.order.map layerByte) 20 m.reportBytes :=
  placedAt_of_parts m.reportBytes_eq (i := 4) rfl (by simp [Me.reportParts])

theorem Layer.placedAt_level (l : Layer) : PlacedAt (twoBytes l.state.level) 1 l.reportBytes :=
  ⟨[], (List.append_nil _).symm⟩

end Block

/-! ### Notice entries (R188) -/

@[simp] theorem Subject.bytes_length (x : Subject) : x.bytes.length = 3 := by
  cases x <;> rfl

@[simp] theorem Notice.entry_length (n : Notice) : n.entry.length = 10 := by
  simp [Notice.entry]

/-- The parts of a notice entry, in their order. -/
def Notice.entryParts (n : Notice) : List (List Byte) :=
  [[byteOf n.kind.bytes.1], [byteOf n.cls.code], n.subject.bytes, [n.kind.bytes.2.1, n.kind.bytes.2.2], pictureBytes n.number]

theorem Notice.entry_eq (n : Notice) : n.entry = n.entryParts.flatten := by
  simp [Notice.entry, Notice.entryParts]

theorem Notice.placedAt_kind (n : Notice) : PlacedAt [byteOf n.kind.bytes.1] 0 n.entry :=
  placedAt_of_parts n.entry_eq (i := 0) rfl rfl

theorem Notice.placedAt_class (n : Notice) : PlacedAt [byteOf n.cls.code] 1 n.entry :=
  placedAt_of_parts n.entry_eq (i := 1) rfl rfl

theorem Notice.placedAt_subject (n : Notice) : PlacedAt n.subject.bytes 2 n.entry :=
  placedAt_of_parts n.entry_eq (i := 2) rfl rfl

theorem Notice.placedAt_details (n : Notice) : PlacedAt [n.kind.bytes.2.1, n.kind.bytes.2.2] 5 n.entry :=
  placedAt_of_parts n.entry_eq (i := 3) rfl (by simp [Notice.entryParts])

theorem Notice.placedAt_number (n : Notice) : PlacedAt (pictureBytes n.number) 7 n.entry :=
  placedAt_of_parts n.entry_eq (i := 4) rfl (by simp [Notice.entryParts])

/-! ### The body and the packet (R180, R187) -/

section Body

variable {s : State}

/-- The parts of the body, in their order. -/
def reportParts (s : State) : List (List Byte) :=
  [twoBytes 2400 ++ [1, byteOf s.unit.toNat], pictureBytes s.ref.picture,
    [byteOf s.ref.status.name.code, byteOf s.ref.house.code, s.notices.flagsByte],
    s.lanes.toList.map Lane.reportByte, tallyBytes s.tally.onAir, tallyBytes s.tally.preview,
    s.meA.reportBytes, s.meB.reportBytes, s.store.slots.toList.map Slot.reportByte,
    [byteOf s.control.fill, byteOf s.control.schedule.length, byteOf s.notices.oldest.length],
    s.notices.oldest.flatMap Notice.entry]

theorem reportBody_eq (s : State) : reportBody s = (reportParts s).flatten := by
  simp [reportBody, reportParts]

theorem placedAt_start (s : State) : PlacedAt (twoBytes 2400 ++ [1, byteOf s.unit.toNat]) 0 (reportBody s) :=
  placedAt_of_parts (reportBody_eq s) (i := 0) rfl rfl

theorem placedAt_picture (s : State) : PlacedAt (pictureBytes s.ref.picture) 4 (reportBody s) :=
  placedAt_of_parts (reportBody_eq s) (i := 1) rfl rfl

theorem placedAt_reference (s : State) :
    PlacedAt [byteOf s.ref.status.name.code, byteOf s.ref.house.code, s.notices.flagsByte] 7 (reportBody s) :=
  placedAt_of_parts (reportBody_eq s) (i := 2) rfl rfl

theorem placedAt_lanes (s : State) : PlacedAt (s.lanes.toList.map Lane.reportByte) 10 (reportBody s) :=
  placedAt_of_parts (reportBody_eq s) (i := 3) rfl rfl

theorem placedAt_onAir (s : State) : PlacedAt (tallyBytes s.tally.onAir) 34 (reportBody s) :=
  placedAt_of_parts (reportBody_eq s) (i := 4) rfl (by simp [reportParts])

theorem placedAt_preview (s : State) : PlacedAt (tallyBytes s.tally.preview) 39 (reportBody s) :=
  placedAt_of_parts (reportBody_eq s) (i := 5) rfl (by simp [reportParts])

section Sound

variable (hs : ∀ bank : BankId, (s.me bank).layersSound)
include hs

theorem meA_reportBytes_length : s.meA.reportBytes.length = 24 :=
  Me.reportBytes_length (hs .a)

theorem meB_reportBytes_length : s.meB.reportBytes.length = 24 :=
  Me.reportBytes_length (hs .b)

theorem placedAt_block (bank : BankId) :
    PlacedAt (s.me bank).reportBytes (if bank = .a then 44 else 68) (reportBody s) := by
  cases bank with
  | a => exact placedAt_of_parts (reportBody_eq s) (i := 6) rfl (by simp [reportParts])
  | b => exact placedAt_of_parts (reportBody_eq s) (i := 7) rfl (by simp [reportParts, meA_reportBytes_length hs])

theorem placedAt_slots : PlacedAt (s.store.slots.toList.map Slot.reportByte) 92 (reportBody s) :=
  placedAt_of_parts (reportBody_eq s) (i := 8) rfl
    (by simp [reportParts, meA_reportBytes_length hs, meB_reportBytes_length hs])

theorem placedAt_counts :
    PlacedAt [byteOf s.control.fill, byteOf s.control.schedule.length, byteOf s.notices.oldest.length] 100 (reportBody s) :=
  placedAt_of_parts (reportBody_eq s) (i := 9) rfl
    (by simp [reportParts, meA_reportBytes_length hs, meB_reportBytes_length hs])

theorem placedAt_notices : PlacedAt (s.notices.oldest.flatMap Notice.entry) 103 (reportBody s) :=
  placedAt_of_parts (reportBody_eq s) (i := 10) rfl
    (by simp [reportParts, meA_reportBytes_length hs, meB_reportBytes_length hs])

theorem reportBody_length : (reportBody s).length = 103 + 10 * s.notices.oldest.length := by
  simp [reportBody_eq, reportParts, meA_reportBytes_length hs, meB_reportBytes_length hs]
  omega

end Sound
end Body

theorem byteSum_cons (b : Byte) (bytes : List Byte) : byteSum (b :: bytes) = b + byteSum bytes := by
  rw [byteSum, List.foldl_cons, add_comm 0 b]
  exact List.foldl_assoc

/-- The check byte brings the sum of count, body and itself to 0. -/
theorem sum_with_check (count : Byte) (body : List Byte) : count + byteSum body + (0 - byteSum (count :: body)) = 0 := by
  rw [byteSum_cons, zero_sub, add_neg_cancel]

/-! ### The obligation -/

section Fields

variable {s : State}

theorem lane_byte (n : LaneId) :
    ((reportBody s).getD (10 + n.val) 0).toNat = (s.lane n).state.code + weight (s.lane n).resync 4 := by
  rw [(placedAt_lanes s).byte (i := n.val) (b := (s.lane n).reportByte) (by simp [State.lane]) rfl, Lane.reportByte_toNat]

theorem slot_byte (hs : ∀ bank : BankId, (s.me bank).layersSound) (m : SlotId) :
    ((reportBody s).getD (92 + m.val) 0).toNat = (s.slot m).state.code + weight (s.slot m).content.isSome 4 := by
  rw [(placedAt_slots hs).byte (i := m.val) (b := (s.slot m).reportByte) (by simp [State.slot]) rfl, Slot.reportByte_toNat]

theorem notice_entry (hs : ∀ bank : BankId, (s.me bank).layersSound) {i : Nat} {n : Notice} (hi : i < 6)
    (hn : s.notices.queue[i]? = some n) : ((reportBody s).drop (103 + 10 * i)).take 10 = n.entry := by
  have holdest : s.notices.oldest[i]? = some n := by rw [ReportBuilder.oldest, List.getElem?_take_of_lt hi, hn]
  exact ((placedAt_flatMap Notice.entry_length holdest).within (placedAt_notices hs)).drop_take n.entry_length

end Fields

/-- Settles O49: each field by the place of its part, and the entry of a notice part by part. -/
theorem reportPacketLayout : Obligations.ReportPacketLayout := by
  refine ⟨?_, fun n => ?_⟩
  · rintro s body k hs rfl rfl
    have hcount : s.notices.oldest.length = min 6 s.notices.queue.length := List.length_take ..
    refine ⟨hcount ▸ reportBody_length hs, ⟨_, rfl, sum_with_check _ _⟩, (placedAt_start s).drop_take rfl,
      (placedAt_picture s).picture rfl rfl rfl, ?_, ?_, ?_, fun n => ?_, fun code hcode =>
        ⟨(placedAt_onAir s).tally hcode, (placedAt_preview s).tally hcode⟩, ?_, fun m => ?_,
      (placedAt_counts hs).byte (i := 0) rfl rfl, (placedAt_counts hs).byte (i := 1) rfl rfl, ?_, fun i n hi hn =>
        ⟨notice_entry hs (by omega) hn, n.entry_length⟩⟩
    · rw [(placedAt_reference s).byte (i := 0) rfl rfl]
      cases s.ref.status <;> rfl
    · rw [(placedAt_reference s).byte (i := 1) rfl rfl]
      cases s.ref.house <;> rfl
    · rw [(placedAt_reference s).byte (i := 2) rfl rfl, ReportBuilder.flagsByte_toNat]
      rfl
    · rw [lane_byte]
      cases (s.lane n).state <;> rfl
    · rintro bank base m hbase rfl
      have hblock : PlacedAt (s.me bank).reportBytes base (reportBody s) := hbase ▸ placedAt_block hs bank
      have hsettings := Me.placedAt_settings.within hblock
      refine ⟨?_, fun hp => ?_, ?_, ?_, ?_, fun hi => ?_, ?_, fun l => ⟨?_, ?_⟩, fun i l hl => ?_⟩
      · rw [hblock.byte (i := 0) rfl (Nat.add_zero base).symm]
        cases (s.me bank).drive <;> rfl
      · exact (Me.placedAt_position.within hblock).number rfl rfl (by omega)
      · rw [hsettings.byte (i := 0) rfl rfl, byteOf_toNat_of_lt (by omega)]
      · rw [hsettings.byte (i := 1) rfl rfl]
        cases (s.me bank).sense <;> cases (s.me bank).pickup <;> rfl
      · rw [hsettings.byte (i := 2) rfl rfl]
        cases (s.me bank).run.state <;> rfl
      · rw [hsettings.byte (i := 3) rfl rfl, byteOf_toNat_of_lt (by omega)]
      · rw [hsettings.byte (i := 4) rfl rfl]
        cases (s.me bank).mark <;> rfl
      · rw [((Me.placedAt_layer l).within hblock).byte (i := 0) rfl (by omega)]
        cases ((s.me bank).layer l).state <;> rfl
      · have hlevel := (hs bank).level_le l
        exact ((Layer.placedAt_level _).within ((Me.placedAt_layer l).within hblock)).number (by omega) (by omega) (by omega)
      · rw [(Me.placedAt_order.within hblock).byte (i := i.val) (b := layerByte l) (by simp [hl]) rfl]
        exact byteOf_toNat_of_lt (by omega)
    · rw [slot_byte hs]
      cases (s.slot m).state <;> rfl
    · rw [(placedAt_counts hs).byte (i := 2) rfl rfl, byteOf_toNat_of_lt (by omega), hcount]
  · refine ⟨?_, ?_, ?_, ?_, n.entry_length, n.placedAt_number.picture rfl rfl rfl⟩
    · rw [show n.entry.take 1 = _ from n.placedAt_kind.drop_take rfl]
      cases n.kind <;> rfl
    · rw [n.placedAt_class.drop_take (w := 1) rfl]
      cases n.cls <;> rfl
    · rw [n.placedAt_subject.drop_take n.subject.bytes_length]
      cases n.subject <;> rfl
    · rw [n.placedAt_details.drop_take (w := 2) rfl]
      cases n.kind with
      | lane state present => cases state <;> cases present <;> rfl
      | reference state => cases state <;> rfl
      | format house => cases house <;> rfl
      | refused code reason => cases reason <;> rfl
      | packet fault => cases fault <;> rfl
      | transitionDone how => cases how <;> rfl
      | grabFailed fault => cases fault <;> rfl
      | late _ | curve _ | markOverrun | runDone | grabDone _ => rfl

end Sys2Proof.Machine
end

section
/-! The queue of waiting commands (log 1): a step runs its front, and no command reads or writes what waits, so every command
completes with the queue as it was (log 22). -/

namespace Sys2Proof.Machine

/-- Settles O1: the two cases of the step, a command in front and an empty queue. -/
theorem stepRunsTheFrontCommand : Obligations.StepRunsTheFrontCommand := fun c _ rest =>
  ⟨step_cons c _ rest rfl, step_nil _ rfl⟩

/-! ### The two lines of a picture period -/

/-- With or without a change of house format, the switch line leaves the queue alone. -/
theorem switchLine_pending (p : FieldParity) (s : State) : (switchLine p s).pending = s.pending :=
  (switchLine_beginsPeriod p s).pending

theorem formatChangeLine_pending (p : FieldParity) (s : State) : (formatChangeLine p s).pending = s.pending := by
  unfold formatChangeLine; split
  · exact formatSwitchLine_pending p s
  · rfl

/-- The held events are acted on at the report line, and none of them reaches the queue (R2, R31). -/
theorem reportLine_pending (s : State) : (reportLine s).pending = s.pending := by
  unfold reportLine; split
  · exact foldl_actHeld_pending _ _
  · rfl

/-! ### Events of the inputs, held or acted on at once (R2, R31) -/

theorem referenceStart_pending (x : ReferenceStart) (s : State) : (referenceStart x s).pending = s.pending := by
  unfold referenceStart; split
  · rfl
  · exact (onlyRef_actStart x s).pending_eq

theorem referenceMissing_pending (s : State) : (referenceMissing s).pending = s.pending := by
  unfold referenceMissing; split
  · rfl
  · exact (onlyRef_actMissing s).pending_eq

theorem packetArrives_pending (whole : Bool) (carrier : List Byte) (s : State) :
    (packetArrives whole carrier s).pending = s.pending := by
  unfold packetArrives; split
  · split
    · rfl
    · exact (onlyControl_collectCarrier carrier s).pending_eq
  · rfl

theorem dueEntry_pending (s : State) : (dueEntry s).pending = s.pending := by
  rw [dueEntry_frame]

/-! ### Every command -/

/-- Every operation of the commands leaves the queue as it is. -/
theorem kept_pending (waiting : List Instr) : Kept (fun s => s.pending = waiting) where
  restarted := fun _ _ _ h => h
  signal := fun n signal s h => (onlyLanes_laneSignal n signal s).pending_eq.trans h
  start := fun x s h => (referenceStart_pending x s).trans h
  missing := fun s h => (referenceMissing_pending s).trans h
  line := fun p s h => (switchLine_pending p s).trans h
  report := fun s h => (reportLine_pending s).trans h
  packet := fun whole carrier s h => (packetArrives_pending whole carrier s).trans h
  due := fun s h => (dueEntry_pending s).trans h
  change := fun p s h => (formatChangeLine_pending p s).trans h
  laneStart := fun n x s h => (onlyLanes_laneStart n x s).pending_eq.trans h
  lock := fun n s h => (onlyLanes_laneLock n s).pending_eq.trans h
  fadeEnd := fun bank l s h => (onlyEngine_fadeEnd bank l s).pending_eq.trans h
  autoDue := fun bank s h => (onlyEngine_autoCompletionDue bank s).pending_eq.trans h
  segmentEnd := fun bank s h => (onlyEngine_segmentEnd bank s).pending_eq.trans h
  release := fun bank s h => (onlyEngine_syncRelease bank s).pending_eq.trans h
  completion := fun m s h => (onlyStore_completeGrab s m s).pending_eq.trans h
  begins := fun m s h => (onlyStore_grabBegin m s).pending_eq.trans h
  timeout := fun m s h => (onlyStore_grabWaitTimeout m s).pending_eq.trans h
  collect := fun target code count inner s h => (onlyControl_collectAt target code count inner s).pending_eq.trans h
  command := fun c s h => (onlyBlocks_runCommand c s).pending_eq.trans h

/-- Settles O2: `exec` answers a next state, and every operation behind it leaves the queue as it is. -/
theorem everyCommandCompletesAndKeepsTheQueue : Obligations.EveryCommandCompletesAndKeepsTheQueue := fun c s => by
  obtain ⟨t, ht⟩ := exec_next c s
  exact ⟨t, ht, (kept_pending s.pending).exec c s t rfl ht⟩

end Sys2Proof.Machine
end

section
/-! The events of a lane input, the lock of a lane, LANE_SET and RESYNC (R17 to R19, R21, R24 to R28): each operation by what the lane's
record holds, and a change of a lane's state with the LANE notice that it posts. -/

namespace Sys2Proof.Machine

/-! ### A change of a lane's state (R27, R28) -/

@[simp] theorem State.setLane_setLane (s : State) (n : LaneId) (x y : Lane) : (s.setLane n x).setLane n y = s.setLane n y := by
  simp [State.setLane]

/-- The class of a LANE notice rests on the two states and the on-air set. -/
theorem laneClass_congr {s t : State} (h : t.tally = s.tally) (n : LaneId) (before after : LaneState) :
    laneClass t n before after = laneClass s n before after := by
  unfold laneClass State.onAir
  rw [h]

theorem laneClass_of_not_locked {before : LaneState} (h : before ≠ .locked) (s : State) (n : LaneId) (after : LaneState) :
    laneClass s n before after = .info :=
  if_neg fun hlocked => h hlocked.1

theorem laneClass_of_unlocked {after : LaneState} (h : after ≠ .locked) (s : State) (n : LaneId) :
    laneClass s n .locked after = if s.tally.onAir.getLsbD (n.val + 1) then .degraded else .info := by
  simp only [laneClass, State.onAir, laneCode, ne_eq, h, not_false_eq_true, true_and]

/-- A lane that changes its state gets the record of that state, and the LANE notice says which it is. -/
theorem moveLane_eq (n : LaneId) (target : LaneState) (s : State) :
    moveLane n target s =
      (s.setLane n ((s.lane n).moved target)).post (.lane target (decide (target ≠ .absent)))
        (laneClass s n (s.lane n).state target) (.lane (laneByte n)) := by
  simp only [moveLane, postLane, State.lane_setLane]
  rfl

/-! ### Events of a lane input (R17 to R19) -/

theorem laneStart_of_signal {s : State} {n : LaneId} (h : (s.lane n).detector = true) (start : LaneStart) :
    laneStart n start s =
      s.setLane n
        { s.lane n with
          noted := (s.lane n).noted ++ [{ start := start, whole := (s.lane n).tracking }]
          tracking := true } :=
  if_pos h

theorem laneStart_of_no_signal {s : State} {n : LaneId} (h : (s.lane n).detector = false) (start : LaneStart) :
    laneStart n start s = s :=
  if_neg (by simp [h])

/-! ### The lock of a lane (R21) -/

/-- An aligned picture that brings good-count to settle locks an ACQUIRING lane. -/
theorem judgeLane_of_settled {s : State} {n : LaneId} (hstate : (s.lane n).state = .acquiring)
    (hsettle : (s.lane n).settle ≤ (s.lane n).good + 1) : judgeLane n true s = moveLane n .locked s := by
  simp only [judgeLane, hstate, if_true, if_pos hsettle]

theorem moveLane_locked {s : State} {n : LaneId} (hstate : (s.lane n).state = .acquiring) :
    moveLane n .locked s =
      (s.setLane n { s.lane n with state := .locked, good := 0, resync := false }).post (.lane .locked true) .info
        (.lane (laneByte n)) := by
  rw [moveLane_eq, hstate, laneClass_of_not_locked (before := .acquiring) nofun]
  rfl

theorem laneLock_of_settled {s : State} {n : LaneId} (hstate : (s.lane n).state = .acquiring)
    (hsettle : (s.lane n).settle ≤ (s.lane n).good + 1) : laneLock n s = moveLane n .locked s :=
  (if_pos ⟨hstate, hsettle⟩).trans (judgeLane_of_settled hstate hsettle)

theorem laneLock_of_unsettled {s : State} {n : LaneId}
    (h : (s.lane n).state ≠ .acquiring ∨ (s.lane n).good + 1 < (s.lane n).settle) : laneLock n s = s :=
  if_neg fun ⟨hstate, hsettle⟩ => h.elim (absurd hstate) (Nat.not_lt.mpr hsettle)

/-- Settles O14: the two events by the detector, and LANE_LOCK by the lane's state and good-count. -/
theorem laneInputEventsAndLock : Obligations.LaneInputEventsAndLock := by
  refine ⟨fun s n signal => exec_laneSignalChange n signal s, fun s n start hr => ⟨fun h => ?_, fun h => ?_⟩,
    fun s n hr => ⟨fun hstate hsettle => ?_, fun h => ?_⟩⟩
  · rw [exec_lanePictureStart n start hr, laneStart_of_signal h]
  · rw [exec_lanePictureStart n start hr, laneStart_of_no_signal h]
  · rw [exec_laneLock n hr, laneLock_of_settled hstate hsettle, moveLane_locked hstate]
  · rw [exec_laneLock n hr, laneLock_of_unsettled h]

/-! ### LANE_SET (R24) -/

theorem readFallback_black : readFallback 0 = some none := by decide

theorem readFallback_slot {v : Byte} {m : SlotId} (h : v.toNat = m.val + 26) : readFallback v = some (some m) := by
  simp only [readFallback, readSource_of (src := .slot m) h]

/-- A fallback is BLACK or a slot. -/
theorem readFallback_none {v : Byte} (hblack : v ≠ 0) (hslot : v.toNat < 26 ∨ 33 < v.toNat) : readFallback v = none := by
  unfold readFallback
  split
  · rename_i hread
    exact absurd (BitVec.eq_of_toNat_eq (readSource_code hread)) hblack
  · rename_i m hread
    have hcode := readSource_code hread
    simp only [Source.code, slotCode] at hcode
    omega
  · rfl

theorem doLaneSet_of_no_lane {lane : Byte} (h : readLane lane = none) (settle fallback : Byte) (s : State) :
    doLaneSet lane settle fallback s = s.refuse 16 .target (.lane lane) := by
  simp only [doLaneSet, h]

theorem doLaneSet_of_no_fallback {lane fallback : Byte} {n : LaneId} (h : readLane lane = some n)
    (hfallback : readFallback fallback = none) (settle : Byte) (s : State) :
    doLaneSet lane settle fallback s = s.refuse 16 .source (.lane lane) := by
  simp only [doLaneSet, h, hfallback]

theorem doLaneSet_of_read {lane fallback : Byte} {n : LaneId} {f : Option SlotId} (h : readLane lane = some n)
    (hfallback : readFallback fallback = some f) (settle : Byte) (s : State) :
    doLaneSet lane settle fallback s =
      s.setLane n { s.lane n with settle := max 1 (min 15 settle.toNat), fallback := f } := by
  simp only [doLaneSet, h, hfallback, clampTo]

/-! ### RESYNC (R25) -/

theorem doResync_of_no_lane {lane : Byte} (h : readLane lane = none) (s : State) :
    doResync lane s = s.refuse 17 .target (.lane lane) := by
  simp only [doResync, h]

section Resync
variable {lane : Byte} {n : LaneId} {s : State} (hread : readLane lane = some n)
include hread

theorem doResync_of_absent (h : (s.lane n).state = .absent) : doResync lane s = s := by
  simp only [doResync, hread, resyncLane, h]

theorem doResync_of_acquiring (h : (s.lane n).state = .acquiring) :
    doResync lane s = s.setLane n { s.lane n with good := 0, resync := true } := by
  simp only [doResync, hread, resyncLane, h]

theorem doResync_of_locked (h : (s.lane n).state = .locked) :
    doResync lane s =
      (s.setLane n { s.lane n with state := .acquiring, good := 0, resync := true }).post (.lane .acquiring true)
        (if s.tally.onAir.getLsbD (n.val + 1) then .degraded else .info) (.lane (laneByte n)) := by
  simp only [doResync, hread, resyncLane, h, moveLane_eq, State.lane_setLane, State.setLane_setLane,
    laneClass_of_unlocked (after := .acquiring) nofun]
  rfl

end Resync

/-- Settles O16: the refusals in order, LANE_SET by what its fallback reads as, and RESYNC by the lane's state. -/
theorem laneSetAndResync : Obligations.LaneSetAndResync := by
  refine ⟨fun s lane settle fallback hr => ⟨fun h => ?_, fun n h => ⟨?_, fun m hm => ?_, fun hblack hslot => ?_⟩⟩,
    fun s lane hr => ⟨fun h => ?_, fun n h => ⟨fun hstate => ?_, fun hstate => ?_, fun hstate => ?_⟩⟩⟩
  · rw [exec_laneSet _ _ _ hr, doLaneSet_of_no_lane (readLane_none h)]
  · rintro rfl
    rw [exec_laneSet _ _ _ hr, doLaneSet_of_read (readLane_of h) readFallback_black]
  · rw [exec_laneSet _ _ _ hr, doLaneSet_of_read (readLane_of h) (readFallback_slot hm)]
  · rw [exec_laneSet _ _ _ hr, doLaneSet_of_no_fallback (readLane_of h) (readFallback_none hblack hslot)]
  · rw [exec_resync _ hr, doResync_of_no_lane (readLane_none h)]
  · rw [exec_resync _ hr, doResync_of_absent (readLane_of h) hstate]
  · rw [exec_resync _ hr, doResync_of_acquiring (readLane_of h) hstate]
  · rw [exec_resync _ hr, doResync_of_locked (readLane_of h) hstate]

end Sys2Proof.Machine
end

section
/-! RESET(ENGINE) and RESET(FULL) (R29, R46 to R49): each as a record written over the state, and the LANE notices that the FULL scope
posts for the lanes that it takes out of LOCKED. -/

namespace Sys2Proof.Machine

/-! ### Notices taken one after the other (R174) -/

/-- The flags of a class after several have been raised. -/
theorem ClassFlags.get_foldl_raise (cls : NoticeClass) (ns : List Notice) :
    ∀ f : ClassFlags, (ns.foldl (fun g m => g.raise m.cls) f).get cls = true ↔ f.get cls = true ∨ ∃ m ∈ ns, m.cls = cls := by
  induction ns with
  | nil => simp
  | cons m ns ih =>
    intro f
    simp only [List.foldl_cons, ih, ClassFlags.get_raise, Bool.or_eq_true, decide_eq_true_eq, List.mem_cons, exists_eq_or_imp,
      eq_comm (a := cls)]
    tauto

/-- Notices of enabled classes that none in the queue absorbs and for which there is room stand at its end, in their order. -/
theorem ReportBuilder.foldl_take (ns : List Notice) :
    ∀ r : ReportBuilder, r.enabled = ClassFlags.all → (r.queue ++ ns).length ≤ 32 →
      (r.queue ++ ns).Pairwise (fun q m => q.sameLane m = false) →
        ns.foldl ReportBuilder.take r =
          { r with
            queue := r.queue ++ ns
            summary := ns.foldl (fun g m => g.raise m.cls) r.summary
            recent := ns.foldl (fun g m => g.raise m.cls) r.recent } := by
  induction ns with
  | nil => simp
  | cons m ns ih =>
    intro r hall hlength hapart
    obtain ⟨-, -, hnew⟩ := List.pairwise_append.mp hapart
    have hstep : r.take m =
        { r with queue := r.queue ++ [m], summary := r.summary.raise m.cls, recent := r.recent.raise m.cls } := by
      rw [ReportBuilder.take_of_enabled (by rw [hall]; exact ClassFlags.all_get _)]
      refine ReportBuilder.enqueue_of_room (r := r.flagged m.cls) (fun q hq => hnew q hq m (List.mem_cons_self ..)) ?_
      simp only [List.length_append, List.length_cons] at hlength
      show r.queue.length < 32
      omega
    have hlist : r.queue ++ m :: ns = (r.queue ++ [m]) ++ ns := by simp
    rw [hlist] at hlength hapart ⊢
    rw [List.foldl_cons, hstep, ih { r with queue := r.queue ++ [m], summary := _, recent := _ } hall hlength hapart]
    rfl

/-! ### The ENGINE scope (R46, R47, R49) -/

theorem resetEngine_me (s : State) (x : BankId) : (resetEngine s).me x = (s.me x).engineReset := by
  cases x <;> rfl

theorem resetEngine_slot (s : State) (m : SlotId) : (resetEngine s).slot m = { s.slot m with state := .idle } := by
  simp [State.slot, resetEngine, engineScope, dropTake, Store.stopped]

/-! ### The FULL scope (R46, R48) -/

/-- A store whose grabs are withdrawn and whose slots are emptied is the one after power-on. -/
theorem Store.stopped_emptied (x : Store) : x.stopped.emptied = Store.powerOn := by
  have hslots : x.stopped.emptied.slots = Store.powerOn.slots := by
    ext m hm
    simp [Store.stopped, Store.emptied, Store.powerOn, Slot.powerOn]
  exact congrArg (fun slots => ({ slots := slots, queue := [], ports := Vector.replicate 2 none } : Store)) hslots

/-- The FULL scope up to the work of the lanes. -/
def fullResetStart (s : State) : State :=
  { s with
    control := { s.control with take := [], schedule := [] }
    meA := Me.powerOn
    meB := Me.powerOn
    store := Store.powerOn
    matrix := Matrix.powerOn
    curves := Vector.replicate 4 Curve.powerOn
    notices := ReportBuilder.powerOn }

theorem resetFull_eq (s : State) : resetFull s = lanesFullReset (fullResetStart s) := by
  unfold resetFull fullScope
  rw [Store.stopped_emptied]
  rfl

theorem resetFull_frame (s : State) :
    resetFull s =
      { s with
        control := { s.control with take := [], schedule := [] }
        meA := (State.reset).meA
        meB := (State.reset).meB
        store := (State.reset).store
        matrix := (State.reset).matrix
        curves := (State.reset).curves
        lanes := (resetFull s).lanes
        notices := (resetFull s).notices } := by
  rw [resetFull_eq]
  exact (onlyLanes_lanesFullReset (fullResetStart s)).1

theorem resetFull_lane (s : State) (n : LaneId) :
    (resetFull s).lane n =
      { s.lane n with
        state := if (s.lane n).state = .locked then .acquiring else (s.lane n).state
        good := 0
        settle := 4
        fallback := none
        resync := false } := by
  rw [resetFull_eq, lanesFullReset_lane]
  rfl

/-! ### The LANE notices of the FULL scope (R29, R49) -/

/-- The LANE notice of a lane that the FULL scope takes out of LOCKED. -/
def resetNotice (s : State) (n : LaneId) : Notice :=
  { kind := .lane .acquiring true
    cls := if s.tally.onAir.getLsbD (n.val + 1) then .degraded else .info
    subject := .lane (laneByte n)
    number := s.ref.picture }

theorem laneByte_injective {n k : LaneId} (h : laneByte n = laneByte k) : n = k := by
  have hbyte := congrArg BitVec.toNat h
  simp only [laneByte, byteOf, BitVec.toNat_ofNat] at hbyte
  exact Fin.ext (by omega)

theorem resetNotice_sameLane (s : State) {n k : LaneId} (h : n ≠ k) : (resetNotice s n).sameLane (resetNotice s k) = false := by
  have hsubject : (resetNotice s n).subject ≠ (resetNotice s k).subject :=
    fun hsame => h (laneByte_injective (Subject.lane.inj hsame))
  simp [Notice.sameLane, hsubject]

theorem laneFullReset_notices (n : LaneId) (s : State) :
    (laneFullReset n s).notices =
      if (s.lane n).state = .locked then s.notices.take (resetNotice s n) else s.notices := by
  by_cases h : (s.lane n).state = .locked
  · simp only [laneFullReset, moveLane_eq, State.lane_setLane, h, laneClass_of_unlocked (after := .acquiring) nofun]
    rfl
  · simp only [laneFullReset, if_neg h]
    rfl

theorem resetNotice_congr {s t : State} (h : OnlyLanes s t) : resetNotice t = resetNotice s := by
  funext n
  simp only [resetNotice, h.tally_eq, h.ref_eq]

/-- A round of the FULL scope takes the notices of the LOCKED lanes in its order. -/
theorem foldl_laneFullReset_notices (l : List LaneId) :
    ∀ s : State, l.Nodup →
      (l.foldl (fun t n => laneFullReset n t) s).notices =
        ((l.filter (fun n => (s.lane n).state = .locked)).map (resetNotice s)).foldl ReportBuilder.take s.notices := by
  induction l with
  | nil => exact fun _ _ => rfl
  | cons n l ih =>
    intro s hnodup
    obtain ⟨hn, hl⟩ := List.nodup_cons.mp hnodup
    have hothers : l.filter (fun k => ((laneFullReset n s).lane k).state = .locked) =
        l.filter (fun k => (s.lane k).state = .locked) :=
      List.filter_congr fun k hk => by rw [(laneWork_laneFullReset n).2 s k (fun e => hn (e ▸ hk))]
    rw [List.foldl_cons, ih _ hl, hothers, resetNotice_congr (onlyLanes_laneFullReset n s), laneFullReset_notices]
    by_cases h : (s.lane n).state = .locked <;> simp [h]

/-- The LANE notices of the FULL scope, in ascending lane number. -/
def resetNotices (s : State) : List Notice :=
  (allLanes.filter (fun n => (s.lane n).state = .locked)).map (resetNotice s)

theorem resetNotices_apart (s : State) : (resetNotices s).Pairwise (fun q m => q.sameLane m = false) :=
  List.Pairwise.map _ (fun _ _ => resetNotice_sameLane s) (((List.nodup_finRange 24).filter _))

theorem resetNotices_length (s : State) : (resetNotices s).length ≤ 24 := by
  rw [resetNotices, List.length_map]
  exact (List.length_filter_le ..).trans (Nat.le_of_eq (List.length_finRange ..))

/-- The queue holds these notices alone, and both sets of flags are those of their classes. -/
theorem resetFull_notices (s : State) :
    (resetFull s).notices =
      { ReportBuilder.powerOn with
        queue := resetNotices s
        summary := (resetNotices s).foldl (fun g m => g.raise m.cls) ClassFlags.clear
        recent := (resetNotices s).foldl (fun g m => g.raise m.cls) ClassFlags.clear } := by
  have hlength := resetNotices_length s
  rw [resetFull_eq, lanesFullReset, foldl_laneFullReset_notices _ _ (List.nodup_finRange 24)]
  exact ReportBuilder.foldl_take (resetNotices s) ReportBuilder.powerOn rfl (by simp [ReportBuilder.powerOn]; omega)
    (resetNotices_apart s)

theorem resetFull_summary (s : State) (cls : NoticeClass) :
    (resetFull s).notices.summary.get cls = true ↔
      ∃ n : LaneId, (s.lane n).state = .locked ∧ (resetNotice s n).cls = cls := by
  have hclear : ClassFlags.clear.get cls = false := by cases cls <;> rfl
  rw [resetFull_notices]
  refine (ClassFlags.get_foldl_raise cls _ _).trans ?_
  simp [hclear, resetNotices]

theorem resetNotice_info_iff (s : State) (n : LaneId) :
    (resetNotice s n).cls = .info ↔ s.tally.onAir.getLsbD (n.val + 1) = false := by
  cases h : s.tally.onAir.getLsbD (n.val + 1) <;> simp [resetNotice, h]

theorem resetNotice_degraded_iff (s : State) (n : LaneId) :
    (resetNotice s n).cls = .degraded ↔ s.tally.onAir.getLsbD (n.val + 1) = true := by
  cases h : s.tally.onAir.getLsbD (n.val + 1) <;> simp [resetNotice, h]

theorem resetNotice_not_advisory (s : State) (n : LaneId) : (resetNotice s n).cls ≠ .advisory := by
  cases h : s.tally.onAir.getLsbD (n.val + 1) <;> simp [resetNotice, h]

theorem resetFull_summary_advisory (s : State) : (resetFull s).notices.summary.advisory = false :=
  Bool.eq_false_iff.mpr fun h =>
    have ⟨n, _, hcls⟩ := (resetFull_summary s .advisory).mp h
    resetNotice_not_advisory s n hcls

/-- Settles O51: each scope as a record over the state, then the lanes of FULL and the notices that they post. -/
theorem bothScopesOfReset : Obligations.BothScopesOfReset := by
  refine ⟨fun s hr => ⟨resetEngine s, exec_resetEngine hr, rfl, fun x => ?_, resetEngine_slot s, rfl, rfl⟩,
    fun s hr => ⟨resetFull s, exec_resetFull hr, resetFull_frame s, resetFull_lane s, ?_, ?_, ?_, resetFull_summary_advisory s,
      ?_, ?_, ?_⟩⟩
  · rw [resetEngine_me]
    exact ⟨rfl, Me.engineReset_layer _⟩
  · rw [resetFull_notices]; rfl
  · rw [resetFull_notices]; rfl
  · rw [resetFull_notices]
  · simp only [← resetNotice_info_iff]
    exact resetFull_summary s .info
  · simp only [← resetNotice_degraded_iff]
    exact resetFull_summary s .degraded
  · rw [resetFull_notices]; rfl

end Sys2Proof.Machine
end

section
/-! The take unit has no part in the own work of the lanes, the banks and the still store: done on the same state with another take unit,
the work comes to the same with that take unit (R20, R92, R161). -/

namespace Sys2Proof.Machine

/-! ### A state with another take unit -/

/-- The state with take unit `c`. -/
def State.withControl (s : State) (c : TakeUnit) : State :=
  { s with control := c }

section Reads
variable (s : State) (c : TakeUnit)

@[simp] theorem withControl_control : (s.withControl c).control = c := rfl
@[simp] theorem withControl_withControl (d : TakeUnit) : (s.withControl c).withControl d = s.withControl d := rfl
@[simp] theorem me_withControl (x : BankId) : (s.withControl c).me x = s.me x := by cases x <;> rfl
@[simp] theorem lane_withControl (n : LaneId) : (s.withControl c).lane n = s.lane n := rfl
@[simp] theorem slot_withControl (m : SlotId) : (s.withControl c).slot m = s.slot m := rfl
@[simp] theorem store_withControl : (s.withControl c).store = s.store := rfl
@[simp] theorem slotOnAir_withControl (m : SlotId) : slotOnAir (s.withControl c) m = slotOnAir s m := rfl
@[simp] theorem freePort_withControl : freePort (s.withControl c) = freePort s := rfl
@[simp] theorem aligned_withControl (n : LaneId) : (s.withControl c).aligned n = s.aligned n := rfl
@[simp] theorem capture_withControl (src : Source) : capture (s.withControl c) src = capture s src := rfl
@[simp] theorem shifted_withControl (l : Lane) : l.shifted (s.withControl c) = l.shifted s := rfl

end Reads

section Writes
variable (s : State) (c : TakeUnit)

@[simp] theorem ite_withControl (p : Prop) [Decidable p] (t : State) :
    (if p then s else t).withControl c = if p then s.withControl c else t.withControl c :=
  apply_ite (State.withControl · c) p s t

@[simp] theorem post_withControl (kind : NoticeKind) (cls : NoticeClass) (subject : Subject) :
    (s.withControl c).post kind cls subject = (s.post kind cls subject).withControl c := rfl

@[simp] theorem refuse_withControl (code : Byte) (reason : Reason) (subject : Subject) :
    (s.withControl c).refuse code reason subject = (s.refuse code reason subject).withControl c := rfl

@[simp] theorem modifyMe_withControl (x : BankId) (f : Me → Me) :
    (s.withControl c).modifyMe x f = (s.modifyMe x f).withControl c := by
  cases x <;> rfl

@[simp] theorem setBus_withControl (x : BankId) (k : Bus) (src : Source) :
    (s.withControl c).setBus x k src = (s.setBus x k src).withControl c := by
  cases x <;> rfl

@[simp] theorem exchangeBuses_withControl (x : BankId) :
    exchangeBuses x (s.withControl c) = (exchangeBuses x s).withControl c := by
  cases x <;> rfl

@[simp] theorem setLane_withControl (n : LaneId) (l : Lane) : (s.withControl c).setLane n l = (s.setLane n l).withControl c := rfl

@[simp] theorem moveLane_withControl (n : LaneId) (target : LaneState) :
    moveLane n target (s.withControl c) = (moveLane n target s).withControl c := rfl

end Writes

theorem foldl_withControl {α : Type} {f : State → α → State} {c : TakeUnit}
    (h : ∀ s a, f (s.withControl c) a = (f s a).withControl c) (l : List α) :
    ∀ s : State, l.foldl f (s.withControl c) = (l.foldl f s).withControl c := by
  induction l with
  | nil => exact fun _ => rfl
  | cons a l ih => intro s; rw [List.foldl_cons, h, ih, List.foldl_cons]

/-! ### Lanes (R20) -/

section Lanes
variable (s : State) (c : TakeUnit)

theorem presenceUpdate_withControl (n : LaneId) :
    presenceUpdate n (s.withControl c) = (presenceUpdate n s).withControl c := by
  cases hpresent : (s.lane n).present <;> cases hsignal : (s.lane n).detector <;> simp [presenceUpdate, hpresent, hsignal]

theorem judgeLane_withControl (n : LaneId) (aligned : Bool) :
    judgeLane n aligned (s.withControl c) = (judgeLane n aligned s).withControl c := by
  cases h : (s.lane n).state <;> simp [judgeLane, h]

theorem judgeIfPresent_withControl (before : State) (n : LaneId) :
    judgeIfPresent before n (s.withControl c) = (judgeIfPresent before n s).withControl c := by
  simp [judgeIfPresent, judgeLane_withControl]

theorem lanesWork_withControl (before : State) : lanesWork before (s.withControl c) = (lanesWork before s).withControl c := by
  simp only [lanesWork]
  rw [foldl_withControl (fun t n => by simp [shiftWindow]), foldl_withControl (fun t n => presenceUpdate_withControl t c n),
    foldl_withControl (fun t n => judgeIfPresent_withControl t c before n)]

/-- What the lanes read of the period just ended is not of the take unit. -/
theorem lanesWork_of_withControl (before : State) : lanesWork (before.withControl c) s = lanesWork before s := by
  simp [lanesWork, shiftWindow, judgeIfPresent]

end Lanes

/-! ### Banks (R92) -/

section Banks
variable (x : BankId) (s : State) (c : TakeUnit)

@[simp] theorem layerOn_withControl (l : LayerId) : layerOn x l (s.withControl c) = (layerOn x l s).withControl c := by
  simp [layerOn]

@[simp] theorem layerOff_withControl (l : LayerId) : layerOff x l (s.withControl c) = (layerOff x l s).withControl c := by
  simp [layerOff]

@[simp] theorem layerRequests_withControl (e : Keyframe) :
    layerRequests x e (s.withControl c) = (layerRequests x e s).withControl c := by
  simp only [layerRequests]
  rw [foldl_withControl (fun t l => by simp), foldl_withControl (fun t l => by simp)]

@[simp] theorem presetRequest_withControl (e : Keyframe) :
    presetRequest x e (s.withControl c) = (presetRequest x e s).withControl c := by
  unfold presetRequest placePreset
  cases e.preset with
  | none => rfl
  | some code => cases hread : readBusSource x code <;> simp [hread]

@[simp] theorem postMark_withControl : postMark x (s.withControl c) = (postMark x s).withControl c := by
  simp [postMark]

@[simp] theorem complete_withControl (how : DoneBy) : complete x how (s.withControl c) = (complete x how s).withControl c := by
  simp only [complete, me_withControl]
  split <;> simp

@[simp] theorem arriveEntry_withControl : arriveEntry x (s.withControl c) = (arriveEntry x s).withControl c := by
  simp [arriveEntry]

/-- A step on the same state with take unit `c`: the state with that take unit, and the same completion due. -/
def stepWithControl (p : State × Option DoneBy) : State × Option DoneBy :=
  (p.1.withControl c, p.2)

@[simp] theorem stepWithControl_mk (due : Option DoneBy) : stepWithControl c (s, due) = (s.withControl c, due) := rfl

@[simp] theorem stepWithControl_ite (p : Prop) [Decidable p] (a b : State × Option DoneBy) :
    stepWithControl c (if p then a else b) = if p then stepWithControl c a else stepWithControl c b :=
  apply_ite (stepWithControl c) p a b

@[simp] theorem endRun_withControl : endRun x (s.withControl c) = stepWithControl c (endRun x s) := by
  simp [endRun]

@[simp] theorem arrive_withControl : arrive x (s.withControl c) = stepWithControl c (arrive x s) := by
  simp [arrive]

@[simp] theorem pauseAfterSegment_withControl :
    pauseAfterSegment x (s.withControl c) = stepWithControl c (pauseAfterSegment x s) := by
  simp [pauseAfterSegment]

@[simp] theorem stepPlaying_withControl (holding : Bool) :
    stepPlaying holding x (s.withControl c) = stepWithControl c (stepPlaying holding x s) := by
  simp [stepPlaying]

@[simp] theorem runStep_withControl : runStep x (s.withControl c) = stepWithControl c (runStep x s) := by
  cases h : (s.me x).run.state <;> simp [runStep, h]

@[simp] theorem driveStep_withControl : driveStep x (s.withControl c) = stepWithControl c (driveStep x s) := by
  cases h : (s.me x).drive <;> simp [driveStep, h]

@[simp] theorem takeDue_withControl (p : State × Option DoneBy) :
    takeDue x (stepWithControl c p) = (takeDue x p).withControl c := by
  obtain ⟨t, due⟩ := p
  cases due <;> simp [takeDue]

@[simp] theorem bankOwn_withControl : bankOwn x (s.withControl c) = (bankOwn x s).withControl c := by
  simp [bankOwn]

@[simp] theorem syncRelease_withControl : syncRelease x (s.withControl c) = (syncRelease x s).withControl c := by
  cases h : (s.me x).run.state <;> simp [syncRelease, h]

theorem banksWork_withControl : banksWork (s.withControl c) = (banksWork s).withControl c := by
  simp [banksWork]

end Banks

/-! ### Still store (R161) -/

section Store
variable (s : State) (c : TakeUnit)

theorem completeGrab_withControl (period : State) (m : SlotId) :
    completeGrab period m (s.withControl c) = (completeGrab period m s).withControl c := by
  unfold completeGrab
  rw [slot_withControl]
  cases (s.slot m).state <;> rfl

theorem walkEntry_withControl (locked : LaneId → Bool) (e : GrabEntry) :
    walkEntry locked e (s.withControl c) = (walkEntry locked e s).withControl c := by
  simp only [walkEntry, slotOnAir_withControl, freePort_withControl, ite_withControl]
  cases freePort s <;> rfl

theorem storeWork_withControl (period : State) (locked : LaneId → Bool) :
    storeWork period locked (s.withControl c) = (storeWork period locked s).withControl c := by
  simp only [storeWork, completions, walk]
  rw [foldl_withControl (fun t m => completeGrab_withControl t c period m), store_withControl,
    foldl_withControl (fun t e => walkEntry_withControl t c locked e)]

/-- What a completion captures of the period just ended is not of the take unit. -/
theorem storeWork_of_withControl (period : State) (locked : LaneId → Bool) :
    storeWork (period.withControl c) locked s = storeWork period locked s := by
  simp [storeWork, completions, completeGrab]

end Store

end Sys2Proof.Machine
end

section
/-! CANCEL and CANCEL_ALL, the take formed and handed out, and the take at a switch line (R36, R41 to R46, R163): what the blocks' own
work makes of the line does not rest on the take, but for the lanes that the still store finds LOCKED (log 26). -/

namespace Sys2Proof.Machine

/-! ### CANCEL (R44) -/

theorem doCancel_of_none {s : State} {target : PictureNumber} (h : ∀ e ∈ s.control.schedule, e.target ≠ target) :
    doCancel target s = s := by
  have hall : s.control.schedule.filter (fun e => e.target ≠ target) = s.control.schedule :=
    List.filter_eq_self.mpr fun e he => decide_eq_true (h e he)
  rw [doCancel, hall]

/-! ### The forming of the take (R42) -/

theorem dueEntry_of_due {s : State} {e : ScheduleEntry} {rest : List ScheduleEntry} (h : s.control.schedule = e :: rest)
    (hdue : e.target = s.ref.picture) :
    dueEntry s =
      s.withControl
        { s.control with schedule := rest, take := s.control.take ++ [{ command := e.command, late := false }] } := by
  simp only [dueEntry, h, if_pos hdue]
  rfl

theorem dueEntry_of_not_due {s : State} (h : ∀ e ∈ s.control.schedule.head?, e.target ≠ s.ref.picture) : dueEntry s = s := by
  unfold dueEntry
  split
  · rfl
  · rename_i e rest hlist
    exact if_neg (h e (by rw [hlist]; rfl))

theorem dueEntries_of_not_due {s : State} (h : ∀ e ∈ s.control.schedule.head?, e.target ≠ s.ref.picture) (k : Nat) :
    dueEntries k s = s := by
  induction k with
  | zero => rfl
  | succ k ih => rw [dueEntries, dueEntry_of_not_due h, ih]

/-- The due entries at the front of the schedule list join the take in their order. -/
theorem dueEntries_of_split {left : List ScheduleEntry} (due : List ScheduleEntry) :
    ∀ (k : Nat) (s : State), due.length ≤ k → s.control.schedule = due ++ left → (∀ e ∈ due, e.target = s.ref.picture) →
      (∀ e ∈ left.head?, e.target ≠ s.ref.picture) →
        dueEntries k s =
          s.withControl
            { s.control with
              schedule := left
              take := s.control.take ++ due.map (fun e => { command := e.command, late := false }) } := by
  induction due with
  | nil =>
    intro k s _ hlist _ hleft
    rw [List.nil_append] at hlist
    rw [dueEntries_of_not_due (by rw [hlist]; exact hleft), List.map_nil, List.append_nil, ← hlist]
    rfl
  | cons e due ih =>
    intro k s hk hlist hdue hleft
    obtain ⟨k, rfl⟩ := Nat.exists_eq_succ_of_ne_zero (Nat.ne_zero_of_lt hk)
    have hfirst := dueEntry_of_due hlist (hdue e (List.mem_cons_self ..))
    rw [dueEntries, ih k (dueEntry s) (Nat.le_of_succ_le_succ hk) (by rw [hfirst]; rfl)
      (by rw [hfirst]; exact fun f hf => hdue f (List.mem_cons_of_mem _ hf)) (by rw [hfirst]; exact hleft), hfirst]
    simp

/-- The take unit once the take is formed, of the entries `due` with `left` behind them on the schedule list. -/
def TakeUnit.formed (c : TakeUnit) (due left : List ScheduleEntry) : TakeUnit :=
  { c with
    schedule := left
    takeList := []
    fill := c.takeList.length
    take := c.take ++ due.map (fun e => { command := e.command, late := false }) ++ c.takeList }

theorem formTake_of_split {s : State} {due left : List ScheduleEntry} (hlist : s.control.schedule = due ++ left)
    (hdue : ∀ e ∈ due, e.target = s.ref.picture) (hleft : ∀ e ∈ left.head?, e.target ≠ s.ref.picture) :
    formTake s = s.withControl (s.control.formed due left) := by
  rw [formTake, dueEntries_of_split due _ s (by rw [hlist, List.length_append]; exact Nat.le_add_right ..) hlist hdue hleft]
  rfl

/-! ### The handing out of the take (R43) -/

theorem handOut_of_nothing {s : State} (h : s.control.take = []) (k : Nat) : handOut k s = s := by
  cases k with
  | zero => rfl
  | succ k => simp only [handOut, h]

/-- The first command is carried out on the state with the rest of the take, and what it leaves of the take follows. -/
theorem handOutTake_cons {s : State} {e : TakeEntry} {rest : List TakeEntry} (h : s.control.take = e :: rest) :
    handOutTake s = handOutTake (runEntry e { s with control := { s.control with take := rest } }) := by
  have hstep : handOutTake s = handOut rest.length (runEntry e { s with control := { s.control with take := rest } }) := by
    simp only [handOutTake, h, List.length_cons, handOut]
  rw [hstep]
  rcases runEntry_take e { s with control := { s.control with take := rest } } with htake | htake
  · rw [handOutTake, htake]
  · rw [handOutTake, handOut_of_nothing htake, handOut_of_nothing htake]

theorem doReset_of_other {scope : Byte} (h : 1 < scope.toNat) (s : State) : doReset scope s = s.refuse 4 .target .none := by
  unfold doReset
  split
  · omega
  · omega
  · rfl

/-! ### The lanes as the take leaves them (R25, R29, R46, R163) -/

theorem Command.resets_iff (c : Command) : Command.resets c = true ↔ c = .reset 0 ∨ c = .reset 1 := by
  cases c <;> simp [Command.resets]

theorem Command.unlocks_iff (n : LaneId) (c : Command) :
    Command.unlocks n c = true ↔ c = .reset 1 ∨ ∃ lane : Byte, c = .resync lane ∧ lane.toNat = n.val + 1 := by
  cases c <;> simp [Command.unlocks, readLane_iff]

/-- A take leaves a LOCKED lane in LOCKED when no command up to its first RESET takes the lane out. -/
theorem keepsLock_iff (n : LaneId) (l : List TakeEntry) :
    keepsLock n l = true ↔
      ∀ (before after : List TakeEntry) (e : TakeEntry), l = before ++ e :: after →
        (∀ d ∈ before, ¬Command.resets d.command = true) → ¬Command.unlocks n e.command = true := by
  induction l with
  | nil => simp [keepsLock]
  | cons f rest ih =>
    have hstep : keepsLock n (f :: rest) = true ↔
        ¬Command.unlocks n f.command = true ∧ (Command.resets f.command = true ∨ keepsLock n rest = true) := by
      rw [keepsLock]
      cases Command.unlocks n f.command <;> cases Command.resets f.command <;> simp
    rw [hstep, ih]
    constructor
    · rintro ⟨hfirst, hrest⟩ before after e hl hbefore
      cases before with
      | nil =>
        obtain ⟨rfl, -⟩ := List.cons.inj hl
        exact hfirst
      | cons d before =>
        obtain ⟨rfl, hsplit⟩ := List.cons.inj hl
        exact hrest.resolve_left (hbefore f (List.mem_cons_self ..)) before after e hsplit
          fun d hd => hbefore d (List.mem_cons_of_mem _ hd)
    · intro h
      refine ⟨h [] rest f rfl (by simp), or_iff_not_imp_left.mpr fun hreset before after e hl hbefore => ?_⟩
      exact h (f :: before) after e (by rw [hl]; rfl) (List.forall_mem_cons.mpr ⟨hreset, hbefore⟩)

theorem lockedAfterTake_iff (formed : State) (n : LaneId) :
    lockedAfterTake formed n = true ↔
      (formed.lane n).state = .locked ∧
        ∀ (before after : List TakeEntry) (e : TakeEntry), formed.control.take = before ++ e :: after →
          (∀ d ∈ before, d.command ≠ .reset 0 ∧ d.command ≠ .reset 1) →
            e.command ≠ .reset 1 ∧ ∀ lane : Byte, e.command = .resync lane → lane.toNat ≠ n.val + 1 := by
  simp only [lockedAfterTake, lockedNow, Bool.and_eq_true, decide_eq_true_eq, keepsLock_iff, Command.resets_iff,
    Command.unlocks_iff, not_or, not_exists, not_and, ne_eq]

/-- Without a RESYNC and a RESET the take leaves every lane as it is. -/
theorem lockedAfterTake_of_no_lane_command {s : State}
    (h : ∀ e ∈ s.control.take, ∀ b : Byte, e.command ≠ .resync b ∧ e.command ≠ .reset b) : lockedAfterTake s = lockedNow s := by
  have hkeeps (n : LaneId) : keepsLock n s.control.take = true :=
    (keepsLock_iff n _).mpr fun before after e hl _ => by
      have he := h e (by rw [hl]; exact List.mem_append_right _ (List.mem_cons_self ..))
      rw [Command.unlocks_iff]
      rintro (hreset | ⟨lane, hresync, -⟩)
      · exact (he 1).2 hreset
      · exact (he lane).1 hresync
  funext n
  rw [lockedAfterTake, hkeeps, Bool.and_true]

/-! ### The take at a switch line (R42, R43) -/

/-- The blocks' own work at a switch line, with the lanes that the still store finds LOCKED. -/
def lineWork (p : FieldParity) (locked : LaneId → Bool) (s : State) : State :=
  storeWork s locked (banksWork (lanesWork s (beginPeriod p s)))

/-- The lanes that the store finds LOCKED bear on the store and the notices alone. -/
theorem lineWork_eq (p : FieldParity) (locked locked' : LaneId → Bool) (s : State) :
    lineWork p locked s =
      { lineWork p locked' s with store := (lineWork p locked s).store, notices := (lineWork p locked s).notices } := by
  have h := (onlyStore_storeWork s locked (banksWork (lanesWork s (beginPeriod p s)))).1
  have h' := (onlyStore_storeWork s locked' (banksWork (lanesWork s (beginPeriod p s)))).1
  unfold lineWork
  rw [h, h']

/-- The take unit that a switch line's own work finds, with the due entries and the take list in the take. -/
def TakeUnit.atLine (c : TakeUnit) (due left : List ScheduleEntry) : TakeUnit :=
  { c with packets := 0, excess := false }.formed due left

section Line
variable {s : State} {due left : List ScheduleEntry} (p : FieldParity) (hlist : s.control.schedule = due ++ left)
  (hdue : ∀ e ∈ due, e.target = s.ref.picture + 1) (hleft : ∀ e ∈ left.head?, e.target ≠ s.ref.picture + 1)
include hlist hdue hleft

theorem formTake_line :
    formTake (lanesWork s (beginPeriod p s)) =
      (lanesWork s (beginPeriod p s)).withControl (s.control.atLine due left) := by
  have hlanes := onlyLanes_lanesWork s (beginPeriod p s)
  rw [formTake_of_split (by rw [hlanes.control_eq]; exact hlist) (by rw [hlanes.ref_eq]; exact hdue)
    (by rw [hlanes.ref_eq]; exact hleft), hlanes.control_eq]
  rfl

/-- The own work that the take is handed out on. -/
theorem storeWork_line (locked : LaneId → Bool) :
    storeWork s locked (banksWork (formTake (lanesWork s (beginPeriod p s)))) =
      (lineWork p locked s).withControl (s.control.atLine due left) := by
  rw [formTake_line p hlist hdue hleft, banksWork_withControl, storeWork_withControl]
  rfl

end Line

/-- The state before a switch line with nothing to take, with `left` on the schedule list. -/
def withoutTake (left : List ScheduleEntry) (s : State) : State :=
  { s with control := { s.control with takeList := [], take := [], schedule := left } }

/-- The take unit with nothing to take, in the period that the switch line begins. -/
def TakeUnit.nothing (c : TakeUnit) (left : List ScheduleEntry) : TakeUnit :=
  { c with packets := 0, excess := false, takeList := [], take := [], schedule := left }

theorem lanesWork_withoutTake (p : FieldParity) (left : List ScheduleEntry) (s : State) :
    lanesWork (withoutTake left s) (beginPeriod p (withoutTake left s)) =
      (lanesWork s (beginPeriod p s)).withControl (s.control.nothing left) := by
  have hstart : withoutTake left s = s.withControl { s.control with takeList := [], take := [], schedule := left } := rfl
  have hbegin : beginPeriod p (withoutTake left s) = (beginPeriod p s).withControl (s.control.nothing left) := rfl
  rw [hbegin, hstart, lanesWork_of_withControl, lanesWork_withControl]

theorem lineWork_withoutTake (p : FieldParity) (locked : LaneId → Bool) (left : List ScheduleEntry) (s : State) :
    lineWork p locked (withoutTake left s) = (lineWork p locked s).withControl (s.control.nothing left) := by
  have hstart : withoutTake left s = s.withControl { s.control with takeList := [], take := [], schedule := left } := rfl
  unfold lineWork
  rw [lanesWork_withoutTake, hstart, storeWork_of_withControl, banksWork_withControl, storeWork_withControl]

theorem lockedNow_withControl (s : State) (c : TakeUnit) : lockedNow (s.withControl c) = lockedNow s := rfl

section Nothing
variable (p : FieldParity) {s : State} {left : List ScheduleEntry} (hleft : ∀ e ∈ left.head?, e.target ≠ s.ref.picture + 1)
include hleft

theorem formTake_withoutTake :
    formTake (lanesWork (withoutTake left s) (beginPeriod p (withoutTake left s))) =
      (lanesWork s (beginPeriod p s)).withControl { s.control.nothing left with fill := 0 } := by
  rw [formTake_line p (s := withoutTake left s) (due := []) rfl (by simp) hleft, lanesWork_withoutTake,
    withControl_withControl]
  rfl

/-- With nothing to take the line is the own work, with the lanes as they are. -/
theorem plainSwitchLine_withoutTake :
    plainSwitchLine p (withoutTake left s) =
      (lineWork p (lockedNow (lanesWork s (beginPeriod p s))) s).withControl { s.control.nothing left with fill := 0 } := by
  have htake : (formTake (lanesWork (withoutTake left s) (beginPeriod p (withoutTake left s)))).control.take = [] := by
    rw [formTake_withoutTake p hleft]
    rfl
  have hlocked : lockedAfterTake (formTake (lanesWork (withoutTake left s) (beginPeriod p (withoutTake left s)))) =
      lockedNow (lanesWork s (beginPeriod p s)) := by
    rw [lockedAfterTake_of_no_lane_command (by rw [htake]; simp), formTake_withoutTake p hleft, lockedNow_withControl]
  rw [plainSwitchLine, ownWork, hlocked, storeWork_line p (due := []) (s := withoutTake left s) rfl (by simp) hleft,
    lineWork_withoutTake, withControl_withControl]
  exact handOut_of_nothing rfl _

end Nothing

theorem exec_switchLine_withoutTake (p : FieldParity) {s : State} (hr : s.resetPin = false) (hchange : s.ref.change = none)
    (left : List ScheduleEntry) :
    exec (.switchLine p) (withoutTake left s) = .next (plainSwitchLine p (withoutTake left s)) :=
  (exec_switchLine p (s := withoutTake left s) hr).trans
    (congrArg Host.Outcome.next (switchLine_of_no_change p (s := withoutTake left s) hchange))

/-- The take in the take unit, and the store and the notices, are all that the line with a take has beside the one without. -/
theorem withControl_atLine {own quiet : State} (h : own = { quiet with store := own.store, notices := own.notices })
    (c : TakeUnit) (due left : List ScheduleEntry) :
    own.withControl (c.atLine due left) =
      { quiet.withControl { c.nothing left with fill := 0 } with
        control :=
          { (quiet.withControl { c.nothing left with fill := 0 }).control with
            fill := c.takeList.length
            take := c.take ++ due.map (fun e => { command := e.command, late := false }) ++ c.takeList }
        store := (own.withControl (c.atLine due left)).store
        notices := (own.withControl (c.atLine due left)).notices } :=
  congrArg (State.withControl · (c.atLine due left)) h

/-- A take without a RESYNC and a RESET leaves the still store the lanes as they are. -/
theorem lockedAfterTake_line (p : FieldParity) {s : State} {c : TakeUnit}
    (h : ∀ e ∈ c.take, ∀ b : Byte, e.command ≠ .resync b ∧ e.command ≠ .reset b) :
    lockedAfterTake ((lanesWork s (beginPeriod p s)).withControl c) = lockedNow (lanesWork s (beginPeriod p s)) :=
  (lockedAfterTake_of_no_lane_command h).trans (lockedNow_withControl _ c)

/-- Settles O50: the schedule list's commands, the forming of the take and its handing out, then the line with and without it. -/
theorem scheduleListAndTheTake : Obligations.ScheduleListAndTheTake := by
  refine ⟨fun s hr => ⟨fun target => ⟨exec_cancel target hr, fun h => ?_⟩, exec_cancelAll hr,
      fun e rest hlist hdue => ?_, fun h => ?_⟩,
    fun s due left hlist hdue hleft => formTake_of_split hlist hdue hleft,
    fun s e rest handed hr htake hhanded => ⟨fun c t hrow hexec => ?_, fun scope hreset hscope => ?_⟩,
    fun s htake => handOut_of_nothing htake _, lockedAfterTake_iff, fun s p due left hr hchange hlist hdue hleft => ?_⟩
  · rw [exec_cancel target hr, doCancel_of_none h]
  · rw [exec_scheduledEntryDue hr, dueEntry_of_due hlist hdue]
    rfl
  · rw [exec_scheduledEntryDue hr, dueEntry_of_not_due h]
  · have hpin : handed.resetPin = false := by rw [hhanded]; split <;> exact hr
    rw [exec_of_rowOf hrow hpin] at hexec
    rw [handOutTake_cons htake, ← Host.Outcome.next.inj hexec, hhanded]
    rfl
  · rw [handOutTake_cons htake, ← doReset_of_other hscope handed, hhanded]
    simp only [runEntry, hreset]
    rfl
  · have hown := storeWork_line p hlist hdue hleft
    refine ⟨plainSwitchLine p (withoutTake left s), _, _, rfl, rfl, exec_switchLine_withoutTake p hr hchange left, ?_,
      fun hnone => ?_, ?_⟩
    · rw [plainSwitchLine_withoutTake p hleft, hown]
      exact withControl_atLine (lineWork_eq p _ _ s) s.control due left
    · rw [hown, withControl_control] at hnone
      rw [hown]
      rw [plainSwitchLine_withoutTake p hleft, formTake_line p hlist hdue hleft, lockedAfterTake_line p hnone]
      exact ⟨rfl, rfl⟩
    · rw [exec_switchLine p hr, switchLine_of_no_change p hchange, plainSwitchLine, ownWork]

end Sys2Proof.Machine
end

section
/-! Notices of a kind: what a report builder keeps while it takes notices that are not LANE notices of one lane, and that the own work of
the banks and of the still store posts no LANE notice at all (R174, R175). -/

namespace Sys2Proof.Machine

/-! ### Notices taken that all satisfy a test -/

/-- The report builder has taken some notices, each of which satisfies `P`, and nothing else has happened to it. -/
inductive PostedOf (P : Notice → Prop) : ReportBuilder → ReportBuilder → Prop where
  | refl (r : ReportBuilder) : PostedOf P r r
  | take {r r' : ReportBuilder} (m : Notice) (hm : P m) : PostedOf P r r' → PostedOf P r (r'.take m)

theorem PostedOf.trans {P : Notice → Prop} {r r' r'' : ReportBuilder} (h : PostedOf P r r') (k : PostedOf P r' r'') :
    PostedOf P r r'' := by
  induction k with
  | refl => exact h
  | take m hm _ ih => exact .take m hm ih

theorem PostedOf.mono {P Q : Notice → Prop} (hPQ : ∀ m, P m → Q m) {r r' : ReportBuilder} (h : PostedOf P r r') :
    PostedOf Q r r' := by
  induction h with
  | refl => exact .refl _
  | take m hm _ ih => exact .take m (hPQ m hm) ih

theorem PostedOf.posted {P : Notice → Prop} {r r' : ReportBuilder} (h : PostedOf P r r') : Posted r r' := by
  induction h with
  | refl => exact .refl _
  | take m _ _ ih => exact .take m ih

/-- A property that taking such a notice keeps is kept by all of them. -/
theorem PostedOf.keeps {P : Notice → Prop} {Q : ReportBuilder → Prop} (hQ : ∀ r m, P m → Q r → Q (r.take m))
    {r r' : ReportBuilder} (h : PostedOf P r r') (hr : Q r) : Q r' := by
  induction h with
  | refl => exact hr
  | take m hm _ ih => exact hQ _ m hm ih

/-! ### The LANE notices of one lane -/

/-- A LANE notice of lane `n`. -/
def Notice.ofLane (n : LaneId) (m : Notice) : Prop :=
  m.isLane = true ∧ m.subject = .lane (laneByte n)

theorem Notice.not_ofLane_of_ne {n k : LaneId} (h : k ≠ n) {m : Notice} (hm : m.ofLane k) : ¬m.ofLane n :=
  fun hn => h (laneByte_injective (Subject.lane.inj (hm.2.symm.trans hn.2)))

theorem Notice.not_ofLane_of_not_isLane {m : Notice} (h : m.isLane = false) (n : LaneId) : ¬m.ofLane n :=
  fun hn => Bool.false_ne_true (h.symm.trans hn.1)

theorem Notice.sameLane_iff_of_ofLane {n : LaneId} {m : Notice} (h : m.ofLane n) (q : Notice) :
    q.sameLane m = true ↔ q.ofLane n := by
  simp [Notice.sameLane, Notice.ofLane, h.1, h.2]

/-- A notice of another kind or lane leaves a LANE notice of lane `n` apart. -/
theorem Notice.sameLane_of_not_ofLane {n : LaneId} {q m : Notice} (hq : q.ofLane n) (hm : ¬m.ofLane n) :
    q.sameLane m = false := by
  rw [← Bool.not_eq_true]
  intro h
  simp only [Notice.sameLane, Bool.and_eq_true, decide_eq_true_eq] at h
  obtain ⟨⟨-, hlane⟩, hsubject⟩ := h
  exact hm ⟨hlane, hsubject.symm.trans hq.2⟩

/-- What is in the queue after a notice has been taken: what was there, some of it updated, or the notice itself. -/
theorem ReportBuilder.mem_of_mem_take {r : ReportBuilder} {m q : Notice} (h : q ∈ (r.take m).queue) :
    q ∈ r.queue ∨ (∃ p ∈ r.queue, p.sameLane m = true ∧ q = p.updatedBy m) ∨ q = m := by
  cases henabled : r.enabled.get m.cls with
  | false =>
    rw [ReportBuilder.take_of_disabled henabled] at h
    exact .inl h
  | true =>
    rw [ReportBuilder.take_of_enabled henabled] at h
    unfold ReportBuilder.enqueue at h
    split at h
    · obtain ⟨p, hp, rfl⟩ := List.mem_map.mp h
      split
      · rename_i hsame
        exact .inr (.inl ⟨p, hp, hsame, rfl⟩)
      · exact .inl hp
    · split at h
      · exact (List.mem_append.mp h).imp id fun hm => .inr (List.mem_singleton.mp hm)
      · exact .inl h

/-- Taking a notice of another kind or lane brings no LANE notice of lane `n` into the queue and changes none. -/
theorem ReportBuilder.ofLane_of_mem_take {n : LaneId} {r : ReportBuilder} {m q : Notice} (hm : ¬m.ofLane n) (hq : q.ofLane n)
    (h : q ∈ (r.take m).queue) : q ∈ r.queue := by
  rcases ReportBuilder.mem_of_mem_take h with h | ⟨p, -, hsame, rfl⟩ | rfl
  · exact h
  · obtain ⟨⟨-, hlane⟩, hsubject⟩ : (p.isLane = true ∧ m.isLane = true) ∧ p.subject = m.subject := by
      simpa [Notice.sameLane] using hsame
    exact absurd ⟨hlane, hsubject.symm.trans hq.2⟩ hm
  · exact absurd hq hm

theorem PostedOf.ofLane_mem {n : LaneId} {r r' : ReportBuilder} (h : PostedOf (fun m => ¬m.ofLane n) r r') {q : Notice}
    (hq : q.ofLane n) : q ∈ r'.queue → q ∈ r.queue :=
  h.keeps (Q := fun x => q ∈ x.queue → q ∈ r.queue) (fun _ _ hm hx hmem => hx (ReportBuilder.ofLane_of_mem_take hm hq hmem)) id

/-- A LANE notice of lane `n` stays in the queue as it is when a notice of another kind or lane is taken. -/
theorem ReportBuilder.mem_take_of_ofLane {n : LaneId} {r : ReportBuilder} {m q : Notice} (hm : ¬m.ofLane n) (hq : q.ofLane n)
    (h : q ∈ r.queue) : q ∈ (r.take m).queue := by
  cases henabled : r.enabled.get m.cls with
  | false =>
    rw [ReportBuilder.take_of_disabled henabled]
    exact h
  | true =>
    rw [ReportBuilder.take_of_enabled henabled]
    unfold ReportBuilder.enqueue
    split
    · exact List.mem_map.mpr ⟨q, h, by simp [Notice.sameLane_of_not_ofLane hq hm]⟩
    · split
      · exact List.mem_append_left _ h
      · exact h

theorem PostedOf.mem_of_ofLane {n : LaneId} {r r' : ReportBuilder} (h : PostedOf (fun m => ¬m.ofLane n) r r') {q : Notice}
    (hq : q.ofLane n) : q ∈ r.queue → q ∈ r'.queue :=
  h.keeps (Q := fun x => q ∈ r.queue → q ∈ x.queue)
    (fun _ _ hm hx hmem => ReportBuilder.mem_take_of_ofLane hm hq (hx hmem)) id

theorem Posted.lost_of_lost {r r' : ReportBuilder} (h : Posted r r') : r'.lost = false → r.lost = false :=
  h.keeps (P := fun x => x.lost = false → r.lost = false) (fun _ _ hx hlost => hx (ReportBuilder.lost_of_take_lost hlost)) id

/-- A LANE notice of an enabled class is in the queue when nothing is lost: its kind and number are there with its lane, a queued
notice of the lane gives it its class DEGRADED, and without one it stands there as it is (R175). -/
theorem ReportBuilder.take_ofLane {n : LaneId} {r : ReportBuilder} {m : Notice} (hm : m.ofLane n)
    (henabled : r.enabled.get m.cls = true) (hlost : (r.take m).lost = false) :
    ∃ q ∈ (r.take m).queue, q.kind = m.kind ∧ q.subject = m.subject ∧ q.number = m.number ∧
      (m.cls = .degraded → q.cls = .degraded) ∧ ((∀ old ∈ r.queue, ¬old.ofLane n) → q.cls = m.cls) := by
  rw [ReportBuilder.take_of_enabled henabled] at hlost ⊢
  by_cases hqueued : ∃ old ∈ r.queue, old.ofLane n
  · obtain ⟨old, hold, hlane⟩ := hqueued
    have hsame : old.sameLane m = true := (Notice.sameLane_iff_of_ofLane hm old).mpr hlane
    rw [ReportBuilder.enqueue_of_queued (r := r.flagged m.cls) ⟨old, hold, hsame⟩]
    refine ⟨old.updatedBy m, List.mem_map.mpr ⟨old, hold, if_pos hsame⟩, rfl, hlane.2.trans hm.2.symm, rfl, fun hcls => ?_,
      fun hnone => absurd hlane (hnone old hold)⟩
    exact if_pos (.inr hcls)
  · have hnew : ∀ q ∈ (r.flagged m.cls).queue, q.sameLane m = false := fun q hq =>
      Bool.eq_false_iff.mpr fun hsame => hqueued ⟨q, hq, (Notice.sameLane_iff_of_ofLane hm q).mp hsame⟩
    rcases Nat.lt_or_ge r.queue.length 32 with hroom | hfull
    · rw [ReportBuilder.enqueue_of_room (r := r.flagged m.cls) hnew hroom]
      exact ⟨m, List.mem_append_right _ (List.mem_singleton_self m), rfl, rfl, rfl, id, fun _ => rfl⟩
    · rw [ReportBuilder.enqueue_of_full (r := r.flagged m.cls) hnew hfull] at hlost
      exact absurd hlost.symm Bool.false_ne_true

/-! ### Work that posts no LANE notice -/

/-- Between the two states no LANE notice is posted. -/
def NoLaneNotice (s t : State) : Prop :=
  PostedOf (fun m => m.isLane = false) s.notices t.notices

theorem NoLaneNotice.of_notices_eq {s t : State} (h : t.notices = s.notices) : NoLaneNotice s t := by
  unfold NoLaneNotice
  rw [h]
  exact .refl _

theorem NoLaneNotice.refl (s : State) : NoLaneNotice s s := .of_notices_eq rfl

theorem NoLaneNotice.trans {s t u : State} (h : NoLaneNotice s t) (k : NoLaneNotice t u) : NoLaneNotice s u :=
  PostedOf.trans h k

theorem NoLaneNotice.foldl {α : Type} {f : State → α → State} (h : ∀ s a, NoLaneNotice s (f s a)) (l : List α) (s : State) :
    NoLaneNotice s (l.foldl f s) :=
  List.foldlRecOn (motive := NoLaneNotice s) l f (.refl s) fun t ht a _ => ht.trans (h t a)

theorem noLaneNotice_post (s : State) {kind : NoticeKind} {cls : NoticeClass} {subject : Subject}
    (h : ∀ state present, kind ≠ .lane state present) : NoLaneNotice s (s.post kind cls subject) := by
  refine .take _ ?_ (.refl _)
  cases kind <;> first | rfl | exact absurd rfl (h _ _)

theorem noLaneNotice_refuse (s : State) (code : Byte) (reason : Reason) (subject : Subject) :
    NoLaneNotice s (s.refuse code reason subject) :=
  noLaneNotice_post s nofun

theorem noLaneNotice_modifyMe (s : State) (x : BankId) (f : Me → Me) : NoLaneNotice s (s.modifyMe x f) :=
  .of_notices_eq (State.modifyMe_notices ..)

/-! ### The own work of the banks (R92) -/

section Banks
variable (x : BankId) (s : State)

theorem noLaneNotice_layerOn (l : LayerId) : NoLaneNotice s (layerOn x l s) := by
  unfold layerOn; split
  · exact noLaneNotice_refuse ..
  · exact noLaneNotice_modifyMe ..

theorem noLaneNotice_layerOff (l : LayerId) : NoLaneNotice s (layerOff x l s) := by
  unfold layerOff; split
  · exact noLaneNotice_refuse ..
  · exact noLaneNotice_modifyMe ..

theorem noLaneNotice_presetRequest (e : Keyframe) : NoLaneNotice s (presetRequest x e s) := by
  unfold presetRequest placePreset; split
  · exact .refl s
  · split
    · exact noLaneNotice_refuse ..
    · exact .of_notices_eq (by cases x <;> rfl)

theorem noLaneNotice_requested (e : Keyframe) : NoLaneNotice s (requested x e s) := by
  refine NoLaneNotice.trans (NoLaneNotice.trans (NoLaneNotice.foldl (fun t l => ?_) _ s) (NoLaneNotice.foldl (fun t l => ?_) _ _))
    (noLaneNotice_presetRequest x _ e)
  · split
    · exact noLaneNotice_layerOn x t l
    · exact .refl t
  · split
    · exact noLaneNotice_layerOff x t l
    · exact .refl t

theorem noLaneNotice_postMark : NoLaneNotice s (postMark x s) := by
  unfold postMark; split
  · exact noLaneNotice_post s nofun
  · exact noLaneNotice_modifyMe ..

theorem noLaneNotice_complete (how : DoneBy) : NoLaneNotice s (complete x how s) := by
  unfold NoLaneNotice
  rw [complete_notices]
  exact .take _ rfl (.refl _)

theorem noLaneNotice_arriveEntry : NoLaneNotice s (arriveEntry x s) := by
  have hasked := noLaneNotice_requested x s ((s.me x).entry (s.me x).run.index)
  cases hsync : ((s.me x).entry (s.me x).run.index).sync with
  | false =>
    rw [arriveEntry_of_plain rfl hsync]
    exact hasked.trans (noLaneNotice_modifyMe ..)
  | true =>
    rw [arriveEntry_of_sync rfl hsync]
    exact (hasked.trans (noLaneNotice_postMark ..)).trans (noLaneNotice_modifyMe ..)

theorem noLaneNotice_endRun : NoLaneNotice s (endRun x s).1 := by
  have hidle : NoLaneNotice s
      ((s.modifyMe x (fun m => { m with run := Run.idle })).post .runDone .info (.me (bankByte x))) :=
    (noLaneNotice_modifyMe ..).trans (noLaneNotice_post _ nofun)
  simp only [endRun]; split
  · exact hidle
  · exact hidle.trans (noLaneNotice_modifyMe ..)

theorem noLaneNotice_arrive : NoLaneNotice s (arrive x s).1 := by
  simp only [arrive]; split
  · exact noLaneNotice_arriveEntry x s
  · split
    · exact (noLaneNotice_modifyMe ..).trans (noLaneNotice_arriveEntry ..)
    · exact noLaneNotice_endRun x s

theorem noLaneNotice_pauseAfterSegment : NoLaneNotice s (pauseAfterSegment x s).1 := by
  simp only [pauseAfterSegment]; split
  · exact (noLaneNotice_modifyMe s x _).trans (noLaneNotice_modifyMe ..)
  · split
    · exact (noLaneNotice_modifyMe s x _).trans (noLaneNotice_modifyMe ..)
    · exact (noLaneNotice_modifyMe ..).trans (noLaneNotice_endRun ..)

theorem noLaneNotice_stepPlaying (holding : Bool) : NoLaneNotice s (stepPlaying holding x s).1 := by
  simp only [stepPlaying]; split
  · exact noLaneNotice_arrive x s
  · split
    · exact noLaneNotice_modifyMe ..
    · split
      · exact noLaneNotice_pauseAfterSegment x s
      · exact (noLaneNotice_modifyMe ..).trans (noLaneNotice_arrive ..)

theorem noLaneNotice_runStep : NoLaneNotice s (runStep x s).1 := by
  unfold runStep; split
  · exact .refl s
  · exact noLaneNotice_stepPlaying ..
  · exact .refl s
  · exact noLaneNotice_stepPlaying ..
  · exact .refl s

theorem noLaneNotice_driveStep : NoLaneNotice s (driveStep x s).1 := by
  unfold driveStep; split
  · exact .refl s
  · exact .refl s
  · split
    · exact noLaneNotice_modifyMe s x _
    · exact .refl s
  · exact noLaneNotice_runStep x s

theorem noLaneNotice_bankOwn : NoLaneNotice s (bankOwn x s) := by
  have hstep := (noLaneNotice_modifyMe s x Me.fadeStep).trans (noLaneNotice_driveStep x _)
  unfold bankOwn takeDue; split
  · exact hstep
  · exact hstep.trans (noLaneNotice_complete ..)

theorem noLaneNotice_syncRelease : NoLaneNotice s (syncRelease x s) := by
  simp only [syncRelease]; split
  · exact .refl s
  · exact .refl s
  · split
    · exact noLaneNotice_modifyMe ..
    · exact .refl s
  · exact .refl s
  · exact .refl s

end Banks

theorem noLaneNotice_banksWork (s : State) : NoLaneNotice s (banksWork s) :=
  (((noLaneNotice_bankOwn .a s).trans (noLaneNotice_bankOwn .b _)).trans (noLaneNotice_syncRelease .a _)).trans
    (noLaneNotice_syncRelease .b _)

/-! ### The own work of the still store (R161) -/

theorem noLaneNotice_completeGrab (period : State) (m : SlotId) (s : State) : NoLaneNotice s (completeGrab period m s) := by
  unfold completeGrab; split
  · exact .refl s
  · exact .refl s
  · exact NoLaneNotice.trans (.of_notices_eq rfl) (noLaneNotice_post _ nofun)

theorem noLaneNotice_walkEntry (locked : LaneId → Bool) (e : GrabEntry) (s : State) :
    NoLaneNotice s (walkEntry locked e s) := by
  have hfail (why : GrabFault) : NoLaneNotice s (failGrab e.slot why s) :=
    NoLaneNotice.trans (.of_notices_eq rfl) (noLaneNotice_post _ nofun)
  rcases walkEntry_cases locked e s with ⟨-, ⟨why, hstep⟩ | hstep⟩ | ⟨-, ⟨p, -, hstep⟩ | ⟨-, hstep⟩⟩ <;> rw [hstep]
  · exact hfail why
  · exact .of_notices_eq rfl
  · exact .of_notices_eq rfl
  · exact .refl s

theorem noLaneNotice_storeWork (period : State) (locked : LaneId → Bool) (s : State) :
    NoLaneNotice s (storeWork period locked s) :=
  (NoLaneNotice.foldl (fun t m => noLaneNotice_completeGrab period m t) _ s).trans
    (NoLaneNotice.foldl (fun t e => noLaneNotice_walkEntry locked e t) _ _)

end Sys2Proof.Machine
end

section
/-! Every lane at a switch line that takes no command (R17 to R21, R26 to R28): the judging window and the alignment test, the record that
the line leaves of a lane, and the one LANE notice that a change of its state posts. -/

namespace Sys2Proof.Machine

/-! ### The judging window (R18, R19) -/

theorem lead_eq (f : HouseFormat) : f.lead = if f = .uhd2160p50 ∨ f = .uhd2160p5994 then 13 else 6 := by
  cases f <;> rfl

theorem inWindowBefore_eq (f : HouseFormat) (lines : Nat) :
    inWindowBefore f lines = decide (f.lead - 8 ≤ lines ∧ lines ≤ f.lead + 8) := by
  unfold inWindowBefore
  rw [← Bool.decide_and, decide_eq_decide]
  omega

theorem carriedHere_eq (s : State) (x : StartNote) :
    s.carriedHere x =
      decide (s.periodFormat.lead - 8 ≤ x.start.before ∧ x.start.before ≤ s.periodFormat.lead + 8) :=
  inWindowBefore_eq ..

theorem carriedNext_eq (s : State) (x : StartNote) :
    s.carriedNext x = decide (s.ref.house.lead - 8 ≤ x.start.beyond ∧ x.start.beyond ≤ s.ref.house.lead + 8) :=
  inWindowBefore_eq ..

theorem notedHere_eq (s : State) (x : StartNote) : s.notedHere x = decide (x.start.after + s.periodFormat.lead ≤ 8) := rfl

theorem notedNext_eq (s : State) (x : StartNote) :
    s.notedNext x = decide (s.ref.house.lead - 8 ≤ x.start.before ∧ x.start.before ≤ s.ref.house.lead + 8) :=
  inWindowBefore_eq ..

theorem periodFormat_of_no_change {s : State} (h : s.ref.change = none) : s.periodFormat = s.ref.house := by
  simp only [State.periodFormat, h, Option.getD_none]

/-- The alignment test: one start in the window, which ends a whole picture of the house format and begins the right field. -/
theorem aligned_iff {s : State} (h : s.ref.change = none) (n : LaneId) :
    s.aligned n = true ↔
      ∃ x : StartNote, s.window n = [x] ∧ x.whole = true ∧ x.start.ended.format = some s.ref.house ∧
        (s.ref.house.interlaced = true → x.start.parity = s.parity) := by
  have hfield : ∀ x : StartNote, (!s.ref.house.interlaced || decide (x.start.parity = s.parity)) = true ↔
      (s.ref.house.interlaced = true → x.start.parity = s.parity) := by
    intro x
    cases s.ref.house.interlaced <;> simp
  unfold State.aligned
  rw [periodFormat_of_no_change h]
  split
  · rename_i x hwindow
    simp [hwindow, hfield, and_assoc]
  · rename_i hwindow
    simp only [Bool.false_eq_true, false_iff, not_exists, not_and]
    exact fun x hx => absurd hx (hwindow x)

/-! ### The record of a lane after the line (R17, R20, R21) -/

/-- A lane's record after presence and judgement. -/
def Lane.atLine (l : Lane) (aligned : Bool) : Lane :=
  if l.present && l.presenceFollowed.present then l.presenceFollowed.judged aligned else l.presenceFollowed

theorem Lane.presenceFollowed_frame (l : Lane) :
    l.presenceFollowed =
      { l with
        state := l.presenceFollowed.state, good := l.presenceFollowed.good, resync := l.presenceFollowed.resync } := by
  unfold Lane.presenceFollowed
  split <;> split <;> rfl

theorem Lane.judged_frame (l : Lane) (aligned : Bool) :
    l.judged aligned =
      { l with
        state := (l.judged aligned).state, good := (l.judged aligned).good, resync := (l.judged aligned).resync } := by
  unfold Lane.judged
  split
  · rfl
  · split
    · split <;> rfl
    · rfl
  · split <;> rfl

theorem Lane.atLine_frame (l : Lane) (aligned : Bool) :
    l.atLine aligned =
      { l with
        state := (l.atLine aligned).state, good := (l.atLine aligned).good, resync := (l.atLine aligned).resync } := by
  unfold Lane.atLine
  split
  · rw [Lane.judged_frame, Lane.presenceFollowed_frame]
  · exact Lane.presenceFollowed_frame l

section Record
variable {l : Lane} (aligned : Bool)

theorem Lane.atLine_of_absent (hstate : l.state = .absent) (hsignal : l.detector = false) : l.atLine aligned = l := by
  simp [Lane.atLine, Lane.presenceFollowed, Lane.present, hstate, hsignal]

theorem Lane.atLine_of_appears (hstate : l.state = .absent) (hsignal : l.detector = true) :
    l.atLine aligned = l.moved .acquiring := by
  simp [Lane.atLine, Lane.presenceFollowed, Lane.present, hstate, hsignal]

theorem Lane.atLine_of_vanishes (hstate : l.state ≠ .absent) (hsignal : l.detector = false) :
    l.atLine aligned = l.moved .absent := by
  simp [Lane.atLine, Lane.presenceFollowed, Lane.present, hstate, hsignal, Lane.moved]

theorem Lane.atLine_of_present (hstate : l.state ≠ .absent) (hsignal : l.detector = true) :
    l.atLine aligned = l.judged aligned := by
  simp [Lane.atLine, Lane.presenceFollowed, Lane.present, hstate, hsignal]

variable {aligned}

theorem Lane.atLine_of_settled (hstate : l.state = .acquiring) (hsignal : l.detector = true) (haligned : aligned = true)
    (hsettle : l.settle ≤ l.good + 1) : l.atLine aligned = l.moved .locked := by
  rw [Lane.atLine_of_present aligned (by rw [hstate]; exact nofun) hsignal]
  simp only [Lane.judged, hstate, if_pos haligned, if_pos hsettle]

theorem Lane.atLine_of_counting (hstate : l.state = .acquiring) (hsignal : l.detector = true) (haligned : aligned = true)
    (hsettle : l.good + 1 < l.settle) : l.atLine aligned = { l with good := l.good + 1 } := by
  rw [Lane.atLine_of_present aligned (by rw [hstate]; exact nofun) hsignal]
  simp only [Lane.judged, hstate, if_pos haligned, if_neg (Nat.not_le.mpr hsettle)]

theorem Lane.atLine_of_starting_again (hstate : l.state = .acquiring) (hsignal : l.detector = true)
    (haligned : aligned = false) : l.atLine aligned = { l with good := 0 } := by
  rw [Lane.atLine_of_present aligned (by rw [hstate]; exact nofun) hsignal]
  simp only [Lane.judged, hstate, haligned, Bool.false_eq_true, if_false]

theorem Lane.atLine_of_staying (hstate : l.state = .locked) (hsignal : l.detector = true) (haligned : aligned = true) :
    l.atLine aligned = l := by
  rw [Lane.atLine_of_present aligned (by rw [hstate]; exact nofun) hsignal]
  simp only [Lane.judged, hstate, if_pos haligned]

theorem Lane.atLine_of_losing (hstate : l.state = .locked) (hsignal : l.detector = true) (haligned : aligned = false) :
    l.atLine aligned = l.moved .acquiring := by
  rw [Lane.atLine_of_present aligned (by rw [hstate]; exact nofun) hsignal]
  simp only [Lane.judged, hstate, haligned, Bool.false_eq_true, if_false]

end Record

/-! ### The LANE notices of the lanes' work (R27) -/

/-- Between the two states no LANE notice of lane `n` is posted. -/
def OthersPosted (n : LaneId) (s t : State) : Prop :=
  PostedOf (fun m => ¬m.ofLane n) s.notices t.notices

theorem OthersPosted.trans {n : LaneId} {s t u : State} (h : OthersPosted n s t) (k : OthersPosted n t u) : OthersPosted n s u :=
  PostedOf.trans h k

theorem NoLaneNotice.othersPosted {s t : State} (h : NoLaneNotice s t) (n : LaneId) : OthersPosted n s t :=
  PostedOf.mono (fun _ hm => Notice.not_ofLane_of_not_isLane hm n) h

theorem othersPosted_moveLane {n k : LaneId} (h : k ≠ n) (target : LaneState) (s : State) :
    OthersPosted n s (moveLane k target s) := by
  rw [moveLane_eq]
  exact .take _ (Notice.not_ofLane_of_ne h ⟨rfl, rfl⟩) (.refl _)

theorem othersPosted_presenceUpdate {n k : LaneId} (h : k ≠ n) (s : State) : OthersPosted n s (presenceUpdate k s) := by
  simp only [presenceUpdate]
  split
  · split
    · exact .refl _
    · exact othersPosted_moveLane h _ s
  · split
    · exact othersPosted_moveLane h _ s
    · exact .refl _

theorem othersPosted_judgeLane {n k : LaneId} (h : k ≠ n) (aligned : Bool) (s : State) :
    OthersPosted n s (judgeLane k aligned s) := by
  simp only [judgeLane]
  split
  · exact .refl _
  · split
    · split
      · exact othersPosted_moveLane h _ s
      · exact .refl _
    · exact .refl _
  · split
    · exact .refl _
    · exact othersPosted_moveLane h _ s

theorem othersPosted_judgeIfPresent {n k : LaneId} (h : k ≠ n) (before s : State) :
    OthersPosted n s (judgeIfPresent before k s) := by
  unfold judgeIfPresent; split
  · exact othersPosted_judgeLane h _ s
  · exact .refl _

/-- A round over all lanes comes to the turn of lane `n` in a state with its record as it was, and leaves what its turn makes of it;
before and after the turn no LANE notice of the lane is posted. -/
theorem allLanes_turn {f : LaneId → State → State} (hwork : ∀ k, LaneWork k (f k)) {n : LaneId}
    (hothers : ∀ (k : LaneId) (s : State), k ≠ n → OthersPosted n s (f k s)) (s : State) :
    ∃ t : State, OnlyLanes s t ∧ t.lane n = s.lane n ∧ OthersPosted n s t ∧
      OthersPosted n (f n t) (allLanes.foldl (fun t k => f k t) s) ∧
        (allLanes.foldl (fun t k => f k t) s).lane n = (f n t).lane n := by
  obtain ⟨before, after, hsplit⟩ := List.append_of_mem (List.mem_finRange n)
  obtain ⟨hbefore, hafter⟩ := notMem_of_nodup_split (hsplit ▸ List.nodup_finRange 24)
  have hround (l : List LaneId) (hl : n ∉ l) (u : State) : OthersPosted n u (l.foldl (fun t k => f k t) u) :=
    List.foldlRecOn (motive := OthersPosted n u) l _ (.refl _)
      fun t ht k hk => ht.trans (hothers k t fun e => hl (e ▸ hk))
  refine ⟨before.foldl (fun t k => f k t) s, OnlyLanes.foldl (fun t k => (hwork k).1 t) before s,
    foldl_laneWork_of_not_mem hwork n before s hbefore, hround before hbefore s, ?_⟩
  rw [allLanes, hsplit, List.foldl_append, List.foldl_cons]
  exact ⟨hround after hafter _, foldl_laneWork_of_not_mem hwork n after _ hafter⟩

/-! ### The turn of a lane -/

theorem presenceUpdate_cases (n : LaneId) (s : State) :
    presenceUpdate n s = s ∨
      ∃ target : LaneState, decide (target ≠ .absent) ≠ (s.lane n).present ∧ presenceUpdate n s = moveLane n target s := by
  simp only [presenceUpdate]
  split
  · rename_i hpresent
    split
    · exact .inl rfl
    · exact .inr ⟨.absent, by simp [hpresent], rfl⟩
  · rename_i hpresent
    split
    · exact .inr ⟨.acquiring, by simp [hpresent], rfl⟩
    · exact .inl rfl

theorem judgeLane_cases (n : LaneId) (aligned : Bool) (s : State) :
    ((judgeLane n aligned s).lane n).state = (s.lane n).state ∧ (judgeLane n aligned s).notices = s.notices ∨
      ∃ target : LaneState, target ≠ (s.lane n).state ∧ judgeLane n aligned s = moveLane n target s := by
  cases hstate : (s.lane n).state with
  | absent => simp [judgeLane, hstate]
  | acquiring =>
    simp only [judgeLane, hstate]
    split
    · split
      · exact .inr ⟨.locked, nofun, rfl⟩
      · simp
    · simp
  | locked =>
    simp only [judgeLane, hstate]
    split
    · simp [hstate]
    · exact .inr ⟨.acquiring, nofun, rfl⟩

/-- The LANE notice of a lane that a switch line takes from the state it has to state `after` (R27, R28). -/
def changeNotice (s : State) (n : LaneId) (after : LaneState) : Notice :=
  { kind := .lane after (decide (after ≠ .absent))
    cls := laneClass s n (s.lane n).state after
    subject := .lane (laneByte n)
    number := s.ref.picture + 1 }

theorem changeNotice_ofLane (s : State) (n : LaneId) (after : LaneState) : (changeNotice s n after).ofLane n :=
  ⟨rfl, rfl⟩

theorem moveLane_notices {p : FieldParity} {s t : State} {n : LaneId} (h : OnlyLanes (beginPeriod p s) t)
    (hstate : (t.lane n).state = (s.lane n).state) (target : LaneState) :
    (moveLane n target t).notices = t.notices.take (changeNotice s n target) := by
  have hclass : laneClass t n (t.lane n).state target = laneClass s n (s.lane n).state target := by
    rw [hstate]
    exact laneClass_congr h.tally_eq n _ _
  rw [moveLane_eq, hclass, State.post_notices, State.setLane_ref, h.ref_eq]
  rfl

/-- Between `s` and `t` lane `n` keeps its state and has no LANE notice, or changes it and has one that says so. -/
def LaneNoticed (n : LaneId) (s t : State) : Prop :=
  (t.lane n).state = (s.lane n).state ∧ OthersPosted n s t ∨
    (t.lane n).state ≠ (s.lane n).state ∧
      ∃ r : ReportBuilder, PostedOf (fun m => ¬m.ofLane n) s.notices r ∧
        PostedOf (fun m => ¬m.ofLane n) (r.take (changeNotice s n (t.lane n).state)) t.notices

theorem LaneNoticed.trans {n : LaneId} {s t u : State} (h : LaneNoticed n s t) (hlane : u.lane n = t.lane n)
    (k : OthersPosted n t u) : LaneNoticed n s u := by
  unfold LaneNoticed
  rw [hlane]
  exact h.imp (fun ⟨hstate, hposts⟩ => ⟨hstate, hposts.trans k⟩)
    (fun ⟨hstate, r, hbefore, hafter⟩ => ⟨hstate, r, hbefore, hafter.trans k⟩)

/-- A lane that is moved after notices of others. -/
theorem laneNoticed_moveLane {p : FieldParity} {s t : State} {n : LaneId} (h : OnlyLanes (beginPeriod p s) t)
    (hstate : (t.lane n).state = (s.lane n).state) (hposts : OthersPosted n s t) {target : LaneState}
    (htarget : target ≠ (t.lane n).state) : LaneNoticed n s (moveLane n target t) := by
  have hmoved : ((moveLane n target t).lane n).state = target := by rw [moveLane_lane_self]; rfl
  refine .inr ⟨by rw [hmoved, ← hstate]; exact htarget, t.notices, hposts, ?_⟩
  rw [hmoved, moveLane_notices h hstate]
  exact .refl _

/-- A lane that becomes present or absent is not judged. -/
theorem judgeIfPresent_of_changed {before s : State} {n : LaneId} (h : (s.lane n).present ≠ (before.lane n).present) :
    judgeIfPresent before n s = s := by
  unfold judgeIfPresent
  rw [if_neg]
  rw [Bool.and_eq_true]
  exact fun ⟨hbefore, hnow⟩ => h (hnow.trans hbefore.symm)

section Turn
variable {p : FieldParity} {s t : State} {n : LaneId} (h : OnlyLanes (beginPeriod p s) t)
include h

theorem laneNoticed_presenceUpdate (hstate : (t.lane n).state = (s.lane n).state) (hposts : OthersPosted n s t) :
    LaneNoticed n s (presenceUpdate n t) := by
  rcases presenceUpdate_cases n t with hkeeps | ⟨target, htarget, hmoves⟩
  · rw [hkeeps]
    exact .inl ⟨hstate, hposts⟩
  · rw [hmoves]
    exact laneNoticed_moveLane h hstate hposts fun hsame => htarget (by rw [hsame]; rfl)

/-- The judgement of a lane that has kept its state, or else is present or absent anew. -/
theorem LaneNoticed.judgeIfPresent (hnoticed : LaneNoticed n s t)
    (hpresence : (t.lane n).state = (s.lane n).state ∨ (t.lane n).present ≠ (s.lane n).present) :
    LaneNoticed n s (judgeIfPresent s n t) := by
  rcases hpresence with hstate | hnew
  · have hposts : OthersPosted n s t := by
      rcases hnoticed with ⟨-, hposts⟩ | ⟨hchange, -⟩
      · exact hposts
      · exact absurd hstate hchange
    unfold Machine.judgeIfPresent
    split
    · rcases judgeLane_cases n (s.aligned n) t with ⟨hsame, hnotices⟩ | ⟨target, htarget, hmoves⟩
      · refine .inl ⟨hsame.trans hstate, ?_⟩
        unfold OthersPosted
        rw [hnotices]
        exact hposts
      · rw [hmoves]
        exact laneNoticed_moveLane h hstate hposts htarget
    · exact hnoticed
  · rw [judgeIfPresent_of_changed hnew]
    exact hnoticed

end Turn

/-- Presence keeps a lane's state or makes it present or absent anew. -/
theorem presenceUpdate_state (n : LaneId) (s : State) :
    ((presenceUpdate n s).lane n).state = (s.lane n).state ∨ ((presenceUpdate n s).lane n).present ≠ (s.lane n).present := by
  rcases presenceUpdate_cases n s with hkeeps | ⟨target, htarget, hmoves⟩
  · exact .inl (by rw [hkeeps])
  · refine .inr ?_
    rw [hmoves, moveLane_lane_self]
    exact htarget

/-- The three rounds of the lanes' work, each with the turn of lane `n`. -/
theorem laneNoticed_lanesWork (p : FieldParity) (s : State) (n : LaneId) : LaneNoticed n s (lanesWork s (beginPeriod p s)) := by
  have hshift : OnlyLanes (beginPeriod p s) (allLanes.foldl (fun t k => shiftWindow s k t) (beginPeriod p s)) :=
    OnlyLanes.foldl (fun t k => (laneWork_shiftWindow s k).1 t) _ _
  have hquiet : OthersPosted n s (allLanes.foldl (fun t k => shiftWindow s k t) (beginPeriod p s)) :=
    List.foldlRecOn (motive := OthersPosted n s) _ _ (.refl _) fun t ht _ _ => ht.trans (.refl _)
  have hshifted := foldl_shiftWindow_lane s (beginPeriod p s) n
  simp only [lanesWork]
  generalize allLanes.foldl (fun t k => shiftWindow s k t) (beginPeriod p s) = shifted at hshift hquiet hshifted ⊢
  obtain ⟨t, ht, htlane, htposts, hafter, hturn⟩ :=
    allLanes_turn laneWork_presenceUpdate (n := n) (fun k u hk => othersPosted_presenceUpdate hk u) shifted
  have hpresence : OnlyLanes shifted (allLanes.foldl (fun t k => presenceUpdate k t) shifted) :=
    OnlyLanes.foldl (fun t k => (laneWork_presenceUpdate k).1 t) _ _
  generalize allLanes.foldl (fun t k => presenceUpdate k t) shifted = present at hpresence hafter hturn ⊢
  obtain ⟨u, hu, hulane, huposts, hlast, hjudged⟩ :=
    allLanes_turn (laneWork_judgeIfPresent s) (n := n) (fun k v hk => othersPosted_judgeIfPresent hk s v) present
  have hstate : (t.lane n).state = (s.lane n).state := by rw [htlane, hshifted]; rfl
  have hpresent : (t.lane n).present = (s.lane n).present := by rw [Lane.present, hstate]; rfl
  have hturned : LaneNoticed n s u :=
    ((laneNoticed_presenceUpdate (hshift.trans ht) hstate (hquiet.trans htposts)).trans hturn hafter).trans hulane huposts
  have hanew := presenceUpdate_state n t
  rw [← hturn, ← hulane, hstate, hpresent] at hanew
  exact (hturned.judgeIfPresent ((hshift.trans hpresence).trans hu) hanew).trans hjudged hlast

/-! ### The line as a lane sees it -/

section Quiet
variable {s : State} (h : QuietLine s) (p : FieldParity) (n : LaneId)
include h

theorem QuietLine.lane : (plainSwitchLine p s).lane n = ((s.lane n).shifted s).atLine (s.aligned n) := by
  rw [plainSwitchLine_lane p s h.takeList h.take h.schedule, lanesWork_lane]
  rfl

theorem QuietLine.laneNoticed : LaneNoticed n s (plainSwitchLine p s) := by
  refine (laneNoticed_lanesWork p s n).trans (plainSwitchLine_lane p s h.takeList h.take h.schedule n) ?_
  rw [h.line_eq]
  exact ((noLaneNotice_banksWork (formedLine p s)).trans (noLaneNotice_storeWork ..)).othersPosted n

end Quiet

section Noticed
variable {s t : State} {n : LaneId} (h : LaneNoticed n s t)
include h

theorem LaneNoticed.of_same (hstate : (t.lane n).state = (s.lane n).state) {q : Notice} (hq : q ∈ t.notices.queue)
    (hlane : q.ofLane n) : q ∈ s.notices.queue := by
  rcases h with ⟨-, hposts⟩ | ⟨hchange, -⟩
  · exact PostedOf.ofLane_mem hposts hlane hq
  · exact absurd hstate hchange

/-- A lane that changes its state has its notice: the flags of its class are set, and unless the class is masked or a notice is lost
it stands in the queue, alone or in the place of an earlier one of the lane. -/
theorem LaneNoticed.of_changed (hstate : (t.lane n).state ≠ (s.lane n).state) {cls : NoticeClass}
    (hcls : (changeNotice s n (t.lane n).state).cls = cls) :
    t.notices.summary.get cls = true ∧ t.notices.recent.get cls = true ∧
      (s.notices.enabled.get cls = true → t.notices.lost = false →
        ∃ q ∈ t.notices.queue,
          q.kind = .lane (t.lane n).state (decide ((t.lane n).state ≠ .absent)) ∧
            q.subject = .lane (laneByte n) ∧ q.number = s.ref.picture + 1 ∧
            (cls = .degraded → q.cls = .degraded) ∧
            ((∀ old ∈ s.notices.queue, old.subject = .lane (laneByte n) → old.isLane = false) → q.cls = cls)) := by
  subst hcls
  rcases h with ⟨hsame, -⟩ | ⟨-, r, hbefore, hafter⟩
  · exact absurd hsame hstate
  obtain ⟨hsummary, hrecent⟩ := hafter.posted.class_flags
  refine ⟨hsummary, hrecent, fun henabled hlost => ?_⟩
  obtain ⟨q, hq, hkind, hsubject, hnumber, hdegraded, halone⟩ :=
    ReportBuilder.take_ofLane (changeNotice_ofLane s n (t.lane n).state)
      (by rw [hbefore.posted.enabled_eq]; exact henabled) (hafter.posted.lost_of_lost hlost)
  have hlane : q.ofLane n := ⟨by rw [Notice.isLane, hkind]; rfl, hsubject⟩
  exact ⟨q, hafter.mem_of_ofLane hlane hq, hkind, hsubject, hnumber, hdegraded, fun hnone => halone fun old hold hof =>
    Bool.false_ne_true ((hnone old (hbefore.ofLane_mem hof hold) hof.2).symm.trans hof.1)⟩

end Noticed

theorem changeNotice_cls {s : State} {n : LaneId} {after : LaneState} (h : after ≠ (s.lane n).state) :
    (changeNotice s n after).cls =
      if (s.lane n).state = .locked ∧ s.tally.onAir.getLsbD (n.val + 1) = true then .degraded else .info := by
  have hleaves : (s.lane n).state = .locked → after ≠ .locked := fun hlocked => hlocked ▸ h
  simp only [changeNotice, laneClass, State.onAir, laneCode]
  refine if_congr ⟨fun ⟨hlocked, _, hair⟩ => ⟨hlocked, hair⟩, fun ⟨hlocked, hair⟩ => ⟨hlocked, hleaves hlocked, hair⟩⟩ rfl rfl

/-- Settles O15: the windows by their leads, then each lane by its detector, its state and its judgement, and its notice. -/
theorem lanesAtASwitchLine : Obligations.LanesAtASwitchLine := by
  refine ⟨fun s n lead leadNext hlead hnext => ?_, fun s p hr hchange hlist htake hschedule => ?_⟩
  · rw [← lead_eq] at hlead hnext
    subst hlead hnext
    refine ⟨by simp only [State.window, carriedHere_eq, carriedNext_eq, notedHere_eq, notedNext_eq], fun x => ?_⟩
    simp only [carriedHere_eq, carriedNext_eq, notedHere_eq, notedNext_eq, decide_eq_true_eq, and_self]
  · have hquiet : QuietLine s := ⟨hchange, hlist, htake, hschedule⟩
    refine ⟨plainSwitchLine p s, hquiet.exec hr p, fun n => ⟨aligned_iff hchange n, ?_⟩⟩
    have hlane := hquiet.lane p n
    have hframe := hlane.trans (Lane.atLine_frame _ _)
    have hnoticed := hquiet.laneNoticed p n
    generalize plainSwitchLine p s = t at hlane hframe hnoticed
    refine ⟨by rw [hframe]; rfl, by rw [hframe]; rfl, by rw [hframe]; rfl, by rw [hframe]; rfl, by rw [hframe]; rfl,
      fun lead hlead => ?_, fun hstate hsignal => ?_, fun hstate hsignal => ?_, fun hstate hsignal => ?_,
      fun hstate hsignal ha hsettle => ?_, fun hstate hsignal ha hsettle => ?_, fun hstate hsignal ha => ?_,
      fun hstate hsignal ha => ?_, fun hstate hsignal ha => ?_,
      fun hsame q hq hkind hsubject => hnoticed.of_same hsame hq ⟨hkind, hsubject⟩,
      fun hdiffers cls hcls => hnoticed.of_changed hdiffers ((changeNotice_cls hdiffers).trans hcls.symm)⟩
    · rw [← lead_eq] at hlead
      subst hlead
      rw [hframe]
      refine ⟨List.filter_congr fun x _ => carriedNext_eq s x, List.filter_congr fun x _ => ?_⟩
      rw [notedHere_eq, notedNext_eq, periodFormat_of_no_change hchange]
    · rw [hlane, Lane.atLine_of_absent (l := (s.lane n).shifted s) _ hstate hsignal]
      exact ⟨hstate, rfl, rfl⟩
    · rw [hlane, Lane.atLine_of_appears (l := (s.lane n).shifted s) _ hstate hsignal]
      exact ⟨rfl, rfl, rfl⟩
    · rw [hlane, Lane.atLine_of_vanishes (l := (s.lane n).shifted s) _ hstate hsignal]
      exact ⟨rfl, rfl, rfl⟩
    · rw [hlane, Lane.atLine_of_settled (l := (s.lane n).shifted s) hstate hsignal ha hsettle]
      exact ⟨rfl, rfl, rfl⟩
    · rw [hlane, Lane.atLine_of_counting (l := (s.lane n).shifted s) hstate hsignal ha hsettle]
      exact ⟨hstate, rfl, rfl⟩
    · rw [hlane, Lane.atLine_of_starting_again (l := (s.lane n).shifted s) hstate hsignal ha]
      exact ⟨hstate, rfl, rfl⟩
    · rw [hlane, Lane.atLine_of_staying (l := (s.lane n).shifted s) hstate hsignal ha]
      exact ⟨hstate, rfl, rfl⟩
    · rw [hlane, Lane.atLine_of_losing (l := (s.lane n).shifted s) hstate hsignal ha]
      exact ⟨rfl, rfl, rfl⟩

end Sys2Proof.Machine
end
